-- ==== Sys2Proof/Word.lean ====
section
/-!
DEFINITION. The words of the HC384's ports: bytes and the two- and four-byte fields of 11.1, and the six-byte
paper code.
-/

namespace Sys2Proof

/-- One byte on a line (11.1). -/
abbrev Byte := BitVec 8

/-- A two-byte field, most significant byte first on the line (11.1). -/
abbrev Half := BitVec 16

/-- A four-byte field, most significant byte first on the line (11.1). -/
abbrev Word := BitVec 32

/-- A paper code: six bytes, each an ASCII capital letter or digit when valid (11.1). -/
abbrev Paper := Vector Byte 6

end Sys2Proof
end

