-- ==== Sys2Proof/Syntax.lean ====
section
/-!
DEFINITION. The commands of the HC384: one constructor of `Instr` for each row of spec/opcode_table.json, in the
table's order. A request's operands are the fields of its frame body in body order, in the encoding of 11.1, so that
every encoding R187 speaks of can be written. An event's operands name the record it concerns or carry the bytes that
arrive with it.
-/

namespace Sys2Proof

/-- The five unit links (R79). -/
inductive LinkName where
  | a | b | c | d | floor
  deriving DecidableEq, Repr

/-- The four seat links (R82). -/
inductive SeatLink where
  | a | b | c | d
  deriving DecidableEq, Repr

/-- A seat link as one of the five links. -/
def SeatLink.link : SeatLink → LinkName
  | .a => .a
  | .b => .b
  | .c => .c
  | .d => .d

/-- One entry of KEY_PART: three bytes, the answer set, the mode and the weight (11.1). -/
structure KeyEntry where
  answers : Byte
  mode : Byte
  weight : Byte
  deriving DecidableEq, Repr

/-- A byte as the control link's receiver takes it, with the mark of a stop bit at break level (R172). -/
structure RxByte where
  data : Byte
  framingError : Bool
  deriving DecidableEq, Repr

/-- The commands. Each docstring gives the row's mnemonic and its rule. -/
inductive Instr where
  /-- DEFINE_SEATS (R2). -/
  | defineSeats (first last : Half) (kind zone attrs : Byte)
  /-- HOLD_SEAT (R4). -/
  | holdSeat (seat : Half)
  /-- FREE_SEAT (R5). -/
  | freeSeat (seat : Half)
  /-- REPAIR_SEAT (R9). -/
  | repairSeat (seat : Half)
  /-- READ_SEAT (R10). -/
  | readSeat (first : Half) (count : Byte)
  /-- WITHDRAW (R19). -/
  | withdraw (slot : Half)
  /-- READ_CANDIDATE (R20): slot 0xFFFF, number 0 and sitting 0xFF are absent (R187). -/
  | readCandidate (slot : Half) (number : Word) (sitting : Byte)
  /-- SET_ROUTE (R22). -/
  | setRoute (paper : Paper) (home : Byte) (overflow : List Byte)
  /-- CLEAR_ROUTE (R23). -/
  | clearRoute (paper : Paper)
  /-- READ_ROUTES (R23). -/
  | readRoutes
  /-- ALLOCATE (R29, R30); the rest budget is in minutes. -/
  | allocate (number : Word) (sitting needs allowance rest : Byte)
  /-- ALLOCATE_RUN (R31). -/
  | allocateRun (base : Word) (count sitting needs allowance rest : Byte)
  /-- READ_QUEUE (R34). -/
  | readQueue
  /-- MOVE (R35). -/
  | move (slot seat : Half)
  /-- SET_TIMEBASE (R39). -/
  | setTimebase (source : Byte) (frequency : Half) (prescale syncMode : Byte)
  /-- SET_HALL_TIME (R42). -/
  | setHallTime (hour minute second : Byte)
  /-- READ_CLOCK (R42). -/
  | readClock
  /-- DEFINE_SITTING (R47), fields in the order of R45; key id 0xFF is absent. -/
  | defineSitting (sitting : Byte) (paper : Paper) (reading : Byte) (writing cutoff opening closing : Half)
      (warnings : List Byte) (quiet threshold scriptKind keyId : Byte)
  /-- START_SITTING (R48); the absent hall time 0xFF 0xFF 0xFF is NOW. -/
  | startSitting (sitting hour minute second : Byte)
  /-- CANCEL_START (R49). -/
  | cancelStart (sitting : Byte)
  /-- HOLD_SITTING (R56); 0xFF is ALL. -/
  | holdSitting (sitting : Byte)
  /-- RESUME_SITTING (R57); 0xFF is ALL. -/
  | resumeSitting (sitting : Byte)
  /-- CLOSE_SITTING (R58). -/
  | closeSitting (sitting : Byte)
  /-- FORCE_CLOSE (R59). -/
  | forceClose (sitting : Byte)
  /-- CLEAR_SITTING (R60). -/
  | clearSitting (sitting : Byte)
  /-- READ_SITTING (R61). -/
  | readSitting (sitting : Byte)
  /-- LEAVE (R71). -/
  | leave (slot : Half)
  /-- READ_MARKS (R78). -/
  | readMarks (sitting : Byte) (first : Half) (count : Byte)
  /-- START_LINK (R80); 0xFF is ALL. -/
  | startLink (link : Byte)
  /-- STOP_LINK (R81); 0xFF is ALL. -/
  | stopLink (link : Byte)
  /-- READ_LINK (R98). -/
  | readLink (link : Byte) (first : Half) (count : Byte)
  /-- RAISE_ALERT (R104). -/
  | raiseAlert (seat : Half)
  /-- SET_HANDSET_ZONES (R107). -/
  | setHandsetZones (handset zones : Byte)
  /-- CANCEL_CALL (R112). -/
  | cancelCall (call : Byte)
  /-- READ_CALLS (R118). -/
  | readCalls
  /-- ISSUE_BOOKLET (R121). -/
  | issueBooklet (slot : Half)
  /-- TAKE_EXCEPTIONS (R128). -/
  | takeExceptions (count : Byte)
  /-- START_SWEEP (R131). -/
  | startSweep (channel mode : Byte) (start finish : Half) (stride : Byte)
  /-- STOP_SWEEP (R135). -/
  | stopSweep (channel : Byte)
  /-- READ_SCRIPTS (R136). -/
  | readScripts (first : Half) (count : Byte)
  /-- READ_SWEEP (R137); 0xFF is ALL. -/
  | readSweep (channel : Byte)
  /-- READ_READER (R149). -/
  | readReader
  /-- KEY_BEGIN (R153). -/
  | keyBegin (key form questions penalty : Byte)
  /-- KEY_PART (R154). -/
  | keyPart (key first : Byte) (entries : List KeyEntry)
  /-- KEY_END (R155). -/
  | keyEnd (key : Byte)
  /-- WITHDRAW_QUESTION (R156). -/
  | withdrawQuestion (key question : Byte)
  /-- READ_KEY (R171). -/
  | readKey (key first count : Byte)
  /-- READ_SHEET (R171). -/
  | readSheet (store : Byte)
  /-- READ_BATCH (R171). -/
  | readBatch
  /-- START_BATCH (R163); a count of 0 stands for 256. -/
  | startBatch (sitting count segStart segEnd : Byte)
  /-- CONTINUE_BATCH (R165). -/
  | continueBatch
  /-- EXTEND_SEGMENT (R166). -/
  | extendSegment (segEnd : Byte)
  /-- RELEASE_SLOTS (R167). -/
  | releaseSlots (stores : List Byte)
  /-- ABORT_BATCH (R168). -/
  | abortBatch
  /-- RESOLVE_DUPLICATE (R169). -/
  | resolveDuplicate (store action : Byte)
  /-- REMARK (R170). -/
  | remark (sitting : Byte)
  /-- SET_PARAM (R179). -/
  | setParam (param : Byte) (value : Word)
  /-- GET_PARAM (R180); 0xFF is ALL. -/
  | getParam (param : Byte)
  /-- IDENTIFY (R181). -/
  | identify
  /-- READ_STATUS (R182). -/
  | readStatus
  /-- RESET (R186). -/
  | reset (scope : Byte)
  /-- RESET_PORTS (R186): an accepted RESET(PORTS) acts. -/
  | resetPorts
  /-- RESET_HALL (R186): an accepted RESET(HALL) acts. -/
  | resetHall
  /-- POWER_ON (R184), with the levels of the RATE straps. -/
  | powerOn (rate1 rate0 : Bool)
  /-- LINK_RESET (R185). -/
  | linkReset
  /-- BAD_FRAME (R172): a run of bytes on the control link's receive line. -/
  | badFrame (run : List RxByte)
  /-- RECEIVE_GAP_TIMEOUT (R172). -/
  | receiveGapTimeout
  /-- UNKNOWN_KIND (R173): a complete frame, given by its kind byte and body. -/
  | unknownKind (kind : Byte) (body : List Byte)
  /-- OVERRUN (R174): a complete frame that ends while a request is waiting. -/
  | overrun (kind : Byte) (body : List Byte)
  /-- HRDY_CHANGE (R175). -/
  | hrdyChange (level : Bool)
  /-- FRAME_SENT (R175). -/
  | frameSent
  /-- TIMEBASE_SECOND (R38). -/
  | timebaseSecond
  /-- SYNC_EDGE (R43). -/
  | syncEdge
  /-- SYNC_LOST (R44). -/
  | syncLost
  /-- SCHEDULED_START (R49). -/
  | scheduledStart (sitting : Fin 8)
  /-- SITTING_SECOND (R55). -/
  | sittingSecond (sitting : Fin 8)
  /-- READING_COMPARE (R51). -/
  | readingCompare (sitting : Fin 8)
  /-- SITTING_WARNING (R52). -/
  | sittingWarning (sitting : Fin 8)
  /-- LATE_CUTOFF (R53). -/
  | lateCutoff (sitting : Fin 8)
  /-- WRITING_COMPARE (R54). -/
  | writingCompare (sitting : Fin 8)
  /-- WARN_FIRING (R69), of the candidate in a slot. -/
  | warnFiring (slot : Fin 512)
  /-- END_FIRING (R70), of the candidate in a slot. -/
  | endFiring (slot : Fin 512)
  /-- REST_EXPIRY (R74), of the candidate in a slot. -/
  | restExpiry (slot : Fin 512)
  /-- ESCALATION (R103), of a call. -/
  | escalation (call : Fin 48)
  /-- HANDSET_AWAY (R108), of a handset. -/
  | handsetAway (handset : Fin 8)
  /-- RETRY_PASS (R33). -/
  | retryPass
  /-- RELOCATION (R36). -/
  | relocation
  /-- POLL_CYCLE_START (R82). -/
  | pollCycleStart (link : LinkName)
  /-- POLL_FRAME (R82). -/
  | pollFrame (link : LinkName)
  /-- POLL_TIMEOUT (R83). -/
  | pollTimeout (link : LinkName)
  /-- SEAT_REPLY (R86), the reply frame's bytes (11.4). -/
  | seatReply (link : SeatLink) (frame : List Byte)
  /-- HANDSET_REPLY (R96), the reply frame's bytes (11.4). -/
  | handsetReply (frame : List Byte)
  /-- STATION_REPLY (R97), the reply frame's bytes (11.4). -/
  | stationReply (frame : List Byte)
  /-- WALL_CLOCK_REPLY (R97), the reply frame's bytes (11.4). -/
  | wallClockReply (frame : List Byte)
  /-- LATE_UNIT_REPLY (R188). -/
  | lateUnitReply (link : LinkName) (frame : List Byte)
  /-- POLL_CYCLE_END (R92). -/
  | pollCycleEnd (link : LinkName)
  /-- TIME_CODE_BROADCAST (R93). -/
  | timeCodeBroadcast (link : LinkName)
  /-- TIME_CODE_REPEAT (R94). -/
  | timeCodeRepeat (link : LinkName)
  /-- SHEET_FRAME_END (R143): a run of bytes on the reader's receive line. -/
  | sheetFrameEnd (run : List Byte)
  /-- FRAME_GAP_TIMEOUT (R142). -/
  | frameGapTimeout
  /-- RRDY_CHANGE (R139). -/
  | rrdyChange (level : Bool)
  /-- VERDICT_SENT (R148). -/
  | verdictSent
  /-- LINE_IDLE_RETURN (R185). -/
  | lineIdleReturn
  deriving DecidableEq, Repr

end Sys2Proof
end

