-- ==== Sys2Proof/Decode.lean ====
section
/-!
DEFINITION. Decoding. The rows of spec/opcode_table.json give no bits, so `decodeTableWord` reads no command from a word.
The request rows have an encoding of their own on the control link, a kind byte and a body (11.1, 11.2): `decodeRequest`
reads it, and `encodeRequest` is written from the same tables.
-/

namespace Sys2Proof

/-- The command a word spells by the table's bits: none, as no row gives bits. -/
def decodeTableWord (_nbits _w : Nat) : Option Instr := none

/-- A two-byte field, most significant byte first. -/
def half (hi lo : Byte) : Half := hi ++ lo

/-- A four-byte field, most significant byte first. -/
def word (b3 b2 b1 b0 : Byte) : Word := (b3 ++ b2) ++ (b1 ++ b0)

/-- The two bytes of a field. -/
def halfBytes (v : Half) : List Byte := [v.extractLsb' 8 8, v.extractLsb' 0 8]

/-- The four bytes of a field. -/
def wordBytes (v : Word) : List Byte := [v.extractLsb' 24 8, v.extractLsb' 16 8, v.extractLsb' 8 8, v.extractLsb' 0 8]

/-- The entries of KEY_PART, three bytes each. -/
def entriesOf : List Byte → Option (List KeyEntry)
  | [] => some []
  | a :: m :: w :: rest => (entriesOf rest).map (fun l => ⟨a, m, w⟩ :: l)
  | _ => none

/-- The bytes of KEY_PART's entries. -/
def entryBytes (entries : List KeyEntry) : List Byte := entries.flatMap (fun e => [e.answers, e.mode, e.weight])

/-- The fields of DEFINE_SITTING that follow the warnings. -/
def defineSittingTail (build : List Byte → Byte → Byte → Byte → Byte → Instr) (n : Nat) (rest : List Byte) :
    Option Instr :=
  match rest.drop n with
  | [q, t, s, k] => some (build (rest.take n) q t s k)
  | _ => none

/-- The fields of DEFINE_SITTING, in the order of R45. -/
def defineSittingOf : List Byte → Option Instr
  | i :: p0 :: p1 :: p2 :: p3 :: p4 :: p5 :: r :: w1 :: w0 :: c1 :: c0 :: o1 :: o0 :: l1 :: l0 :: n :: rest =>
    defineSittingTail
      (.defineSitting i #v[p0, p1, p2, p3, p4, p5] r (half w1 w0) (half c1 c0) (half o1 o0) (half l1 l0)) n.toNat rest
  | _ => none

/-- The request of a kind with a body (11.2): none when the kind names no request or does not allow the body's length
(R173). The four requests with a list take the length their count gives. -/
def decodeRequest (kind : Byte) (body : List Byte) : Option Instr :=
  match kind.toNat with
  | 0x01 => match body with
    | [f1, f0, l1, l0, k, z, a] => some (.defineSeats (half f1 f0) (half l1 l0) k z a)
    | _ => none
  | 0x02 => match body with
    | [a1, a0] => some (.holdSeat (half a1 a0))
    | _ => none
  | 0x03 => match body with
    | [a1, a0] => some (.freeSeat (half a1 a0))
    | _ => none
  | 0x04 => match body with
    | [a1, a0] => some (.repairSeat (half a1 a0))
    | _ => none
  | 0x05 => match body with
    | [a1, a0, n] => some (.readSeat (half a1 a0) n)
    | _ => none
  | 0x06 => match body with
    | [a1, a0] => some (.withdraw (half a1 a0))
    | _ => none
  | 0x07 => match body with
    | [s1, s0, n3, n2, n1, n0, k] => some (.readCandidate (half s1 s0) (word n3 n2 n1 n0) k)
    | _ => none
  | 0x08 => match body with
    | p0 :: p1 :: p2 :: p3 :: p4 :: p5 :: h :: n :: zones =>
      if zones.length = n.toNat then some (.setRoute #v[p0, p1, p2, p3, p4, p5] h zones) else none
    | _ => none
  | 0x09 => match body with
    | [p0, p1, p2, p3, p4, p5] => some (.clearRoute #v[p0, p1, p2, p3, p4, p5])
    | _ => none
  | 0x0A => match body with
    | [] => some .readRoutes
    | _ => none
  | 0x0B => match body with
    | [n3, n2, n1, n0, k, d, a, r] => some (.allocate (word n3 n2 n1 n0) k d a r)
    | _ => none
  | 0x0C => match body with
    | [n3, n2, n1, n0, c, k, d, a, r] => some (.allocateRun (word n3 n2 n1 n0) c k d a r)
    | _ => none
  | 0x0D => match body with
    | [] => some .readQueue
    | _ => none
  | 0x0E => match body with
    | [c1, c0, s1, s0] => some (.move (half c1 c0) (half s1 s0))
    | _ => none
  | 0x0F => match body with
    | [s, f1, f0, p, m] => some (.setTimebase s (half f1 f0) p m)
    | _ => none
  | 0x10 => match body with
    | [h, m, s] => some (.setHallTime h m s)
    | _ => none
  | 0x11 => match body with
    | [] => some .readClock
    | _ => none
  | 0x12 => defineSittingOf body
  | 0x13 => match body with
    | [k, h, m, s] => some (.startSitting k h m s)
    | _ => none
  | 0x14 => match body with
    | [k] => some (.cancelStart k)
    | _ => none
  | 0x15 => match body with
    | [k] => some (.holdSitting k)
    | _ => none
  | 0x16 => match body with
    | [k] => some (.resumeSitting k)
    | _ => none
  | 0x17 => match body with
    | [k] => some (.closeSitting k)
    | _ => none
  | 0x18 => match body with
    | [k] => some (.forceClose k)
    | _ => none
  | 0x19 => match body with
    | [k] => some (.clearSitting k)
    | _ => none
  | 0x1A => match body with
    | [k] => some (.readSitting k)
    | _ => none
  | 0x1B => match body with
    | [c1, c0] => some (.leave (half c1 c0))
    | _ => none
  | 0x1C => match body with
    | [k, f1, f0, n] => some (.readMarks k (half f1 f0) n)
    | _ => none
  | 0x1D => match body with
    | [l] => some (.startLink l)
    | _ => none
  | 0x1E => match body with
    | [l] => some (.stopLink l)
    | _ => none
  | 0x1F => match body with
    | [l, f1, f0, n] => some (.readLink l (half f1 f0) n)
    | _ => none
  | 0x20 => match body with
    | [a1, a0] => some (.raiseAlert (half a1 a0))
    | _ => none
  | 0x21 => match body with
    | [h, z] => some (.setHandsetZones h z)
    | _ => none
  | 0x22 => match body with
    | [c] => some (.cancelCall c)
    | _ => none
  | 0x23 => match body with
    | [] => some .readCalls
    | _ => none
  | 0x24 => match body with
    | [c1, c0] => some (.issueBooklet (half c1 c0))
    | _ => none
  | 0x25 => match body with
    | [n] => some (.takeExceptions n)
    | _ => none
  | 0x26 => match body with
    | [c, m, s1, s0, e1, e0, t] => some (.startSweep c m (half s1 s0) (half e1 e0) t)
    | _ => none
  | 0x27 => match body with
    | [c] => some (.stopSweep c)
    | _ => none
  | 0x28 => match body with
    | [f1, f0, n] => some (.readScripts (half f1 f0) n)
    | _ => none
  | 0x29 => match body with
    | [c] => some (.readSweep c)
    | _ => none
  | 0x2A => match body with
    | [] => some .readReader
    | _ => none
  | 0x2B => match body with
    | [k, f, q, p] => some (.keyBegin k f q p)
    | _ => none
  | 0x2C => match body with
    | k :: f :: n :: rest =>
      if rest.length = 3 * n.toNat then (entriesOf rest).map (.keyPart k f) else none
    | _ => none
  | 0x2D => match body with
    | [k] => some (.keyEnd k)
    | _ => none
  | 0x2E => match body with
    | [k, q] => some (.withdrawQuestion k q)
    | _ => none
  | 0x2F => match body with
    | [k, f, n] => some (.readKey k f n)
    | _ => none
  | 0x30 => match body with
    | [i] => some (.readSheet i)
    | _ => none
  | 0x31 => match body with
    | [] => some .readBatch
    | _ => none
  | 0x32 => match body with
    | [k, n, a, b] => some (.startBatch k n a b)
    | _ => none
  | 0x33 => match body with
    | [] => some .continueBatch
    | _ => none
  | 0x34 => match body with
    | [e] => some (.extendSegment e)
    | _ => none
  | 0x35 => match body with
    | n :: ids => if ids.length = n.toNat then some (.releaseSlots ids) else none
    | _ => none
  | 0x36 => match body with
    | [] => some .abortBatch
    | _ => none
  | 0x37 => match body with
    | [i, a] => some (.resolveDuplicate i a)
    | _ => none
  | 0x38 => match body with
    | [k] => some (.remark k)
    | _ => none
  | 0x39 => match body with
    | [i, v3, v2, v1, v0] => some (.setParam i (word v3 v2 v1 v0))
    | _ => none
  | 0x3A => match body with
    | [i] => some (.getParam i)
    | _ => none
  | 0x3B => match body with
    | [] => some .identify
    | _ => none
  | 0x3C => match body with
    | [] => some .readStatus
    | _ => none
  | 0x3D => match body with
    | [c] => some (.reset c)
    | _ => none
  | _ => none

/-- The kind and body of a request row (11.1, 11.2); an event row has none. -/
def encodeRequest : Instr → Option (Byte × List Byte)
  | .defineSeats f l k z a => some (0x01, halfBytes f ++ halfBytes l ++ [k, z, a])
  | .holdSeat a => some (0x02, halfBytes a)
  | .freeSeat a => some (0x03, halfBytes a)
  | .repairSeat a => some (0x04, halfBytes a)
  | .readSeat a n => some (0x05, halfBytes a ++ [n])
  | .withdraw a => some (0x06, halfBytes a)
  | .readCandidate c n k => some (0x07, halfBytes c ++ wordBytes n ++ [k])
  | .setRoute p h zones => some (0x08, p.toList ++ [h, BitVec.ofNat 8 zones.length] ++ zones)
  | .clearRoute p => some (0x09, p.toList)
  | .readRoutes => some (0x0A, [])
  | .allocate n k d a r => some (0x0B, wordBytes n ++ [k, d, a, r])
  | .allocateRun n c k d a r => some (0x0C, wordBytes n ++ [c, k, d, a, r])
  | .readQueue => some (0x0D, [])
  | .move c a => some (0x0E, halfBytes c ++ halfBytes a)
  | .setTimebase s f p m => some (0x0F, [s] ++ halfBytes f ++ [p, m])
  | .setHallTime h m s => some (0x10, [h, m, s])
  | .readClock => some (0x11, [])
  | .defineSitting i p r w c o l warnings q t s k =>
    some (0x12, [i] ++ p.toList ++ [r] ++ halfBytes w ++ halfBytes c ++ halfBytes o ++ halfBytes l
      ++ [BitVec.ofNat 8 warnings.length] ++ warnings ++ [q, t, s, k])
  | .startSitting k h m s => some (0x13, [k, h, m, s])
  | .cancelStart k => some (0x14, [k])
  | .holdSitting k => some (0x15, [k])
  | .resumeSitting k => some (0x16, [k])
  | .closeSitting k => some (0x17, [k])
  | .forceClose k => some (0x18, [k])
  | .clearSitting k => some (0x19, [k])
  | .readSitting k => some (0x1A, [k])
  | .leave c => some (0x1B, halfBytes c)
  | .readMarks k f n => some (0x1C, [k] ++ halfBytes f ++ [n])
  | .startLink l => some (0x1D, [l])
  | .stopLink l => some (0x1E, [l])
  | .readLink l f n => some (0x1F, [l] ++ halfBytes f ++ [n])
  | .raiseAlert a => some (0x20, halfBytes a)
  | .setHandsetZones h z => some (0x21, [h, z])
  | .cancelCall c => some (0x22, [c])
  | .readCalls => some (0x23, [])
  | .issueBooklet c => some (0x24, halfBytes c)
  | .takeExceptions n => some (0x25, [n])
  | .startSweep c m s e t => some (0x26, [c, m] ++ halfBytes s ++ halfBytes e ++ [t])
  | .stopSweep c => some (0x27, [c])
  | .readScripts f n => some (0x28, halfBytes f ++ [n])
  | .readSweep c => some (0x29, [c])
  | .readReader => some (0x2A, [])
  | .keyBegin k f q p => some (0x2B, [k, f, q, p])
  | .keyPart k f entries => some (0x2C, [k, f, BitVec.ofNat 8 entries.length] ++ entryBytes entries)
  | .keyEnd k => some (0x2D, [k])
  | .withdrawQuestion k q => some (0x2E, [k, q])
  | .readKey k f n => some (0x2F, [k, f, n])
  | .readSheet i => some (0x30, [i])
  | .readBatch => some (0x31, [])
  | .startBatch k n a b => some (0x32, [k, n, a, b])
  | .continueBatch => some (0x33, [])
  | .extendSegment e => some (0x34, [e])
  | .releaseSlots ids => some (0x35, [BitVec.ofNat 8 ids.length] ++ ids)
  | .abortBatch => some (0x36, [])
  | .resolveDuplicate i a => some (0x37, [i, a])
  | .remark k => some (0x38, [k])
  | .setParam i v => some (0x39, [i] ++ wordBytes v)
  | .getParam i => some (0x3A, [i])
  | .identify => some (0x3B, [])
  | .readStatus => some (0x3C, [])
  | .reset c => some (0x3D, [c])
  | _ => none

end Sys2Proof
end

