-- ==== Sys2Proof/Config.lean ====
section
/-!
DEFINITION. What is fixed for the part: the Capacities table of 00_scope, the silicon revision, and the vendor and part
codes of R181, to which the spec gives no number (free values, log 6).
-/

namespace Sys2Proof.Config

/-- The numeric code of the vendor Kelnor (R181): a free value, log 6. -/
opaque vendorCode : Nat

/-- The numeric code of the part HC384 (R181): a free value, log 6. -/
opaque partCode : Nat

/-- The silicon revision (R181): A. -/
def revision : Char := 'A'

/-- The rows of the Capacities table (00_scope), which IDENTIFY returns. -/
structure Capacities where
  seats : Nat
  rows : Nat
  columns : Nat
  zones : Nat
  candidateSlots : Nat
  greatestNumber : Nat
  sittings : Nat
  paperCharacters : Nat
  routes : Nat
  overflowZones : Nat
  waitingQueue : Nat
  markEntries : Nat
  calls : Nat
  callLevels : Nat
  handsets : Nat
  stackDepth : Nat
  stations : Nat
  channels : Nat
  booklets : Nat
  exceptions : Nat
  keys : Nat
  formRows : List Nat
  formOptions : List Char
  storeSlots : Nat
  batchCount : Nat
  notices : Nat
  frameBody : Nat
  deriving DecidableEq, Repr

/-- The Capacities table (00_scope). -/
def capacities : Capacities where
  seats := 384
  rows := 24
  columns := 16
  zones := 8
  candidateSlots := 512
  greatestNumber := 99999999
  sittings := 8
  paperCharacters := 6
  routes := 16
  overflowZones := 3
  waitingQueue := 32
  markEntries := 512
  calls := 48
  callLevels := 8
  handsets := 8
  stackDepth := 3
  stations := 4
  channels := 4
  booklets := 8
  exceptions := 64
  keys := 8
  formRows := [40, 80, 120, 160]
  formOptions := ['A', 'B', 'C', 'D', 'E']
  storeSlots := 64
  batchCount := 256
  notices := 64
  frameBody := 1024

end Sys2Proof.Config
end

