-- ==== Sys2Proof/Machine/State.lean ====
section
/-!
DEFINITION. The state of the HC384 as plain data, one record for each of its nine blocks (00_scope), the queue of
waiting commands, and the state after reset. Fields marked "own" are the model's: the spec implies them and does not
name them (INVENTORY.md, log 22).
-/

namespace Sys2Proof.Machine

/-! ### Time and sets -/

/-- A time of day (R40). -/
structure HallTime where
  hour : Nat
  minute : Nat
  second : Nat
  deriving DecidableEq, Repr

/-- A set of seat attributes or needs (R1, 11.1): bit 0 ACCESSIBLE, bit 1 EXIT, bit 2 SEPARATE. -/
abbrev Attrs := BitVec 3

/-- A set of zones: bit z for zone z (11.1). -/
abbrev ZoneSet := BitVec 8

/-- A set of floor addresses: bit a for address a (11.3). -/
abbrev FloorSet := BitVec 20

/-- A candidate's collected set: bit n − 1 for sequence number n (11.1). -/
abbrev Collected := BitVec 8

/-- A set of options A to E: bit 0 for A (11.5). -/
abbrev Options := BitVec 5

/-! ### Hall Table Unit (chapter 1) -/

/-- The kind of a position (R1). -/
inductive SeatKind where
  | seat | aisle
  deriving DecidableEq, Repr

/-- The seat states (R3). -/
inductive SeatState where
  | absent | free | held | assigned | occupied | vacated | faulted
  deriving DecidableEq, Repr

/-- The kinds of unit fault (R7, R91). -/
inductive FaultKind where
  | silent | clock
  deriving DecidableEq, Repr

/-- A seat record (R1, R3). -/
structure Seat where
  kind : SeatKind
  zone : Nat
  attrs : Attrs
  state : SeatState
  bound : Option Nat
  fault : Option FaultKind
  answering : Bool
  heldOrigin : Bool
  deriving DecidableEq, Repr

/-- The candidate states (R13). -/
inductive CandState where
  | waiting | expected | present | writing | paused | finished | absent | withdrawn
  deriving DecidableEq, Repr

/-- The verdicts and bins of a sheet (11.1). -/
inductive Bin where
  | accept | review | reject
  deriving DecidableEq, Repr

/-- A scored sheet's result (R157, R158). -/
structure Result where
  score : Nat
  max : Nat
  correct : Nat
  wrong : Nat
  blank : Nat
  unreadable : Nat
  verdict : Bin
  withdrawnSat : Bool
  uncollected : Bool
  remarked : Bool
  deriving DecidableEq, Repr

/-- A candidate's result summary (R160). -/
structure Summary where
  result : Result
  store : Option Nat
  deriving DecidableEq, Repr

/-- A candidate record with its four groups (R12). -/
structure Candidate where
  number : Nat
  sitting : Nat
  needs : Attrs
  state : CandState
  bound : Option Nat
  finish : Option Nat
  lateAdmit : Bool
  relocating : Bool
  earlyLeave : Bool
  unrouted : Bool
  shortfall : Bool
  checkIn : Option HallTime
  allowance : Nat
  extension : Nat
  restBudget : Nat
  restUsed : Nat
  pausedTotal : Nat
  pauseStart : Option Nat
  issued : Nat
  collected : Collected
  lastStation : Option Nat
  summary : Option Summary
  deriving DecidableEq, Repr

/-- The Hall Table Unit: the seat table and the candidate table (R1, R3, R11). -/
structure Htu where
  seats : Vector Seat 384
  cands : Vector (Option Candidate) 512
  deriving DecidableEq, Repr

/-! ### Seat Allocator (chapter 2) -/

/-- A route entry (R21). -/
structure Route where
  paper : Paper
  home : Nat
  overflow : List Nat
  deriving DecidableEq, Repr

/-- The Seat Allocator. `retryDue` (own) counts the retry passes asked for and not yet taken (R6, R33);
`relocations` (own) holds the relocations asked for, oldest first, each a candidate slot and its faulted seat (R36). -/
structure Sal where
  routes : List Route
  queue : List Nat
  retryDue : Nat
  relocations : List (Nat × Nat)
  deriving DecidableEq, Repr

/-! ### Timing Engine (chapters 3 and 4) -/

/-- The timebase source (R38). -/
inductive TimeSource where
  | internal | external
  deriving DecidableEq, Repr

/-- The use of the SYNC input (R38). -/
inductive SyncMode where
  | off | minute
  deriving DecidableEq, Repr

/-- The four timebase settings (R38); the frequency is in kHz. -/
structure Timebase where
  source : TimeSource
  frequency : Nat
  prescale : Nat
  syncMode : SyncMode
  deriving DecidableEq, Repr

/-- The sitting states (R46). -/
inductive SittingState where
  | empty | defined | armed | reading | writing | extended | collecting | closed
  deriving DecidableEq, Repr

/-- The script kind of a sitting (R45). -/
inductive ScriptKind where
  | booklet | sheet
  deriving DecidableEq, Repr

/-- The kinds of mark entry (R64). -/
inductive MarkKind where
  | warn (k : Nat) | finish | restExpiry
  deriving DecidableEq, Repr

/-- A mark entry (R64). -/
structure MarkEntry where
  due : Nat
  slot : Nat
  kind : MarkKind
  deriving DecidableEq, Repr

/-- A sitting record (R45) with its mark list (R64). `cutoffTaken` records that the late cutoff has been taken (R53,
R61); `secondsDue` (own) counts the timebase seconds owed to the phase clock (R51, R55); `startDue` (own) records
that the hall clock has reached the scheduled start (R40). -/
structure Sitting where
  paper : Paper
  state : SittingState
  reading : Nat
  writing : Nat
  cutoff : Nat
  opening : Nat
  closing : Nat
  warnings : List Nat
  quiet : Nat
  threshold : Nat
  scriptKind : ScriptKind
  keyId : Option Nat
  scheduled : Option HallTime
  clock : Nat
  held : Bool
  nextWarning : Nat
  absentCount : Nat
  cutoffTaken : Bool
  secondsDue : Nat
  startDue : Bool
  marks : List MarkEntry
  deriving DecidableEq, Repr

/-- The Timing Engine. `sinceEdge` counts the timebase seconds since the last SYNC edge, or none (R42); `lastEdge` is
the hall time of that edge (R44); `syncLostDue` (own) records that the silence timer has reached 180 (R44). -/
structure Tme where
  timebase : Timebase
  secondCount : Nat
  hall : HallTime
  syncTimer : Nat
  sinceEdge : Option Nat
  lastEdge : Option HallTime
  syncLostDue : Bool
  sittings : Vector Sitting 8
  deriving DecidableEq, Repr

/-! ### Unit Link Controller (chapter 5) -/

/-- A time code (R93). -/
structure TimeCode where
  minute : Nat
  sequence : Nat
  deriving DecidableEq, Repr

/-- The codes of a REFUSED display (R85). -/
inductive RefusedCode where
  | unknown | noSeat | call
  deriving DecidableEq, Repr

/-- The modes of a seat display with their values (R84, R85). -/
inductive SeatMode where
  | blank
  | welcome (digits : Nat)
  | reading (minutes : Nat)
  | writing (minutes : Nat)
  | paused
  | finished
  | refused (code : RefusedCode)
  | goTo (seat : Nat)
  deriving DecidableEq, Repr

/-- The CALL indicator of a seat display (R84). -/
inductive CallMark where
  | none | pending | inService
  deriving DecidableEq, Repr

/-- A seat's display record (R84). -/
structure SeatDisplay where
  mode : SeatMode
  warning : Nat
  call : CallMark
  held : Bool
  deriving DecidableEq, Repr

/-- A one-shot display (R85). -/
inductive OneShot where
  | refused (code : RefusedCode)
  | goTo (seat : Nat)
  deriving DecidableEq, Repr

/-- A one-shot display standing, with the polls it has left (R85). -/
structure OneShotLeft where
  shot : OneShot
  polls : Nat
  deriving DecidableEq, Repr

/-- A unit record (R82). -/
structure UnitRec where
  missRun : Nat
  staleRun : Nat
  goodRun : Nat
  oneShot : Option OneShotLeft
  floorFault : Option FaultKind
  deriving DecidableEq, Repr

/-- The call kinds (R99). -/
inductive CallKind where
  | query | supply | escort | rest | alert
  deriving DecidableEq, Repr

/-- What a handset's display shows (R109). -/
inductive HandsetShow where
  | none
  | cancelled
  | call (id : Nat) (kind : CallKind) (level : Nat) (seat : Option Nat) (detached : Bool)
  deriving DecidableEq, Repr

/-- A handset's display record (R109). -/
structure HandsetDisplay where
  shown : HandsetShow
  depth : Nat
  waiting : Nat
  deriving DecidableEq, Repr

/-- The states of a sweep channel (R129). -/
inductive ChannelState where
  | idle | sweep | desk
  deriving DecidableEq, Repr

/-- A frame the part sends on a unit link (R82, R84, R93, R96, R97). -/
inductive UnitFrame where
  | broadcast (code : TimeCode)
  | seatPoll (seat : Nat) (display : SeatDisplay)
  | handsetPoll (handset : Nat) (display : HandsetDisplay)
  | stationPoll (station : Nat) (state : ChannelState) (current : Option Nat)
  | clockPoll (address : Nat) (time : HallTime)
  deriving DecidableEq, Repr

/-- A link record (R79). Own: `cycleOpen`, `toPoll` (members of the cycle not yet visited), `current` (the unit whose
reply window is open, R82), `heardInCycle` (a reply has passed its check in this cycle, R92) and `sent`, the last
frame sent on the link. -/
structure Link where
  running : Bool
  history : List TimeCode
  sequence : Nat
  broadcastPending : Bool
  repeatPending : Bool
  silentReported : Bool
  members : List Nat
  cycleOpen : Bool
  toPoll : List Nat
  current : Option Nat
  heardInCycle : Bool
  sent : Option UnitFrame
  deriving DecidableEq, Repr

/-- The Unit Link Controller: the links A, B, C, D, FLOOR, and the unit records (R79, R82). -/
structure Ulc where
  links : Vector Link 5
  seatUnits : Vector UnitRec 384
  floorUnits : Vector UnitRec 20
  deriving DecidableEq, Repr

/-! ### Call Dispatcher (chapter 6) -/

/-- The state of a call, with its handset when it is in service (R99). -/
inductive CallState where
  | pending
  | inService (handset : Nat)
  deriving DecidableEq, Repr

/-- A call record (R99); its id is its place in the call list. `escalationDue` (own) records that the escalation
timer has come to ESCALATE_TIME_S at a timebase second (R103). -/
structure Call where
  seat : Option Nat
  slot : Nat
  kind : CallKind
  level : Nat
  raisedAt : Nat
  timer : Nat
  state : CallState
  expired : Bool
  escalationDue : Bool
  deriving DecidableEq, Repr

/-- The handset states (R106). -/
inductive HandsetState where
  | off | active | away
  deriving DecidableEq, Repr

/-- A handset note (R106, R109). -/
inductive Note where
  | none | cancelled
  deriving DecidableEq, Repr

/-- A note standing, with the polls it has left (R109). -/
structure NoteLeft where
  note : Note
  polls : Nat
  deriving DecidableEq, Repr

/-- A handset record (R106); the stack is bottom first. `awayDue` (own) records that the silence timer stood at or
above HANDSET_AWAY_S at a timebase second (R108). -/
structure Handset where
  state : HandsetState
  zones : ZoneSet
  stack : List Nat
  timer : Nat
  note : Option NoteLeft
  awayDue : Bool
  deriving DecidableEq, Repr

/-- The Call Dispatcher (R99, R106). -/
structure Cdp where
  calls : Vector (Option Call) 48
  handsets : Vector Handset 8
  deriving DecidableEq, Repr

/-! ### Script Collection Unit (chapter 7) -/

/-- The directions of a sweep (R129). -/
inductive Stride where
  | right | left | down | up
  deriving DecidableEq, Repr

/-- A sweep channel (R129). -/
structure Channel where
  state : ChannelState
  start : Option Nat
  finish : Option Nat
  stride : Option Stride
  current : Option Nat
  completed : Nat
  skipped : Nat
  outOfOrder : Nat
  deriving DecidableEq, Repr

/-- The four fields of a booklet tag as read (R122, 11.6). -/
structure Tag where
  number : Word
  sitting : Byte
  sequence : Byte
  check : Byte
  deriving DecidableEq, Repr

/-- The exception kinds (R127). -/
inductive ExceptionKind where
  | unknown | misread | overIssue | duplicate | early | outOfOrder | missing
  deriving DecidableEq, Repr

/-- An exception entry (R127). -/
structure ExceptionEntry where
  kind : ExceptionKind
  station : Nat
  tag : Option Tag
  seat : Option Nat
  time : HallTime
  deriving DecidableEq, Repr

/-- The Script Collection Unit (R127, R129); the script groups stand in the candidate records. -/
structure Scu where
  channels : Vector Channel 4
  exceptions : List ExceptionEntry
  deriving DecidableEq, Repr

/-! ### Marking Engine (chapter 9) -/

/-- The quality of a mark row (R141). -/
inductive Quality where
  | clean | corrected | unreadable
  deriving DecidableEq, Repr

/-- A mark row (R141, 11.5). -/
structure MarkRow where
  options : Options
  quality : Quality
  erased : Bool
  deriving DecidableEq, Repr

/-- A checked sheet (R146, R159). -/
structure Sheet where
  number : Nat
  sitting : Nat
  form : Nat
  rows : List MarkRow
  feed : Byte
  further : List Byte
  deriving DecidableEq, Repr

/-- The key states (R151). -/
inductive KeyState where
  | empty | loading | ready
  deriving DecidableEq, Repr

/-- The modes of a question (R151). -/
inductive QuestionMode where
  | single | any
  deriving DecidableEq, Repr

/-- A question of a key (R151). -/
structure Question where
  defined : Bool
  answers : Options
  mode : QuestionMode
  weight : Nat
  withdrawn : Bool
  deriving DecidableEq, Repr

/-- An answer key (R151); the question count q is the length of `questions`. -/
structure Key where
  state : KeyState
  form : Nat
  penalty : Nat
  questions : List Question
  deriving DecidableEq, Repr

/-- The storing kind of a sheet and the state of a store slot that holds one (R158, R159). -/
inductive StoreKind where
  | filled | duplicate
  deriving DecidableEq, Repr

/-- The contents of a store slot that is not EMPTY (R159). -/
structure Stored where
  kind : StoreKind
  ref : Option Nat
  sheet : Sheet
  result : Result
  erasures : Nat
  deriving DecidableEq, Repr

/-- The batch states (R162). -/
inductive BatchState where
  | idle | active | waitSpace | halted
  deriving DecidableEq, Repr

/-- The end causes of a batch (R162). -/
inductive EndCause where
  | none | complete | aborted | reset
  deriving DecidableEq, Repr

/-- The four tallies of a block or a batch (R162). -/
structure Tally where
  accepted : Nat
  review : Nat
  rejected : Nat
  duplicate : Nat
  deriving DecidableEq, Repr

/-- The rejected sheets of a block by reason (R158, R164). -/
structure Rejects where
  idNotFound : Nat
  wrongSitting : Nat
  formMismatch : Nat
  notSat : Nat
  tooUnreadable : Nat
  lineFault : Nat
  deriving DecidableEq, Repr

/-- The batch record (R162). `rejects` (own) splits the block's rejected count for BLOCK_DONE (R164). -/
structure Batch where
  state : BatchState
  endCause : EndCause
  sitting : Nat
  key : Nat
  count : Nat
  remaining : Nat
  blockSize : Nat
  tolerance : Nat
  blockNumber : Nat
  block : Tally
  totals : Tally
  rejects : Rejects
  segStart : Nat
  segEnd : Nat
  haltPending : Bool
  deriving DecidableEq, Repr

/-- The Marking Engine (R151, R159, R162); the result summaries stand in the candidate records. -/
structure Mke where
  keys : Vector Key 8
  store : Vector (Option Stored) 64
  batch : Batch
  deriving DecidableEq, Repr

/-! ### Sheet Reader Port (chapter 8) -/

/-- The assembler state with the frame in assembly: the bytes taken after its start marker (R138, R141). -/
inductive Assembler where
  | hunt
  | assemble (taken : List Byte)
  | drain (taken : List Byte)
  deriving DecidableEq, Repr

/-- The kinds of frame fault (R143). -/
inductive FrameFault where
  | check | length | header | torn
  deriving DecidableEq, Repr

/-- The last fault of the port (R138). -/
structure LastFault where
  kind : FrameFault
  feed : Option Byte
  time : HallTime
  deriving DecidableEq, Repr

/-- A verdict for the reader (R148). -/
structure Verdict where
  feed : Byte
  bin : Bin
  deriving DecidableEq, Repr

/-- The ten counts of the port (R138). -/
structure ReaderCounts where
  ended : Nat
  wellFormed : Nat
  check : Nat
  length : Nat
  header : Nat
  torn : Nat
  stray : Nat
  unaddressed : Nat
  sent : Nat
  lost : Nat
  deriving DecidableEq, Repr

/-- The parked sheet (R138, R147, R161): the scored sheet with its candidate, storing kind and bin. -/
structure Parked where
  sheet : Sheet
  slot : Nat
  result : Result
  erasures : Nat
  kind : StoreKind
  bin : Bin
  deriving DecidableEq, Repr

/-- The Sheet Reader Port (R138), with the level of its RRDY pin (R139). `verdictSending` (own) says that the head of
the verdict list is on the line (R148). -/
structure Srp where
  rrdy : Bool
  assembler : Assembler
  parked : Option Parked
  verdicts : List Verdict
  verdictSending : Bool
  lastFault : Option LastFault
  counts : ReaderCounts
  deriving DecidableEq, Repr

/-! ### Control Link Interface (chapter 10) -/

/-- The hall flags (R177). -/
structure HallFlags where
  noticesLost : Bool
  exceptionsLost : Bool
  syncLost : Bool
  resetSeen : Bool
  deriving DecidableEq, Repr

/-- SPACING_RULE (R24). -/
inductive SpacingRule where
  | none | row | cross
  deriving DecidableEq, Repr

/-- FILL_ORDER (R24). -/
inductive FillOrder where
  | ascending | serpentine
  deriving DecidableEq, Repr

/-- The parameter store (00_scope Parameters, R179). -/
structure Params where
  spacingRule : SpacingRule
  fillOrder : FillOrder
  defaultZone : Nat
  levelQuery : Nat
  levelSupply : Nat
  levelEscort : Nat
  levelRest : Nat
  levelAlert : Nat
  escalateTime : Nat
  handsetAway : Nat
  floorUnits : FloorSet
  blockSize : Nat
  tolerance : Nat
  deriving DecidableEq, Repr

/-- The causes of a reset (R183). -/
inductive ResetCause where
  | powerOn | linkReset | ports | hall
  deriving DecidableEq, Repr

/-- The reset cause record (R183); the cause set has no duplicates. -/
structure ResetRecord where
  latest : ResetCause
  time : HallTime
  causes : List ResetCause
  deriving DecidableEq, Repr

/-- The scope of a RESET (R186). -/
inductive ResetScope where
  | ports | hall
  deriving DecidableEq, Repr

/-- The status codes of a reply (R176). -/
inductive Status where
  | ok | queued | isPartial | badFrame | unknownKind | badLength | badArgument | notFound | refusedState | busy | full
  | duplicate | overrun
  deriving DecidableEq, Repr

/-- The reasons a refusal carries (11.2). -/
inductive Reason where
  | none | candidateState | targetState | targetNeeds | sittingState | noKey | keyState | noCandidate | sittingHeld
  | windowNotOpen | windowClosed | table | queue
  deriving DecidableEq, Repr

/-- The causes of a PHASE notice (R46). -/
inductive PhaseCause where
  | define | start | schedule | cancel | compare | listEmpty | hold | resume | close | force | clear
  deriving DecidableEq, Repr

/-- The kinds of a CHECKIN notice (R87). -/
inductive CheckinKind where
  | onTime | late | relocated
  deriving DecidableEq, Repr

/-- The unit kinds of a UNIT_FAULT notice (R91). -/
inductive UnitKind where
  | handset | station | clock
  deriving DecidableEq, Repr

/-- How a sheet frame ended, as STRAY_SHEET gives it (R144): no fault is well formed. -/
abbrev FrameEnding := Option FrameFault

/-- The fields of each notice (R178 and the rules of its table). An optional field that is `none` is absent. -/
inductive NoticeBody where
  | phase (sitting : Nat) (state : SittingState) (held : Bool) (clock : Nat) (cause : PhaseCause)
  | warning (sitting k minutes : Nat)
  | lateCutoff (sitting count : Nat)
  | syncLost (lastEdge : Option HallTime)
  | candEnd (slot number sitting : Nat) (finish : Option Nat) (personalEnd extension pausedTotal : Nat)
  | restExpired (slot number sitting : Nat) (seat call : Option Nat) (restUsed : Nat)
  | seatFault (seat : Nat) (kind : FaultKind) (bound : Option (Nat × Nat))
  | routeMiss (sitting : Nat) (paper : Paper) (slot : Nat)
  | queueSeated (slot number sitting seat : Nat)
  | relocated (slot number fromSeat toSeat : Nat)
  | relocateFailed (slot number seat : Nat)
  | checkin (seat slot number sitting : Nat) (kind : CheckinKind) (time : HallTime)
  | checkinRefused (seat number : Nat) (reason : RefusedCode)
  | wrongSeat (seat number slot : Nat) (bound : Option Nat)
  /-- A fault kind of `none` is RECOVERED. -/
  | unitFault (address : Nat) (unit : UnitKind) (fault : Option FaultKind)
  | linkSilent (link : LinkName) (polled : Nat)
  /-- An origin of `none` is HOST. -/
  | alertRaised (call seat slot number level : Nat) (origin : Option Nat)
  | handsetAway (handset : Nat) (calls : List Nat)
  | issueLimit (seat : Option Nat) (slot number call : Nat)
  | sweepDone (channel : Nat) (mode : ChannelState) (stopped : Bool) (start finish : Option Nat)
      (stride : Option Stride) (last : Option Nat) (completed skipped outOfOrder : Nat)
  | straySheet (feed : Byte) (ending : FrameEnding) (idBlock : Option (Nat × Nat)) (batch : BatchState)
      (time : HallTime)
  | dupSheet (slot number store : Nat) (resultSlot : Option Nat) (feed : Byte)
  | segmentFull (segStart segEnd : Nat) (feed : Byte) (slot : Nat)
  | blockDone (number : Nat) (block : Tally) (rejects : Rejects) (remaining : Nat)
  | batchHalted (block remaining : Nat) (totals : Tally)
  /-- BATCH_END of a batch that ended with its count. -/
  | batchEnd (sitting : Nat) (totals : Tally) (count : Nat) (haltPending : Bool)
  /-- BATCH_END with the aborted mark. -/
  | batchAborted (sitting : Nat) (totals : Tally) (remaining : Nat)
  deriving DecidableEq, Repr

/-- A notice (R178). -/
structure Notice where
  time : HallTime
  body : NoticeBody
  deriving DecidableEq, Repr

/-- The detail fields a refusal carries (R176 and the rules that name them). -/
inductive Detail where
  | none
  | seat (id : Nat)
  | seatState (state : SeatState)
  | slot (slot : Nat)
  | candState (state : CandState)
  | sitting (k : Nat)
  | sittingState (state : SittingState)
  | sittingHeld (state : SittingState) (held : Bool)
  | closeCounts (owing calls batch : Nat)
  | clearState (state : SittingState) (candidates : Nat)
  | call (id : Nat) (kind : CallKind) (state : CallState)
  | seatAndCand (seat : SeatState) (cand : Option CandState)
  | batch (state : BatchState) (sitting : Nat)
  | batchState (state : BatchState)
  | question (n : Nat)
  | channelState (state : ChannelState)
  deriving DecidableEq, Repr

/-- Where ALLOCATE placed a candidate (R30). -/
inductive Placement where
  | seated (seat : Nat)
  | queued (position : Nat)
  deriving DecidableEq, Repr

/-- One mark list entry as READ_MARKS gives it (R78). -/
structure MarkView where
  position : Nat
  entry : MarkEntry
  number : Nat
  state : CandState
  personalEnd : Nat
  timeLeft : Nat
  stage : Nat
  pause : Option (Nat × Nat)
  deriving DecidableEq, Repr

/-- One call as READ_CALLS gives it (R118). -/
structure CallView where
  id : Nat
  call : Call
  finishSeat : Option Nat
  number : Nat
  sitting : Nat
  dispatchable : Bool
  deriving DecidableEq, Repr

/-- One slot as READ_SCRIPTS gives it (R136); no record is a free mark. -/
structure ScriptView where
  slot : Nat
  record : Option Candidate
  needsCollection : Bool
  deriving DecidableEq, Repr

/-- The identity record (R181). -/
structure Identity where
  vendor : Nat
  part : Nat
  revision : Char
  capacities : Config.Capacities
  rate : Nat
  deriving DecidableEq, Repr

/-- One unit as READ_LINK gives it (R98). -/
structure UnitView where
  address : Nat
  member : Bool
  record : UnitRec
  deriving DecidableEq, Repr

/-- The fields of each reply, after the status and the hall flags (R176 and the rules of the requests). -/
inductive ReplyBody where
  | none
  | badArgument (position : Nat)
  | refusal (reason : Reason) (detail : Detail)
  | unknownKind (kind : Byte)
  | positions (count : Nat)
  | seatState (state : SeatState)
  | seats (records : List (Nat × Seat × Option Nat))
  | withdrawn (slot : Nat) (previous : CandState) (seat : Option (Nat × SeatState))
  | candidate (slot : Nat) (record : Candidate)
  | routeCount (count : Nat)
  | routes (entries : List Route)
  | allocated (slot : Nat) (place : Placement)
  | run (done remaining : Nat) (places : List (Nat × Placement)) (stop : Option Status)
  | queue (entries : List (Nat × Nat × Nat × Nat × Attrs))
  | moved (slot : Nat) (old : Option (Nat × SeatState)) (target : Nat)
  | timebase (settings : Timebase)
  | hallTime (before after : HallTime) (started : List Nat)
  | clock (time : HallTime) (settings : Timebase) (syncLost : Bool) (sinceEdge : Option Nat)
  | started (state : SittingState) (scheduled : Option HallTime)
  | sittings (ids : List Nat)
  | forceClosed (calls shortfalls unbound : Nat)
  | slotsFreed (count : Nat)
  | sitting (record : Sitting) (inState : List Nat) (markCount owing calls : Nat) (secondsLeft : Option Nat)
  | left (slot clock : Nat) (finish : Option Nat) (seat : Option SeatState)
  | marks (count clock : Nat) (held : Bool) (entries : List MarkView)
  | links (ids : List LinkName)
  | link (record : Link) (members : Nat) (units : List UnitView)
  | alert (call level : Nat)
  | zones (set : ZoneSet)
  | cancelled (kind : CallKind) (seat : Option Nat) (state : CallState)
  | calls (count : Nat) (pending inService : List CallView) (handsets : List Handset)
  | issued (slot count : Nat)
  | exceptions (removed : List ExceptionEntry) (left : Nat)
  | sweepStarted (current : Option Nat)
  | sweepCounts (completed skipped outOfOrder : Nat)
  | scripts (entries : List ScriptView)
  | sweeps (entries : List (Nat × Channel)) (exceptions : Nat) (lost : Bool)
  | reader (rrdy hold : Bool) (assembler : Assembler) (addressed : Option Bool) (feed : Option Byte)
      (bytes : Option Nat) (parked : Option Parked) (verdicts : List Verdict) (lastFault : Option LastFault)
      (counts : ReaderCounts)
  | keyLoading (key form questions : Nat)
  | keyDefined (count : Nat)
  | keyReady (questions max withdrawn : Nat)
  | keyMax (max : Nat)
  | key (state : KeyState) (form questions penalty max : Nat) (range : List Question)
  | sheet (contents : Option Stored) (number : Option Nat)
  | batch (record : Batch) (processed : Nat) (parked : Option (Byte × Nat)) (store : List (Option StoreKind))
      (emptySlots : Nat)
  | batchStarted (count segStart segEnd emptySlots : Nat)
  | remaining (count : Nat)
  | segment (segStart segEnd emptySlots : Nat) (state : BatchState)
  | emptied (count : Nat)
  | resolved (state : Option StoreKind) (emptied : Option Nat)
  | remarked (filled duplicate mismatched : Nat)
  | param (id before after : Nat)
  | params (values : List (Nat × Nat))
  | identity (record : Identity)
  | status (flags : HallFlags) (resets : ResetRecord) (notices : Nat) (links : List Bool) (batch : BatchState)
  deriving DecidableEq, Repr

/-- A reply to a request (R176). -/
structure Reply where
  kind : Byte
  status : Status
  flags : HallFlags
  body : ReplyBody
  deriving DecidableEq, Repr

/-- How a bad control frame ended (R172). -/
inductive BadEnding where
  | check | length | gap | framing
  deriving DecidableEq, Repr

/-- An entry of the reply list (R175); the count of an OVERRUN reply is the overrun count. -/
inductive ReplyEntry where
  | reply (r : Reply)
  | badFrame (count : Nat) (ending : BadEnding)
  | overrun
  deriving DecidableEq, Repr

/-- A frame on the transmit line (R175), with the content it was begun with. -/
inductive OutFrame where
  | reply (r : Reply)
  | badFrame (flags : HallFlags) (count : Nat) (ending : BadEnding)
  | overrun (flags : HallFlags) (count : Nat)
  | notice (flags : HallFlags) (n : Notice)
  deriving DecidableEq, Repr

/-- The frame receiver with the bytes of the frame in progress (R172). -/
inductive Receiver where
  | hunt
  | length (high : Option Byte)
  | kind (len : Nat)
  | body (len : Nat) (kind : Byte) (taken : List Byte)
  | check (len : Nat) (kind : Byte) (taken : List Byte) (high : Option Byte)
  deriving DecidableEq, Repr

/-- The Control Link Interface (chapter 10). Own: `discarded` (a frame has been discarded during the present request's
wait, R174), `lineHeld` (the receive line is still at break after a LINK_RESET, R172), `sending` (the frame on the transmit line), `resetTaken` (a RESET whose reply has not been sent) and `resetDue`
(a RESET whose reply has been sent, R186). `hrdy` is the pin's level; `rate1` and `rate0` the straps as last sampled. -/
structure Cli where
  flags : HallFlags
  notices : List Notice
  replies : List ReplyEntry
  overruns : Nat
  discarded : Bool
  receiver : Receiver
  lineHeld : Bool
  sending : Option OutFrame
  resetTaken : Option ResetScope
  resetDue : Option ResetScope
  hrdy : Bool
  rate1 : Bool
  rate0 : Bool
  params : Params
  resets : ResetRecord
  deriving DecidableEq, Repr

/-! ### The whole part -/

/-- The state of the part, and the queue of the commands waiting for it, first in first out. -/
structure State where
  cli : Cli
  htu : Htu
  sal : Sal
  tme : Tme
  ulc : Ulc
  cdp : Cdp
  scu : Scu
  srp : Srp
  mke : Mke
  pending : List Instr
  deriving DecidableEq, Repr

/-- The faults: none. The spec stops the part on nothing, so no step of the model faults, and a claim that no fault
happens is true by this type alone. -/
inductive Fault where
  deriving DecidableEq, Repr

/-- The refusals. -/
inductive Refusal where
  /-- Raised by no arm of `exec`: kept for the host's form of a command that has no meaning yet. Safe. -/
  | notModelled (mnemonic : String)
  deriving DecidableEq, Repr

/-! ### Reset values -/

/-- 00:00:00. -/
def HallTime.zero : HallTime := ⟨0, 0, 0⟩

/-- The blank paper code of an EMPTY sitting: six bytes 0x20 (11.1). -/
def Paper.blank : Paper := Vector.replicate 6 0x20#8

/-- The seat record of position `i` after POWER_ON (R1, R3): zone = row / 3. -/
def Seat.atReset (i : Nat) : Seat where
  kind := .seat
  zone := i / 16 / 3
  attrs := 0
  state := .free
  bound := none
  fault := none
  answering := false
  heldOrigin := false

/-- An EMPTY sitting (R45). -/
def Sitting.atReset : Sitting where
  paper := Paper.blank
  state := .empty
  reading := 0
  writing := 0
  cutoff := 0
  opening := 0
  closing := 0
  warnings := []
  quiet := 0
  threshold := 0
  scriptKind := .booklet
  keyId := none
  scheduled := none
  clock := 0
  held := false
  nextWarning := 0
  absentCount := 0
  cutoffTaken := false
  secondsDue := 0
  startDue := false
  marks := []

/-- A unit record at its reset values (R82). -/
def UnitRec.atReset : UnitRec := ⟨0, 0, 0, none, none⟩

/-- A STOPPED link (R79). -/
def Link.atReset : Link where
  running := false
  history := []
  sequence := 0
  broadcastPending := false
  repeatPending := false
  silentReported := false
  members := []
  cycleOpen := false
  toPoll := []
  current := none
  heardInCycle := false
  sent := none

/-- An ACTIVE handset with every zone (R106). -/
def Handset.atReset : Handset := ⟨.active, 0xFF#8, [], 0, none, false⟩

/-- An IDLE channel with every other field absent or 0 (R129). -/
def Channel.atReset : Channel := ⟨.idle, none, none, none, none, 0, 0, 0⟩

/-- An EMPTY key (R151). -/
def Key.atReset : Key := ⟨.empty, 0, 0, []⟩

/-- Tallies at 0. -/
def Tally.zero : Tally := ⟨0, 0, 0, 0⟩

/-- Reject counts at 0. -/
def Rejects.zero : Rejects := ⟨0, 0, 0, 0, 0, 0⟩

/-- A cleared batch record (R162). -/
def Batch.atReset : Batch where
  state := .idle
  endCause := .none
  sitting := 0
  key := 0
  count := 0
  remaining := 0
  blockSize := 0
  tolerance := 0
  blockNumber := 0
  block := Tally.zero
  totals := Tally.zero
  rejects := Rejects.zero
  segStart := 0
  segEnd := 0
  haltPending := false

/-- Port counts at 0. -/
def ReaderCounts.zero : ReaderCounts := ⟨0, 0, 0, 0, 0, 0, 0, 0, 0, 0⟩

/-- The parameters at their defaults (00_scope Parameters). -/
def Params.atReset : Params where
  spacingRule := .row
  fillOrder := .ascending
  defaultZone := 0
  levelQuery := 4
  levelSupply := 5
  levelEscort := 2
  levelRest := 2
  levelAlert := 1
  escalateTime := 0
  handsetAway := 30
  floorUnits := 0xFFFFF#20
  blockSize := 8
  tolerance := 2

/-- The timebase at its defaults (R38). -/
def Timebase.atReset : Timebase := ⟨.internal, 10000, 4, .off⟩

/-- The Hall Table Unit after POWER_ON (R1, R3, R11). -/
def Htu.atReset : Htu where
  seats := Vector.ofFn (fun i => Seat.atReset i.val)
  cands := Vector.replicate 512 none

/-- The Seat Allocator after POWER_ON (R21, R32). -/
def Sal.atReset : Sal := ⟨[], [], 0, []⟩

/-- The Timing Engine after POWER_ON (R38, R40, R44, R45; log 7, 9). -/
def Tme.atReset : Tme where
  timebase := Timebase.atReset
  secondCount := 0
  hall := HallTime.zero
  syncTimer := 0
  sinceEdge := none
  lastEdge := none
  syncLostDue := false
  sittings := Vector.replicate 8 Sitting.atReset

/-- The Unit Link Controller after POWER_ON (R79). -/
def Ulc.atReset : Ulc where
  links := Vector.replicate 5 Link.atReset
  seatUnits := Vector.replicate 384 UnitRec.atReset
  floorUnits := Vector.replicate 20 UnitRec.atReset

/-- The Call Dispatcher after POWER_ON (R99, R106). -/
def Cdp.atReset : Cdp where
  calls := Vector.replicate 48 none
  handsets := Vector.replicate 8 Handset.atReset

/-- The Script Collection Unit after POWER_ON (R127, R129). -/
def Scu.atReset : Scu where
  channels := Vector.replicate 4 Channel.atReset
  exceptions := []

/-- The Sheet Reader Port after POWER_ON (R138; RRDY deasserted, log 5). -/
def Srp.atReset : Srp where
  rrdy := false
  assembler := .hunt
  parked := none
  verdicts := []
  verdictSending := false
  lastFault := none
  counts := ReaderCounts.zero

/-- The Marking Engine after POWER_ON (R151, R159, R162). -/
def Mke.atReset : Mke where
  keys := Vector.replicate 8 Key.atReset
  store := Vector.replicate 64 none
  batch := Batch.atReset

/-- The Control Link Interface after POWER_ON (R177, R183, R184; HRDY deasserted and both straps low, log 5). -/
def Cli.atReset : Cli where
  flags := ⟨false, false, false, true⟩
  notices := []
  replies := []
  overruns := 0
  discarded := false
  receiver := .hunt
  lineHeld := false
  sending := none
  resetTaken := none
  resetDue := none
  hrdy := false
  rate1 := false
  rate0 := false
  params := Params.atReset
  resets := ⟨.powerOn, HallTime.zero, [.powerOn]⟩

/-- The part right after power-up (R184), with no command waiting. -/
def State.reset : State where
  cli := Cli.atReset
  htu := Htu.atReset
  sal := Sal.atReset
  tme := Tme.atReset
  ulc := Ulc.atReset
  cdp := Cdp.atReset
  scu := Scu.atReset
  srp := Srp.atReset
  mke := Mke.atReset
  pending := []

end Sys2Proof.Machine
end

