-- ==== Sys2Proof/Machine/Ops.lean ====
section
/-!
DEFINITION. The named operations every meaning is built from: reading and changing one record of a table, the hall
clock's arithmetic, the notice queue (R178), the exception list (R127), the verdict list (R148) and the requests for a
retry pass (R6).
-/

namespace Sys2Proof.Machine

/-- The outcome of a step of this machine. -/
abbrev Outcome := Host.Outcome State Fault Refusal

/-! ### One entry of a table -/

/-- Apply `f` to entry `i`; a table has no other entries, so an index outside it changes nothing. -/
def modAt {α : Type} {n : Nat} (v : Vector α n) (i : Nat) (f : α → α) : Vector α n :=
  match v[i]? with
  | some x => v.setIfInBounds i (f x)
  | none => v

/-- The numbers of the entries of a table for which `p` holds, in ascending order. -/
def indexesWhere {α : Type} {n : Nat} (p : α → Bool) (v : Vector α n) : List Nat :=
  (v.toList.zipIdx.filter (fun x => p x.1)).map (·.2)

/-- The lowest entry of a table for which `p` holds. -/
def lowestWhere {α : Type} {n : Nat} (p : α → Bool) (v : Vector α n) : Option Nat :=
  v.toList.findIdx? p

/-- Every entry of a table changed by `f`. -/
def mapAll {α : Type} {n : Nat} (f : α → α) (v : Vector α n) : Vector α n := v.map f

/-! ### The records of the state -/

/-- The seat record of position `i` (R3). -/
def State.seat? (s : State) (i : Nat) : Option Seat := s.htu.seats[i]?

/-- The candidate record in slot `c`; a free slot has none (R11). -/
def State.cand? (s : State) (c : Nat) : Option Candidate := (s.htu.cands[c]?).join

/-- The record of sitting `k` (R45). -/
def State.sitting (s : State) (k : Nat) : Sitting := (s.tme.sittings[k]?).getD Sitting.atReset

/-- The place of a link among the five (11.1). -/
def linkIndex : LinkName → Nat
  | .a => 0
  | .b => 1
  | .c => 2
  | .d => 3
  | .floor => 4

/-- The record of a link (R79). -/
def State.link (s : State) (l : LinkName) : Link := (s.ulc.links[linkIndex l]?).getD Link.atReset

/-- The unit record of address `a` of a link; seat links are addressed by seat id (R82, R98). -/
def State.unit (s : State) (l : LinkName) (a : Nat) : UnitRec :=
  match l with
  | .floor => (s.ulc.floorUnits[a]?).getD UnitRec.atReset
  | _ => (s.ulc.seatUnits[a]?).getD UnitRec.atReset

/-- The outstanding call with id `i` (R99). -/
def State.call? (s : State) (i : Nat) : Option Call := (s.cdp.calls[i]?).join

/-- The record of handset `h` (R106). -/
def State.handset (s : State) (h : Nat) : Handset := (s.cdp.handsets[h]?).getD Handset.atReset

/-- The record of channel `k` (R129). -/
def State.channel (s : State) (k : Nat) : Channel := (s.scu.channels[k]?).getD Channel.atReset

/-- Key `k` (R151). -/
def State.key (s : State) (k : Nat) : Key := (s.mke.keys[k]?).getD Key.atReset

/-- The contents of store slot `i`; an EMPTY slot has none (R159). -/
def State.stored? (s : State) (i : Nat) : Option Stored := (s.mke.store[i]?).join

/-- Change one seat record. -/
def State.modSeat (s : State) (i : Nat) (f : Seat → Seat) : State :=
  { s with htu.seats := modAt s.htu.seats i f }

/-- Change one candidate record; a free slot stays free. -/
def State.modCand (s : State) (c : Nat) (f : Candidate → Candidate) : State :=
  { s with htu.cands := modAt s.htu.cands c (Option.map f) }

/-- Fill or free one candidate slot (R11). -/
def State.putCand (s : State) (c : Nat) (x : Option Candidate) : State :=
  { s with htu.cands := s.htu.cands.setIfInBounds c x }

/-- Change one sitting record. -/
def State.modSitting (s : State) (k : Nat) (f : Sitting → Sitting) : State :=
  { s with tme.sittings := modAt s.tme.sittings k f }

/-- Change one link record. -/
def State.modLink (s : State) (l : LinkName) (f : Link → Link) : State :=
  { s with ulc.links := modAt s.ulc.links (linkIndex l) f }

/-- Change one unit record. -/
def State.modUnit (s : State) (l : LinkName) (a : Nat) (f : UnitRec → UnitRec) : State :=
  match l with
  | .floor => { s with ulc.floorUnits := modAt s.ulc.floorUnits a f }
  | _ => { s with ulc.seatUnits := modAt s.ulc.seatUnits a f }

/-- Change one outstanding call; a free id stays free. -/
def State.modCall (s : State) (i : Nat) (f : Call → Call) : State :=
  { s with cdp.calls := modAt s.cdp.calls i (Option.map f) }

/-- Give a call id to a call, or free it (R99). -/
def State.putCall (s : State) (i : Nat) (x : Option Call) : State :=
  { s with cdp.calls := s.cdp.calls.setIfInBounds i x }

/-- Change one handset record. -/
def State.modHandset (s : State) (h : Nat) (f : Handset → Handset) : State :=
  { s with cdp.handsets := modAt s.cdp.handsets h f }

/-- Change one channel record. -/
def State.modChannel (s : State) (k : Nat) (f : Channel → Channel) : State :=
  { s with scu.channels := modAt s.scu.channels k f }

/-- Change one key. -/
def State.modKey (s : State) (k : Nat) (f : Key → Key) : State :=
  { s with mke.keys := modAt s.mke.keys k f }

/-- Fill, change or empty one store slot. -/
def State.putStore (s : State) (i : Nat) (x : Option Stored) : State :=
  { s with mke.store := s.mke.store.setIfInBounds i x }

/-- Change the batch record. -/
def State.modBatch (s : State) (f : Batch → Batch) : State :=
  { s with mke.batch := f s.mke.batch }

/-- Apply `f` for each member of a list, in its order. -/
def State.forEach {α : Type} (s : State) (l : List α) (f : α → State → State) : State :=
  l.foldl (fun t x => f x t) s

/-! ### Counting -/

/-- The number of members of a set held as bits. -/
def countBits {w : Nat} (b : BitVec w) : Nat := (List.range w).countP (fun i => b.getLsbD i)

/-- The members of a set held as bits, ascending. -/
def bitMembers {w : Nat} (b : BitVec w) : List Nat := (List.range w).filter (fun i => b.getLsbD i)

/-- One more, held at the top `m` (R138, R174). -/
def heldAdd (m n : Nat) : Nat := if n < m then n + 1 else m

/-- A division rounded up. -/
def ceilDiv (a b : Nat) : Nat := (a + (b - 1)) / b

/-- The number of booklets recorded for a candidate (R119). -/
def Candidate.collectedCount (c : Candidate) : Nat := countBits c.collected

/-- Does the candidate owe booklets: is its collected count below its issued count? -/
def Candidate.owes (c : Candidate) : Bool := c.collectedCount < c.issued

/-- The active states (R13). -/
def CandState.active : CandState → Bool
  | .waiting | .expected | .present | .writing | .paused => true
  | .finished | .absent | .withdrawn => false

/-- PRESENT, WRITING or PAUSED: the candidate has checked in and not finished. -/
def CandState.seated : CandState → Bool
  | .present | .writing | .paused => true
  | _ => false

/-- READING, WRITING or EXTENDED: the states in which a phase clock may advance (R51). -/
def SittingState.running : SittingState → Bool
  | .reading | .writing | .extended => true
  | _ => false

/-! ### The hall clock (R40) -/

/-- A time of day as a number of seconds (R99, R102). -/
def HallTime.seconds (t : HallTime) : Nat := t.hour * 3600 + t.minute * 60 + t.second

/-- One second later; after 23:59:59 comes 00:00:00 (R40). -/
def HallTime.next (t : HallTime) : HallTime :=
  if t.second < 59 then { t with second := t.second + 1 }
  else if t.minute < 59 then ⟨t.hour, t.minute + 1, 0⟩
  else if t.hour < 23 then ⟨t.hour + 1, 0, 0⟩
  else ⟨0, 0, 0⟩

/-- The whole minute after this one: the clock carried to the next minute, hour and day (R43). -/
def HallTime.nextMinute (t : HallTime) : HallTime :=
  if t.minute < 59 then ⟨t.hour, t.minute + 1, 0⟩
  else if t.hour < 23 then ⟨t.hour + 1, 0, 0⟩
  else ⟨0, 0, 0⟩

/-- Is it a time of day? -/
def HallTime.valid (t : HallTime) : Bool := t.hour < 24 && t.minute < 60 && t.second < 60

/-! ### Notices, exceptions, verdicts, retry passes -/

/-- Add a notice at the tail, stamped with the hall time; a notice that finds 64 in the queue is dropped and
NOTICES_LOST is set (R178). -/
def State.notify (s : State) (b : NoticeBody) : State :=
  if s.cli.notices.length < 64 then { s with cli.notices := s.cli.notices ++ [⟨s.tme.hall, b⟩] }
  else { s with cli.flags.noticesLost := true }

/-- Add an exception at the tail; one that finds 64 in the list is dropped and EXCEPTIONS_LOST is set (R127). -/
def State.addException (s : State) (kind : ExceptionKind) (station : Nat) (tag : Option Tag) (seat : Option Nat) :
    State :=
  if s.scu.exceptions.length < 64 then
    { s with scu.exceptions := s.scu.exceptions ++ [⟨kind, station, tag, seat, s.tme.hall⟩] }
  else { s with cli.flags.exceptionsLost := true }

/-- Form a verdict: it joins the tail of the verdict list, or is dropped and counted when four stand there (R148). -/
def State.formVerdict (s : State) (feed : Byte) (bin : Bin) : State :=
  if s.srp.verdicts.length < 4 then { s with srp.verdicts := s.srp.verdicts ++ [⟨feed, bin⟩] }
  else { s with srp.counts.lost := heldAdd 65535 s.srp.counts.lost }

/-- Ask the Seat Allocator for one retry pass (R6, R33). -/
def State.askRetry (s : State) : State := { s with sal.retryDue := s.sal.retryDue + 1 }

/-- Ask for one retry pass when a seat became FREE. -/
def State.askRetryIf (s : State) (freed : Bool) : State := if freed then s.askRetry else s

/-- Mark a time code broadcast pending on every RUNNING link; a STOPPED link takes no mark (R93). -/
def State.askBroadcast (s : State) : State :=
  { s with ulc.links := mapAll (fun l => if l.running then { l with broadcastPending := true } else l) s.ulc.links }

/-- The slots of the candidates for which `p` holds, in ascending order. -/
def State.slotsWhere (s : State) (p : Candidate → Bool) : List Nat :=
  indexesWhere (fun o => o.any p) s.htu.cands

/-- The number of candidates for which `p` holds. -/
def State.countCands (s : State) (p : Candidate → Bool) : Nat := (s.slotsWhere p).length

/-- The ids of the outstanding calls for which `p` holds, in ascending order. -/
def State.callsWhere (s : State) (p : Call → Bool) : List Nat :=
  indexesWhere (fun o => o.any p) s.cdp.calls

/-- The calls of a sitting: the outstanding calls whose candidate belongs to it (R99). -/
def State.callsOfSitting (s : State) (k : Nat) : List Nat :=
  s.callsWhere (fun c => (s.cand? c.slot).any (fun x => x.sitting == k))

/-- A call is the seat's outstanding call when its seat field names that seat (R99). -/
def State.callOfSeat (s : State) (i : Nat) : Option Nat :=
  lowestWhere (fun o => o.any (fun (c : Call) => c.seat == some i)) s.cdp.calls

/-- Is a sitting number one of the eight? -/
def isSitting (b : Byte) : Bool := b.toNat < 8

end Sys2Proof.Machine
end

