-- ==== Sys2Proof/Machine/Flags.lean ====
section
/-!
DEFINITION. The flags: the hall flags and their byte (R177, 11.2), the candidate's flags (R12, 11.7), the result flags
(R158, 11.7), the HOLD output (R140), and the reset cause record's update (R183).
-/

namespace Sys2Proof.Machine

/-- A bit as a number. -/
def bit (b : Bool) (n : Nat) : Nat := if b then 2 ^ n else 0

/-- The hall flags byte: bit 0 NOTICES_LOST, 1 EXCEPTIONS_LOST, 2 SYNC_LOST, 3 RESET_SEEN (11.2). -/
def HallFlags.byte (f : HallFlags) : Byte :=
  BitVec.ofNat 8 (bit f.noticesLost 0 + bit f.exceptionsLost 1 + bit f.syncLost 2 + bit f.resetSeen 3)

/-- A candidate's flags byte (11.7). -/
def Candidate.flagsByte (c : Candidate) : Byte :=
  BitVec.ofNat 8 (bit c.lateAdmit 0 + bit c.relocating 1 + bit c.earlyLeave 2 + bit c.unrouted 3 + bit c.shortfall 4)

/-- A result's flags byte (11.7). -/
def Result.flagsByte (r : Result) : Byte :=
  BitVec.ofNat 8 (bit r.uncollected 0 + bit r.remarked 1 + bit r.withdrawnSat 2)

/-- What READ_STATUS clears: NOTICES_LOST, EXCEPTIONS_LOST, RESET_SEEN and the cause set; SYNC_LOST stays (R182). -/
def State.clearStatus (s : State) : State :=
  { s with
    cli.flags := ⟨false, false, s.cli.flags.syncLost, false⟩
    cli.resets.causes := [] }

/-- The reset cause record and RESET_SEEN after a reset that is not POWER_ON (R177, R183). -/
def State.recordReset (s : State) (cause : ResetCause) : State :=
  { s with
    cli.flags.resetSeen := true
    cli.resets := ⟨cause, s.tme.hall, if cause ∈ s.cli.resets.causes then s.cli.resets.causes
      else s.cli.resets.causes ++ [cause]⟩ }

/-- HOLD is asserted whenever the batch is not ACTIVE (R140). -/
def State.hold (s : State) : Bool := s.mke.batch.state != .active

/-- The control link rate the straps give, in bit/s (00_scope Ports). -/
def strapRate (rate1 rate0 : Bool) : Nat :=
  match rate1, rate0 with
  | false, false => 115200
  | false, true => 230400
  | true, false => 460800
  | true, true => 921600

/-- The byte of a set of parameters' values is the value itself: FLOOR_UNITS as bits 0 to 19 (11.3). -/
def floorSetOf (value : Nat) : Option FloorSet := if value < 2 ^ 20 then some (BitVec.ofNat 20 value) else none

end Sys2Proof.Machine
end

