-- ==== Sys2Proof/Machine/Operands.lean ====
section
/-!
DEFINITION. Operands: how each field of a request body is read (11.1, R187). A request's argument checks are listed in
body order; the first that fails gives the position a BAD_ARGUMENT refusal carries (R176). Where a check relates two
fields the position is that of the later one, at which the failure is decided; a list argument counts as one field
(log 8).
-/

namespace Sys2Proof.Machine

/-- The position, counted from 1, of the first argument check that fails (R176, R187). -/
def firstBad (checks : List Bool) : Option Nat :=
  (checks.findIdx? (fun ok => !ok)).map (· + 1)

/-- A number read most significant byte first (11.1). -/
def beNat (bytes : List Byte) : Nat := bytes.foldl (fun n b => n * 256 + b.toNat) 0

/-- A seat id is 0–383. -/
def isSeat (v : Half) : Bool := v.toNat < 384

/-- A candidate slot is 0–511. -/
def isSlot (v : Half) : Bool := v.toNat < 512

/-- A candidate number is 1–99 999 999. -/
def isNumber (n : Nat) : Bool := 1 ≤ n && n ≤ 99999999

/-- A zone, call level, key id or handset is 0–7. -/
def isEighth (b : Byte) : Bool := b.toNat < 8

/-- An attribute or needs byte has no bit set above SEPARATE (R187). -/
def isAttrs (b : Byte) : Bool := b.toNat < 8

/-- The attribute or needs set of a byte. -/
def attrsOf (b : Byte) : Attrs := b.truncate 3

/-- A paper code byte is an ASCII capital letter or digit (11.1). -/
def isPaperByte (b : Byte) : Bool :=
  (0x41 ≤ b.toNat && b.toNat ≤ 0x5A) || (0x30 ≤ b.toNat && b.toNat ≤ 0x39)

/-- A paper code holds no other character (R22, R47). -/
def isPaper (p : Paper) : Bool := p.toList.all isPaperByte

/-- The hall time of three bytes. -/
def timeOf (hour minute second : Byte) : HallTime := ⟨hour.toNat, minute.toNat, second.toNat⟩

/-- The absent hall time 0xFF 0xFF 0xFF (11.1). -/
def isAbsentTime (hour minute second : Byte) : Bool := hour == 0xFF#8 && minute == 0xFF#8 && second == 0xFF#8

/-- The link of a code (11.1). -/
def linkOf (b : Byte) : Option LinkName :=
  match b.toNat with
  | 0 => some .a
  | 1 => some .b
  | 2 => some .c
  | 3 => some .d
  | 4 => some .floor
  | _ => none

/-- The five links in the order of their codes. -/
def allLinks : List LinkName := [.a, .b, .c, .d, .floor]

/-- The seat kind of a code (11.1). -/
def seatKindOf (b : Byte) : Option SeatKind :=
  match b.toNat with
  | 0 => some .seat
  | 1 => some .aisle
  | _ => none

/-- The script kind of a code (11.1). -/
def scriptKindOf (b : Byte) : Option ScriptKind :=
  match b.toNat with
  | 0 => some .booklet
  | 1 => some .sheet
  | _ => none

/-- The timebase source of a code (11.1). -/
def sourceOf (b : Byte) : Option TimeSource :=
  match b.toNat with
  | 0 => some .internal
  | 1 => some .external
  | _ => none

/-- The SYNC_MODE of a code (11.1). -/
def syncModeOf (b : Byte) : Option SyncMode :=
  match b.toNat with
  | 0 => some .off
  | 1 => some .minute
  | _ => none

/-- The sweep mode of a code (11.1). -/
def sweepModeOf (b : Byte) : Option ChannelState :=
  match b.toNat with
  | 1 => some .sweep
  | 2 => some .desk
  | _ => none

/-- The step of a code (11.1): +1, −1, +16, −16. -/
def strideOf (b : Byte) : Option Stride :=
  match b.toNat with
  | 0 => some .right
  | 1 => some .left
  | 2 => some .down
  | 3 => some .up
  | _ => none

/-- The question mode of a code (11.1). -/
def questionModeOf (b : Byte) : Option QuestionMode :=
  match b.toNat with
  | 0 => some .single
  | 1 => some .any
  | _ => none

/-- The action of RESOLVE_DUPLICATE: ADOPT is true (11.1). -/
def adoptOf (b : Byte) : Option Bool :=
  match b.toNat with
  | 0 => some true
  | 1 => some false
  | _ => none

/-- The scope of a RESET (11.1). -/
def scopeOf (b : Byte) : Option ResetScope :=
  match b.toNat with
  | 0 => some .ports
  | 1 => some .hall
  | _ => none

/-- The row count of a form (R141). -/
def formRows (form : Nat) : Nat :=
  match form with
  | 0 => 40
  | 1 => 80
  | 2 => 120
  | _ => 160

/-- A key entry is valid when its answer set is not empty and has no bit above E, its mode is one of the two and its
weight is 1–4 (R154, R187). -/
def isKeyEntry (e : KeyEntry) : Bool :=
  1 ≤ e.answers.toNat && e.answers.toNat < 32 && (questionModeOf e.mode).isSome
    && 1 ≤ e.weight.toNat && e.weight.toNat ≤ 4

/-- The question a key entry defines (R154). -/
def questionOf (e : KeyEntry) : Question :=
  ⟨true, e.answers.truncate 5, (questionModeOf e.mode).getD .single, e.weight.toNat, false⟩

/-- Are the values of a list strictly descending (R45, R47)? -/
def strictlyDescending : List Nat → Bool
  | a :: b :: rest => b < a && strictlyDescending (b :: rest)
  | _ => true

/-- Does the list hold no value twice (R21)? -/
def noRepeat : List Nat → Bool
  | [] => true
  | a :: rest => !rest.contains a && noRepeat rest

end Sys2Proof.Machine
end

