-- ==== Sys2Proof/Machine/Answer.lean ====
section
/-!
DEFINITION. How a request is taken and answered (R173 to R176), how the transmitter begins its next frame (R175), how a
verdict begins on the reader's line (R148), and how a meaning ends.
-/

namespace Sys2Proof.Machine

/-- What a block answers to a request: a status and the fields its rule names (R173). -/
structure Answer where
  status : Status
  body : ReplyBody
  deriving DecidableEq, Repr

/-- The request is taken. -/
def ok (body : ReplyBody) : Answer := ⟨.ok, body⟩

/-- A refusal with BAD_ARGUMENT carries the position of the first argument that failed (R176). -/
def badArgument (position : Nat) : Answer := ⟨.badArgument, .badArgument position⟩

/-- A refusal with a reason and the detail fields the rule names (R176). -/
def refuse (status : Status) (reason : Reason := .none) (detail : Detail := .none) : Answer :=
  ⟨status, .refusal reason detail⟩

/-- A refusal with NOT_FOUND, which carries nothing (R176). -/
def notFound : Answer := ⟨.notFound, .none⟩

/-- Check the arguments first: the first that fails refuses the request, which then changes nothing (R173, R187). -/
def withArgs (checks : List Bool) (take : State → State × Answer) (s : State) : State × Answer :=
  match firstBad checks with
  | some p => (s, badArgument p)
  | none => take s

/-- Is the entry the reply to the waiting request? -/
def ReplyEntry.isReply : ReplyEntry → Bool
  | .reply _ => true
  | _ => false

/-- Is the entry a BAD_FRAME reply? -/
def ReplyEntry.isBadFrame : ReplyEntry → Bool
  | .badFrame _ _ => true
  | _ => false

/-- Is the entry an OVERRUN reply? -/
def ReplyEntry.isOverrun : ReplyEntry → Bool
  | .overrun => true
  | _ => false

/-- A request is waiting from its taking until the last byte of its reply has been sent (R174); a RESET waits until the
reset acts, which is the same moment (R186, log 20). -/
def State.waiting (s : State) : Bool := s.cli.replies.any ReplyEntry.isReply || s.cli.resetDue.isSome

/-- Is the receiver free to take a request: the line is not held at break and no request is waiting (R172, R174)? -/
def State.listening (s : State) : Bool := !s.cli.lineHeld && !s.waiting

/-- A complete frame that ends while a request is waiting is discarded and counted; the count is held at 255, and the
wait is marked as one that has discarded a frame (R174). -/
def State.discardFrame (s : State) : State :=
  { s with cli.receiver := .hunt, cli.overruns := heldAdd 255 s.cli.overruns, cli.discarded := true }

/-- The reply to the request joins the reply list, with the hall flags as they stand (R175, R176). -/
def State.pushReply (s : State) (kind : Byte) (a : Answer) : State :=
  { s with cli.replies := s.cli.replies ++ [.reply ⟨kind, a.status, s.cli.flags, a.body⟩] }

/-- A complete frame arrives (R172 to R174): while the line is held at break it is not received; while a request is
waiting it is discarded; otherwise `take` acts on it. After it the receiver is in HUNT. -/
def State.onFrame (s : State) (take : State → State) : State :=
  if s.cli.lineHeld then s
  else if s.waiting then s.discardFrame
  else take { s with cli.receiver := .hunt }

/-- A request of a kind is taken as one event: its block answers, the reply is formed and joins the list, and `after`
follows the forming of the reply (R173, R175, R182). -/
def State.requestThen (s : State) (kind : Byte) (handle : State → State × Answer) (after : State → State) : State :=
  s.onFrame (fun t => after ((handle t).1.pushReply (kind + 0x80#8) (handle t).2))

/-- A request with nothing to do once its reply is formed. -/
def State.request (s : State) (kind : Byte) (handle : State → State × Answer) : State :=
  s.requestThen kind handle id

/-- The frame the transmitter begins next: the head of the reply list, else the head of the notice queue (R175). A
notice carries the hall flags standing when its frame is begun (R178); that a BAD_FRAME or OVERRUN reply carries those
standing when its own frame is begun is the model's choice (R176 does not say when these are formed; log 31). -/
def State.nextFrame (s : State) : Option OutFrame :=
  match s.cli.replies with
  | .reply r :: _ => some (.reply r)
  | .badFrame n e :: _ => some (.badFrame s.cli.flags n e)
  | .overrun :: _ => some (.overrun s.cli.flags s.cli.overruns)
  | [] =>
    match s.cli.notices with
    | n :: _ => some (.notice s.cli.flags n)
    | [] => none

/-- The transmitter begins a frame whenever it is free and HRDY is asserted (R175); when a reset is about to act, the
reset comes first (R186). -/
def State.beginFrame (s : State) : State :=
  if s.cli.hrdy && s.cli.sending.isNone && s.cli.resetDue.isNone then { s with cli.sending := s.nextFrame } else s

/-- A VERDICT begins when RRDY is asserted and no other is being sent (R148). -/
def State.beginVerdict (s : State) : State :=
  if s.srp.rrdy && !s.srp.verdicts.isEmpty then { s with srp.verdictSending := true } else s

/-- What both transmitters do of themselves once an event is over. -/
def State.settle (s : State) : State := s.beginVerdict.beginFrame

/-- A run of bytes on a line, taken one after another by `take`: after each byte, and so at the end of each frame within the run,
the transmitters begin what they may before the next byte comes (R148, R175, log 11). -/
def State.takeRun {α : Type} (take : α → State → State) (s : State) (run : List α) : State :=
  s.forEach run (fun b t => (take b t).settle)

/-- A command's event is over: the transmitters begin what they may. -/
def done (s : State) : Outcome := .next s.settle

/-- The meaning of a request row: its frame arrives and the event ends. -/
def answerTo (kind : Byte) (handle : State → State × Answer) (s : State) : Outcome := done (s.request kind handle)

end Sys2Proof.Machine
end

