-- ==== Sys2Proof/Machine/Tables.lean ====
section
/-!
DEFINITION. The hall tables' shared operations (chapter 1): the number lookup, the clearing and moving of a binding
with what it tells the Call Dispatcher (R113, R114), the finish and the withdrawal of a candidate (R16, R19), absence at
the late cutoff (R17) and the closing claim (R18).
-/

namespace Sys2Proof.Machine

/-! ### The number lookup (R14) -/

/-- The slot of the active record with a number (R14). -/
def State.activeSlot (s : State) (number : Nat) : Option Nat :=
  lowestWhere (fun o => o.any (fun c => c.number == number && c.state.active)) s.htu.cands

/-- The whole lookup: an active match, else the lowest slot that matches; with a sitting when one is given (R14). -/
def State.lookup (s : State) (number : Nat) (sitting : Option Nat) : Option Nat :=
  let matching (c : Candidate) : Bool := c.number == number && (sitting.all (fun k => c.sitting == k))
  match lowestWhere (fun o => o.any (fun c => matching c && c.state.active)) s.htu.cands with
  | some c => some c
  | none => lowestWhere (fun o => o.any matching) s.htu.cands

/-- The candidate bound to a seat, with its slot. -/
def State.boundTo (s : State) (i : Nat) : Option (Nat × Candidate) :=
  match (s.seat? i).bind (·.bound) with
  | some c => (s.cand? c).map (fun x => (c, x))
  | none => none

/-- A seat with the number of its bound candidate, as notices and READ_SEAT give it. -/
def State.boundNumber (s : State) (i : Nat) : Option (Nat × Nat) := (s.boundTo i).map (fun x => (x.1, x.2.number))

/-- The candidate's seat: its bound seat, else its finish seat, else absent (R127). -/
def Candidate.seat (c : Candidate) : Option Nat :=
  match c.bound with
  | some i => some i
  | none => c.finish

/-! ### What the HTU tells the Call Dispatcher -/

/-- A candidate's outstanding call becomes detached when its binding is cleared (R113). -/
def State.detachCalls (s : State) (c : Nat) : State :=
  let detach (x : Call) : Call := if x.slot == c then { x with seat := none } else x
  { s with cdp.calls := mapAll (Option.map detach) s.cdp.calls }

/-- A candidate's outstanding call is re-pointed to its new seat (R114). -/
def State.repointCalls (s : State) (c t : Nat) : State :=
  let repoint (x : Call) : Call := if x.slot == c then { x with seat := some t } else x
  { s with cdp.calls := mapAll (Option.map repoint) s.cdp.calls }

/-- A finishing or withdrawing candidate's call is cancelled if it is PENDING (R113). -/
def State.cancelPending (s : State) (c : Nat) : State :=
  let cancel (o : Option Call) : Option Call := if o.any (fun x => x.slot == c && x.state == .pending) then none else o
  { s with cdp.calls := mapAll cancel s.cdp.calls }

/-! ### Bindings -/

/-- Bind a seat and a candidate to each other; the seat becomes ASSIGNED (R15, R30, R33). -/
def State.bindSeat (s : State) (c i : Nat) : State :=
  (s.modSeat i (fun x => { x with state := .assigned, bound := some c })).modCand c (fun x => { x with bound := some i })

/-- A seat loses its bound candidate: a FAULTED seat stays FAULTED, unbound; any other becomes FREE. -/
def Seat.unbind (x : Seat) : Seat :=
  { x with bound := none, state := if x.state = .faulted then .faulted else .free }

/-- Would unbinding this seat release it, that is, make it FREE (R6)? -/
def State.freesOnUnbind (s : State) (i : Nat) : Bool := (s.seat? i).any (fun x => x.state != .faulted)

/-- A candidate's binding is cleared; the answer says whether its seat became FREE (R16 to R19). -/
def State.clearBinding (s : State) (c : Nat) : State × Bool :=
  match (s.cand? c).bind (·.bound) with
  | none => (s, false)
  | some i =>
    (((s.modSeat i Seat.unbind).modCand c (fun x => { x with bound := none })).detachCalls c, s.freesOnUnbind i)

/-- The bindings of several candidates are cleared, in order; the answer says whether any seat became FREE. -/
def State.clearBindings (s : State) (slots : List Nat) : State × Bool :=
  slots.foldl (fun (t : State × Bool) c =>
    let u := t.1.clearBinding c
    (u.1, t.2 || u.2)) (s, false)

/-- A binding move takes a candidate from its seat to the FREE seat `t` (R15). -/
def State.moveBinding (s : State) (c t : Nat) : State :=
  match s.cand? c with
  | none => s
  | some x =>
    let s1 := match x.bound with
      | some i => s.modSeat i Seat.unbind
      | none => s
    let s2 := (s1.bindSeat c t).modCand c (fun y => if y.state.seated then { y with relocating := true } else y)
    (s2.repointCalls c t).askRetryIf (x.bound.any s.freesOnUnbind)

/-- The state a repaired seat's binding requires (R9), which is also the state a FAULTED seat's display is derived
from (R84). -/
def State.bindingState (s : State) (x : Seat) : SeatState :=
  match x.bound.bind s.cand? with
  | none => if x.heldOrigin then .held else .free
  | some c =>
    match c.state with
    | .expected => .assigned
    | .present | .writing | .paused => if c.relocating then .assigned else .occupied
    | .finished | .withdrawn => .vacated
    | .waiting | .absent => .free

/-- The end of a candidate's paper (R16, and R19 for PRESENT and WRITING): the state, the finish seat, RELOCATING; then
the seat by the script record; then the pending call. The answer says whether the seat became FREE. -/
def State.retire (s : State) (c : Nat) (target : CandState) : State × Bool :=
  match s.cand? c with
  | none => (s, false)
  | some x =>
    let s1 := s.modCand c (fun y => { y with state := target, finish := y.bound, relocating := false })
    let r : State × Bool :=
      if x.owes then
        (match x.bound with
          | some i => s1.modSeat i (fun z =>
              if z.state = .assigned ∨ z.state = .occupied then { z with state := .vacated } else z)
          | none => s1, false)
      else s1.clearBinding c
    (r.1.cancelPending c, r.2)

/-- A finish claim of the Timing Engine; for a candidate no longer WRITING it is ignored (R16). -/
def State.finishClaim (s : State) (c : Nat) : State :=
  if (s.cand? c).any (fun x => x.state == .writing) then
    let r := s.retire c .finished
    r.1.askRetryIf r.2
  else s

/-- The Seat Allocator removes a candidate from the waiting queue, keeping the order of the others (R32). -/
def State.leaveQueue (s : State) (c : Nat) : State := { s with sal.queue := s.sal.queue.filter (· != c) }

/-- Absence at the late cutoff: each WAITING or EXPECTED candidate of the sitting becomes ABSENT, and one retry pass is
asked for if any seat became FREE. The answer is the number made absent (R17). -/
def State.absenceClaim (s : State) (k : Nat) : State × Nat :=
  let slots := s.slotsWhere (fun c => c.sitting == k && (c.state == .waiting || c.state == .expected))
  let s1 := s.forEach slots (fun c t => (t.leaveQueue c).modCand c (fun x => { x with state := .absent }))
  let r := s1.clearBindings slots
  (r.1.askRetryIf r.2, slots.length)

/-- The closing claim: the binding of every candidate of the sitting that has one is cleared, with one retry pass when
any seat became FREE. The answer is the number of seats unbound (R18). -/
def State.closingClaim (s : State) (k : Nat) : State × Nat :=
  let slots := s.slotsWhere (fun c => c.sitting == k && c.bound.isSome)
  let r := s.clearBindings slots
  (r.1.askRetryIf r.2, slots.length)

/-- Free every slot of a sitting with all four groups; a store slot that named one gets an empty reference (R11, R159).
The answer is the number of slots freed. -/
def State.freeSlotsOf (s : State) (k : Nat) : State × Nat :=
  let slots := s.slotsWhere (fun c => c.sitting == k)
  let s1 := s.forEach slots (fun c t => t.putCand c none)
  let unref (x : Stored) : Stored := if x.ref.any (fun c => slots.contains c) then { x with ref := none } else x
  ({ s1 with mke.store := mapAll (Option.map unref) s1.mke.store }, slots.length)

end Sys2Proof.Machine
end

