-- ==== Sys2Proof/Machine/Search.lean ====
section
/-!
DEFINITION. The seat search (R24 to R28), the creation of a candidate (R29, R30), the retry pass (R33) and relocation
(R36).
-/

namespace Sys2Proof.Machine

/-! ### The search -/

/-- The columns of a row in FILL_ORDER: under SERPENTINE an odd row runs down (R24, R26). -/
def columnOrder (fill : FillOrder) (row : Nat) : List Nat :=
  match fill with
  | .ascending => List.range 16
  | .serpentine => if row % 2 = 0 then List.range 16 else (List.range 16).reverse

/-- Every position in FILL_ORDER, rows ascending (R26). -/
def gridOrder (fill : FillOrder) : List Nat :=
  (List.range 24).flatMap (fun r => (columnOrder fill r).map (fun c => r * 16 + c))

/-- The positions SPACING_RULE names as neighbours that lie on the grid (R24, R27). -/
def neighbours (rule : SpacingRule) (i : Nat) : List Nat :=
  let row := (if i % 16 = 0 then [] else [i - 1]) ++ (if i % 16 = 15 then [] else [i + 1])
  let column := (if i < 16 then [] else [i - 16]) ++ (if i < 368 then [i + 16] else [])
  match rule with
  | .none => []
  | .row => row
  | .cross => row ++ column

/-- Is a position a desk bound to a candidate of sitting `k` other than the one in slot `c` (R27)? A candidate being
created has no slot. -/
def State.blocksSpacing (s : State) (k : Nat) (c : Option Nat) (i : Nat) : Bool :=
  (s.seat? i).any (fun x => x.kind == .seat) &&
    (s.boundTo i).any (fun b => b.2.sitting == k && c != some b.1)

/-- A seat qualifies: FREE, with every needed attribute, and no neighbour of the same sitting (R27). -/
def State.qualifies (s : State) (k : Nat) (needs : Attrs) (c : Option Nat) (i : Nat) : Bool :=
  (s.seat? i).any (fun x => x.state == .free && (needs &&& x.attrs) == needs) &&
    (neighbours s.cli.params.spacingRule i).all (fun j => !s.blocksSpacing k c j)

/-- Is the position examined in zone `z`, in the first pass or the second (R26, R28)? -/
def State.examined (s : State) (needs : Attrs) (z : Nat) (second : Bool) (i : Nat) : Bool :=
  (s.seat? i).any (fun x => x.kind == .seat && x.zone == z && (second || !x.attrs.getLsbD 0 || needs.getLsbD 0))

/-- The two passes over each zone of the list, in order; the first seat that qualifies ends the search (R28). -/
def State.searchZones (s : State) (k : Nat) (needs : Attrs) (c : Option Nat) (zones : List Nat) : Option Nat :=
  let passes : List (Nat × Bool) := zones.flatMap (fun z => [(z, false), (z, true)])
  passes.findSome? (fun p => (gridOrder s.cli.params.fillOrder).find? (fun i =>
    s.examined needs p.1 p.2 i && s.qualifies k needs c i))

/-- The route lookup: the entry of a paper code, or a miss (R21). -/
def State.route? (s : State) (p : Paper) : Option Route := s.sal.routes.find? (fun r => r.paper == p)

/-- The zones for ALLOCATE, ALLOCATE_RUN and the retry pass (R25). -/
def State.allocationZones (s : State) (k : Nat) : List Nat :=
  match s.route? (s.sitting k).paper with
  | some r => r.home :: r.overflow
  | none => [s.cli.params.defaultZone]

/-- The zones for a relocation: the faulted seat's zone, then the route's overflow zones without it (R25). -/
def State.relocationZones (s : State) (k i : Nat) : List Nat :=
  let z := ((s.seat? i).map (·.zone)).getD 0
  match s.route? (s.sitting k).paper with
  | some r => z :: r.overflow.filter (· != z)
  | none => [z]

/-- The full search for a candidate to be allocated. -/
def State.searchSeat (s : State) (k : Nat) (needs : Attrs) (c : Option Nat) : Option Nat :=
  s.searchZones k needs c (s.allocationZones k)

/-! ### Creating a candidate (R29, R30) -/

/-- The arguments of ALLOCATE that a run shares (R29, R31). -/
structure Entry where
  sitting : Nat
  needs : Attrs
  allowance : Nat
  restMinutes : Nat
  deriving DecidableEq, Repr

/-- A fresh record (R12). -/
def freshCandidate (number : Nat) (e : Entry) (unrouted : Bool) : Candidate where
  number := number
  sitting := e.sitting
  needs := e.needs
  state := .waiting
  bound := none
  finish := none
  lateAdmit := false
  relocating := false
  earlyLeave := false
  unrouted := unrouted
  shortfall := false
  checkIn := none
  allowance := e.allowance
  extension := 0
  restBudget := e.restMinutes * 60
  restUsed := 0
  pausedTotal := 0
  pauseStart := none
  issued := 0
  collected := 0
  lastStation := none
  summary := none

/-- Does the sitting admit new candidates: DEFINED, ARMED, READING, or WRITING below its cutoff (R29)? -/
def Sitting.admits (x : Sitting) : Bool :=
  match x.state with
  | .defined | .armed | .reading => true
  | .writing => x.clock < x.cutoff * 60
  | _ => false

/-- Check and create one candidate: the refusal, or the slot and the place given (R29, R30). No notice is sent here. -/
def State.createCandidate (s : State) (number : Nat) (e : Entry) : Except Answer (State × Nat × Placement) :=
  if !(s.sitting e.sitting).admits then
    .error (refuse .refusedState .none (.sittingState (s.sitting e.sitting).state))
  else
    match s.activeSlot number with
    | some c => .error (refuse .duplicate .none (.slot c))
    | none =>
      match lowestWhere (fun o => o.isNone) s.htu.cands with
      | none => .error (refuse .full .table)
      | some c =>
        let x := freshCandidate number e (s.route? (s.sitting e.sitting).paper).isNone
        match s.searchSeat e.sitting e.needs none with
        | some i => .ok ((s.putCand c (some { x with state := .expected })).bindSeat c i, c, .seated i)
        | none =>
          if s.sal.queue.length < 32 then
            let s1 := s.putCand c (some x)
            .ok ({ s1 with sal.queue := s1.sal.queue ++ [c] }, c, .queued (s.sal.queue.length + 1))
          else .error (refuse .full .queue)

/-- A ROUTE_MISS notice when the paper code of the sitting has no route (R30, R31). -/
def State.noteRouteMiss (s : State) (k c : Nat) : State :=
  match s.route? (s.sitting k).paper with
  | some _ => s
  | none => s.notify (.routeMiss k (s.sitting k).paper c)

/-- The numbers of a run, each as one ALLOCATE, until one is refused: what was placed, how many remain and the status
that stopped the run (R31). -/
def State.createRun (e : Entry) : Nat → Nat → State → State × List (Nat × Placement) × Nat × Option Status
  | 0, _, s => (s, [], 0, none)
  | n + 1, number, s =>
    match s.createCandidate number e with
    | .error a => (s, [], n + 1, some a.status)
    | .ok (t, c, p) =>
      let r := State.createRun e n (number + 1) t
      (r.1, (c, p) :: r.2.1, r.2.2)

/-! ### The retry pass and relocation -/

/-- One waiting candidate of the retry pass: seated, off the queue and noticed when a seat is found (R33). -/
def State.retryOne (c : Nat) (s : State) : State :=
  match s.cand? c with
  | none => s
  | some x =>
    match s.searchSeat x.sitting x.needs (some c) with
    | none => s
    | some i =>
      ((((s.bindSeat c i).modCand c (fun y => { y with state := .expected })).leaveQueue c).notify
        (.queueSeated c x.number x.sitting i))

/-- A retry pass walks the waiting queue once, from the oldest entry to the newest (R33). -/
def State.retryWalk (s : State) : State := s.forEach s.sal.queue State.retryOne

/-- Is the candidate in one of the four states the HTU asks relocation for (R7, R36)? -/
def CandState.relocatable : CandState → Bool
  | .expected | .present | .writing | .paused => true
  | _ => false

/-- The relocation of a candidate off its faulted seat (R36). -/
def State.relocate (s : State) (c i : Nat) : State :=
  match s.cand? c with
  | none => s
  | some x =>
    if x.state.relocatable && x.bound == some i then
      match s.searchZones x.sitting x.needs (some c) (s.relocationZones x.sitting i) with
      | some t => (s.moveBinding c t).notify (.relocated c x.number i t)
      | none => s.notify (.relocateFailed c x.number i)
    else s

/-- A fault claim on a seat (R7): the seat becomes FAULTED, SEAT_FAULT is sent, and relocation is asked for when the
bound candidate is in one of the four states. A FAULTED or ABSENT position ignores it. -/
def State.faultClaim (s : State) (i : Nat) (kind : FaultKind) : State :=
  match s.seat? i with
  | none => s
  | some x =>
    if x.state = .faulted ∨ x.state = .absent then s
    else
      let s1 := s.modSeat i (fun y =>
        { y with state := .faulted, fault := some kind, answering := false, heldOrigin := decide (x.state = .held) })
      let s2 := s1.notify (.seatFault i kind (s.boundNumber i))
      match s.boundTo i with
      | some (c, y) =>
        if y.state.relocatable then { s2 with sal.relocations := s2.sal.relocations ++ [(c, i)] } else s2
      | none => s2

/-- An answering claim: recorded on a FAULTED seat, ignored on any other (R8). -/
def State.answeringClaim (s : State) (i : Nat) (value : Bool) : State :=
  s.modSeat i (fun x => if x.state = .faulted then { x with answering := value } else x)

end Sys2Proof.Machine
end

