-- ==== Sys2Proof/Machine/Timing.lean ====
section
/-!
DEFINITION. The Timing Engine's shared operations: personal time (R62, R63), the mark lists (R64, R65), firing (R68 to
R70, R74), rest pauses (R72, R73), the start of writing (R50), the points of a sitting's second (R52 to R55), the
start of a sitting (R48, R49) and clock jumps (R41).
-/

namespace Sys2Proof.Machine

/-- A PHASE notice of a sitting as it now stands (R46). -/
def State.notePhase (s : State) (k : Nat) (cause : PhaseCause) : State :=
  let x := s.sitting k
  s.notify (.phase k x.state x.held x.clock cause)

/-- Is the phase clock a writing clock that advances (R46)? -/
def SittingState.writes : SittingState → Bool
  | .writing | .extended => true
  | _ => false

/-! ### Personal time (R62, R63) -/

/-- The extension in seconds: writing × allowance / 100, rounded up to a whole minute (R62). -/
def extensionOf (writing allowance : Nat) : Nat := ceilDiv (writing * allowance) 100 * 60

/-- The personal end in writing-clock seconds (R63). -/
def personalEnd (x : Sitting) (c : Candidate) : Nat := x.writing * 60 + c.extension + c.pausedTotal

/-- The warning point of a warning of `w` minutes (R63). -/
def warningPoint (x : Sitting) (c : Candidate) (w : Nat) : Nat := personalEnd x c - w * 60

/-- The reference second: the writing clock, or the pause start of a PAUSED candidate (R63). -/
def referenceSecond (x : Sitting) (c : Candidate) : Nat :=
  if c.state = .paused then c.pauseStart.getD x.clock else x.clock

/-- The personal time left (R63). -/
def timeLeft (x : Sitting) (c : Candidate) : Nat := personalEnd x c - referenceSecond x c

/-- The warning stage: the warnings whose point is at or below the reference second (R63). -/
def warningStage (x : Sitting) (c : Candidate) : Nat :=
  x.warnings.countP (fun w => warningPoint x c w ≤ referenceSecond x c)

/-- The rest time a candidate has left (R72). -/
def Candidate.restLeft (c : Candidate) : Nat := c.restBudget - c.restUsed

/-! ### Mark lists (R64, R65) -/

/-- The order of a mark list: due time, then slot (R64). -/
def MarkEntry.before (a b : MarkEntry) : Bool := a.due < b.due || (a.due == b.due && a.slot < b.slot)

/-- An entry takes its place in the list (R64). -/
def insertMark (e : MarkEntry) : List MarkEntry → List MarkEntry
  | [] => [e]
  | a :: rest => if e.before a then e :: a :: rest else a :: insertMark e rest

/-- A candidate's writing entry: the earliest of its warning points beyond `c` and its personal end (R65). -/
def writingEntry (x : Sitting) (slot : Nat) (cand : Candidate) (c : Nat) : MarkEntry :=
  let points := (x.warnings.zipIdx.map (fun w => (warningPoint x cand w.1, w.2 + 1))).filter (fun p => c < p.1)
  points.foldl (fun (e : MarkEntry) p => if p.1 < e.due then ⟨p.1, slot, .warn p.2⟩ else e)
    ⟨personalEnd x cand, slot, .finish⟩

/-- Insert an entry into a sitting's list. -/
def State.addMark (s : State) (k : Nat) (e : MarkEntry) : State :=
  s.modSitting k (fun x => { x with marks := insertMark e x.marks })

/-- Remove a candidate's entry from a sitting's list. -/
def State.dropMark (s : State) (k slot : Nat) : State :=
  s.modSitting k (fun x => { x with marks := x.marks.filter (fun e => e.slot != slot) })

/-- Insert a candidate's writing entry, chosen for the writing clock as it stands (R65). -/
def State.addWritingEntry (s : State) (slot : Nat) : State :=
  match s.cand? slot with
  | none => s
  | some c => s.addMark c.sitting (writingEntry (s.sitting c.sitting) slot c (s.sitting c.sitting).clock)

/-- Whenever the mark list of an EXTENDED sitting has been emptied, the sitting becomes COLLECTING and loses its HELD
flag (R54). -/
def State.collectIfEmpty (s : State) (k : Nat) : State :=
  if (s.sitting k).state = .extended ∧ (s.sitting k).marks = [] then
    (s.modSitting k (fun x => { x with state := .collecting, held := false, secondsDue := 0 })).notePhase k .listEmpty
  else s

/-! ### Resuming (R73) and firing (R68 to R70, R74) -/

/-- Steps 2 to 5 of a resume with paused length `d` (R73). -/
def State.resumeFor (s : State) (slot d : Nat) : State :=
  (s.modCand slot (fun c => { c with
    pausedTotal := c.pausedTotal + d, restUsed := c.restUsed + d, pauseStart := none, state := .writing
    })).addWritingEntry slot

/-- The candidate's REST call in service that is not marked expired, if there is one (R72, R116). -/
def State.liveRest (s : State) (slot : Nat) : Option Nat :=
  lowestWhere (fun o => o.any (fun (c : Call) =>
    c.slot == slot && c.kind == .rest && !c.expired && c.state != .pending)) s.cdp.calls

/-- A WARN entry fires: the next writing entry takes its place (R69). The stage is derived (R63). -/
def State.fireWarn (s : State) (slot : Nat) : State := s.addWritingEntry slot

/-- CAND_END, when the personal end differs from the base end (R70). -/
def State.noteCandEnd (s : State) (slot : Nat) : State :=
  match s.cand? slot with
  | none => s
  | some c =>
    let x := s.sitting c.sitting
    if personalEnd x c = x.writing * 60 then s
    else s.notify (.candEnd slot c.number c.sitting c.finish (personalEnd x c) c.extension c.pausedTotal)

/-- An END entry fires: the finish claim, then CAND_END (R70). A candidate no longer WRITING is not finished (R16). -/
def State.fireEnd (s : State) (slot : Nat) : State :=
  if (s.cand? slot).any (fun c => c.state == .writing) then (s.finishClaim slot).noteCandEnd slot else s

/-- A REST_EXPIRY entry fires: the resume with the whole rest left, the mark on the call, the notice (R74, R116). -/
def State.fireRest (s : State) (slot : Nat) : State :=
  match s.cand? slot with
  | none => s
  | some c =>
    if c.state = .paused then
      let call := s.liveRest slot
      let s1 := s.resumeFor slot c.restLeft
      let s2 := match call with
        | some i => s1.modCall i (fun x => { x with expired := true })
        | none => s1
      s2.notify (.restExpired slot c.number c.sitting c.bound call (c.restUsed + c.restLeft))
    else s

/-- A fired entry acts by its kind (R69, R70, R74). -/
def State.fireEntry (s : State) (e : MarkEntry) : State :=
  match e.kind with
  | .warn _ => s.fireWarn e.slot
  | .finish => s.fireEnd e.slot
  | .restExpiry => s.fireRest e.slot

/-- The first entry of a sitting's list is removed and acts, whole; an EXTENDED sitting whose list is then empty becomes
COLLECTING (R68, R54). -/
def State.fireHead (s : State) (k : Nat) : State :=
  match (s.sitting k).marks with
  | [] => s
  | e :: rest => ((s.modSitting k (fun x => { x with marks := rest })).fireEntry e).collectIfEmpty k

/-- Is the first entry of a sitting's list due (R68)? -/
def Sitting.headDue (x : Sitting) : Bool :=
  match x.marks with
  | [] => false
  | e :: _ => e.due ≤ x.clock

/-- Fire while the first entry is due, at most `n` times. -/
def State.fireUpTo (k : Nat) : Nat → State → State
  | 0, s => s
  | n + 1, s => if (s.sitting k).headDue then State.fireUpTo k n (s.fireHead k) else s

/-- Step 3 of a second: every due entry fires, in list order, entries inserted meanwhile included (R68). A candidate
fires at most twice at one clock value: a REST_EXPIRY, then the writing entry it inserts. -/
def State.fireDue (s : State) (k : Nat) : State := State.fireUpTo k (2 * (s.sitting k).marks.length) s

/-- An entry inserted due by an event other than a second fires at the end of that event; a held sitting fires none
(R65, R68). -/
def State.fireInserted (s : State) (k : Nat) : State :=
  if (s.sitting k).state.writes && !(s.sitting k).held then s.fireDue k else s

/-- A resume claim (R73): for a PAUSED candidate the entry is removed and the pause credited; otherwise no effect. -/
def State.resumeClaim (s : State) (slot : Nat) : State :=
  match s.cand? slot with
  | none => s
  | some c =>
    if c.state = .paused then
      let d := (s.sitting c.sitting).clock - c.pauseStart.getD (s.sitting c.sitting).clock
      (((s.dropMark c.sitting slot).resumeFor slot d).fireInserted c.sitting)
    else s

/-- A pause claim (R72): a WRITING candidate is PAUSED with a REST_EXPIRY entry; otherwise no effect. -/
def State.pauseClaim (s : State) (slot : Nat) : State :=
  match s.cand? slot with
  | none => s
  | some c =>
    if c.state = .writing then
      let now := (s.sitting c.sitting).clock
      ((((s.dropMark c.sitting slot).modCand slot (fun x => { x with pauseStart := some now, state := .paused })).addMark
        c.sitting ⟨now + c.restLeft, slot, .restExpiry⟩).fireInserted c.sitting)
    else s

/-- A candidate begins writing: the state, the extension, the writing entry (R62, R66, R67). -/
def State.beginWriting (slot : Nat) (s : State) : State :=
  match s.cand? slot with
  | none => s
  | some c =>
    (s.modCand slot (fun x => { x with
      state := .writing, extension := extensionOf (s.sitting c.sitting).writing x.allowance })).addWritingEntry slot

/-! ### The points of a second (R52 to R55) -/

/-- Has the point of the next sitting warning been reached (R52)? -/
def Sitting.warningReached (x : Sitting) : Bool :=
  match x.nextWarning with
  | 0 => false
  | i + 1 =>
    match x.warnings[i]? with
    | some w => (x.writing - w) * 60 ≤ x.clock
    | none => false

/-- Has the writing clock reached the late cutoff, not yet taken (R53)? -/
def Sitting.cutoffReached (x : Sitting) : Bool := x.state.writes && !x.cutoffTaken && x.cutoff * 60 ≤ x.clock

/-- Has the writing compare been reached (R54)? -/
def Sitting.compareReached (x : Sitting) : Bool := x.state = .writing && x.writing * 60 ≤ x.clock

/-- Has the reading compare been reached (R51)? -/
def Sitting.readingReached (x : Sitting) : Bool := x.state = .reading && x.reading * 60 ≤ x.clock

/-- The sitting warning whose point is reached, if any, is given (R52). -/
def State.giveWarning (s : State) (k : Nat) : State :=
  let x := s.sitting k
  if x.warningReached then
    (s.notify (.warning k x.nextWarning ((x.warnings[x.nextWarning - 1]?).getD 0))).modSitting k
      (fun y => { y with nextWarning := y.nextWarning + 1 })
  else s

/-- The late cutoff is taken: absence is claimed, counted and reported (R53). -/
def State.takeCutoff (s : State) (k : Nat) : State :=
  let r := (s.modSitting k (fun x => { x with cutoffTaken := true })).absenceClaim k
  (r.1.modSitting k (fun x => { x with absentCount := x.absentCount + r.2 })).notify (.lateCutoff k r.2)

/-- The late cutoff, if its point is reached (R53, R55). -/
def State.cutoffIfReached (s : State) (k : Nat) : State :=
  if (s.sitting k).cutoffReached then s.takeCutoff k else s

/-- The writing compare: EXTENDED with entries left, COLLECTING with none (R54). -/
def State.takeCompare (s : State) (k : Nat) : State :=
  if (s.sitting k).marks = [] then
    (s.modSitting k (fun x => { x with state := .collecting, secondsDue := 0 })).notePhase k .compare
  else (s.modSitting k (fun x => { x with state := .extended })).notePhase k .compare

/-- The writing compare, if its point is reached (R54, R55). -/
def State.compareIfReached (s : State) (k : Nat) : State :=
  if (s.sitting k).compareReached then s.takeCompare k else s

/-- The start of writing, one event in the five steps of R50. -/
def State.startWriting (s : State) (k : Nat) (cause : PhaseCause) : State :=
  let s1 := (s.modSitting k (fun x => { x with state := .writing, clock := 0, nextWarning := 1 })).notePhase k cause
  let s2 := s1.forEach (s1.slotsWhere (fun c => c.sitting == k && c.state == .present)) State.beginWriting
  ((s2.giveWarning k).cutoffIfReached k).fireInserted k

/-- The work of one second of a WRITING or EXTENDED sitting, in the order of R55. -/
def State.secondWork (s : State) (k : Nat) : State :=
  (((s.giveWarning k).cutoffIfReached k).fireDue k).compareIfReached k

/-- The phase clock advances by one, for one of the seconds owed to it (R51). -/
def State.advanceClock (s : State) (k : Nat) : State :=
  s.modSitting k (fun x => { x with clock := x.clock + 1, secondsDue := x.secondsDue - 1 })

/-- Does a second wait to be taken: the sitting runs, is not held, and a timebase second is owed (R51)? -/
def Sitting.secondWaits (x : Sitting) : Bool := x.state.running && !x.held && 0 < x.secondsDue

/-- A second of a sitting, whole: the clock, then that second's work (R51, R55). -/
def State.takeSecond (s : State) (k : Nat) : State :=
  let s1 := s.advanceClock k
  if (s1.sitting k).state = .reading then
    if (s1.sitting k).readingReached then s1.startWriting k .compare else s1
  else s1.secondWork k

/-- A point within a sitting's second, taken as a row of its own (log 4): when the point stands reached and not taken,
`take` takes it; when the next second owed to the sitting reaches it, that second is taken, whole (R55); otherwise the
point is not reached and nothing happens. -/
def State.atPoint (s : State) (k : Nat) (reached : Sitting → Bool) (take : State → State) : State :=
  let x := s.sitting k
  if x.state.running && !x.held && reached x then take s
  else if x.secondWaits && reached { x with clock := x.clock + 1 } then s.takeSecond k
  else s

/-! ### Starting a sitting and clock jumps -/

/-- A sitting starts: READING with its clock at 0, or writing at once when reading is 0 (R48, R49). -/
def State.startSittingNow (s : State) (k : Nat) : State :=
  let s1 := s.modSitting k (fun x => { x with scheduled := none, startDue := false, secondsDue := 0, clock := 0 })
  if (s1.sitting k).reading = 0 then s1.startWriting k .start
  else (s1.modSitting k (fun x => { x with state := .reading })).notePhase k .start

/-- The ARMED sittings whose scheduled start satisfies `p`, in ascending number. -/
def State.armedWhere (s : State) (p : HallTime → Bool) : List Nat :=
  indexesWhere (fun x => x.state == .armed && x.scheduled.any p) s.tme.sittings

/-- The sittings a clock jump from `t0` to `t1` starts (R41); `carried` says that a SYNC correction carried the clock
forward, over midnight or not. -/
def State.startedByJump (s : State) (t0 t1 : HallTime) (carried : Bool) : List Nat :=
  if carried then
    if t0.seconds < t1.seconds then
      s.armedWhere (fun t => decide (t0.seconds < t.seconds) && decide (t.seconds ≤ t1.seconds))
    else s.armedWhere (fun t => decide (t0.seconds < t.seconds) || t == HallTime.zero)
  else if t0.seconds < t1.seconds then
    s.armedWhere (fun t => decide (t0.seconds < t.seconds) && decide (t.seconds ≤ t1.seconds))
  else if t1.seconds < t0.seconds then s.armedWhere (fun t => t == t1)
  else []

/-- A clock jump (R41): the clock is set, the second count restarts, and the sittings the jump starts are started in
ascending number. The answer lists them. The model's choice: a start already reached by a timebase second and not yet taken by
its SCHEDULED_START row stays due through the jump, backward or forward (log 42). -/
def State.clockJump (s : State) (t1 : HallTime) (carried : Bool) : State × List Nat :=
  let started := s.startedByJump s.tme.hall t1 carried
  (({ s with tme.hall := t1, tme.secondCount := 0 }).forEach started (fun k t => t.startSittingNow k), started)

end Sys2Proof.Machine
end

