-- ==== Sys2Proof/Machine/CallOps.lean ====
section
/-!
DEFINITION. The Call Dispatcher's shared operations (chapter 6): raising a call (R101), the pending order (R102),
dispatch (R105), TAKE (R110), DONE (R111), cancelling (R112, R115), a handset going AWAY (R108), the handset display
(R109), and the issue claim of the Script Collection Unit (R120).
-/

namespace Sys2Proof.Machine

/-- The CALL_LEVEL parameter of a kind (R100). -/
def Params.level (p : Params) : CallKind → Nat
  | .query => p.levelQuery
  | .supply => p.levelSupply
  | .escort => p.levelEscort
  | .rest => p.levelRest
  | .alert => p.levelAlert

/-- The kind's own condition on the bound candidate (R101, condition 4). -/
def State.kindAllows (s : State) (kind : CallKind) (c : Candidate) : Bool :=
  match kind with
  | .query | .supply | .escort => c.state == .present || c.state == .writing
  | .rest => c.state == .writing && (s.sitting c.sitting).state.writes && c.restUsed < c.restBudget
  | .alert => true

/-- What a raise came to (R101): the condition that failed, or the new call's id. -/
inductive RaiseOutcome where
  | seatBusy (call : Nat)
  | listFull
  | noCandidate
  | kindRefused
  | accepted (call : Nat)
  deriving DecidableEq, Repr

/-- The conditions of a raise, tested in their order (R101). -/
def State.raiseOutcome (s : State) (seat : Nat) (kind : CallKind) : RaiseOutcome :=
  match s.callOfSeat seat with
  | some i => .seatBusy i
  | none =>
    match lowestWhere (fun o => o.isNone) s.cdp.calls with
    | none => .listFull
    | some i =>
      match s.boundTo seat with
      | none => .noCandidate
      | some (_, c) =>
        if !c.state.seated then .noCandidate
        else if s.kindAllows kind c then .accepted i
        else .kindRefused

/-- The new call of an accepted raise (R99). -/
def State.newCall (s : State) (seat slot : Nat) (kind : CallKind) : Call where
  seat := some seat
  slot := slot
  kind := kind
  level := s.cli.params.level kind
  raisedAt := s.tme.hall.seconds
  timer := 0
  state := .pending
  expired := false
  escalationDue := false

/-- A raise, one event at the dispatcher: an accepted one creates the call, and an accepted ALERT is followed by its
notice (R101, R104). -/
def State.raise (s : State) (seat : Nat) (kind : CallKind) (origin : Option Nat) : State × RaiseOutcome :=
  match s.raiseOutcome seat kind with
  | .accepted i =>
    match s.boundTo seat with
    | none => (s, .noCandidate)
    | some (slot, c) =>
      let s1 := s.putCall i (some (s.newCall seat slot kind))
      (if kind = .alert then s1.notify (.alertRaised i seat slot c.number (s.cli.params.level kind) origin) else s1,
        .accepted i)
  | refused => (s, refused)

/-! ### The pending order and dispatch -/

/-- The pending order: level, then raised at, then id (R102). -/
def pendingBefore (a b : Nat × Call) : Bool :=
  a.2.level < b.2.level || (a.2.level == b.2.level &&
    (a.2.raisedAt < b.2.raisedAt || (a.2.raisedAt == b.2.raisedAt && a.1 < b.1)))

/-- A call takes its place in the pending order. -/
def insertPending (e : Nat × Call) : List (Nat × Call) → List (Nat × Call)
  | [] => [e]
  | a :: rest => if pendingBefore e a then e :: a :: rest else a :: insertPending e rest

/-- The PENDING calls in the pending order, worked out whenever it is used (R102). -/
def State.pendingCalls (s : State) : List (Nat × Call) :=
  let all := (s.callsWhere (fun c => c.state == .pending)).filterMap (fun i => (s.call? i).map (fun c => (i, c)))
  all.foldl (fun l e => insertPending e l) []

/-- Is a sitting quiet (R105)? -/
def Sitting.isQuiet (x : Sitting) : Bool :=
  match x.state with
  | .writing => 0 < x.quiet && (x.writing - x.quiet) * 60 ≤ x.clock
  | .extended => true
  | _ => false

/-- Is a call dispatchable (R105)? -/
def State.dispatchable (s : State) (c : Call) : Bool :=
  match s.cand? c.slot with
  | none => false
  | some x => !(s.sitting x.sitting).isQuiet || c.level ≤ (s.sitting x.sitting).threshold

/-- The seat a call is dispatched by: its seat, or its candidate's finish seat when it is detached (R110, R113). -/
def State.callSeat (s : State) (c : Call) : Option Nat :=
  match c.seat with
  | some i => some i
  | none => (s.cand? c.slot).bind (·.finish)

/-- Does the handset's zone set hold the call's zone (R110)? -/
def State.zoneCovers (s : State) (h : Handset) (c : Call) : Bool :=
  ((s.callSeat c).bind s.seat?).any (fun x => h.zones.getLsbD x.zone)

/-- Is the call's level strictly below the level of the handset's top call, if it has one (R110)? -/
def State.belowTop (s : State) (h : Handset) (c : Call) : Bool :=
  match h.stack.getLast?.bind s.call? with
  | none => true
  | some t => c.level < t.level

/-- Would the PENDING call be eligible for the handset under step 2 of R110? -/
def State.eligible (s : State) (h : Handset) (c : Call) : Bool :=
  s.dispatchable c && s.zoneCovers h c && s.belowTop h c

/-- The eligible calls of a handset, in the pending order (R110). -/
def State.eligibleCalls (s : State) (h : Nat) : List Nat :=
  (s.pendingCalls.filter (fun e => s.eligible (s.handset h) e.2)).map (·.1)

/-- Set a handset's note, with 5 polls left (R109). -/
def State.setNote (s : State) (h : Nat) (n : Note) : State := s.modHandset h (fun x => { x with note := some ⟨n, 5⟩ })

/-- A TAKE from a handset (R110). The model's choice (log 44): an escalation of the call that is due and not yet taken by its row is
dropped by the TAKE, with the level as it stands (R103); the timer stands at its value, at or above ESCALATE_TIME_S, and should the
call return to PENDING it escalates at the next timebase second, not at the return. -/
def State.take (s : State) (h : Nat) : State :=
  if (s.handset h).state = .off then s
  else if 3 ≤ (s.handset h).stack.length then s.setNote h .none
  else
    match s.eligibleCalls h with
    | [] => s.setNote h .none
    | i :: _ =>
      let s1 := (s.modCall i (fun c => { c with state := .inService h, escalationDue := false })).modHandset h
        (fun x => { x with stack := x.stack ++ [i] })
      match s.call? i with
      | some c => if c.kind = .rest ∧ c.expired = false then s1.pauseClaim c.slot else s1
      | none => s1

/-- The issue claim: one more booklet, unless eight are issued; the answer says whether it was issued (R120). -/
def State.issueClaim (s : State) (slot : Nat) : State × Bool :=
  if (s.cand? slot).any (fun c => c.issued < 8) then
    (s.modCand slot (fun c => { c with issued := c.issued + 1 }), true)
  else (s, false)

/-- A call leaves its handset's stack, the others keeping their order. -/
def State.unstack (s : State) (h i : Nat) : State :=
  s.modHandset h (fun x => { x with stack := x.stack.filter (· != i) })

/-- What the removal of a call by DONE brings about, by its kind (R111). -/
def State.doneEffect (s : State) (i : Nat) (c : Call) : State :=
  match c.kind with
  | .rest => if c.expired then s else s.resumeClaim c.slot
  | .supply =>
    match s.cand? c.slot with
    | some x =>
      if x.state.seated then
        let r := s.issueClaim c.slot
        if r.2 then r.1 else r.1.notify (.issueLimit c.seat c.slot x.number i)
      else s
    | none => s
  | .query | .escort | .alert => s

/-- A DONE removes call `i` from handset `h`'s stack and from the call list (R111). -/
def State.finishCall (s : State) (h i : Nat) : State :=
  match s.call? i with
  | none => s
  | some c => ((s.unstack h i).putCall i none).doneEffect i c

/-- A DONE from a handset: of its top call, or of the call named (R111). -/
def State.doneCall (s : State) (h : Nat) (id : Option Nat) : State :=
  match id with
  | none =>
    if (s.handset h).note.any (fun n => n.note == .cancelled) then s
    else
      match (s.handset h).stack.getLast? with
      | none => s
      | some i => s.finishCall h i
  | some i => if i ∈ (s.handset h).stack then s.finishCall h i else s

/-- CANCEL_CALL's removal of a call, whatever its state (R112). -/
def State.cancelCall (s : State) (i : Nat) (c : Call) : State :=
  match c.state with
  | .pending => s.putCall i none
  | .inService h =>
    let s1 := (s.unstack h i).setNote h .cancelled
    let s2 := if c.kind = .rest ∧ c.expired = false then s1.resumeClaim c.slot else s1
    s2.putCall i none

/-- FORCE_CLOSE's cancellation of every call of a sitting, in ascending id; the answer is their number (R115). -/
def State.cancelSittingCalls (s : State) (k : Nat) : State × Nat :=
  let ids := s.callsOfSitting k
  let cancel (i : Nat) (t : State) : State :=
    match t.call? i with
    | some ⟨_, _, _, _, _, _, .inService h, _, _⟩ => ((t.unstack h i).setNote h .cancelled).putCall i none
    | _ => t.putCall i none
  (s.forEach ids cancel, ids.length)

/-! ### Handsets -/

/-- One call of a handset that goes AWAY returns to PENDING; a live REST call first ends its pause (R108). -/
def State.returnCall (i : Nat) (s : State) : State :=
  match s.call? i with
  | none => s
  | some c =>
    (if c.kind = .rest ∧ c.expired = false then s.resumeClaim c.slot else s).modCall i
      (fun x => { x with state := .pending })

/-- A handset goes AWAY, one event in the three steps of R108. -/
def State.handsetGoesAway (s : State) (h : Nat) : State :=
  let returned := (s.handset h).stack.reverse
  ((s.forEach returned State.returnCall).modHandset h
    (fun x => { x with stack := [], note := none, state := .away, awayDue := false })).notify (.handsetAway h returned)

/-- A handset is heard: its silence timer restarts, and an AWAY handset is ACTIVE again (R96, R108). The model's choice: going
AWAY, when due and not yet taken by its row, is dropped (log 40). -/
def State.handsetHeard (s : State) (h : Nat) : State :=
  s.modHandset h (fun x => { x with
    timer := 0, awayDue := false, state := if x.state = .away then .active else x.state })

/-- The waiting count: the PENDING calls that would be eligible for the handset now (R109). -/
def State.waitingCount (s : State) (h : Nat) : Nat := (s.eligibleCalls h).length

/-- The display a handset's poll frame carries (R109); an OFF handset still visited shows NONE and 0 (R106). -/
def State.handsetDisplay (s : State) (h : Nat) : HandsetDisplay :=
  let x := s.handset h
  if x.state = .off then ⟨.none, 0, 0⟩
  else
    let shown : HandsetShow :=
      match x.note with
      | some ⟨.none, _⟩ => .none
      | some ⟨.cancelled, _⟩ => .cancelled
      | none =>
        match x.stack.getLast? with
        | none => .none
        | some i =>
          match s.call? i with
          | none => .none
          | some c => .call i c.kind c.level (s.callSeat c) c.seat.isNone
    ⟨shown, x.stack.length, s.waitingCount h⟩

/-- A poll frame uses up one poll of a handset's note (R109). -/
def State.spendNote (s : State) (h : Nat) : State :=
  s.modHandset h (fun x => { x with
    note := x.note.bind (fun n => if n.polls ≤ 1 then none else some { n with polls := n.polls - 1 }) })

/-- Every PAUSED candidate is resumed, in ascending slot order, before a reset empties the calls (R73, R117). -/
def State.resumeAll (s : State) : State :=
  s.forEach (s.slotsWhere (fun c => c.state == .paused)) (fun c t => t.resumeClaim c)

/-- The calls of R117: every stack and the call list are emptied, and the handset records take the values of R106 with
each zone set kept. -/
def State.clearCalls (s : State) : State :=
  let floor := s.cli.params.floorUnits
  { s with
    cdp.calls := Vector.replicate 48 none
    cdp.handsets := s.cdp.handsets.mapIdx (fun h x =>
      ⟨if floor.getLsbD h then .active else .off, x.zones, [], 0, none, false⟩) }

end Sys2Proof.Machine
end

