-- ==== Sys2Proof/Machine/SweepOps.lean ====
section
/-!
DEFINITION. The Script Collection Unit's shared operations (chapter 7): what needs collection and the advance of a
channel (R130), the end of a sweep (R135), a tag read (R122 to R125), the order check (R132), a SKIP (R133) and the
re-examination of the channels (R134).
-/

namespace Sys2Proof.Machine

/-- A seat needs collection: bound to a FINISHED or WITHDRAWN candidate who owes booklets (R130). -/
def State.needsCollection (s : State) (i : Nat) : Bool :=
  (s.boundTo i).any (fun b => (b.2.state == .finished || b.2.state == .withdrawn) && b.2.owes)

/-- The seats an advance from `i` looks at, in the step direction, up to the end (R130). -/
def seatsAfter (stride : Stride) (i finish : Nat) : List Nat :=
  match stride with
  | .right => ((List.range 384).map (fun n => i + (n + 1))).takeWhile (fun j => j ≤ finish)
  | .down => ((List.range 24).map (fun n => i + 16 * (n + 1))).takeWhile (fun j => j ≤ finish)
  | .left => ((List.range i).map (fun n => i - (n + 1))).takeWhile (fun j => finish ≤ j)
  | .up => ((List.range (i / 16)).map (fun n => i - 16 * (n + 1))).takeWhile (fun j => finish ≤ j)

/-- The seat at which an advance from `i` ends, or none past the end (R130). -/
def State.nextSeat (s : State) (stride : Stride) (i finish : Nat) : Option Nat :=
  (seatsAfter stride i finish).find? s.needsCollection

/-- A channel ends its order with a SWEEP_DONE notice (R135). `last` is given for a stopped SWEEP. -/
def State.endChannel (s : State) (k : Nat) (stopped : Bool) : State :=
  let x := s.channel k
  let last := if stopped && x.state == .sweep then x.current else none
  (s.modChannel k (fun y => { y with state := .idle, current := none })).notify
    (.sweepDone k x.state stopped x.start x.finish x.stride last x.completed x.skipped x.outOfOrder)

/-- A SWEEP channel moves on from its current seat: to the next seat that needs collection, or to its end (R130). -/
def State.advance (s : State) (k : Nat) : State :=
  let x := s.channel k
  match x.stride, x.current, x.finish with
  | some st, some i, some e =>
    match s.nextSeat st i e with
    | some j => s.modChannel k (fun y => { y with current := some j })
    | none => s.endChannel k false
  | _, _, _ => s

/-- Is the channel in SWEEP at a seat that no longer needs collection? -/
def State.currentDone (s : State) (k : Nat) : Bool :=
  (s.channel k).state == .sweep && (s.channel k).current.any (fun i => !s.needsCollection i)

/-- A SWEEP channel leaves a current seat that no longer needs collection (R123, R125, R130, R134). -/
def State.advanceIfDone (s : State) (k : Nat) : State :=
  if s.currentDone k then (s.modChannel k (fun x => { x with completed := x.completed + 1 })).advance k else s

/-- Every SWEEP channel is looked at, in ascending number (R125, R134). -/
def State.advanceAll (s : State) : State := s.forEach [0, 1, 2, 3] (fun k t => t.advanceIfDone k)

/-! ### Tags -/

/-- The check byte of a tag: 255 minus the sum of its first six bytes modulo 256 (11.6). -/
def tagCheck (number : Word) (sitting sequence : Byte) : Nat :=
  let n := number.toNat
  255 - (n / 16777216 % 256 + n / 65536 % 256 + n / 256 % 256 + n % 256 + sitting.toNat + sequence.toNat) % 256

/-- Does a GOOD read stand up to the checks of R122? -/
def Tag.valid (t : Tag) : Bool :=
  t.check.toNat == tagCheck t.number t.sitting t.sequence && isNumber t.number.toNat && t.sitting.toNat < 8
    && 1 ≤ t.sequence.toNat && t.sequence.toNat ≤ 8

/-- The set with sequence number `n` in it (11.1). -/
def addCollected (b : Collected) (n : Nat) : Collected := b ||| (1#8 <<< (n - 1))

/-- Is sequence number `n` in the set? -/
def inCollected (b : Collected) (n : Nat) : Bool := b.getLsbD (n - 1)

/-- The completion of a candidate's collection: the HTU unbinds its seat, and the channels are looked at (R125, R18). -/
def State.completeCollection (s : State) (slot : Nat) : State :=
  let r := s.clearBinding slot
  (r.1.askRetryIf r.2).advanceAll

/-- The order check of a recorded tag at a SWEEP channel's station (R132). -/
def State.orderCheck (s : State) (k slot : Nat) (t : Tag) : State :=
  if (s.channel k).state = .sweep then
    match s.cand? slot with
    | none => s
    | some c =>
      if c.bound == (s.channel k).current || c.finish == (s.channel k).current then s
      else
        (s.addException .outOfOrder k (some t) c.seat).modChannel k
          (fun x => { x with outOfOrder := heldAdd 65535 x.outOfOrder })
  else s

/-- Steps 4 to 6 of R124 and steps 4 and 5 of R123: the booklet is recorded, with EARLY, the order check and the
completion as they apply. -/
def State.recordBooklet (s : State) (k slot : Nat) (c : Candidate) (t : Tag) : State :=
  let s1 := s.modCand slot (fun x => { x with
    collected := addCollected x.collected t.sequence.toNat, lastStation := some k })
  let s2 := if c.state.seated then s1.addException .early k (some t) c.seat else s1
  let s3 := s2.orderCheck k slot t
  let complete := (c.state == .finished || c.state == .absent || c.state == .withdrawn)
    && countBits (addCollected c.collected t.sequence.toNat) == c.issued
  if complete then s3.completeCollection slot else s3

/-- A GOOD tag read processed against the candidate table (R124). -/
def State.processTag (s : State) (k : Nat) (t : Tag) : State :=
  match s.lookup t.number.toNat (some t.sitting.toNat) with
  | none => s.addException .unknown k (some t) none
  | some slot =>
    match s.cand? slot with
    | none => s.addException .unknown k (some t) none
    | some c =>
      if c.issued < t.sequence.toNat then s.addException .overIssue k (some t) c.seat
      else if inCollected c.collected t.sequence.toNat then s.addException .duplicate k (some t) c.seat
      else s.recordBooklet k slot c t

/-- A tag read from station `k`, one event (R123): `none` is a read the station reports as MISREAD. -/
def State.tagRead (k : Nat) (read : Option Tag) (s : State) : State :=
  let s1 := s.advanceIfDone k
  match read with
  | none => s1.addException .misread k none none
  | some t => if t.valid then s1.processTag k t else s1.addException .misread k (some t) none

/-- A SKIP from station `k`, one event (R133). -/
def State.skip (s : State) (k : Nat) : State :=
  let s1 := s.advanceIfDone k
  if (s1.channel k).state = .sweep then
    ((s1.addException .missing k none (s1.channel k).current).modChannel k
      (fun x => { x with skipped := x.skipped + 1 })).advance k
  else s1

end Sys2Proof.Machine
end

