-- ==== Sys2Proof/Machine/MarkOps.lean ====
section
/-!
DEFINITION. The Marking Engine's shared operations (chapter 9): scoring (R157), the verdict on a sheet (R158), storing
and parking (R161), the block and batch steps (R164), the resume from WAIT_SPACE (R166), and rescoring (R170).
-/

namespace Sys2Proof.Machine

/-! ### Scoring (R157) -/

/-- The class of a question used (R157). -/
inductive AnswerClass where
  | unreadable | blank | correct | wrong
  deriving DecidableEq, Repr

/-- The class of a row judged by a question, tested in the order of R157. -/
def classify (q : Question) (row : MarkRow) : AnswerClass :=
  if row.quality = .unreadable then .unreadable
  else if row.options = 0 then .blank
  else
    match q.mode with
    | .single => if row.options = q.answers then .correct else .wrong
    | .any => if countBits row.options = 1 ∧ (row.options &&& q.answers) = row.options then .correct else .wrong

/-- The questions used, each with its class: those not withdrawn, question i by row i (R157). -/
def usedQuestions (key : Key) (rows : List MarkRow) : List (Question × AnswerClass) :=
  ((key.questions.zip rows).filter (fun p => !p.1.withdrawn)).map (fun p => (p.1, classify p.1 p.2))

/-- How many questions used fall into a class. -/
def countClass (used : List (Question × AnswerClass)) (c : AnswerClass) : Nat := used.countP (fun p => p.2 == c)

/-- The sum of the weights of the correct questions. -/
def gained (used : List (Question × AnswerClass)) : Nat :=
  ((used.filter (fun p => p.2 == .correct)).map (·.1.weight)).sum

/-- The maximum score under a key as it now stands: the weights of its questions not withdrawn (R157). -/
def Key.maxScore (key : Key) : Nat := ((key.questions.filter (fun q => !q.withdrawn)).map (·.weight)).sum

/-- The scoring result of R157, with a verdict and flags still to be given: the score is 0 when the sum is below 0. -/
def scoreSheet (key : Key) (rows : List MarkRow) : Result :=
  let used := usedQuestions key rows
  let wrong := countClass used .wrong
  { score := gained used - wrong * key.penalty
    max := (used.map (·.1.weight)).sum
    correct := countClass used .correct
    wrong := wrong
    blank := countClass used .blank
    unreadable := countClass used .unreadable
    verdict := .accept
    withdrawnSat := false
    uncollected := false
    remarked := false }

/-- The verdict of a stored sheet: REVIEW with any unreadable question, else ACCEPT (R158, R170). -/
def storedVerdict (unreadable : Nat) : Bin := if unreadable = 0 then .accept else .review

/-- A candidate's result under a key: the scoring, the verdict and the flags (R158, R170). -/
def resultFor (key : Key) (rows : List MarkRow) (c : Candidate) (remarked : Bool) : Result :=
  let r := scoreSheet key rows
  { r with
    verdict := storedVerdict r.unreadable
    withdrawnSat := c.state == .withdrawn
    uncollected := !inCollected c.collected 1
    remarked := remarked }

/-- The number of rows with the erasure-seen mark (R159). -/
def erasureCount (rows : List MarkRow) : Nat := rows.countP (·.erased)

/-! ### The verdict on a checked sheet (R158) -/

/-- The reasons a sheet of a batch is rejected for (R158, R164). -/
inductive RejectReason where
  | idNotFound | wrongSitting | formMismatch | notSat | tooUnreadable | lineFault
  deriving DecidableEq, Repr

/-- The judgement of a checked sheet: rejected, or to be stored for the candidate in a slot. -/
inductive Judgement where
  | reject (reason : RejectReason)
  | store (slot : Nat) (result : Result)
  deriving DecidableEq, Repr

/-- The verdict on a checked sheet, by the first row of R158's table that matches. -/
def State.judge (s : State) (x : Sheet) : Judgement :=
  let b := s.mke.batch
  if !isNumber x.number then .reject .idNotFound
  else if x.sitting ≠ b.sitting then .reject .wrongSitting
  else
    match s.lookup x.number (some b.sitting) with
    | none =>
      match s.lookup x.number none with
      | some _ => .reject .wrongSitting
      | none => .reject .idNotFound
    | some slot =>
      match s.cand? slot with
      | none => .reject .idNotFound
      | some c =>
        if x.form ≠ (s.key b.key).form then .reject .formMismatch
        else if c.state = .absent then .reject .notSat
        else
          let r := resultFor (s.key b.key) x.rows c false
          if b.tolerance < r.unreadable then .reject .tooUnreadable else .store slot r

/-- The storing kind: DUPLICATE when the candidate has a result slot at scoring (R158). -/
def State.storingKind (s : State) (slot : Nat) : StoreKind :=
  if ((s.cand? slot).bind (·.summary)).any (fun m => m.store.isSome) then .duplicate else .filled

/-- The bin the reader is told: REVIEW for a DUPLICATE (R158, R161). -/
def binFor (kind : StoreKind) (r : Result) : Bin :=
  match kind with
  | .filled => r.verdict
  | .duplicate => .review

/-! ### Storing (R161) -/

/-- The EMPTY slots of the batch's segment, ascending. -/
def State.emptySlots (s : State) : List Nat :=
  (indexesWhere (fun o => o.isNone) s.mke.store).filter (fun i =>
    s.mke.batch.segStart ≤ i && i ≤ s.mke.batch.segEnd)

/-- The result slot of a candidate, when present (R160). -/
def State.resultSlot (s : State) (slot : Nat) : Option Nat := ((s.cand? slot).bind (·.summary)).bind (·.store)

/-- Store a scored sheet in slot `i` (R161): FILLED sets the candidate's summary; DUPLICATE sends DUP_SHEET. -/
def State.storeSheet (s : State) (i : Nat) (p : Parked) : State :=
  let s1 := s.putStore i (some ⟨p.kind, some p.slot, p.sheet, p.result, p.erasures⟩)
  match p.kind with
  | .filled => s1.modCand p.slot (fun c => { c with summary := some ⟨p.result, some i⟩ })
  | .duplicate => s1.notify (.dupSheet p.slot (((s.cand? p.slot).map (·.number)).getD p.sheet.number) i
      (s.resultSlot p.slot) p.sheet.feed)

/-- No room: the sheet is parked, the batch becomes WAIT_SPACE and SEGMENT_FULL is sent (R161). -/
def State.park (s : State) (p : Parked) : State :=
  (({ s with srp.parked := some p }).modBatch (fun b => { b with state := .waitSpace })).notify
    (.segmentFull s.mke.batch.segStart s.mke.batch.segEnd p.sheet.feed p.slot)

/-! ### Batch steps (R164) -/

/-- Add to the block tallies and the totals alike (R164). -/
def Batch.count1 (b : Batch) (f : Tally → Tally) : Batch := { b with block := f b.block, totals := f b.totals }

/-- Count a reject under its reason (R164). -/
def Rejects.add (r : Rejects) : RejectReason → Rejects
  | .idNotFound => { r with idNotFound := r.idNotFound + 1 }
  | .wrongSitting => { r with wrongSitting := r.wrongSitting + 1 }
  | .formMismatch => { r with formMismatch := r.formMismatch + 1 }
  | .notSat => { r with notSat := r.notSat + 1 }
  | .tooUnreadable => { r with tooUnreadable := r.tooUnreadable + 1 }
  | .lineFault => { r with lineFault := r.lineFault + 1 }

/-- A rejected sheet is counted; a line fault also sets halt pending (R164). -/
def Batch.countReject (b : Batch) (reason : RejectReason) : Batch :=
  let b1 := b.count1 (fun t => { t with rejected := t.rejected + 1 })
  { b1 with rejects := b1.rejects.add reason, haltPending := b1.haltPending || reason == .lineFault }

/-- A sheet to be stored is counted: duplicate, or accepted or review by its verdict (R164). -/
def Batch.countStored (b : Batch) (kind : StoreKind) (r : Result) : Batch :=
  b.count1 (fun t =>
    match kind with
    | .duplicate => { t with duplicate := t.duplicate + 1 }
    | .filled => if r.verdict = .accept then { t with accepted := t.accepted + 1 } else { t with review := t.review + 1 })

/-- The sum of a tally. -/
def Tally.sum (t : Tally) : Nat := t.accepted + t.review + t.rejected + t.duplicate

/-- Does the block end here: its tallies add up to the block size, or no sheet remains (R164)? -/
def Batch.blockEnds (b : Batch) : Bool := b.block.sum == b.blockSize || b.remaining == 0

/-- Steps 3 to 5 of R164: the block end with BLOCK_DONE, the end of the batch, the halt. -/
def State.blockSteps (s : State) : State :=
  let b := s.mke.batch
  let s1 := if b.blockEnds then
      (s.notify (.blockDone b.blockNumber b.block b.rejects b.remaining)).modBatch (fun b => { b with
        blockNumber := b.blockNumber + 1, block := Tally.zero, rejects := Rejects.zero })
    else s
  if b.remaining = 0 then
    (s1.modBatch (fun b => { b with state := .idle, endCause := .complete, haltPending := false })).notify
      (.batchEnd b.sitting b.totals b.count b.haltPending)
  else if b.blockEnds && b.haltPending then
    (s1.modBatch (fun b => { b with state := .halted })).notify (.batchHalted b.blockNumber b.remaining b.totals)
  else s1

/-- Step 1 of R164. -/
def State.countSheet (s : State) : State := s.modBatch (fun b => { b with remaining := b.remaining - 1 })

/-- A fault report is taken as one sheet of the batch (R145, R164). -/
def State.takeFaultReport (s : State) : State :=
  (s.countSheet.modBatch (fun b => b.countReject .lineFault)).blockSteps

/-- A checked sheet is taken as one sheet of the batch; the answer is its bin, or none when it was parked (R146,
R164). -/
def State.takeSheet (s : State) (x : Sheet) : State × Option Bin :=
  let s1 := s.countSheet
  match s1.judge x with
  | .reject reason => ((s1.modBatch (fun b => b.countReject reason)).blockSteps, some .reject)
  | .store slot r =>
    let kind := s1.storingKind slot
    let p : Parked := ⟨x, slot, r, erasureCount x.rows, kind, binFor kind r⟩
    let s2 := s1.modBatch (fun b => b.countStored kind r)
    match s2.emptySlots with
    | i :: _ => ((s2.storeSheet i p).blockSteps, some p.bin)
    | [] => (s2.park p, none)

/-- A WAIT_SPACE batch resumes when its segment holds an EMPTY slot, in the four steps of R166. -/
def State.resumeBatch (s : State) : State :=
  if s.mke.batch.state = .waitSpace then
    match s.srp.parked, s.emptySlots with
    | some p, i :: _ =>
      let s1 := s.storeSheet i p
      let s2 := ({ s1 with srp.parked := none }).formVerdict p.sheet.feed p.bin
      (s2.modBatch (fun b => { b with state := .active })).blockSteps
    | _, _ => s
  else s

/-! ### Store slots -/

/-- Empty a store slot; a candidate whose result slot named it keeps the rest of its summary (R160, R167). -/
def State.emptyStore (s : State) (i : Nat) : State :=
  let clear (c : Candidate) : Candidate :=
    { c with summary := c.summary.map (fun m => if m.store == some i then { m with store := none } else m) }
  { s.putStore i none with htu.cands := mapAll (Option.map clear) s.htu.cands }

/-- RELEASE_SLOTS over its list: slots EMPTY already are passed over; the answer is the number made EMPTY (R167). -/
def State.releaseSlots (s : State) (ids : List Nat) : State × Nat :=
  ids.foldl (fun (r : State × Nat) i => if (r.1.stored? i).isSome then (r.1.emptyStore i, r.2 + 1) else r) (s, 0)

/-- One slot of REMARK: rescored, or counted as mismatched (R170). The counts are FILLED, DUPLICATE, mismatched. -/
def State.remarkSlot (key : Key) (i : Nat) (r : State × Nat × Nat × Nat) : State × Nat × Nat × Nat :=
  match r.1.stored? i with
  | none => r
  | some x =>
    match x.ref with
    | none => r
    | some slot =>
      match r.1.cand? slot with
      | none => r
      | some c =>
        if x.sheet.form ≠ key.form then (r.1, r.2.1, r.2.2.1, r.2.2.2 + 1)
        else
          let result := resultFor key x.sheet.rows c true
          let s1 := r.1.putStore i (some { x with result := result })
          match x.kind with
          | .filled =>
            (s1.modCand slot (fun c => { c with
              summary := some ⟨result, (c.summary.map (·.store)).getD (some i)⟩ }), r.2.1 + 1, r.2.2.1, r.2.2.2)
          | .duplicate => (s1, r.2.1, r.2.2.1 + 1, r.2.2.2)

/-- The batch under RESET(PORTS): a batch that is not IDLE becomes IDLE with end cause RESET (R162). -/
def Batch.portsReset (b : Batch) : Batch :=
  if b.state = .idle then b else { b with state := .idle, endCause := .reset, remaining := 0, haltPending := false }

end Sys2Proof.Machine
end

