-- ==== Sys2Proof/Machine/Layouts.lean ====
section
/-!
DEFINITION. The byte layouts of chapter 11: the CRC (11.2), the control frame with its reply and notice heads (11.2), the
unit link frames (11.4), the VERDICT message (11.5), the booklet tag (11.6) and the candidate read record (11.7).
-/

namespace Sys2Proof.Machine

/-! ### Integers on the line (11.1) -/

/-- Two bytes of a number, most significant first. -/
def be2 (n : Nat) : List Byte := [BitVec.ofNat 8 (n / 256), BitVec.ofNat 8 n]

/-- Four bytes of a number, most significant first. -/
def be4 (n : Nat) : List Byte := be2 (n / 65536) ++ be2 n

/-- One byte of a number. -/
def be1 (n : Nat) : List Byte := [BitVec.ofNat 8 n]

/-- An optional 2-byte field; absent is 0xFFFF. -/
def opt2 (n : Option Nat) : List Byte := be2 (n.getD 0xFFFF)

/-- An optional 1-byte field; absent is 0xFF. -/
def opt1 (n : Option Nat) : List Byte := be1 (n.getD 0xFF)

/-- A hall time: hours, minutes, seconds. -/
def HallTime.bytes (t : HallTime) : List Byte := be1 t.hour ++ be1 t.minute ++ be1 t.second

/-- An optional hall time; absent is 0xFF 0xFF 0xFF. -/
def optTime (t : Option HallTime) : List Byte :=
  match t with
  | some x => x.bytes
  | none => [0xFF#8, 0xFF#8, 0xFF#8]

/-! ### The CRC (11.2) -/

/-- One bit of the CRC's shift register: polynomial 0x1021. -/
def crcShift (c : Half) : Half := if c.getLsbD 15 then (c <<< 1) ^^^ 0x1021#16 else c <<< 1

/-- One byte taken by the CRC, its most significant bit first. -/
def crcByte (c : Half) (b : Byte) : Half :=
  crcShift (crcShift (crcShift (crcShift (crcShift (crcShift (crcShift (crcShift (c ^^^ (b ++ 0#8)))))))))

/-- The CRC of a run of bytes: initial value 0xFFFF, no final inversion. -/
def crc (bytes : List Byte) : Half := bytes.foldl crcByte 0xFFFF#16

/-- The two CRC bytes, most significant first. -/
def crcBytes (bytes : List Byte) : List Byte := be2 (crc bytes).toNat

/-! ### The control frame (11.2) -/

/-- A control frame on the line: SOF, length, kind, body, CRC. -/
def controlFrame (kind : Byte) (body : List Byte) : List Byte :=
  let covered := be2 body.length ++ [kind] ++ body
  [0xA5#8] ++ covered ++ crcBytes covered

/-- The code of a status (R176). -/
def Status.code : Status → Byte
  | .ok => 0x00
  | .queued => 0x01
  | .isPartial => 0x02
  | .badFrame => 0x10
  | .unknownKind => 0x11
  | .badLength => 0x12
  | .badArgument => 0x13
  | .notFound => 0x14
  | .refusedState => 0x15
  | .busy => 0x16
  | .full => 0x17
  | .duplicate => 0x18
  | .overrun => 0x19

/-- The code of a reason (11.2). -/
def Reason.code : Reason → Byte
  | .none => 0
  | .candidateState => 1
  | .targetState => 2
  | .targetNeeds => 3
  | .sittingState => 4
  | .noKey => 5
  | .keyState => 6
  | .noCandidate => 7
  | .sittingHeld => 8
  | .windowNotOpen => 9
  | .windowClosed => 10
  | .table => 11
  | .queue => 12

/-- The kind of a notice (11.2). -/
def NoticeBody.kind : NoticeBody → Byte
  | .phase .. => 0x60
  | .warning .. => 0x61
  | .lateCutoff .. => 0x62
  | .syncLost .. => 0x63
  | .candEnd .. => 0x64
  | .restExpired .. => 0x65
  | .seatFault .. => 0x66
  | .routeMiss .. => 0x67
  | .queueSeated .. => 0x68
  | .relocated .. => 0x69
  | .relocateFailed .. => 0x6A
  | .checkin .. => 0x6B
  | .checkinRefused .. => 0x6B
  | .wrongSeat .. => 0x6B
  | .linkSilent .. => 0x6D
  | .alertRaised .. => 0x6E
  | .handsetAway .. => 0x6F
  | .issueLimit .. => 0x70
  | .sweepDone .. => 0x71
  | .straySheet .. => 0x72
  | .dupSheet .. => 0x73
  | .segmentFull .. => 0x74
  | .blockDone .. => 0x75
  | .batchHalted .. => 0x76
  | .batchEnd .. => 0x77
  | .batchAborted .. => 0x77
  | .unitFault .. => 0x78

/-- The code of a bad frame's ending (11.2). -/
def BadEnding.code : BadEnding → Byte
  | .check => 0
  | .length => 1
  | .gap => 2
  | .framing => 3

/-- The kind byte of a frame on the transmit line (11.2). -/
def OutFrame.kind : OutFrame → Byte
  | .reply r => r.kind
  | .badFrame .. => 0xFF
  | .overrun .. => 0xFF
  | .notice _ n => n.body.kind

/-! ### State codes (11.1) -/

/-- The code of a seat state. -/
def SeatState.code : SeatState → Nat
  | .absent => 0
  | .free => 1
  | .held => 2
  | .assigned => 3
  | .occupied => 4
  | .vacated => 5
  | .faulted => 6

/-- The code of a candidate state. -/
def CandState.code : CandState → Nat
  | .waiting => 0
  | .expected => 1
  | .present => 2
  | .writing => 3
  | .paused => 4
  | .finished => 5
  | .absent => 6
  | .withdrawn => 7

/-- The code of a sitting state. -/
def SittingState.code : SittingState → Nat
  | .empty => 0
  | .defined => 1
  | .armed => 2
  | .reading => 3
  | .writing => 4
  | .extended => 5
  | .collecting => 6
  | .closed => 7

/-- The code of a call kind. -/
def CallKind.code : CallKind → Nat
  | .query => 1
  | .supply => 2
  | .escort => 3
  | .rest => 4
  | .alert => 5

/-- The code of a verdict or bin. -/
def Bin.code : Bin → Nat
  | .accept => 0
  | .review => 1
  | .reject => 2

/-! ### The candidate read record (11.7) -/

/-- The result part of the candidate read record, offsets 31 to 42. -/
def summaryBytes (m : Option Summary) : List Byte :=
  match m with
  | none => [0#8] ++ List.replicate 10 0#8 ++ [0xFF#8]
  | some x =>
    [1#8] ++ be2 x.result.score ++ be2 x.result.max ++ be1 x.result.correct ++ be1 x.result.wrong ++ be1 x.result.blank
      ++ be1 x.result.unreadable ++ be1 x.result.verdict.code ++ [x.result.flagsByte] ++ opt1 x.store

/-- The candidate read record, 43 bytes (11.7). -/
def Candidate.record (slot : Nat) (c : Candidate) : List Byte :=
  be2 slot ++ be4 c.number ++ be1 c.sitting ++ be1 c.needs.toNat ++ be1 c.state.code ++ opt2 c.bound ++ opt2 c.finish
    ++ [c.flagsByte] ++ optTime c.checkIn ++ be1 c.allowance ++ be2 c.extension ++ be2 c.restBudget ++ be2 c.restUsed
    ++ be2 c.pausedTotal ++ opt2 c.pauseStart ++ be1 c.issued ++ [c.collected] ++ opt1 c.lastStation
    ++ summaryBytes c.summary

/-! ### What a frame's body begins with (11.2) -/

/-- What the layouts fix of a reply's fields: the position a BAD_ARGUMENT refusal carries, the reason a refusal with
REFUSED_STATE, BUSY or FULL carries before its detail fields, the kind of an UNKNOWN_KIND reply, the values of GET_PARAM,
and the candidate read record (11.2, 11.3, 11.7). -/
def Reply.lead (r : Reply) : List Byte :=
  match r.body with
  | .badArgument p => be1 p
  | .refusal reason _ => if r.status = .refusedState ∨ r.status = .busy ∨ r.status = .full then [reason.code] else []
  | .unknownKind k => [k]
  | .params values => values.flatMap (fun v => be1 v.1 ++ be4 v.2)
  | .candidate slot c => c.record slot
  | _ => []

/-- The sub-kind byte that CHECKIN, CHECKIN_REFUSED and WRONG_SEAT, which share a kind, begin with (11.2). -/
def NoticeBody.subKind : NoticeBody → List Byte
  | .checkin .. => [0]
  | .checkinRefused .. => [1]
  | .wrongSeat .. => [2]
  | _ => []

/-- The head of the body of a frame on the transmit line, with the bytes the layouts fix after it (11.2; the further
fields are typed, log 23). -/
def OutFrame.head : OutFrame → List Byte
  | .reply r => [r.status.code, r.flags.byte] ++ r.lead
  | .badFrame flags count ending => [Status.badFrame.code, flags.byte] ++ be1 count ++ [ending.code]
  | .overrun flags count => [Status.overrun.code, flags.byte] ++ be1 count
  | .notice flags n => [flags.byte] ++ n.time.bytes ++ n.body.subKind

/-! ### Unit link frames (11.4) -/

/-- The address byte of a unit of a link: a seat id minus the link's first id, or a floor address. -/
def unitAddress (l : LinkName) (a : Nat) : Nat :=
  match l with
  | .floor => a
  | _ => a % 96

/-- A frame on a unit link: start, address, type, payload length, payload, CRC. -/
def linkFrame (address kind : Nat) (payload : List Byte) : List Byte :=
  let covered := be1 address ++ be1 kind ++ be1 payload.length ++ payload
  [0x7E#8] ++ covered ++ crcBytes covered

/-- The time code byte: the minute in bits 0 to 5, the sequence in bits 6 and 7. -/
def TimeCode.byte (c : TimeCode) : Byte := BitVec.ofNat 8 (c.minute + 64 * c.sequence)

/-- The code of a REFUSED display. -/
def RefusedCode.code : RefusedCode → Nat
  | .unknown => 1
  | .noSeat => 2
  | .call => 3

/-- The mode byte and the value of a seat display. -/
def SeatMode.codes : SeatMode → Nat × Nat
  | .blank => (0, 0)
  | .welcome n => (1, n)
  | .reading n => (2, n)
  | .writing n => (3, n)
  | .paused => (4, 0)
  | .finished => (5, 0)
  | .refused c => (6, c.code)
  | .goTo i => (7, i)

/-- The code of a CALL indicator. -/
def CallMark.code : CallMark → Nat
  | .none => 0
  | .pending => 1
  | .inService => 2

/-- The payload of a seat poll, 5 bytes. -/
def SeatDisplay.payload (d : SeatDisplay) : List Byte :=
  be1 d.mode.codes.1 ++ be2 d.mode.codes.2 ++ be1 (d.warning + 8 * d.call.code + bit d.held 5) ++ [0#8]

/-- The payload of a handset poll, 9 bytes. -/
def HandsetDisplay.payload (d : HandsetDisplay) : List Byte :=
  (match d.shown with
    | .none => [0#8, 0xFF#8, 0#8, 0#8] ++ be2 0xFFFF ++ [0#8]
    | .cancelled => [1#8, 0xFF#8, 0#8, 0#8] ++ be2 0xFFFF ++ [0#8]
    | .call i kind level seat detached =>
      [2#8] ++ be1 i ++ be1 kind.code ++ be1 level ++ opt2 seat ++ be1 (bit detached 0))
    ++ be1 d.depth ++ be1 d.waiting

/-- The code of a channel state. -/
def ChannelState.code : ChannelState → Nat
  | .idle => 0
  | .sweep => 1
  | .desk => 2

/-- The bytes of a frame the part sends on a unit link. -/
def UnitFrame.bytes : UnitFrame → List Byte
  | .broadcast c => linkFrame 0xFF 0x02 [c.byte]
  | .seatPoll i d => linkFrame (unitAddress .a i) 0x01 d.payload
  | .handsetPoll h d => linkFrame h 0x01 d.payload
  | .stationPoll k st cur => linkFrame (8 + k) 0x01 (be1 st.code ++ opt2 cur)
  | .clockPoll a t => linkFrame a 0x01 t.bytes

/-- The payload of a reply frame that passes the parts of R188's check that do not look into the payload: start, address,
type, length, CRC. -/
def checkedPayload (address : Nat) (frame : List Byte) : Option (List Byte) :=
  match frame with
  | start :: addr :: kind :: n :: rest =>
    let payload := rest.take n.toNat
    if start == 0x7E#8 && addr.toNat == address && kind == 0x81#8 && rest.drop n.toNat == crcBytes
        (addr :: kind :: n :: payload) && payload.length == n.toNat then some payload else none
  | _ => none

/-- A seat reply that passes its check: the card number read, 0 for none, the key, and the echo byte. -/
structure SeatReply where
  card : Nat
  key : Option CallKind
  echo : Byte
  deriving DecidableEq, Repr

/-- The key of a seat reply; a code outside its table fails the check. -/
def seatKeyOf (b : Byte) : Option (Option CallKind) :=
  match b.toNat with
  | 0 => some none
  | 1 => some (some .query)
  | 2 => some (some .supply)
  | 3 => some (some .escort)
  | 4 => some (some .rest)
  | _ => none

/-- The payload of a seat reply, 6 bytes. -/
def seatReplyOf (payload : List Byte) : Option SeatReply :=
  match payload with
  | [c3, c2, c1, c0, key, echo] => (seatKeyOf key).map (fun k => ⟨beNat [c3, c2, c1, c0], k, echo⟩)
  | _ => none

/-- The key of a handset reply (R96). -/
inductive HandsetKey where
  | none
  | take
  | done (id : Option Nat)
  | alert (seat : Nat)
  deriving DecidableEq, Repr

/-- The key of a handset reply with its 2-byte operand; 0xFFFF is TOP. -/
def handsetKeyOf (key : Byte) (operand : Nat) : Option HandsetKey :=
  match key.toNat with
  | 0 => some .none
  | 1 => some .take
  | 2 => some (.done (if operand = 0xFFFF then Option.none else some operand))
  | 3 => some (.alert operand)
  | _ => Option.none

/-- The payload of a handset reply, 4 bytes: the key and the echo. -/
def handsetReplyOf (payload : List Byte) : Option (HandsetKey × Byte) :=
  match payload with
  | [key, a1, a0, echo] => (handsetKeyOf key (beNat [a1, a0])).map (fun k => (k, echo))
  | _ => none

/-- One tag read of a station reply: GOOD with its tag, or MISREAD; a status outside its table fails the check. -/
def tagReadOf (bytes : List Byte) : Option (Option Tag) :=
  match bytes with
  | [status, n3, n2, n1, n0, sitting, sequence, check] =>
    match status.toNat with
    | 0 => some (some ⟨BitVec.ofNat 32 (beNat [n3, n2, n1, n0]), sitting, sequence, check⟩)
    | 1 => some none
    | _ => none
  | _ => none

/-- The tag reads of a station reply, in order. -/
def tagReadsOf : Nat → List Byte → Option (List (Option Tag))
  | 0, _ => some []
  | t + 1, bytes =>
    match tagReadOf (bytes.take 8), tagReadsOf t (bytes.drop 8) with
    | some r, some rest => some (r :: rest)
    | _, _ => none

/-- A station reply that passes its check (R97). -/
structure StationReply where
  reads : List (Option Tag)
  skip : Bool
  echo : Byte
  deriving DecidableEq, Repr

/-- The payload of a station reply, 3 + 8t bytes with t from 0 to 4. -/
def stationReplyOf (payload : List Byte) : Option StationReply :=
  match payload with
  | t :: rest =>
    if t.toNat ≤ 4 && rest.length == 8 * t.toNat + 2 then
      match tagReadsOf t.toNat rest, rest.drop (8 * t.toNat) with
      | some reads, [skip, echo] => if skip.toNat ≤ 1 then some ⟨reads, skip == 1#8, echo⟩ else none
      | _, _ => none
    else none
  | [] => none

/-- The payload of a wall clock reply, its echo alone. -/
def clockReplyOf (payload : List Byte) : Option Byte :=
  match payload with
  | [echo] => some echo
  | _ => none

/-! ### The VERDICT message (11.5) and the tag (11.6) -/

/-- The four bytes of a VERDICT message. -/
def Verdict.bytes (v : Verdict) : List Byte :=
  [0x56#8, v.feed] ++ be1 v.bin.code ++ be1 (255 - (0x56 + v.feed.toNat + v.bin.code) % 256)

end Sys2Proof.Machine
end

