-- ==== Sys2Proof/Machine/LinkOps.lean ====
section
/-!
DEFINITION. The Unit Link Controller's shared operations (chapter 5): the poll cycle (R82), the displays (R84, R85), the
outcome of a transaction with its runs and faults (R83, R89 to R91), check-in (R87), the key (R88), handset and station
replies (R96, R97), broadcasts and repeats (R93, R94), and the starting and stopping of links (R80, R81, R79).
-/

namespace Sys2Proof.Machine

/-! ### Poll cycles (R82) -/

/-- The first seat id of a seat link; the floor link's addresses start at 0. -/
def linkBase (l : LinkName) : Nat :=
  match l with
  | .floor => 0
  | _ => 96 * linkIndex l

/-- The number of addresses of a link. -/
def linkSize (l : LinkName) : Nat :=
  match l with
  | .floor => 20
  | _ => 96

/-- The addresses of a link, ascending. -/
def linkAddresses (l : LinkName) : List Nat := (List.range (linkSize l)).map (fun i => linkBase l + i)

/-- Is the address polled in a cycle that starts now: a position of kind SEAT, or an address in FLOOR_UNITS? -/
def State.isMember (s : State) (l : LinkName) (a : Nat) : Bool :=
  match l with
  | .floor => s.cli.params.floorUnits.getLsbD a
  | _ => (s.seat? a).any (fun x => x.kind == .seat)

/-- The members of a cycle that starts now. -/
def State.linkMembers (s : State) (l : LinkName) : List Nat := (linkAddresses l).filter (s.isMember l)

/-- Set the unit records of those of a link's addresses for which `p` holds to their reset values. -/
def State.resetUnits (s : State) (l : LinkName) (p : Nat → Bool) : State :=
  s.forEach ((linkAddresses l).filter p) (fun a t => t.modUnit l a (fun _ => UnitRec.atReset))

/-- A cycle starts: its members are fixed, and the record of a unit that is no member is dropped (R82). The model's
choice: a position made AISLE and then SEAT again before this cycle starts, or a floor address taken out of FLOOR_UNITS
and put back, is a member and keeps its record (R2 and R82 do not settle it; log 32). -/
def State.beginCycle (s : State) (l : LinkName) : State :=
  let m := s.linkMembers l
  (s.resetUnits l (fun a => !s.isMember l a)).modLink l (fun x => { x with
    members := m, toPoll := m, cycleOpen := true, current := none, heardInCycle := false })

/-! ### The seat display (R84, R85) -/

/-- The seat state a display is derived from: for a FAULTED seat, the state of its binding in R9's table (R84). -/
def State.displayState (s : State) (x : Seat) : SeatState :=
  match x.state with
  | .faulted => s.bindingState x
  | other => other

/-- The mode of a seat display (R84). A combination that R84's table does not list shows BLANK (log 16). -/
def State.seatMode (s : State) (x : Seat) : SeatMode :=
  match x.bound.bind s.cand? with
  | none => .blank
  | some c =>
    let k := s.sitting c.sitting
    match s.displayState x, c.state with
    | .assigned, _ => .welcome (c.number % 10000)
    | .occupied, .present =>
      if k.state = .reading then .reading (ceilDiv (k.reading * 60 - k.clock) 60) else .welcome (c.number % 10000)
    | .occupied, .writing => .writing (ceilDiv (timeLeft k c) 60)
    | .occupied, .paused => .paused
    | .vacated, _ => .finished
    | _, _ => .blank

/-- The WARNING indicator: the stage, in modes WRITING and PAUSED (R84). -/
def State.seatWarning (s : State) (x : Seat) : Nat :=
  match s.seatMode x, x.bound.bind s.cand? with
  | .writing _, some c => warningStage (s.sitting c.sitting) c
  | .paused, some c => warningStage (s.sitting c.sitting) c
  | _, _ => 0

/-- The CALL indicator (R84). -/
def State.callMark (s : State) (i : Nat) : CallMark :=
  match (s.callOfSeat i).bind s.call? with
  | none => .none
  | some c => if c.state = .pending then .pending else .inService

/-- The HELD indicator: the bound candidate's sitting has its HELD flag set (R84). -/
def State.heldMark (s : State) (x : Seat) : Bool :=
  (x.bound.bind s.cand?).any (fun c => (s.sitting c.sitting).held)

/-- The display derived for a seat; a BLANK display carries no indicators (R84). -/
def State.derivedDisplay (s : State) (i : Nat) : SeatDisplay :=
  match s.seat? i with
  | none => ⟨.blank, 0, .none, false⟩
  | some x =>
    match s.seatMode x with
    | .blank => ⟨.blank, 0, .none, false⟩
    | mode => ⟨mode, s.seatWarning x, s.callMark i, s.heldMark x⟩

/-- A one-shot in place of the derived record; it carries no indicators (R85, log 16). -/
def OneShot.display : OneShot → SeatDisplay
  | .refused c => ⟨.refused c, 0, .none, false⟩
  | .goTo i => ⟨.goTo i, 0, .none, false⟩

/-- The display a seat's poll frame carries (R84, R85). -/
def State.seatDisplay (s : State) (l : LinkName) (i : Nat) : SeatDisplay :=
  match (s.unit l i).oneShot with
  | some o => o.shot.display
  | none => s.derivedDisplay i

/-- A poll frame uses up one poll of a one-shot display (R85). -/
def State.spendOneShot (s : State) (l : LinkName) (i : Nat) : State :=
  s.modUnit l i (fun u => { u with
    oneShot := u.oneShot.bind (fun o => if o.polls ≤ 1 then none else some { o with polls := o.polls - 1 }) })

/-- Give a seat a one-shot display, with 5 polls left (R85). -/
def State.setOneShot (s : State) (l : LinkName) (i : Nat) (o : OneShot) : State :=
  s.modUnit l i (fun u => { u with oneShot := some ⟨o, 5⟩ })

/-! ### Poll frames -/

/-- The kind of a floor unit, by its address (00_scope Ports). -/
def unitKindOf (a : Nat) : UnitKind := if a < 8 then .handset else if a < 12 then .station else .clock

/-- The poll frame of a unit, formed as the tables stand (R84, R96, R97). -/
def State.formPoll (s : State) (l : LinkName) (a : Nat) : UnitFrame :=
  match l with
  | .floor =>
    match unitKindOf a with
    | .handset => .handsetPoll a (s.handsetDisplay a)
    | .station =>
      .stationPoll (a - 8) (s.channel (a - 8)).state
        (if (s.channel (a - 8)).state = .sweep then (s.channel (a - 8)).current else none)
    | .clock => .clockPoll a s.tme.hall
  | _ => .seatPoll a (s.seatDisplay l a)

/-- What the sending of a poll frame uses up: a poll of a seat's one-shot, or of a handset's note (R85, R109). -/
def State.spendPoll (s : State) (l : LinkName) (a : Nat) : State :=
  match l with
  | .floor => if a < 8 then s.spendNote a else s
  | _ => s.spendOneShot l a

/-- May the link poll its next unit: RUNNING, in a cycle, no transaction in progress and no broadcast waiting (R82,
R93)? -/
def Link.mayPoll (x : Link) : Bool := x.running && x.cycleOpen && x.current.isNone && !x.broadcastPending

/-- The next member of the cycle is polled: the frame goes out and its reply window opens (R82). -/
def State.pollNext (s : State) (l : LinkName) : State :=
  match (s.link l).mayPoll, (s.link l).toPoll with
  | true, a :: rest =>
    (s.modLink l (fun x => { x with sent := some (s.formPoll l a), current := some a, toPoll := rest })).spendPoll l a
  | _, _ => s

/-! ### The outcome of a transaction (R83) -/

/-- The four outcomes (R83). -/
inductive PollOutcome where
  | miss | good | stale | unset
  deriving DecidableEq, Repr

/-- The outcome of a reply that passes its check, by its echo byte against the link's history (R94, R188). -/
def Link.echoOutcome (x : Link) (echo : Byte) : PollOutcome :=
  if echo = 0xFF#8 then .unset
  else if x.history.contains ⟨echo.toNat % 64, echo.toNat / 64⟩ then .good
  else .stale

/-- The runs after an outcome, before any is set back (R83). -/
def UnitRec.count (u : UnitRec) : PollOutcome → UnitRec
  | .miss => { u with missRun := u.missRun + 1, goodRun := 0 }
  | .good => { u with missRun := 0, staleRun := 0, goodRun := min 3 (u.goodRun + 1) }
  | .stale => { u with missRun := 0, staleRun := u.staleRun + 1, goodRun := 0 }
  | .unset => { u with missRun := 0, goodRun := 0 }

/-- The fault a run that has reached 3 calls for, if any (R89, R91). -/
def UnitRec.faultReached (u : UnitRec) : Option FaultKind :=
  if 3 ≤ u.missRun then some .silent else if 3 ≤ u.staleRun then some .clock else none

/-- A miss run or invalid-echo run that has reached 3 is set back to 0 (R83). -/
def UnitRec.setBack (u : UnitRec) : UnitRec :=
  { u with
    missRun := if 3 ≤ u.missRun then 0 else u.missRun
    staleRun := if 3 ≤ u.staleRun then 0 else u.staleRun }

/-- Did this outcome bring the good run to 3 (R83, R90, R91)? -/
def reachesGood (before after : UnitRec) : Bool := before.goodRun < 3 && after.goodRun == 3

/-- A seat unit's runs and the claims they call for: the answering flag, then the fault (R89, R90). -/
def State.countSeat (s : State) (l : LinkName) (i : Nat) (o : PollOutcome) : State :=
  let u := s.unit l i
  let v := u.count o
  let s1 := s.modUnit l i (fun _ => v.setBack)
  let s2 := if o = .miss then s1.answeringClaim i false else s1
  let s3 := if reachesGood u v then s2.answeringClaim i true else s2
  match v.faultReached with
  | some k => s3.faultClaim i k
  | none => s3

/-- A floor unit's runs, its floor fault and the UNIT_FAULT notices (R91). -/
def State.countFloor (s : State) (a : Nat) (o : PollOutcome) : State :=
  let u := s.unit .floor a
  let v := u.count o
  let s1 := s.modUnit .floor a (fun _ => v.setBack)
  match v.faultReached, v.floorFault with
  | some k, none =>
    (s1.modUnit .floor a (fun x => { x with floorFault := some k })).notify (.unitFault a (unitKindOf a) (some k))
  | none, some _ =>
    if reachesGood u v then
      (s1.modUnit .floor a (fun x => { x with floorFault := none })).notify (.unitFault a (unitKindOf a) none)
    else s1
  | _, _ => s1

/-- A unit's runs after an outcome. -/
def State.countUnit (s : State) (l : LinkName) (a : Nat) (o : PollOutcome) : State :=
  match l with
  | .floor => s.countFloor a o
  | _ => s.countSeat l a o

/-- The reply window closes: no transaction is in progress. A reply that passes its check is remembered for the end of
the cycle and clears the silent-reported mark (R92); an unset one marks a repeat pending (R94). -/
def Link.closeWindow (x : Link) (o : PollOutcome) : Link :=
  match o with
  | .miss => { x with current := none }
  | .unset => { x with current := none, heardInCycle := true, silentReported := false, repeatPending := true }
  | _ => { x with current := none, heardInCycle := true, silentReported := false }

/-- The transaction with unit `a` ends with an outcome (R83). -/
def State.endPoll (s : State) (l : LinkName) (a : Nat) (o : PollOutcome) : State :=
  (s.modLink l (fun x => x.closeWindow o)).countUnit l a o

/-- A reply arrives on a link. With no transaction in progress it is discarded (R188); a reply that fails its check is
a miss; one that passes counts by its echo, and `take` then acts on its contents (R83, R86). -/
def State.onReply {α : Type} (s : State) (l : LinkName) (frame : List Byte) (read : Nat → List Byte → Option α)
    (echo : α → Byte) (take : Nat → α → State → State) : State :=
  match (s.link l).running, (s.link l).current with
  | true, some a =>
    match (checkedPayload (unitAddress l a) frame).bind (read a) with
    | none => s.endPoll l a .miss
    | some r => take a r (s.endPoll l a ((s.link l).echoOutcome (echo r)))
  | _, _ => s

/-! ### Check-in and the key (R86 to R88) -/

/-- An ASSIGNED seat becomes OCCUPIED at check-in; a FAULTED one stays FAULTED (R87). -/
def State.occupy (s : State) (i : Nat) : State :=
  s.modSeat i (fun x => if x.state = .assigned then { x with state := .occupied } else x)

/-- A check-in refused with a code: the one-shot and the notice (R87). -/
def State.refuseCheckIn (s : State) (l : LinkName) (i number : Nat) (code : RefusedCode) : State :=
  (s.setOneShot l i (.refused code)).notify (.checkinRefused i number code)

/-- An EXPECTED candidate is checked in before its sitting writes (R87). -/
def State.checkInOnTime (s : State) (i c : Nat) : State :=
  match s.cand? c with
  | none => s
  | some x =>
    let s1 := s.modCand c (fun y => { y with state := .present, checkIn := some s.tme.hall, issued := 1 })
    (s1.occupy i).notify (.checkin i c x.number x.sitting .onTime s.tme.hall)

/-- A late admission (R67, R87). -/
def State.checkInLate (s : State) (i c : Nat) : State :=
  match s.cand? c with
  | none => s
  | some x =>
    let s1 := s.modCand c (fun y => { y with lateAdmit := true, checkIn := some s.tme.hall, issued := 1 })
    (((s1.beginWriting c).occupy i).notify (.checkin i c x.number x.sitting .late s.tme.hall)).fireInserted x.sitting

/-- A moved or relocated candidate reads its card at its new desk (R87). -/
def State.checkInRelocated (s : State) (i c : Nat) : State :=
  match s.cand? c with
  | none => s
  | some x =>
    ((s.modCand c (fun y => { y with relocating := false })).occupy i).notify
      (.checkin i c x.number x.sitting .relocated s.tme.hall)

/-- What a card read comes to: the rows of R87's table. -/
inductive CardOutcome where
  | refused (code : RefusedCode)
  | wrongSeat (slot seat : Nat)
  | onTime (slot : Nat)
  | late (slot : Nat)
  | relocated (slot : Nat)
  | nothing
  deriving DecidableEq, Repr

/-- Does the outcome give the seat a one-shot display (R87, R88)? -/
def CardOutcome.shows : CardOutcome → Bool
  | .refused _ => true
  | .wrongSeat _ _ => true
  | _ => false

/-- The check-in of an EXPECTED candidate at its own seat, by the state of its sitting (R87). -/
def Sitting.checkInOutcome (k : Sitting) (c : Nat) : CardOutcome :=
  match k.state with
  | .defined | .armed | .reading => .onTime c
  | .writing => if k.clock < k.cutoff * 60 then .late c else .refused .unknown
  | _ => .refused .unknown

/-- A card read at seat `i` with a number, by the first row of R87's table that matches. -/
def State.cardOutcome (s : State) (i number : Nat) : CardOutcome :=
  match s.activeSlot number with
  | none => .refused .unknown
  | some c =>
    match s.cand? c with
    | none => .refused .unknown
    | some x =>
      if x.state = .waiting then .refused .noSeat
      else
        match x.bound with
        | none => .refused .unknown
        | some b =>
          if b ≠ i then .wrongSeat c b
          else if x.state = .expected then (s.sitting x.sitting).checkInOutcome c
          else if x.relocating then .relocated c
          else .nothing

/-- A check-in claim: the changes of the row that matches, then its notice (R87). The model's choice: a row that checks a
candidate in leaves a one-shot still standing at the seat, which runs out its polls (log 35). -/
def State.checkIn (s : State) (l : LinkName) (i number : Nat) : State :=
  match s.cardOutcome i number with
  | .refused code => s.refuseCheckIn l i number code
  | .wrongSeat c b => (s.setOneShot l i (.goTo b)).notify (.wrongSeat i number c (some b))
  | .onTime c => s.checkInOnTime i c
  | .late c => s.checkInLate i c
  | .relocated c => s.checkInRelocated i c
  | .nothing => s

/-- A key press: a raise, whose refusal shows REFUSED(CALL) unless the card read of the same reply set a one-shot
(R88). -/
def State.pressKey (s : State) (l : LinkName) (i : Nat) (kind : CallKind) (shown : Bool) : State :=
  let r := s.raise i kind none
  match r.2 with
  | .accepted _ => r.1
  | _ => if shown then r.1 else r.1.setOneShot l i (.refused .call)

/-- Are the contents of a seat's reply taken: it is not FAULTED, or it is answering (R86)? -/
def State.takesContents (s : State) (i : Nat) : Bool := (s.seat? i).any (fun x => x.state != .faulted || x.answering)

/-- The contents of a seat reply: the card read, then the key (R86). -/
def State.takeSeatReply (l : LinkName) (i : Nat) (r : SeatReply) (s : State) : State :=
  if s.takesContents i then
    let shown := r.card != 0 && (s.cardOutcome i r.card).shows
    let s1 := if r.card = 0 then s else s.checkIn l i r.card
    match r.key with
    | none => s1
    | some kind => s1.pressKey l i kind shown
  else s

/-! ### Handset and station replies (R96, R97) -/

/-- The key of a handset reply, after the handset has been reported heard (R96). -/
def State.handsetKey (s : State) (h : Nat) (key : HandsetKey) : State :=
  match key with
  | .none => s
  | .take => s.take h
  | .done id => s.doneCall h id
  | .alert i => (s.raise i .alert (some h)).1

/-- The contents of a handset reply; those of an address no longer in FLOOR_UNITS are discarded (R82, R96). -/
def State.takeHandsetReply (a : Nat) (r : HandsetKey × Byte) (s : State) : State :=
  if s.cli.params.floorUnits.getLsbD a then (s.handsetHeard a).handsetKey a r.1 else s

/-- The contents of a station reply: the tags in read order, then the SKIP (R97); discarded when the address has left
FLOOR_UNITS (R82). -/
def State.takeStationReply (a : Nat) (r : StationReply) (s : State) : State :=
  if s.cli.params.floorUnits.getLsbD a then
    let s1 := s.forEach r.reads (State.tagRead (a - 8))
    if r.skip then s1.skip (a - 8) else s1
  else s

/-! ### The time code (R93, R94) -/

/-- Advance a sequence value by 1, modulo 4. -/
def nextSequence (n : Nat) : Nat := (n + 1) % 4

/-- A broadcast goes out on a link with the minute as it stands (R93). A repeat still waiting is dropped (R94). -/
def State.broadcast (s : State) (l : LinkName) : State :=
  s.modLink l (fun x =>
    let code : TimeCode := ⟨s.tme.hall.minute, x.sequence⟩
    { x with
      broadcastPending := false, repeatPending := false, history := (code :: x.history).take 2,
      sequence := nextSequence x.sequence, sent := some (.broadcast code) })

/-- A pending broadcast is sent when the link runs and no transaction is in progress (R93). -/
def State.sendBroadcast (s : State) (l : LinkName) : State :=
  if (s.link l).running && (s.link l).broadcastPending && (s.link l).current.isNone then s.broadcast l else s

/-- Is a repeat to go out: pending, with the cycle's visits over and no broadcast waiting (R94)? -/
def Link.repeatDue (x : Link) : Bool :=
  x.running && x.repeatPending && !x.broadcastPending && x.current.isNone && (!x.cycleOpen || x.toPoll.isEmpty)

/-- The code at the head of the history is sent once more; a repeat with an empty history is not sent (R94). -/
def Link.sendRepeat (x : Link) : Link :=
  match x.history with
  | code :: _ => { x with repeatPending := false, sent := some (.broadcast code) }
  | [] => { x with repeatPending := false }

/-- A repeat that is due goes out (R94). -/
def State.sendRepeat (s : State) (l : LinkName) : State :=
  if (s.link l).repeatDue then s.modLink l Link.sendRepeat else s

/-- Is the cycle over: every member visited and no transaction in progress (R82)? -/
def Link.cycleOver (x : Link) : Bool := x.running && x.cycleOpen && x.toPoll.isEmpty && x.current.isNone

/-- Is an all-miss cycle to be reported (R92)? -/
def Link.silent (x : Link) : Bool := !x.members.isEmpty && !x.heardInCycle && !x.silentReported

/-- A poll cycle ends: LINK_SILENT for an all-miss cycle, then the repeat that is pending (R92, R94). -/
def State.endCycle (s : State) (l : LinkName) : State :=
  let s1 := if (s.link l).silent then
      (s.modLink l (fun x => { x with silentReported := true })).notify (.linkSilent l (s.link l).members.length)
    else s
  (s1.sendRepeat l).modLink l (fun x => { x with cycleOpen := false })

/-! ### Starting, stopping and restarting (R80, R81, R79) -/

/-- A link starts: RUNNING with its record restarted, the broadcast, the first cycle (R80). -/
def State.startLink (s : State) (l : LinkName) : State :=
  let s1 := (s.resetUnits l (fun _ => true)).modLink l (fun _ => { Link.atReset with running := true })
  (s1.broadcast l).beginCycle l

/-- A link stops: its record and its unit records take their reset values (R81). -/
def State.stopLink (s : State) (l : LinkName) : State :=
  (s.resetUnits l (fun _ => true)).modLink l (fun _ => Link.atReset)

/-- A link restarts in the state it is in (R79). -/
def State.restartLink (l : LinkName) (s : State) : State :=
  if (s.link l).running then s.startLink l else s.stopLink l

/-- Every link restarts (R79). -/
def State.restartLinks (s : State) : State := s.forEach allLinks State.restartLink

end Sys2Proof.Machine
end

