-- ==== Sys2Proof/Machine/ReaderOps.lean ====
section
/-!
DEFINITION. The Sheet Reader Port's shared operations (chapter 8): the assembly of a frame byte by byte (R141), the end of
a frame (R143 to R146), the frame gap (R142), RRDY (R139) and the resynchronisation (R150). `taken` is the run of bytes
taken after a frame's start marker; the frame in assembly is what they spell.
-/

namespace Sys2Proof.Machine

/-! ### What the bytes of a frame spell (R141) -/

/-- A count h is one the header allows: 1 to 15. -/
def countAllowed (h : Byte) : Bool := 1 ≤ h.toNat && h.toNat ≤ 15

/-- The length of the header field for a count h (8.3). -/
def headerLength (h : Byte) : Nat := 4 * ceilDiv (h.toNat + 1) 4

/-- The count byte, once taken. -/
def frameCount (taken : List Byte) : Option Byte := taken[0]?

/-- The feed sequence, once taken: the byte after the count. A frame is addressed when it has one (R143). -/
def feedOf (taken : List Byte) : Option Byte := taken[1]?

/-- Is the frame's count faulty (R141, step 1)? -/
def headerFault (taken : List Byte) : Bool := (frameCount taken).any (fun h => !countAllowed h)

/-- The six bytes of the ID block, when they have been received in full. -/
def idBytes (taken : List Byte) : Option (List Byte) :=
  match frameCount taken with
  | none => none
  | some h =>
    let id := (taken.drop (headerLength h)).take 6
    if countAllowed h && id.length == 6 then some id else none

/-- The candidate number and the sitting, when the ID block has been received in full (R144). -/
def idBlockOf (taken : List Byte) : Option (Nat × Nat) :=
  (idBytes taken).map (fun id => (beNat (id.take 4), ((id[4]?).getD 0).toNat))

/-- The form byte of a received ID block. -/
def formOf (id : List Byte) : Nat := ((id[5]?).getD 0).toNat

/-- The quality of a mark row byte; the fourth code is taken as UNREADABLE (R141, 11.5). -/
def qualityOf (b : Byte) : Quality :=
  match b.toNat / 32 % 4 with
  | 0 => .clean
  | 1 => .corrected
  | _ => .unreadable

/-- The mark row of a byte (11.5). -/
def rowOf (b : Byte) : MarkRow := ⟨b.truncate 5, qualityOf b, b.getLsbD 7⟩

/-- The further transport bytes kept: those after the feed sequence, three at most, as far as h includes them (R141). -/
def furtherOf (h : Byte) (taken : List Byte) : List Byte := (taken.drop 2).take (min 3 (h.toNat - 1))

/-- The checked sheet of a frame whose ID block and rows have been received (R146). -/
def sheetOf (h : Byte) (id taken : List Byte) : Sheet where
  number := beNat (id.take 4)
  sitting := ((id[4]?).getD 0).toNat
  form := formOf id
  rows := ((taken.drop (headerLength h + 6)).take (formRows (formOf id))).map rowOf
  feed := (feedOf taken).getD 0
  further := furtherOf h taken

/-- Where a frame stands after a byte: more is to come, or it has ended as the fault (or no fault) says (R141, R143). -/
inductive Progress where
  | more
  | ended (fault : Option FrameFault)
  deriving DecidableEq, Repr

/-- The frame once its last byte is in: the end marker, then the checksum over the ID block and the rows (R141, 5 and 6). -/
def frameVerdict (h : Byte) (rows : Nat) (taken : List Byte) : Option FrameFault :=
  let covered := (taken.drop (headerLength h)).take (6 + rows)
  if taken[headerLength h + 6 + rows + 2]? ≠ some 0x5D#8 then some .length
  else if (taken.drop (headerLength h + 6 + rows)).take 2 = crcBytes covered then none
  else some .check

/-- How far the bytes taken bring the frame (R141, R143). -/
def progress (taken : List Byte) : Progress :=
  match frameCount taken, feedOf taken with
  | some h, some _ =>
    if !countAllowed h then .ended (some .header)
    else
      match idBytes taken with
      | none => .more
      | some id =>
        if 3 < formOf id then .ended (some .length)
        else if taken.length < headerLength h + 6 + formRows (formOf id) + 3 then .more
        else .ended (frameVerdict h (formRows (formOf id)) taken)
  | _, _ => .more

/-! ### The end of a frame (R143 to R146) -/

/-- The counts after a frame's end (R138, R143). -/
def ReaderCounts.addEnd (n : ReaderCounts) (fault : Option FrameFault) (addressed : Bool) : ReaderCounts :=
  let n1 := { n with
    ended := heldAdd 65535 n.ended
    unaddressed := if addressed then n.unaddressed else heldAdd 65535 n.unaddressed }
  match fault with
  | none => { n1 with wellFormed := heldAdd 65535 n.wellFormed }
  | some .check => { n1 with check := heldAdd 65535 n.check }
  | some .length => { n1 with length := heldAdd 65535 n.length }
  | some .header => { n1 with header := heldAdd 65535 n.header }
  | some .torn => { n1 with torn := heldAdd 65535 n.torn }

/-- The port's record of a frame's end: the counts, and for a fault the last fault (R143). -/
def State.recordEnd (s : State) (taken : List Byte) (fault : Option FrameFault) : State :=
  { s with
    srp.counts := s.srp.counts.addEnd fault (feedOf taken).isSome
    srp.lastFault :=
      match fault with
      | some f => some ⟨f, feedOf taken, s.tme.hall⟩
      | none => s.srp.lastFault }

/-- A stray: counted, rejected and noticed (R144). -/
def State.takeStray (s : State) (taken : List Byte) (feed : Byte) (fault : Option FrameFault) : State :=
  (({ s with srp.counts.stray := heldAdd 65535 s.srp.counts.stray }).formVerdict feed .reject).notify
    (.straySheet feed fault (idBlockOf taken) s.mke.batch.state s.tme.hall)

/-- An addressed frame that ends while the batch is ACTIVE: a fault report or a checked sheet (R145, R146). -/
def State.handFrame (s : State) (taken : List Byte) (feed : Byte) (fault : Option FrameFault) : State :=
  match fault, frameCount taken, idBytes taken with
  | none, some h, some id =>
    let r := s.takeSheet (sheetOf h id taken)
    match r.2 with
    | some bin => r.1.formVerdict feed bin
    | none => r.1
  | _, _, _ => s.takeFaultReport.formVerdict feed .reject

/-- The end of a frame, one event: the record, then the frame is taken on by the batch state (R143, R144). -/
def State.endSheetFrame (s : State) (taken : List Byte) (fault : Option FrameFault) : State :=
  let s1 := s.recordEnd taken fault
  match feedOf taken with
  | none => s1
  | some feed =>
    if s1.mke.batch.state = .active then s1.handFrame taken feed fault else s1.takeStray taken feed fault

/-- The assembler's state. -/
def State.setAssembler (s : State) (a : Assembler) : State := { s with srp.assembler := a }

/-- The assembler after a frame's end: DRAIN after a LENGTH or HEADER fault decided by a byte, else HUNT (R143). -/
def afterEnd (taken : List Byte) (fault : Option FrameFault) : Assembler :=
  match fault with
  | some .length => .drain taken
  | some .header => .drain taken
  | _ => .hunt

/-- One byte on the reader's receive line (R139, R141). -/
def State.takeSheetByte (b : Byte) (s : State) : State :=
  if s.srp.rrdy then
    match s.srp.assembler with
    | .hunt => if b = 0x5B#8 then s.setAssembler (.assemble []) else s
    | .drain taken => s.setAssembler (.drain (taken ++ [b]))
    | .assemble taken =>
      match progress (taken ++ [b]) with
      | .more => s.setAssembler (.assemble (taken ++ [b]))
      | .ended fault =>
        (s.endSheetFrame (taken ++ [b]) fault).setAssembler (afterEnd (taken ++ [b]) fault)
  else s

/-- A run of bytes on the reader's receive line, one after another. -/
def State.takeSheetBytes (s : State) (run : List Byte) : State := s.takeRun State.takeSheetByte run

/-- A frame in ASSEMBLE is ended from outside by `fault`; one whose count is faulty and whose feed sequence has not come
ends as HEADER and unaddressed (R142, R143). -/
def State.cutFrame (s : State) (fault : FrameFault) : State :=
  match s.srp.assembler with
  | .assemble taken =>
    (s.endSheetFrame taken (some (if headerFault taken then .header else fault))).setAssembler .hunt
  | .drain _ => s.setAssembler .hunt
  | .hunt => s

/-- RRDY takes a level; when it falls, a frame in ASSEMBLE is torn and one in DRAIN discarded (R139). -/
def State.setRrdy (s : State) (level : Bool) : State :=
  let s1 := { s with srp.rrdy := level }
  if s.srp.rrdy && !level then s1.cutFrame .torn else s1

/-- A VERDICT has been sent: it leaves the list and is counted (R148). -/
def State.verdictSent (s : State) : State :=
  if s.srp.verdictSending then
    { s with
      srp.verdicts := s.srp.verdicts.tail
      srp.verdictSending := false
      srp.counts.sent := heldAdd 65535 s.srp.counts.sent }
  else s

/-! ### Resynchronisation (R150) -/

/-- A frame in assembly is abandoned, with a REJECT verdict when it is addressed and has not ended. -/
def State.abandonFrame (s : State) : State :=
  match s.srp.assembler with
  | .assemble taken =>
    match feedOf taken with
    | some feed => s.formVerdict feed .reject
    | none => s
  | _ => s

/-- A parked sheet is cleared with a REJECT verdict (R147, R150, R168). -/
def State.rejectParked (s : State) : State :=
  match s.srp.parked with
  | some p => ({ s with srp.parked := none }).formVerdict p.sheet.feed .reject
  | none => s

/-- The port is resynchronised, in the order of R150; the batch is set by the reset itself. -/
def State.resyncReader (s : State) : State :=
  let s1 := s.abandonFrame.rejectParked
  { s1 with srp.assembler := .hunt, srp.lastFault := none, srp.counts := ReaderCounts.zero }

end Sys2Proof.Machine
end

