-- ==== Sys2Proof/Machine/Seats.lean ====
section
/-!
DEFINITION. The meanings of the requests on the hall tables (chapter 1): DEFINE_SEATS, HOLD_SEAT, FREE_SEAT, REPAIR_SEAT,
READ_SEAT, WITHDRAW and READ_CANDIDATE.
-/

namespace Sys2Proof.Machine

/-- The state of a seat as a reply gives it. -/
def State.seatState (s : State) (i : Nat) : SeatState := ((s.seat? i).map (·.state)).getD .absent

/-- A seat with its resulting state, as the replies of WITHDRAW and MOVE give it. -/
def State.seatWithState (s : State) (i : Option Nat) : Option (Nat × SeatState) := i.map (fun j => (j, s.seatState j))

/-- The numbers from `first` to `last`. -/
def runOf (first last : Nat) : List Nat := (List.range (last + 1 - first)).map (fun n => first + n)

/-! ### DEFINE_SEATS (R2) -/

/-- The argument checks of DEFINE_SEATS; a zone and a set sent with AISLE are not looked at (R2, R187). -/
def defineSeatsChecks (first last : Half) (kind zone attrs : Byte) : List Bool :=
  let seat := seatKindOf kind == some .seat
  [isSeat first, isSeat last && first.toNat ≤ last.toNat, (seatKindOf kind).isSome, !seat || isEighth zone,
    !seat || isAttrs attrs]

/-- Does a position block DEFINE_SEATS: HELD, FAULTED or bound (R2)? -/
def Seat.blocksDefine (x : Seat) : Bool := x.state == .held || x.state == .faulted || x.bound.isSome

/-- A position with its new setup fields (R2). -/
def Seat.define (kind : SeatKind) (zone : Nat) (attrs : Attrs) (i : Nat) (x : Seat) : Seat :=
  match kind with
  | .seat => { x with kind := .seat, zone := zone, attrs := attrs, state := .free }
  | .aisle => { x with kind := .aisle, zone := i / 16 / 3, attrs := 0, state := .absent }

/-- Is the definition of a position a release: AISLE to SEAT, or a FREE seat whose zone or attributes change (R2, R6)? -/
def Seat.definedRelease (kind : SeatKind) (zone : Nat) (attrs : Attrs) (x : Seat) : Bool :=
  kind == .seat && (x.state == .absent || x.zone != zone || x.attrs != attrs)

/-- DEFINE_SEATS (R2). -/
def ansDefineSeats (first last : Half) (kind zone attrs : Byte) : State → State × Answer :=
  withArgs (defineSeatsChecks first last kind zone attrs) (fun s =>
    let ids := runOf first.toNat last.toNat
    let k := (seatKindOf kind).getD .seat
    match ids.find? (fun i => (s.seat? i).any Seat.blocksDefine) with
    | some i => (s, refuse .refusedState .none (.seat i))
    | none =>
      let s1 := s.forEach ids (fun i t => t.modSeat i (Seat.define k zone.toNat (attrsOf attrs) i))
      let released := ids.any (fun i => (s.seat? i).any (Seat.definedRelease k zone.toNat (attrsOf attrs)))
      (s1.askRetryIf released, ok (.positions ids.length)))

/-- DEFINE_SEATS. -/
def execDefineSeats (first last : Half) (kind zone attrs : Byte) : State → Outcome :=
  answerTo 0x01 (ansDefineSeats first last kind zone attrs)

/-! ### Holds and repairs (R4, R5, R9) -/

/-- HOLD_SEAT (R4). -/
def ansHoldSeat (seat : Half) : State → State × Answer :=
  withArgs [isSeat seat] (fun s =>
    if s.seatState seat.toNat = .free then
      (s.modSeat seat.toNat (fun x => { x with state := .held }), ok .none)
    else (s, refuse .refusedState .none (.seatState (s.seatState seat.toNat))))

/-- HOLD_SEAT. -/
def execHoldSeat (seat : Half) : State → Outcome := answerTo 0x02 (ansHoldSeat seat)

/-- Is the seat FAULTED, unbound and held before its fault (R5)? -/
def Seat.faultedHold (x : Seat) : Bool := x.state == .faulted && x.bound.isNone && x.heldOrigin

/-- FREE_SEAT (R5). -/
def ansFreeSeat (seat : Half) : State → State × Answer :=
  withArgs [isSeat seat] (fun s =>
    if s.seatState seat.toNat = .held then
      ((s.modSeat seat.toNat (fun x => { x with state := .free })).askRetry, ok .none)
    else if (s.seat? seat.toNat).any Seat.faultedHold then
      (s.modSeat seat.toNat (fun x => { x with heldOrigin := false }), ok .none)
    else (s, refuse .refusedState .none (.seatState (s.seatState seat.toNat))))

/-- FREE_SEAT. -/
def execFreeSeat (seat : Half) : State → Outcome := answerTo 0x03 (ansFreeSeat seat)

/-- Can the seat be repaired: FAULTED with the answering flag set (R9)? -/
def Seat.repairable (x : Seat) : Bool := x.state == .faulted && x.answering

/-- A seat returned to service in a state (R9). -/
def Seat.repair (target : SeatState) (x : Seat) : Seat :=
  { x with state := target, fault := none, answering := false, heldOrigin := false }

/-- REPAIR_SEAT (R9). -/
def ansRepairSeat (seat : Half) : State → State × Answer :=
  withArgs [isSeat seat] (fun s =>
    match s.seat? seat.toNat with
    | none => (s, refuse .refusedState)
    | some x =>
      if x.repairable then
        let target := s.bindingState x
        ((s.modSeat seat.toNat (Seat.repair target)).askRetryIf (target == .free), ok (.seatState target))
      else (s, refuse .refusedState))

/-- REPAIR_SEAT. -/
def execRepairSeat (seat : Half) : State → Outcome := answerTo 0x04 (ansRepairSeat seat)

/-- The records of some positions, each with its bound candidate's number (R10). -/
def State.seatRecords (s : State) (ids : List Nat) : List (Nat × Seat × Option Nat) :=
  ids.filterMap (fun i => (s.seat? i).map (fun x => (i, x, (s.boundNumber i).map (·.2))))

/-- READ_SEAT (R10). -/
def ansReadSeat (first : Half) (count : Byte) : State → State × Answer :=
  withArgs [isSeat first, 1 ≤ count.toNat && count.toNat ≤ 32 && first.toNat + count.toNat ≤ 384] (fun s =>
    (s, ok (.seats (s.seatRecords ((List.range count.toNat).map (fun n => first.toNat + n))))))

/-- READ_SEAT. -/
def execReadSeat (first : Half) (count : Byte) : State → Outcome := answerTo 0x05 (ansReadSeat first count)

/-! ### WITHDRAW (R19) -/

/-- May the candidate be withdrawn (R19)? -/
def CandState.withdrawable : CandState → Bool
  | .waiting | .expected | .present | .writing => true
  | _ => false

/-- The candidate becomes WITHDRAWN, by its previous state; the answer says whether its seat became FREE (R19). The model's
reading: R12 speaks of a finish seat for whoever withdraws while bound, R19 records one for PRESENT and WRITING alone, and a
candidate withdrawn while EXPECTED gets none (log 39). -/
def State.withdrawAs (s : State) (c : Nat) (x : Candidate) : State × Bool :=
  match x.state with
  | .waiting => ((s.leaveQueue c).modCand c (fun y => { y with state := .withdrawn }), false)
  | .expected => (s.modCand c (fun y => { y with state := .withdrawn })).clearBinding c
  | .writing => (s.dropMark x.sitting c).retire c .withdrawn
  | _ => s.retire c .withdrawn

/-- WITHDRAW (R19, R75). -/
def ansWithdraw (slot : Half) : State → State × Answer :=
  withArgs [isSlot slot] (fun s =>
    match s.cand? slot.toNat with
    | none => (s, notFound)
    | some x =>
      if x.state.withdrawable then
        let r := s.withdrawAs slot.toNat x
        let s1 := (r.1.askRetryIf r.2).collectIfEmpty x.sitting
        (s1, ok (.withdrawn slot.toNat x.state (s1.seatWithState x.bound)))
      else (s, refuse .refusedState))

/-- WITHDRAW. -/
def execWithdraw (slot : Half) : State → Outcome := answerTo 0x06 (ansWithdraw slot)

/-! ### READ_CANDIDATE (R20) -/

/-- Is the slot present in READ_CANDIDATE (R187)? -/
def slotGiven (slot : Half) : Bool := slot != 0xFFFF#16

/-- Is the number present in READ_CANDIDATE (R187)? -/
def numberGiven (number : Word) : Bool := number != 0#32

/-- The argument checks of READ_CANDIDATE: exactly one of slot and number; the sitting is ignored with the slot (R187). -/
def readCandidateChecks (slot : Half) (number : Word) (sitting : Byte) : List Bool :=
  [!slotGiven slot || isSlot slot,
    slotGiven slot != numberGiven number && (!numberGiven number || isNumber number.toNat),
    slotGiven slot || sitting == 0xFF#8 || isSitting sitting]

/-- The slot READ_CANDIDATE reads: the one given, or the one the lookup finds (R14, R20). -/
def State.candidateNamed (s : State) (slot : Half) (number : Word) (sitting : Byte) : Option Nat :=
  if slotGiven slot then some slot.toNat
  else s.lookup number.toNat (if sitting = 0xFF#8 then none else some sitting.toNat)

/-- READ_CANDIDATE (R20). -/
def ansReadCandidate (slot : Half) (number : Word) (sitting : Byte) : State → State × Answer :=
  withArgs (readCandidateChecks slot number sitting) (fun s =>
    match s.candidateNamed slot number sitting with
    | none => (s, notFound)
    | some c =>
      match s.cand? c with
      | none => (s, notFound)
      | some x => (s, ok (.candidate c x)))

/-- READ_CANDIDATE. -/
def execReadCandidate (slot : Half) (number : Word) (sitting : Byte) : State → Outcome :=
  answerTo 0x07 (ansReadCandidate slot number sitting)

end Sys2Proof.Machine
end

