-- ==== Sys2Proof/Machine/Allocation.lean ====
section
/-!
DEFINITION. The meanings of the Seat Allocator's commands (chapter 2): SET_ROUTE, CLEAR_ROUTE, READ_ROUTES, ALLOCATE,
ALLOCATE_RUN, READ_QUEUE, MOVE, RETRY_PASS and RELOCATION.
-/

namespace Sys2Proof.Machine

/-! ### Routes (R22, R23) -/

/-- An overflow list: at most three zones, each 0–7, none repeated and none the home zone (R22). -/
def isOverflow (home : Byte) (overflow : List Byte) : Bool :=
  overflow.length ≤ 3 && overflow.all isEighth && noRepeat (home.toNat :: overflow.map (·.toNat))

/-- An entry replaces the one with its paper code, in its place (R22). -/
def replaceRoute (e : Route) (routes : List Route) : List Route :=
  routes.map (fun r => if r.paper == e.paper then e else r)

/-- The routes after SET_ROUTE, or none when the table is full (R22). -/
def routesWith (e : Route) (routes : List Route) : Option (List Route) :=
  if routes.any (fun r => r.paper == e.paper) then some (replaceRoute e routes)
  else if routes.length < 16 then some (routes ++ [e])
  else none

/-- SET_ROUTE (R22). -/
def ansSetRoute (paper : Paper) (home : Byte) (overflow : List Byte) : State → State × Answer :=
  withArgs [isPaper paper, isEighth home, isOverflow home overflow] (fun s =>
    match routesWith ⟨paper, home.toNat, overflow.map (·.toNat)⟩ s.sal.routes with
    | none => (s, refuse .full)
    | some routes =>
      (({ s with sal.routes := routes }).askRetryIf (!s.sal.queue.isEmpty), ok (.routeCount routes.length)))

/-- SET_ROUTE. -/
def execSetRoute (paper : Paper) (home : Byte) (overflow : List Byte) : State → Outcome :=
  answerTo 0x08 (ansSetRoute paper home overflow)

/-- CLEAR_ROUTE (R23). -/
def ansClearRoute (paper : Paper) : State → State × Answer :=
  withArgs [isPaper paper] (fun s =>
    if s.sal.routes.any (fun r => r.paper == paper) then
      ({ s with sal.routes := s.sal.routes.filter (fun r => r.paper != paper) }, ok .none)
    else (s, notFound))

/-- CLEAR_ROUTE. -/
def execClearRoute (paper : Paper) : State → Outcome := answerTo 0x09 (ansClearRoute paper)

/-- READ_ROUTES (R23). -/
def ansReadRoutes (s : State) : State × Answer := (s, ok (.routes s.sal.routes))

/-- READ_ROUTES. -/
def execReadRoutes : State → Outcome := answerTo 0x0A ansReadRoutes

/-! ### ALLOCATE and ALLOCATE_RUN (R29 to R31) -/

/-- An allowance is 0–100 in steps of 5 (R29). -/
def isAllowance (b : Byte) : Bool := b.toNat ≤ 100 && b.toNat % 5 == 0

/-- A rest budget is 0–60 minutes (R29). -/
def isRest (b : Byte) : Bool := b.toNat ≤ 60

/-- The argument checks ALLOCATE and ALLOCATE_RUN share (R29). -/
def entryChecks (sitting needs allowance rest : Byte) : List Bool :=
  [isSitting sitting, isAttrs needs, isAllowance allowance, isRest rest]

/-- The shared arguments, decoded. -/
def entryOf (sitting needs allowance rest : Byte) : Entry :=
  ⟨sitting.toNat, attrsOf needs, allowance.toNat, rest.toNat⟩

/-- The status of an allocation that was taken (R30). -/
def Placement.status : Placement → Status
  | .seated _ => .ok
  | .queued _ => .queued

/-- ALLOCATE (R29, R30). -/
def ansAllocate (number : Word) (sitting needs allowance rest : Byte) : State → State × Answer :=
  withArgs (isNumber number.toNat :: entryChecks sitting needs allowance rest) (fun s =>
    match s.createCandidate number.toNat (entryOf sitting needs allowance rest) with
    | .error a => (s, a)
    | .ok (t, c, p) => (t.noteRouteMiss sitting.toNat c, ⟨p.status, .allocated c p⟩))

/-- ALLOCATE. -/
def execAllocate (number : Word) (sitting needs allowance rest : Byte) : State → Outcome :=
  answerTo 0x0B (ansAllocate number sitting needs allowance rest)

/-- The argument checks of a run's base and count: 1 to 64 numbers, none above the greatest (R31). -/
def runChecks (base : Word) (count : Byte) : List Bool :=
  [isNumber base.toNat, 1 ≤ count.toNat && count.toNat ≤ 64 && base.toNat + count.toNat - 1 ≤ 99999999]

/-- The one ROUTE_MISS of a run, for its first candidate, if it created any (R31). -/
def State.noteRunMiss (s : State) (k : Nat) (places : List (Nat × Placement)) : State :=
  match places with
  | [] => s
  | (c, _) :: _ => s.noteRouteMiss k c

/-- ALLOCATE_RUN (R31). -/
def ansAllocateRun (base : Word) (count sitting needs allowance rest : Byte) : State → State × Answer :=
  withArgs (runChecks base count ++ entryChecks sitting needs allowance rest) (fun s =>
    let r := State.createRun (entryOf sitting needs allowance rest) count.toNat base.toNat s
    (r.1.noteRunMiss sitting.toNat r.2.1,
      ⟨if r.2.2.1 = 0 then .ok else .isPartial, .run (count.toNat - r.2.2.1) r.2.2.1 r.2.1 r.2.2.2⟩))

/-- ALLOCATE_RUN. -/
def execAllocateRun (base : Word) (count sitting needs allowance rest : Byte) : State → Outcome :=
  answerTo 0x0C (ansAllocateRun base count sitting needs allowance rest)

/-! ### READ_QUEUE and MOVE (R34, R35) -/

/-- The waiting queue as READ_QUEUE gives it: position, slot, number, sitting and needs, oldest first (R34). -/
def State.queueEntries (s : State) : List (Nat × Nat × Nat × Nat × Attrs) :=
  s.sal.queue.zipIdx.filterMap (fun e =>
    (s.cand? e.1).map (fun c => (e.2 + 1, e.1, c.number, c.sitting, c.needs)))

/-- READ_QUEUE (R34). -/
def ansReadQueue (s : State) : State × Answer := (s, ok (.queue s.queueEntries))

/-- READ_QUEUE. -/
def execReadQueue : State → Outcome := answerTo 0x0D ansReadQueue

/-- Does the target lack a member of the candidate's needs (R35)? -/
def State.lacksNeeds (s : State) (needs : Attrs) (i : Nat) : Bool :=
  !(s.seat? i).any (fun x => (needs &&& x.attrs) == needs)

/-- MOVE (R35). -/
def ansMove (slot seat : Half) : State → State × Answer :=
  withArgs [isSlot slot, isSeat seat] (fun s =>
    match s.cand? slot.toNat with
    | none => (s, notFound)
    | some x =>
      if !x.state.relocatable then (s, refuse .refusedState .candidateState)
      else if s.seatState seat.toNat ≠ .free then
        (s, refuse .refusedState .targetState (.seatState (s.seatState seat.toNat)))
      else if s.lacksNeeds x.needs seat.toNat then (s, refuse .refusedState .targetNeeds)
      else
        let s1 := s.moveBinding slot.toNat seat.toNat
        (s1, ok (.moved slot.toNat (s1.seatWithState x.bound) seat.toNat)))

/-- MOVE. -/
def execMove (slot seat : Half) : State → Outcome := answerTo 0x0E (ansMove slot seat)

/-! ### RETRY_PASS and RELOCATION (R33, R36) -/

/-- RETRY_PASS: one of the passes asked for is taken (R33); with none asked for nothing happens (log 3). -/
def execRetryPass (s : State) : Outcome :=
  match s.sal.retryDue with
  | 0 => done s
  | n + 1 => done ({ s with sal.retryDue := n }).retryWalk

/-- RELOCATION: the oldest relocation asked for is taken (R36); with none asked for nothing happens (log 3, 19). -/
def execRelocation (s : State) : Outcome :=
  match s.sal.relocations with
  | [] => done s
  | (c, i) :: rest => done (({ s with sal.relocations := rest }).relocate c i)

end Sys2Proof.Machine
end

