-- ==== Sys2Proof/Machine/Sittings.lean ====
section
/-!
DEFINITION. The meanings of the requests on the timebase, the hall clock and the sittings (chapter 3): SET_TIMEBASE,
SET_HALL_TIME, READ_CLOCK, DEFINE_SITTING, START_SITTING, CANCEL_START, HOLD_SITTING, RESUME_SITTING, CLOSE_SITTING,
FORCE_CLOSE, CLEAR_SITTING and READ_SITTING.
-/

namespace Sys2Proof.Machine

/-! ### The timebase and the hall clock (R39, R42) -/

/-- The frequency the checks use: 10 000 kHz with INTERNAL (R39). -/
def usedFrequency (source : Byte) (frequency : Half) : Nat :=
  if sourceOf source = some .internal then 10000 else frequency.toNat

/-- P divides F, and the quotient is 1000–2500 (R39). -/
def isPrescale (f : Nat) (prescale : Byte) : Bool :=
  1 ≤ prescale.toNat && prescale.toNat ≤ 16 && f % prescale.toNat == 0 && 1000 ≤ f / prescale.toNat
    && f / prescale.toNat ≤ 2500

/-- The argument checks of SET_TIMEBASE (R39). -/
def setTimebaseChecks (source : Byte) (frequency : Half) (prescale syncMode : Byte) : List Bool :=
  let f := usedFrequency source frequency
  [(sourceOf source).isSome, 1000 ≤ f && f ≤ 40000, isPrescale f prescale, (syncModeOf syncMode).isSome]

/-- Does the sitting keep the timebase from being set (R39)? -/
def SittingState.holdsTimebase (x : SittingState) : Bool := x == .armed || x.running

/-- The settings SET_TIMEBASE puts in force. -/
def timebaseOf (source : Byte) (frequency : Half) (prescale syncMode : Byte) : Timebase :=
  ⟨(sourceOf source).getD .internal, usedFrequency source frequency, prescale.toNat, (syncModeOf syncMode).getD .off⟩

/-- SET_TIMEBASE (R39); no edge has been seen since the restart of the silence timer (R42, log 9), and a loss that is due
and not yet taken is dropped (log 33). -/
def ansSetTimebase (source : Byte) (frequency : Half) (prescale syncMode : Byte) : State → State × Answer :=
  withArgs (setTimebaseChecks source frequency prescale syncMode) (fun s =>
    match lowestWhere (fun x => x.state.holdsTimebase) s.tme.sittings with
    | some k => (s, refuse .busy .none (.sitting k))
    | none =>
      let settings := timebaseOf source frequency prescale syncMode
      ({ s with
          tme.timebase := settings
          tme.secondCount := 0
          tme.syncTimer := 0
          tme.sinceEdge := none
          tme.lastEdge := none
          tme.syncLostDue := false
          cli.flags.syncLost := false }, ok (.timebase settings)))

/-- SET_TIMEBASE. -/
def execSetTimebase (source : Byte) (frequency : Half) (prescale syncMode : Byte) : State → Outcome :=
  answerTo 0x0F (ansSetTimebase source frequency prescale syncMode)

/-- SET_HALL_TIME (R42). -/
def ansSetHallTime (hour minute second : Byte) : State → State × Answer :=
  withArgs [hour.toNat < 24, minute.toNat < 60, second.toNat < 60] (fun s =>
    let r := s.clockJump (timeOf hour minute second) false
    (r.1.askBroadcast, ok (.hallTime s.tme.hall (timeOf hour minute second) r.2)))

/-- SET_HALL_TIME. -/
def execSetHallTime (hour minute second : Byte) : State → Outcome := answerTo 0x10 (ansSetHallTime hour minute second)

/-- READ_CLOCK (R42). -/
def ansReadClock (s : State) : State × Answer :=
  (s, ok (.clock s.tme.hall s.tme.timebase s.cli.flags.syncLost s.tme.sinceEdge))

/-- READ_CLOCK. -/
def execReadClock : State → Outcome := answerTo 0x11 ansReadClock

/-! ### DEFINE_SITTING (R47) -/

/-- A list of warnings: at most four, each 1–120 and at most the writing length, strictly descending (R45, R47). -/
def isWarnings (writing : Nat) (warnings : List Byte) : Bool :=
  warnings.length ≤ 4 && warnings.all (fun w => 1 ≤ w.toNat && w.toNat ≤ 120 && w.toNat ≤ writing)
    && strictlyDescending (warnings.map (·.toNat))

/-- An optional key id (R187). -/
def keyIdOf (b : Byte) : Option Nat := if b = 0xFF#8 then none else some b.toNat

/-- The fields DEFINE_SITTING sets, in a sitting that is DEFINED (R45, R47). -/
def definedSitting (paper : Paper) (reading : Byte) (writing cutoff opening closing : Half) (warnings : List Byte)
    (quiet threshold scriptKind keyId : Byte) : Sitting :=
  { Sitting.atReset with
    paper := paper
    state := .defined
    reading := reading.toNat
    writing := writing.toNat
    cutoff := cutoff.toNat
    opening := opening.toNat
    closing := closing.toNat
    warnings := warnings.map (·.toNat)
    quiet := quiet.toNat
    threshold := threshold.toNat
    scriptKind := (scriptKindOf scriptKind).getD .booklet
    keyId := keyIdOf keyId }

/-- The argument checks of DEFINE_SITTING (R47). -/
def defineSittingChecks (sitting : Byte) (paper : Paper) (reading : Byte) (writing cutoff opening closing : Half)
    (warnings : List Byte) (quiet threshold scriptKind keyId : Byte) : List Bool :=
  let w := writing.toNat
  [isSitting sitting, isPaper paper, reading.toNat ≤ 60, 1 ≤ w && w ≤ 360, cutoff.toNat ≤ w, opening.toNat ≤ w,
    closing.toNat ≤ w && opening.toNat + closing.toNat ≤ w, isWarnings w warnings, quiet.toNat ≤ 30, isEighth threshold,
    (scriptKindOf scriptKind).isSome, keyId == 0xFF#8 || isEighth keyId]

/-- DEFINE_SITTING, its arguments checked and its record formed (R47). -/
def State.defineSitting (s : State) (k : Nat) (x : Sitting) : State × Answer :=
  match (s.sitting k).state with
  | .empty => ((s.modSitting k (fun _ => x)).notePhase k .define, ok .none)
  | .defined => ((s.modSitting k (fun _ => x)).askRetryIf (!s.sal.queue.isEmpty), ok .none)
  | other => (s, refuse .refusedState .none (.sittingState other))

/-- DEFINE_SITTING (R47). -/
def ansDefineSitting (sitting : Byte) (paper : Paper) (reading : Byte) (writing cutoff opening closing : Half)
    (warnings : List Byte) (quiet threshold scriptKind keyId : Byte) : State → State × Answer :=
  withArgs (defineSittingChecks sitting paper reading writing cutoff opening closing warnings quiet threshold scriptKind
      keyId) (fun s =>
    s.defineSitting sitting.toNat (definedSitting paper reading writing cutoff opening closing warnings quiet threshold
      scriptKind keyId))

/-- DEFINE_SITTING. -/
def execDefineSitting (sitting : Byte) (paper : Paper) (reading : Byte) (writing cutoff opening closing : Half)
    (warnings : List Byte) (quiet threshold scriptKind keyId : Byte) : State → Outcome :=
  answerTo 0x12 (ansDefineSitting sitting paper reading writing cutoff opening closing warnings quiet threshold
    scriptKind keyId)

/-! ### Starting (R48, R49) -/

/-- The start time of START_SITTING: NOW, or a time of day (R48, R187). -/
def isStartTime (hour minute second : Byte) : Bool :=
  isAbsentTime hour minute second || (timeOf hour minute second).valid

/-- Does the start come at once: NOW, or the hall time as it stands (R48)? -/
def State.startsNow (s : State) (hour minute second : Byte) : Bool :=
  isAbsentTime hour minute second || timeOf hour minute second == s.tme.hall

/-- A sitting becomes ARMED with a scheduled start (R48). -/
def State.armSitting (s : State) (k : Nat) (t : HallTime) : State :=
  (s.modSitting k (fun x => { x with state := .armed, scheduled := some t, startDue := false })).notePhase k .schedule

/-- START_SITTING (R48). -/
def ansStartSitting (sitting hour minute second : Byte) : State → State × Answer :=
  withArgs [isSitting sitting, isStartTime hour minute second] (fun s =>
    let x := s.sitting sitting.toNat
    if x.state ≠ .defined then (s, refuse .refusedState .none (.sittingState x.state))
    else if x.scriptKind = .sheet ∧ x.keyId = none then (s, refuse .refusedState .noKey)
    else
      let s1 := if s.startsNow hour minute second then s.startSittingNow sitting.toNat
        else s.armSitting sitting.toNat (timeOf hour minute second)
      (s1, ok (.started (s1.sitting sitting.toNat).state (s1.sitting sitting.toNat).scheduled)))

/-- START_SITTING. -/
def execStartSitting (sitting hour minute second : Byte) : State → Outcome :=
  answerTo 0x13 (ansStartSitting sitting hour minute second)

/-- CANCEL_START (R49). -/
def ansCancelStart (sitting : Byte) : State → State × Answer :=
  withArgs [isSitting sitting] (fun s =>
    if (s.sitting sitting.toNat).state = .armed then
      ((s.modSitting sitting.toNat (fun x => { x with state := .defined, scheduled := none, startDue := false })).notePhase
        sitting.toNat .cancel, ok .none)
    else (s, refuse .refusedState))

/-- CANCEL_START. -/
def execCancelStart (sitting : Byte) : State → Outcome := answerTo 0x14 (ansCancelStart sitting)

/-! ### Holds (R56, R57) -/

/-- Can the sitting be held: running with the HELD flag clear (R56)? -/
def Sitting.holdable (x : Sitting) : Bool := x.state.running && !x.held

/-- Can the sitting be resumed: running with the HELD flag set (R57)? -/
def Sitting.resumable (x : Sitting) : Bool := x.state.running && x.held

/-- A sitting number, or the byte of ALL (11.1). -/
def isSittingOrAll (b : Byte) : Bool := b == 0xFF#8 || isSitting b

/-- The sittings a request with ALL applies to, ascending; of a single number, that one if it applies. -/
def State.sittingsFor (s : State) (b : Byte) (p : Sitting → Bool) : List Nat :=
  if b = 0xFF#8 then indexesWhere p s.tme.sittings else if p (s.sitting b.toNat) then [b.toNat] else []

/-- One sitting is held; a second owed to its clock and not yet taken is lost (R51, R56, log 24). The model's choice: when several
seconds are owed, TIMEBASE_SECOND having come again before their SITTING_SECOND, all are lost, where R51 has at most one lost by each
hold (log 45). -/
def State.holdOne (k : Nat) (s : State) : State :=
  (s.modSitting k (fun x => { x with held := true, secondsDue := 0 })).notePhase k .hold

/-- One sitting is resumed (R57). -/
def State.resumeOne (k : Nat) (s : State) : State :=
  (s.modSitting k (fun x => { x with held := false, secondsDue := 0 })).notePhase k .resume

/-- The detail of a refused hold: the sitting's state and flag, for a single sitting (R56). -/
def State.holdDetail (s : State) (b : Byte) : Detail :=
  if b = 0xFF#8 then .none else .sittingHeld (s.sitting b.toNat).state (s.sitting b.toNat).held

/-- HOLD_SITTING (R56). -/
def ansHoldSitting (sitting : Byte) : State → State × Answer :=
  withArgs [isSittingOrAll sitting] (fun s =>
    match s.sittingsFor sitting Sitting.holdable with
    | [] => (s, refuse .refusedState .none (s.holdDetail sitting))
    | ids => (s.forEach ids State.holdOne, ok (.sittings ids)))

/-- HOLD_SITTING. -/
def execHoldSitting (sitting : Byte) : State → Outcome := answerTo 0x15 (ansHoldSitting sitting)

/-- RESUME_SITTING (R57). -/
def ansResumeSitting (sitting : Byte) : State → State × Answer :=
  withArgs [isSittingOrAll sitting] (fun s =>
    match s.sittingsFor sitting Sitting.resumable with
    | [] => (s, refuse .refusedState)
    | ids => (s.forEach ids State.resumeOne, ok (.sittings ids)))

/-- RESUME_SITTING. -/
def execResumeSitting (sitting : Byte) : State → Outcome := answerTo 0x16 (ansResumeSitting sitting)

/-! ### Ending a sitting (R58 to R60) -/

/-- The slots of a sitting's candidates who owe booklets (R58, R59, R61). -/
def State.owing (s : State) (k : Nat) : List Nat := s.slotsWhere (fun c => c.sitting == k && c.owes)

/-- Is the marking batch not IDLE and of this sitting (R58 to R60)? -/
def State.batchOf (s : State) (k : Nat) : Bool := s.mke.batch.state != .idle && s.mke.batch.sitting == k

/-- The three counts that keep a sitting from being closed (R58). -/
def State.closeCounts (s : State) (k : Nat) : Nat × Nat × Nat :=
  ((s.owing k).length, (s.callsOfSitting k).length, if s.batchOf k then 1 else 0)

/-- A sitting becomes CLOSED: the closing claim, then the sweep channels (R18, R134). The answer is the number of seats
unbound. -/
def State.closeSitting (s : State) (k : Nat) : State × Nat :=
  let r := (s.modSitting k (fun x => { x with state := .closed })).closingClaim k
  (r.1.advanceAll, r.2)

/-- CLOSE_SITTING (R58). -/
def ansCloseSitting (sitting : Byte) : State → State × Answer :=
  withArgs [isSitting sitting] (fun s =>
    let k := sitting.toNat
    if (s.sitting k).state ≠ .collecting then (s, refuse .refusedState .none (.sittingState (s.sitting k).state))
    else if s.closeCounts k = (0, 0, 0) then ((s.closeSitting k).1.notePhase k .close, ok .none)
    else (s, refuse .refusedState .none (.closeCounts (s.closeCounts k).1 (s.closeCounts k).2.1 (s.closeCounts k).2.2)))

/-- CLOSE_SITTING. -/
def execCloseSitting (sitting : Byte) : State → Outcome := answerTo 0x17 (ansCloseSitting sitting)

/-- FORCE_CLOSE (R59, R115). -/
def ansForceClose (sitting : Byte) : State → State × Answer :=
  withArgs [isSitting sitting] (fun s =>
    let k := sitting.toNat
    if (s.sitting k).state ≠ .collecting then (s, refuse .refusedState)
    else if s.batchOf k then (s, refuse .busy)
    else
      let calls := s.cancelSittingCalls k
      let short := calls.1.owing k
      let s1 := calls.1.forEach short (fun c t => t.modCand c (fun x => { x with shortfall := true }))
      let closed := s1.closeSitting k
      (closed.1.notePhase k .force, ok (.forceClosed calls.2 short.length closed.2)))

/-- FORCE_CLOSE. -/
def execForceClose (sitting : Byte) : State → Outcome := answerTo 0x18 (ansForceClose sitting)

/-- The number of candidate records of a sitting. -/
def State.candidatesOf (s : State) (k : Nat) : Nat := s.countCands (fun c => c.sitting == k)

/-- May the sitting be cleared: CLOSED, or DEFINED or ARMED with no candidate (R60)? -/
def State.clearable (s : State) (k : Nat) : Bool :=
  match (s.sitting k).state with
  | .closed => true
  | .defined | .armed => s.candidatesOf k == 0
  | _ => false

/-- CLEAR_SITTING (R60). -/
def ansClearSitting (sitting : Byte) : State → State × Answer :=
  withArgs [isSitting sitting] (fun s =>
    let k := sitting.toNat
    if !s.clearable k then (s, refuse .refusedState .none (.clearState (s.sitting k).state (s.candidatesOf k)))
    else if (s.sitting k).state == .closed && s.batchOf k then (s, refuse .busy)
    else
      let r := s.freeSlotsOf k
      ((r.1.modSitting k (fun _ => Sitting.atReset)).notePhase k .clear, ok (.slotsFreed r.2)))

/-- CLEAR_SITTING. -/
def execClearSitting (sitting : Byte) : State → Outcome := answerTo 0x19 (ansClearSitting sitting)

/-! ### READ_SITTING (R61) -/

/-- The eight candidate states in the order of their codes. -/
def allCandStates : List CandState := [.waiting, .expected, .present, .writing, .paused, .finished, .absent, .withdrawn]

/-- The number of a sitting's candidates in each state (R61). -/
def State.countByState (s : State) (k : Nat) : List Nat :=
  allCandStates.map (fun st => s.countCands (fun c => c.sitting == k && c.state == st))

/-- The seconds left of the reading period, or to the base end (R61). -/
def Sitting.secondsLeft (x : Sitting) : Option Nat :=
  match x.state with
  | .reading => some (x.reading * 60 - x.clock)
  | .writing => some (x.writing * 60 - x.clock)
  | _ => none

/-- READ_SITTING (R61); whether the late cutoff has been taken is a field of the record. -/
def ansReadSitting (sitting : Byte) : State → State × Answer :=
  withArgs [isSitting sitting] (fun s =>
    let k := sitting.toNat
    let x := s.sitting k
    (s, ok (.sitting x (s.countByState k) x.marks.length (s.owing k).length (s.callsOfSitting k).length x.secondsLeft)))

/-- READ_SITTING. -/
def execReadSitting (sitting : Byte) : State → Outcome := answerTo 0x1A (ansReadSitting sitting)

end Sys2Proof.Machine
end

