-- ==== Sys2Proof/Machine/Clocks.lean ====
section
/-!
DEFINITION. The meanings of the time-driven events (chapters 3, 4 and 6): TIMEBASE_SECOND, SYNC_EDGE, SYNC_LOST,
SCHEDULED_START, SITTING_SECOND and the points within a second, the mark firings, ESCALATION and HANDSET_AWAY; and of the
requests on personal time: LEAVE and READ_MARKS.
-/

namespace Sys2Proof.Machine

/-! ### The timebase second (R38, R40, R44, R51, R103, R108) -/

/-- The hall clock takes its next second; a change of minute asks for a broadcast (R40). -/
def State.tickHall (s : State) : State :=
  let t := s.tme.hall.next
  let s1 := { s with tme.hall := t, tme.secondCount := 0 }
  if t.minute = s.tme.hall.minute then s1 else s1.askBroadcast

/-- A sitting at a timebase second: an ARMED one whose start is now falls due, a running one not held is owed a second
(R40, R51). The model's choice: seconds that are not taken at once are counted, and taken one by one (log 45). -/
def Sitting.tick (hall : HallTime) (x : Sitting) : Sitting :=
  if x.state = .armed then { x with startDue := x.startDue || x.scheduled == some hall }
  else if x.state.running && !x.held then { x with secondsDue := x.secondsDue + 1 }
  else x

/-- The sittings at a timebase second. -/
def State.tickSittings (s : State) : State :=
  { s with tme.sittings := mapAll (Sitting.tick s.tme.hall) s.tme.sittings }

/-- The SYNC silence timer in MINUTE mode, which stands at 180, and the seconds since the last edge (R42, R44). -/
def State.tickSync (s : State) : State :=
  if s.tme.timebase.syncMode = .minute then
    { s with
      tme.syncTimer := heldAdd 180 s.tme.syncTimer
      tme.syncLostDue := s.tme.syncLostDue || s.tme.syncTimer == 179
      tme.sinceEdge := s.tme.sinceEdge.map (· + 1) }
  else s

/-- A call at a timebase second: the timer of a PENDING call above level 0 advances while escalation is on (R103). The
model's choice: an escalation that is due and not yet taken by its row stays one, and the timer goes on until the row (log 44). -/
def Call.tick (limit : Nat) (c : Call) : Call :=
  if 0 < limit ∧ c.state = .pending ∧ 0 < c.level then
    { c with timer := c.timer + 1, escalationDue := decide (limit ≤ c.timer + 1) }
  else c

/-- A handset at a timebase second: the silence timer of an ACTIVE handset advances (R108). -/
def Handset.tick (limit : Nat) (h : Handset) : Handset :=
  if h.state = .active then { h with timer := h.timer + 1, awayDue := decide (0 < limit ∧ limit ≤ h.timer + 1) } else h

/-- The calls and the handsets at a timebase second. -/
def State.tickCalls (s : State) : State :=
  { s with
    cdp.calls := mapAll (Option.map (Call.tick s.cli.params.escalateTime)) s.cdp.calls
    cdp.handsets := mapAll (Handset.tick s.cli.params.handsetAway) s.cdp.handsets }

/-- TIMEBASE_SECOND (R38): the hall clock, the sitting clocks and the timers step together. -/
def execTimebaseSecond (s : State) : Outcome := done s.tickHall.tickSittings.tickSync.tickCalls

/-! ### SYNC (R43, R44) -/

/-- The correction an edge makes: no jump at seconds 0, backward at 1–29, forward at 30–59 (R43). -/
def State.correctToMinute (s : State) : State :=
  let t := s.tme.hall
  if t.second = 0 then { s with tme.secondCount := 0 }
  else if t.second < 30 then (s.clockJump { t with second := 0 } false).1
  else (s.clockJump t.nextMinute true).1

/-- The edge itself: the silence timer restarts and SYNC_LOST is cleared (R43, R44). The model's choice: a loss that is
due and whose SYNC_LOST row has not come is dropped, as it is by SET_TIMEBASE (log 33). -/
def State.noteEdge (s : State) : State :=
  { s with
    tme.syncTimer := 0
    tme.sinceEdge := some 0
    tme.lastEdge := some s.tme.hall
    tme.syncLostDue := false
    cli.flags.syncLost := false }

/-- SYNC_EDGE (R43): an edge in MINUTE mode; with SYNC_MODE OFF it has no effect. -/
def execSyncEdge (s : State) : Outcome :=
  if s.tme.timebase.syncMode = .minute then
    let s1 := s.correctToMinute.noteEdge
    done (if s1.tme.hall.minute = s.tme.hall.minute then s1 else s1.askBroadcast)
  else done s

/-- SYNC_LOST (R44): the silence timer has reached 180 in MINUTE mode. -/
def execSyncLost (s : State) : Outcome :=
  if s.tme.timebase.syncMode = .minute ∧ s.tme.syncLostDue = true then
    done (({ s with tme.syncLostDue := false, cli.flags.syncLost := true }).notify (.syncLost s.tme.lastEdge))
  else done s

/-! ### Sittings (R49, R51 to R55) -/

/-- SCHEDULED_START (R49): an ARMED sitting whose scheduled start has been reached starts. -/
def execScheduledStart (sitting : Fin 8) (s : State) : Outcome :=
  let x := s.sitting sitting.val
  if x.state = .armed ∧ x.startDue = true then done (s.startSittingNow sitting.val) else done s

/-- SITTING_SECOND (R55): a second owed to a running sitting is taken, whole. -/
def execSittingSecond (sitting : Fin 8) (s : State) : Outcome :=
  if (s.sitting sitting.val).secondWaits then done (s.takeSecond sitting.val) else done s

/-- READING_COMPARE (R51): the reading clock reaches the reading length and writing starts. -/
def execReadingCompare (sitting : Fin 8) (s : State) : Outcome :=
  done (s.atPoint sitting.val Sitting.readingReached (fun t => t.startWriting sitting.val .compare))

/-- SITTING_WARNING (R52). -/
def execSittingWarning (sitting : Fin 8) (s : State) : Outcome :=
  done (s.atPoint sitting.val (fun x => x.state.writes && x.warningReached) (fun t => t.giveWarning sitting.val))

/-- LATE_CUTOFF (R53). -/
def execLateCutoff (sitting : Fin 8) (s : State) : Outcome :=
  done (s.atPoint sitting.val Sitting.cutoffReached (fun t => t.takeCutoff sitting.val))

/-- WRITING_COMPARE (R54). -/
def execWritingCompare (sitting : Fin 8) (s : State) : Outcome :=
  done (s.atPoint sitting.val Sitting.compareReached (fun t => t.takeCompare sitting.val))

/-! ### Mark firings (R68 to R70, R74) -/

/-- Has a sitting an entry of a candidate, of a kind, due at its clock (R68)? -/
def Sitting.entryReached (slot : Nat) (kind : MarkKind → Bool) (x : Sitting) : Bool :=
  x.marks.any (fun e => e.slot == slot && kind e.kind && e.due ≤ x.clock)

/-- The firing of a candidate's entry of a kind, in its place among the entries due (R68, log 4). -/
def State.fireFor (s : State) (slot : Nat) (kind : MarkKind → Bool) : State :=
  match s.cand? slot with
  | none => s
  | some c => s.atPoint c.sitting (Sitting.entryReached slot kind) (fun t => t.fireDue c.sitting)

/-- Is the entry a WARN? -/
def MarkKind.isWarn : MarkKind → Bool
  | .warn _ => true
  | _ => false

/-- Is the entry an END? -/
def MarkKind.isEnd : MarkKind → Bool
  | .finish => true
  | _ => false

/-- Is the entry a REST_EXPIRY? -/
def MarkKind.isRest : MarkKind → Bool
  | .restExpiry => true
  | _ => false

/-- WARN_FIRING (R69). -/
def execWarnFiring (slot : Fin 512) (s : State) : Outcome := done (s.fireFor slot.val MarkKind.isWarn)

/-- END_FIRING (R70). -/
def execEndFiring (slot : Fin 512) (s : State) : Outcome := done (s.fireFor slot.val MarkKind.isEnd)

/-- REST_EXPIRY (R74). -/
def execRestExpiry (slot : Fin 512) (s : State) : Outcome := done (s.fireFor slot.val MarkKind.isRest)

/-! ### ESCALATION and HANDSET_AWAY (R103, R108) -/

/-- Is the call's escalation due (R103)? One that was due is dropped when ESCALATE_TIME_S is set to 0 or above the timer first
(`Call.underLimit`, log 40). -/
def Call.escalates (limit : Nat) (c : Call) : Bool :=
  c.state == .pending && 0 < c.level && c.escalationDue && 0 < limit && limit ≤ c.timer

/-- ESCALATION (R103): the level falls by 1 and the timer restarts. -/
def execEscalation (call : Fin 48) (s : State) : Outcome :=
  if (s.call? call.val).any (Call.escalates s.cli.params.escalateTime) then
    done (s.modCall call.val (fun c => { c with level := c.level - 1, timer := 0, escalationDue := false }))
  else done s

/-- Is the handset's going AWAY due (R108)? One that was due is dropped when HANDSET_AWAY_S is set to 0 or above the timer first
(`Handset.underLimit`, log 40). -/
def Handset.goesAway (limit : Nat) (h : Handset) : Bool :=
  h.state == .active && h.awayDue && 0 < limit && limit ≤ h.timer

/-- HANDSET_AWAY (R108). -/
def execHandsetAway (handset : Fin 8) (s : State) : Outcome :=
  if (s.handset handset.val).goesAway s.cli.params.handsetAway then done (s.handsetGoesAway handset.val) else done s

/-! ### LEAVE (R71) and READ_MARKS (R78) -/

/-- The first check of LEAVE that fails, by its reason, in the order of R71. The model's reading: after a writing compare that left
the sitting COLLECTING the candidate is FINISHED, so the reason is CANDIDATE_STATE by R71's order, although R77 names
SITTING_STATE for that case (log 43). -/
def leaveRefusal (x : Sitting) (c : Candidate) : Option Reason :=
  if c.state ≠ .writing then some .candidateState
  else if x.state ≠ .writing then some .sittingState
  else if x.held then some .sittingHeld
  else if x.clock < x.opening * 60 then some .windowNotOpen
  else if (x.writing - x.closing) * 60 ≤ x.clock then some .windowClosed
  else none

/-- A LEAVE that is taken: the entry goes, the candidate finishes with EARLY_LEAVE (R71, R16). -/
def State.takeLeave (s : State) (slot : Nat) (c : Candidate) : State :=
  ((s.dropMark c.sitting slot).finishClaim slot).modCand slot (fun x => { x with earlyLeave := true })

/-- LEAVE (R71). -/
def ansLeave (slot : Half) : State → State × Answer :=
  withArgs [isSlot slot] (fun s =>
    match s.cand? slot.toNat with
    | none => (s, notFound)
    | some c =>
      match leaveRefusal (s.sitting c.sitting) c with
      | some reason => (s, refuse .refusedState reason)
      | none =>
        let s1 := s.takeLeave slot.toNat c
        (s1, ok (.left slot.toNat (s.sitting c.sitting).clock c.bound (c.bound.map s1.seatState))))

/-- LEAVE. -/
def execLeave (slot : Half) : State → Outcome := answerTo 0x1B (ansLeave slot)

/-- One entry as READ_MARKS gives it (R78). -/
def State.markView (s : State) (x : Sitting) (position : Nat) (e : MarkEntry) : Option MarkView :=
  (s.cand? e.slot).map (fun c =>
    { position := position
      entry := e
      number := c.number
      state := c.state
      personalEnd := personalEnd x c
      timeLeft := timeLeft x c
      stage := warningStage x c
      pause := if c.state = .paused then c.pauseStart.map (fun p => (p, c.restLeft)) else none })

/-- The entries of a list from a position, up to a count, in list order (R78). -/
def State.markViews (s : State) (x : Sitting) (first count : Nat) : List MarkView :=
  ((x.marks.zipIdx.drop (first - 1)).take count).filterMap (fun e => s.markView x (e.2 + 1) e.1)

/-- READ_MARKS (R78). The model's choice: the writing clock it gives is the phase clock as it stands, which in READING is
the reading clock (log 34). -/
def ansReadMarks (sitting : Byte) (first : Half) (count : Byte) : State → State × Answer :=
  withArgs [isSitting sitting, 1 ≤ first.toNat, 1 ≤ count.toNat && count.toNat ≤ 32] (fun s =>
    let x := s.sitting sitting.toNat
    (s, ok (.marks x.marks.length x.clock x.held (s.markViews x first.toNat count.toNat))))

/-- READ_MARKS. -/
def execReadMarks (sitting : Byte) (first : Half) (count : Byte) : State → Outcome :=
  answerTo 0x1C (ansReadMarks sitting first count)

end Sys2Proof.Machine
end

