-- ==== Sys2Proof/Machine/Links.lean ====
section
/-!
DEFINITION. The meanings of the unit link commands (chapter 5): START_LINK, STOP_LINK, READ_LINK, the poll cycle's events,
the unit replies and the time code.
-/

namespace Sys2Proof.Machine

/-! ### START_LINK, STOP_LINK and READ_LINK (R80, R81, R98) -/

/-- A link's code, or the byte of ALL (11.1). -/
def isLinkOrAll (b : Byte) : Bool := b == 0xFF#8 || (linkOf b).isSome

/-- The links a request names, of those for which `p` holds: ALL names every link. -/
def State.linksFor (s : State) (b : Byte) (p : Link → Bool) : List LinkName :=
  let named := if b = 0xFF#8 then allLinks else (linkOf b).toList
  named.filter (fun l => p (s.link l))

/-- START_LINK (R80). -/
def ansStartLink (link : Byte) : State → State × Answer :=
  withArgs [isLinkOrAll link] (fun s =>
    match s.linksFor link (fun x => !x.running) with
    | [] => (s, refuse .refusedState)
    | ids => (s.forEach ids (fun l t => t.startLink l), ok (.links ids)))

/-- START_LINK. -/
def execStartLink (link : Byte) : State → Outcome := answerTo 0x1D (ansStartLink link)

/-- STOP_LINK (R81). -/
def ansStopLink (link : Byte) : State → State × Answer :=
  withArgs [isLinkOrAll link] (fun s =>
    match s.linksFor link (fun x => x.running) with
    | [] => (s, refuse .refusedState)
    | ids => (s.forEach ids (fun l t => t.stopLink l), ok (.links ids)))

/-- STOP_LINK. -/
def execStopLink (link : Byte) : State → Outcome := answerTo 0x1E (ansStopLink link)

/-- Does an address belong to the link of a code (R98)? -/
def inLink (link : Byte) (a : Nat) : Bool :=
  (linkOf link).any (fun l => linkBase l ≤ a && a < linkBase l + linkSize l)

/-- The argument checks of READ_LINK (R98). -/
def readLinkChecks (link : Byte) (first : Half) (count : Byte) : List Bool :=
  [(linkOf link).isSome, inLink link first.toNat,
    1 ≤ count.toNat && count.toNat ≤ 32 && inLink link (first.toNat + count.toNat - 1)]

/-- One unit as READ_LINK gives it. -/
def State.unitView (s : State) (l : LinkName) (a : Nat) : UnitView := ⟨a, (s.link l).members.contains a, s.unit l a⟩

/-- READ_LINK (R98). -/
def ansReadLink (link : Byte) (first : Half) (count : Byte) : State → State × Answer :=
  withArgs (readLinkChecks link first count) (fun s =>
    let l := (linkOf link).getD .a
    (s, ok (.link (s.link l) (s.link l).members.length
      ((List.range count.toNat).map (fun n => s.unitView l (first.toNat + n))))))

/-- READ_LINK. -/
def execReadLink (link : Byte) (first : Half) (count : Byte) : State → Outcome :=
  answerTo 0x1F (ansReadLink link first count)

/-! ### The poll cycle (R82, R83, R92) -/

/-- POLL_CYCLE_START (R82): a RUNNING link with no cycle open starts one. -/
def execPollCycleStart (link : LinkName) (s : State) : Outcome :=
  if (s.link link).running && !(s.link link).cycleOpen then done (s.beginCycle link) else done s

/-- POLL_FRAME (R82): the next member of the cycle is polled. -/
def execPollFrame (link : LinkName) (s : State) : Outcome := done (s.pollNext link)

/-- POLL_TIMEOUT (R83): the reply window of the transaction in progress closes with no reply. -/
def execPollTimeout (link : LinkName) (s : State) : Outcome :=
  match (s.link link).running, (s.link link).current with
  | true, some a => done (s.endPoll link a .miss)
  | _, _ => done s

/-- POLL_CYCLE_END (R92): the cycle whose visits are over ends. -/
def execPollCycleEnd (link : LinkName) (s : State) : Outcome :=
  if (s.link link).cycleOver then done (s.endCycle link) else done s

/-! ### Unit replies (R86, R96, R97, R188) -/

/-- SEAT_REPLY (R86). -/
def execSeatReply (link : SeatLink) (frame : List Byte) (s : State) : Outcome :=
  done (s.onReply link.link frame (fun _ => seatReplyOf) SeatReply.echo (State.takeSeatReply link.link))

/-- A payload read as a handset's, when the unit polled is one (R188, log 15). -/
def handsetPayload (a : Nat) (payload : List Byte) : Option (HandsetKey × Byte) :=
  if unitKindOf a = .handset then handsetReplyOf payload else none

/-- HANDSET_REPLY (R96). -/
def execHandsetReply (frame : List Byte) (s : State) : Outcome :=
  done (s.onReply .floor frame handsetPayload (fun r => r.2) State.takeHandsetReply)

/-- A payload read as a station's, when the unit polled is one (R188, log 15). -/
def stationPayload (a : Nat) (payload : List Byte) : Option StationReply :=
  if unitKindOf a = .station then stationReplyOf payload else none

/-- STATION_REPLY (R97). -/
def execStationReply (frame : List Byte) (s : State) : Outcome :=
  done (s.onReply .floor frame stationPayload StationReply.echo State.takeStationReply)

/-- A payload read as a wall clock's, when the unit polled is one (R188, log 15). -/
def clockPayload (a : Nat) (payload : List Byte) : Option Byte :=
  if unitKindOf a = .clock then clockReplyOf payload else none

/-- WALL_CLOCK_REPLY (R97): the echo alone. -/
def execWallClockReply (frame : List Byte) (s : State) : Outcome :=
  done (s.onReply .floor frame clockPayload id (fun _ _ t => t))

/-- LATE_UNIT_REPLY (R188): a reply after its window has closed, or with no transaction in progress, is discarded and
counts for no unit. -/
def execLateUnitReply (_link : LinkName) (_frame : List Byte) (s : State) : Outcome := done s

/-! ### The time code (R93, R94) -/

/-- TIME_CODE_BROADCAST (R93). -/
def execTimeCodeBroadcast (link : LinkName) (s : State) : Outcome := done (s.sendBroadcast link)

/-- TIME_CODE_REPEAT (R94). -/
def execTimeCodeRepeat (link : LinkName) (s : State) : Outcome := done (s.sendRepeat link)

end Sys2Proof.Machine
end

