-- ==== Sys2Proof/Machine/Calls.lean ====
section
/-!
DEFINITION. The meanings of the Call Dispatcher's requests (chapter 6): RAISE_ALERT, SET_HANDSET_ZONES, CANCEL_CALL and
READ_CALLS.
-/

namespace Sys2Proof.Machine

/-- The detail of a RAISE_ALERT refused for want of a candidate: the seat's state and the bound candidate's (R104). -/
def State.alertDetail (s : State) (i : Nat) : Detail := .seatAndCand (s.seatState i) ((s.boundTo i).map (·.2.state))

/-- The answer to a RAISE_ALERT, by what the raise came to (R104). -/
def State.alertAnswer (s : State) (i : Nat) (o : RaiseOutcome) : Answer :=
  match o with
  | .accepted c => ok (.alert c (s.cli.params.level .alert))
  | .seatBusy c =>
    match s.call? c with
    | some x => refuse .busy .none (.call c x.kind x.state)
    | none => refuse .busy
  | .listFull => refuse .full
  | .noCandidate => refuse .refusedState .none (s.alertDetail i)
  | .kindRefused => refuse .refusedState .none (s.alertDetail i)

/-- RAISE_ALERT (R104). -/
def ansRaiseAlert (seat : Half) : State → State × Answer :=
  withArgs [isSeat seat] (fun s =>
    let r := s.raise seat.toNat .alert none
    (r.1, s.alertAnswer seat.toNat r.2))

/-- RAISE_ALERT. -/
def execRaiseAlert (seat : Half) : State → Outcome := answerTo 0x20 (ansRaiseAlert seat)

/-- SET_HANDSET_ZONES (R107); every bit of the set byte is a zone. -/
def ansSetHandsetZones (handset zones : Byte) : State → State × Answer :=
  withArgs [isEighth handset] (fun s =>
    (s.modHandset handset.toNat (fun h => { h with zones := zones }), ok (.zones zones)))

/-- SET_HANDSET_ZONES. -/
def execSetHandsetZones (handset zones : Byte) : State → Outcome := answerTo 0x21 (ansSetHandsetZones handset zones)

/-- CANCEL_CALL (R112). -/
def ansCancelCall (call : Byte) : State → State × Answer :=
  withArgs [call.toNat < 48] (fun s =>
    match s.call? call.toNat with
    | none => (s, notFound)
    | some c => (s.cancelCall call.toNat c, ok (.cancelled c.kind c.seat c.state)))

/-- CANCEL_CALL. -/
def execCancelCall (call : Byte) : State → Outcome := answerTo 0x22 (ansCancelCall call)

/-- One call as READ_CALLS gives it (R118). The model's choice: a call in service is shown as not dispatchable, as R105
speaks of PENDING calls only (log 36). -/
def State.callView (s : State) (i : Nat) (c : Call) : CallView :=
  { id := i
    call := c
    finishSeat := if c.seat.isNone then (s.cand? c.slot).bind (·.finish) else none
    number := ((s.cand? c.slot).map (·.number)).getD 0
    sitting := ((s.cand? c.slot).map (·.sitting)).getD 0
    dispatchable := c.state == .pending && s.dispatchable c }

/-- The calls on the handsets' stacks, by handset, bottom of the stack first (R118). -/
def State.serviceViews (s : State) : List CallView :=
  (s.cdp.handsets.toList.flatMap (fun h => h.stack)).filterMap (fun i => (s.call? i).map (s.callView i))

/-- READ_CALLS (R118). -/
def ansReadCalls (s : State) : State × Answer :=
  (s, ok (.calls (s.callsWhere (fun _ => true)).length (s.pendingCalls.map (fun e => s.callView e.1 e.2)) s.serviceViews
    s.cdp.handsets.toList))

/-- READ_CALLS. -/
def execReadCalls : State → Outcome := answerTo 0x23 ansReadCalls

end Sys2Proof.Machine
end

