-- ==== Sys2Proof/Machine/Collection.lean ====
section
/-!
DEFINITION. The meanings of the Script Collection Unit's requests (chapter 7): ISSUE_BOOKLET, TAKE_EXCEPTIONS, START_SWEEP,
STOP_SWEEP, READ_SCRIPTS and READ_SWEEP.
-/

namespace Sys2Proof.Machine

/-- ISSUE_BOOKLET (R121). -/
def ansIssueBooklet (slot : Half) : State → State × Answer :=
  withArgs [isSlot slot] (fun s =>
    match s.cand? slot.toNat with
    | none => (s, notFound)
    | some c =>
      if !c.state.seated then (s, refuse .refusedState .none (.candState c.state))
      else
        let r := s.issueClaim slot.toNat
        if r.2 then (r.1, ok (.issued slot.toNat (c.issued + 1))) else (s, refuse .full))

/-- ISSUE_BOOKLET. -/
def execIssueBooklet (slot : Half) : State → Outcome := answerTo 0x24 (ansIssueBooklet slot)

/-- TAKE_EXCEPTIONS (R128). -/
def ansTakeExceptions (count : Byte) : State → State × Answer :=
  withArgs [1 ≤ count.toNat && count.toNat ≤ 32] (fun s =>
    let left := s.scu.exceptions.drop count.toNat
    ({ s with scu.exceptions := left }, ok (.exceptions (s.scu.exceptions.take count.toNat) left.length)))

/-- TAKE_EXCEPTIONS. -/
def execTakeExceptions (count : Byte) : State → Outcome := answerTo 0x25 (ansTakeExceptions count)

/-! ### Sweeps (R131, R135) -/

/-- Does a step lead from the start to the end, in one row or one column (R131)? -/
def stepLeads (stride : Stride) (start finish : Nat) : Bool :=
  match stride with
  | .right => start / 16 == finish / 16 && start ≤ finish
  | .left => start / 16 == finish / 16 && finish ≤ start
  | .down => start % 16 == finish % 16 && start ≤ finish
  | .up => start % 16 == finish % 16 && finish ≤ start

/-- A station or channel is 0–3. -/
def isChannel (b : Byte) : Bool := b.toNat < 4

/-- The argument checks of START_SWEEP; with DESK the start, the end and the step are not looked at (R131, R187). -/
def startSweepChecks (channel mode : Byte) (start finish : Half) (stride : Byte) : List Bool :=
  let desk := sweepModeOf mode == some .desk
  [isChannel channel, (sweepModeOf mode).isSome, desk || isSeat start, desk || isSeat finish,
    desk || (strideOf stride).any (fun st => stepLeads st start.toNat finish.toNat)]

/-- A channel in DESK with its counts at 0 (R131). -/
def deskChannel : Channel := { Channel.atReset with state := .desk }

/-- A channel in SWEEP over a run of seats, with its counts at 0 (R131). -/
def sweepChannel (stride : Stride) (start finish : Nat) (current : Option Nat) : Channel :=
  { Channel.atReset with
    state := .sweep, start := some start, finish := some finish, stride := some stride, current := current }

/-- The first seat of a sweep: the start when it needs collection, else the seat an advance from it reaches (R131). -/
def State.firstSeat (s : State) (stride : Stride) (start finish : Nat) : Option Nat :=
  if s.needsCollection start then some start else s.nextSeat stride start finish

/-- A SWEEP starts; one that finds no seat is done at once (R131, R135). -/
def State.startSweep (s : State) (k : Nat) (stride : Stride) (start finish : Nat) : State × Answer :=
  let first := s.firstSeat stride start finish
  let s1 := s.modChannel k (fun _ => sweepChannel stride start finish first)
  (if first.isSome then s1 else s1.endChannel k false, ok (.sweepStarted first))

/-- START_SWEEP (R131). -/
def ansStartSweep (channel mode : Byte) (start finish : Half) (stride : Byte) : State → State × Answer :=
  withArgs (startSweepChecks channel mode start finish stride) (fun s =>
    let k := channel.toNat
    if (s.channel k).state ≠ .idle then (s, refuse .busy .none (.channelState (s.channel k).state))
    else if sweepModeOf mode = some .desk then (s.modChannel k (fun _ => deskChannel), ok .none)
    else s.startSweep k ((strideOf stride).getD .right) start.toNat finish.toNat)

/-- START_SWEEP. -/
def execStartSweep (channel mode : Byte) (start finish : Half) (stride : Byte) : State → Outcome :=
  answerTo 0x26 (ansStartSweep channel mode start finish stride)

/-- STOP_SWEEP (R135). -/
def ansStopSweep (channel : Byte) : State → State × Answer :=
  withArgs [isChannel channel] (fun s =>
    let x := s.channel channel.toNat
    if x.state = .idle then (s, refuse .refusedState)
    else (s.endChannel channel.toNat true, ok (.sweepCounts x.completed x.skipped x.outOfOrder)))

/-- STOP_SWEEP. -/
def execStopSweep (channel : Byte) : State → Outcome := answerTo 0x27 (ansStopSweep channel)

/-! ### Reading (R136, R137) -/

/-- One slot as READ_SCRIPTS gives it (R136). -/
def State.scriptView (s : State) (c : Nat) : ScriptView :=
  ⟨c, s.cand? c, ((s.cand? c).bind (·.bound)).any s.needsCollection⟩

/-- READ_SCRIPTS (R136). -/
def ansReadScripts (first : Half) (count : Byte) : State → State × Answer :=
  withArgs [isSlot first, 1 ≤ count.toNat && count.toNat ≤ 32 && first.toNat + count.toNat ≤ 512] (fun s =>
    (s, ok (.scripts ((List.range count.toNat).map (fun n => s.scriptView (first.toNat + n))))))

/-- READ_SCRIPTS. -/
def execReadScripts (first : Half) (count : Byte) : State → Outcome := answerTo 0x28 (ansReadScripts first count)

/-- The channels READ_SWEEP names: one, or all (R137). -/
def channelsFor (b : Byte) : List Nat := if b = 0xFF#8 then [0, 1, 2, 3] else [b.toNat]

/-- READ_SWEEP (R137). -/
def ansReadSweep (channel : Byte) : State → State × Answer :=
  withArgs [channel == 0xFF#8 || isChannel channel] (fun s =>
    (s, ok (.sweeps ((channelsFor channel).map (fun k => (k, s.channel k))) s.scu.exceptions.length
      s.cli.flags.exceptionsLost)))

/-- READ_SWEEP. -/
def execReadSweep (channel : Byte) : State → Outcome := answerTo 0x29 (ansReadSweep channel)

end Sys2Proof.Machine
end

