-- ==== Sys2Proof/Machine/Reader.lean ====
section
/-!
DEFINITION. The meanings of the Sheet Reader Port's commands (chapter 8): READ_READER, SHEET_FRAME_END, FRAME_GAP_TIMEOUT,
RRDY_CHANGE and VERDICT_SENT.
-/

namespace Sys2Proof.Machine

/-- The bytes taken of the frame in assembly, when there is one (R138). -/
def Assembler.taken : Assembler → Option (List Byte)
  | .hunt => none
  | .assemble taken => some taken
  | .drain taken => some taken

/-- READ_READER (R149); the byte count includes the start marker (log 14). -/
def ansReadReader (s : State) : State × Answer :=
  let taken := s.srp.assembler.taken
  (s, ok (.reader s.srp.rrdy s.hold s.srp.assembler (taken.map (fun t => (feedOf t).isSome)) (taken.bind feedOf)
    (taken.map (fun t => t.length + 1)) s.srp.parked s.srp.verdicts s.srp.lastFault s.srp.counts))

/-- READ_READER. -/
def execReadReader : State → Outcome := answerTo 0x2A ansReadReader

/-- SHEET_FRAME_END (R141, R143): a run of bytes on the reader's receive line, at whose end a frame may end (log 11). -/
def execSheetFrameEnd (run : List Byte) (s : State) : Outcome := done (s.takeSheetBytes run)

/-- FRAME_GAP_TIMEOUT (R142): 50 µs pass with no byte. -/
def execFrameGapTimeout (s : State) : Outcome := done (s.cutFrame .length)

/-- RRDY_CHANGE (R139): the pin takes a level. -/
def execRrdyChange (level : Bool) (s : State) : Outcome := done (s.setRrdy level)

/-- VERDICT_SENT (R148): the VERDICT on the line has been sent. -/
def execVerdictSent (s : State) : Outcome := done s.verdictSent

end Sys2Proof.Machine
end

