-- ==== Sys2Proof/Machine/Marking.lean ====
section
/-!
DEFINITION. The meanings of the Marking Engine's requests (chapter 9): the key edits, the reads, the batch requests,
RELEASE_SLOTS, RESOLVE_DUPLICATE and REMARK.
-/

namespace Sys2Proof.Machine

/-! ### Key edits (R152 to R156) -/

/-- Is the key the one of a batch that is not IDLE (R152)? -/
def State.keyInUse (s : State) (k : Nat) : Bool := s.mke.batch.state != .idle && s.mke.batch.key == k

/-- The refusal of an edit of the key in use, with the batch state and sitting (R152). -/
def State.keyBusy (s : State) : Answer := refuse .busy .none (.batch s.mke.batch.state s.mke.batch.sitting)

/-- A question not defined (R153). The model's choice: it reads as SINGLE with weight 0 and an empty answer set, as the
spec gives no value for the fields it does not have (log 38). -/
def Question.undefined : Question := ⟨false, 0, .single, 0, false⟩

/-- A key whose loading begins (R153). -/
def freshKey (form questions penalty : Nat) : Key := ⟨.loading, form, penalty, List.replicate questions Question.undefined⟩

/-- The argument checks of KEY_BEGIN (R153). -/
def keyBeginChecks (key form questions penalty : Byte) : List Bool :=
  [isEighth key, form.toNat < 4, 1 ≤ questions.toNat && questions.toNat ≤ formRows form.toNat, penalty.toNat ≤ 2]

/-- KEY_BEGIN (R153). -/
def ansKeyBegin (key form questions penalty : Byte) : State → State × Answer :=
  withArgs (keyBeginChecks key form questions penalty) (fun s =>
    if s.keyInUse key.toNat then (s, s.keyBusy)
    else (s.modKey key.toNat (fun _ => freshKey form.toNat questions.toNat penalty.toNat),
      ok (.keyLoading key.toNat form.toNat questions.toNat)))

/-- KEY_BEGIN. -/
def execKeyBegin (key form questions penalty : Byte) : State → Outcome :=
  answerTo 0x2B (ansKeyBegin key form questions penalty)

/-- The argument checks of KEY_PART for a key with `q` questions (R154). -/
def keyPartChecks (q : Nat) (key first : Byte) (entries : List KeyEntry) : List Bool :=
  [isEighth key, 1 ≤ first.toNat,
    1 ≤ entries.length && entries.length ≤ 40 && first.toNat + entries.length - 1 ≤ q && entries.all isKeyEntry]

/-- The questions with those from `first` onwards, counted from 1, redefined (R154). -/
def defineQuestions (first : Nat) (entries : List KeyEntry) (questions : List Question) : List Question :=
  questions.take (first - 1) ++ entries.map questionOf ++ questions.drop (first - 1 + entries.length)

/-- KEY_PART (R154). -/
def ansKeyPart (key first : Byte) (entries : List KeyEntry) (s : State) : State × Answer :=
  withArgs (keyPartChecks (s.key key.toNat).questions.length key first entries) (fun s =>
    if s.keyInUse key.toNat then (s, s.keyBusy)
    else if (s.key key.toNat).state ≠ .loading then (s, refuse .refusedState)
    else
      let s1 := s.modKey key.toNat (fun x => { x with questions := defineQuestions first.toNat entries x.questions })
      (s1, ok (.keyDefined ((s1.key key.toNat).questions.countP (·.defined))))) s

/-- KEY_PART. -/
def execKeyPart (key first : Byte) (entries : List KeyEntry) : State → Outcome :=
  answerTo 0x2C (ansKeyPart key first entries)

/-- KEY_END (R155). -/
def ansKeyEnd (key : Byte) : State → State × Answer :=
  withArgs [isEighth key] (fun s =>
    let x := s.key key.toNat
    if s.keyInUse key.toNat then (s, s.keyBusy)
    else if x.state ≠ .loading then (s, refuse .refusedState)
    else
      match x.questions.findIdx? (fun q => !q.defined) with
      | some i => (s, refuse .refusedState .none (.question (i + 1)))
      | none => (s.modKey key.toNat (fun y => { y with state := .ready }),
          ok (.keyReady x.questions.length x.maxScore (x.questions.countP (·.withdrawn)))))

/-- KEY_END. -/
def execKeyEnd (key : Byte) : State → Outcome := answerTo 0x2D (ansKeyEnd key)

/-- A key with question `n`, counted from 1, withdrawn (R156). -/
def Key.withdraw (x : Key) (n : Nat) : Key :=
  { x with questions := x.questions.modify (n - 1) (fun q => { q with withdrawn := true }) }

/-- The argument checks of WITHDRAW_QUESTION for a key with `q` questions (R156). -/
def withdrawQuestionChecks (q : Nat) (key question : Byte) : List Bool :=
  [isEighth key, 1 ≤ question.toNat && question.toNat ≤ q]

/-- Is the question of a LOADING key not defined (R156)? -/
def Key.lacks (x : Key) (n : Nat) : Bool := x.state == .loading && !(x.questions[n - 1]?).any (·.defined)

/-- WITHDRAW_QUESTION (R156). -/
def ansWithdrawQuestion (key question : Byte) (s : State) : State × Answer :=
  withArgs (withdrawQuestionChecks (s.key key.toNat).questions.length key question) (fun s =>
    if s.keyInUse key.toNat then (s, s.keyBusy)
    else if (s.key key.toNat).lacks question.toNat then (s, refuse .refusedState)
    else (s.modKey key.toNat (fun x => x.withdraw question.toNat),
      ok (.keyMax ((s.key key.toNat).withdraw question.toNat).maxScore))) s

/-- WITHDRAW_QUESTION. -/
def execWithdrawQuestion (key question : Byte) : State → Outcome := answerTo 0x2E (ansWithdrawQuestion key question)

/-! ### Reads (R171) -/

/-- The argument checks of READ_KEY for a key with `q` questions; questions are counted from 1 (R171, log 25). -/
def readKeyChecks (q : Nat) (key first count : Byte) : List Bool :=
  [isEighth key, 1 ≤ first.toNat,
    1 ≤ count.toNat && count.toNat ≤ 40 && (q == 0 || first.toNat + count.toNat - 1 ≤ q)]

/-- READ_KEY (R171). -/
def ansReadKey (key first count : Byte) (s : State) : State × Answer :=
  let x := s.key key.toNat
  withArgs (readKeyChecks x.questions.length key first count) (fun s =>
    (s, ok (.key x.state x.form x.questions.length x.penalty x.maxScore
      ((x.questions.drop (first.toNat - 1)).take count.toNat)))) s

/-- READ_KEY. -/
def execReadKey (key first count : Byte) : State → Outcome := answerTo 0x2F (ansReadKey key first count)

/-- A store slot is 0–63. -/
def isStoreSlot (b : Byte) : Bool := b.toNat < 64

/-- READ_SHEET (R171). -/
def ansReadSheet (store : Byte) : State → State × Answer :=
  withArgs [isStoreSlot store] (fun s =>
    let x := s.stored? store.toNat
    (s, ok (.sheet x (((x.bind (·.ref)).bind s.cand?).map (·.number)))))

/-- READ_SHEET. -/
def execReadSheet (store : Byte) : State → Outcome := answerTo 0x30 (ansReadSheet store)

/-- READ_BATCH (R171). -/
def ansReadBatch (s : State) : State × Answer :=
  (s, ok (.batch s.mke.batch (s.mke.batch.count - s.mke.batch.remaining)
    (s.srp.parked.map (fun p => (p.sheet.feed, p.slot))) (s.mke.store.toList.map (Option.map (·.kind)))
    s.emptySlots.length))

/-- READ_BATCH. -/
def execReadBatch : State → Outcome := answerTo 0x31 ansReadBatch

/-! ### Batches (R163, R165, R166, R168) -/

/-- The argument checks of START_BATCH; every count is allowed (R163). -/
def startBatchChecks (sitting segStart segEnd : Byte) : List Bool :=
  [isSitting sitting, true, isStoreSlot segStart, isStoreSlot segEnd && segStart.toNat ≤ segEnd.toNat]

/-- A count of 0 stands for 256 (R163). -/
def batchCount (count : Byte) : Nat := if count = 0 then 256 else count.toNat

/-- The batch record at START_BATCH (R163). -/
def freshBatch (p : Params) (sitting key : Nat) (count segStart segEnd : Byte) : Batch where
  state := .active
  endCause := .none
  sitting := sitting
  key := key
  count := batchCount count
  remaining := batchCount count
  blockSize := p.blockSize
  tolerance := p.tolerance
  blockNumber := 1
  block := Tally.zero
  totals := Tally.zero
  rejects := Rejects.zero
  segStart := segStart.toNat
  segEnd := segEnd.toNat
  haltPending := false

/-- Is the sitting COLLECTING or CLOSED (R163)? -/
def SittingState.marks : SittingState → Bool
  | .collecting | .closed => true
  | _ => false

/-- START_BATCH (R163). -/
def ansStartBatch (sitting count segStart segEnd : Byte) : State → State × Answer :=
  withArgs (startBatchChecks sitting segStart segEnd) (fun s =>
    let x := s.sitting sitting.toNat
    if s.mke.batch.state ≠ .idle then (s, s.keyBusy)
    else if !x.state.marks then (s, refuse .refusedState .sittingState (.sittingState x.state))
    else
      match x.keyId with
      | none => (s, refuse .refusedState .noKey)
      | some key =>
        if (s.key key).state ≠ .ready then (s, refuse .refusedState .keyState)
        else
          let s1 := s.modBatch (fun _ => freshBatch s.cli.params sitting.toNat key count segStart segEnd)
          (s1, ok (.batchStarted (batchCount count) segStart.toNat segEnd.toNat s1.emptySlots.length)))

/-- START_BATCH. -/
def execStartBatch (sitting count segStart segEnd : Byte) : State → Outcome :=
  answerTo 0x32 (ansStartBatch sitting count segStart segEnd)

/-- CONTINUE_BATCH (R165). -/
def ansContinueBatch (s : State) : State × Answer :=
  if s.mke.batch.state = .halted then
    (s.modBatch (fun b => { b with state := .active, haltPending := false }), ok (.remaining s.mke.batch.remaining))
  else (s, refuse .refusedState .none (.batchState s.mke.batch.state))

/-- CONTINUE_BATCH. -/
def execContinueBatch : State → Outcome := answerTo 0x33 ansContinueBatch

/-- EXTEND_SEGMENT (R166). -/
def ansExtendSegment (segEnd : Byte) (s : State) : State × Answer :=
  withArgs [isStoreSlot segEnd && s.mke.batch.segEnd ≤ segEnd.toNat] (fun s =>
    if s.mke.batch.state = .idle then (s, refuse .refusedState)
    else
      let s1 := (s.modBatch (fun b => { b with segEnd := segEnd.toNat })).resumeBatch
      (s1, ok (.segment s1.mke.batch.segStart s1.mke.batch.segEnd s1.emptySlots.length s1.mke.batch.state))) s

/-- EXTEND_SEGMENT. -/
def execExtendSegment (segEnd : Byte) : State → Outcome := answerTo 0x34 (ansExtendSegment segEnd)

/-- RELEASE_SLOTS (R167). -/
def ansReleaseSlots (stores : List Byte) : State → State × Answer :=
  withArgs [1 ≤ stores.length && stores.length ≤ 64 && stores.all isStoreSlot] (fun s =>
    let r := s.releaseSlots (stores.map (·.toNat))
    (r.1.resumeBatch, ok (.emptied r.2)))

/-- RELEASE_SLOTS. -/
def execReleaseSlots (stores : List Byte) : State → Outcome := answerTo 0x35 (ansReleaseSlots stores)

/-- ABORT_BATCH (R168). -/
def ansAbortBatch (s : State) : State × Answer :=
  let b := s.mke.batch
  if b.state = .idle then (s, refuse .refusedState)
  else
    let s1 := s.rejectParked.modBatch (fun b => { b with state := .idle, endCause := .aborted, haltPending := false })
    (s1.notify (.batchAborted b.sitting b.totals b.remaining), ok (.remaining b.remaining))

/-- ABORT_BATCH. -/
def execAbortBatch : State → Outcome := answerTo 0x36 ansAbortBatch

/-! ### Duplicates and remarking (R169, R170) -/

/-- Is the port's parked sheet for the candidate in a slot (R169)? -/
def State.parkedFor (s : State) (slot : Nat) : Bool := s.srp.parked.any (fun p => p.slot == slot)

/-- ADOPT: the slot becomes FILLED, the previous result slot EMPTY, the summary this slot's result (R169). -/
def State.adopt (s : State) (i slot : Nat) (x : Stored) : State :=
  let s1 := s.putStore i (some { x with kind := .filled })
  let s2 := match s.resultSlot slot with
    | some j => s1.emptyStore j
    | none => s1
  s2.modCand slot (fun c => { c with summary := some ⟨x.result, some i⟩ })

/-- ADOPT of a DUPLICATE slot, with its refusals (R169). -/
def State.tryAdopt (s : State) (i : Nat) (x : Stored) : State × Answer :=
  match x.ref with
  | none => (s, refuse .refusedState .noCandidate)
  | some slot =>
    if s.parkedFor slot then (s, refuse .busy)
    else ((s.adopt i slot x).resumeBatch, ok (.resolved (some .filled) (s.resultSlot slot)))

/-- RESOLVE_DUPLICATE (R169). The model's choice: the reply to DISCARD gives the slot's state EMPTY, as it is before a
resume fills it again, and names the discarded slot as the one emptied (log 37). -/
def ansResolveDuplicate (store action : Byte) : State → State × Answer :=
  withArgs [isStoreSlot store, (adoptOf action).isSome] (fun s =>
    match s.stored? store.toNat with
    | none => (s, refuse .refusedState)
    | some x =>
      if x.kind ≠ .duplicate then (s, refuse .refusedState)
      else if adoptOf action = some true then s.tryAdopt store.toNat x
      else ((s.putStore store.toNat none).resumeBatch, ok (.resolved none (some store.toNat))))

/-- RESOLVE_DUPLICATE. -/
def execResolveDuplicate (store action : Byte) : State → Outcome := answerTo 0x37 (ansResolveDuplicate store action)

/-- The stored slots of a sitting, ascending (R170). -/
def State.storedOf (s : State) (k : Nat) : List Nat :=
  indexesWhere (fun o => o.any (fun (x : Stored) => x.sheet.sitting == k)) s.mke.store

/-- REMARK (R170). -/
def ansRemark (sitting : Byte) : State → State × Answer :=
  withArgs [isSitting sitting] (fun s =>
    if s.mke.batch.state ≠ .idle then (s, refuse .busy)
    else
      match (s.sitting sitting.toNat).keyId with
      | none => (s, refuse .refusedState)
      | some key =>
        if (s.key key).state ≠ .ready then (s, refuse .refusedState)
        else
          let r := (s.storedOf sitting.toNat).foldl (fun r i => State.remarkSlot (s.key key) i r) (s, 0, 0, 0)
          (r.1, ok (.remarked r.2.1 r.2.2.1 r.2.2.2)))

/-- REMARK. -/
def execRemark (sitting : Byte) : State → Outcome := answerTo 0x38 (ansRemark sitting)

end Sys2Proof.Machine
end

