-- ==== Sys2Proof/Machine/Control.lean ====
section
/-!
DEFINITION. The meanings of the requests the Control Link Interface takes itself (chapter 10): SET_PARAM, GET_PARAM,
IDENTIFY, READ_STATUS and RESET.
-/

namespace Sys2Proof.Machine

/-! ### The parameter store (R179, R180, 11.3) -/

/-- The value of SPACING_RULE as it is encoded. -/
def SpacingRule.code : SpacingRule → Nat
  | .none => 0
  | .row => 1
  | .cross => 2

/-- The SPACING_RULE of a value. -/
def spacingOf (v : Nat) : Option SpacingRule :=
  match v with
  | 0 => some .none
  | 1 => some .row
  | 2 => some .cross
  | _ => none

/-- The value of FILL_ORDER as it is encoded. -/
def FillOrder.code : FillOrder → Nat
  | .ascending => 0
  | .serpentine => 1

/-- The FILL_ORDER of a value. -/
def fillOf (v : Nat) : Option FillOrder :=
  match v with
  | 0 => some .ascending
  | 1 => some .serpentine
  | _ => none

/-- The thirteen parameters' values, by identifier 0x01 to 0x0D (11.3). -/
def Params.values (p : Params) : List Nat :=
  [p.spacingRule.code, p.fillOrder.code, p.defaultZone, p.levelQuery, p.levelSupply, p.levelEscort, p.levelRest,
    p.levelAlert, p.escalateTime, p.handsetAway, p.floorUnits.toNat, p.blockSize, p.tolerance]

/-- The value of the parameter with an identifier; no other identifier names one. -/
def Params.value (p : Params) (id : Nat) : Option Nat := if id = 0 then none else p.values[id - 1]?

/-- A parameter set when a value is within a range. -/
def within (lo hi v : Nat) (p : Params) : Option Params := if lo ≤ v ∧ v ≤ hi then some p else none

/-- The store with a parameter changed; none when the identifier names none or the value is out of range (R179). -/
def Params.change (p : Params) (id v : Nat) : Option Params :=
  match id with
  | 1 => (spacingOf v).map (fun x => { p with spacingRule := x })
  | 2 => (fillOf v).map (fun x => { p with fillOrder := x })
  | 3 => within 0 7 v { p with defaultZone := v }
  | 4 => within 0 7 v { p with levelQuery := v }
  | 5 => within 0 7 v { p with levelSupply := v }
  | 6 => within 0 7 v { p with levelEscort := v }
  | 7 => within 0 7 v { p with levelRest := v }
  | 8 => within 0 7 v { p with levelAlert := v }
  | 9 => within 0 600 v { p with escalateTime := v }
  | 10 => within 0 300 v { p with handsetAway := v }
  | 11 => (floorSetOf v).map (fun x => { p with floorUnits := x })
  | 12 => within 1 16 v { p with blockSize := v }
  | 13 => within 0 8 v { p with tolerance := v }
  | _ => none

/-- The argument checks of SET_PARAM: the identifier, then its value (R179). -/
def setParamChecks (p : Params) (param : Byte) (value : Word) : List Bool :=
  [(p.value param.toNat).isSome, (p.change param.toNat value.toNat).isSome]

/-- Does a new set of floor units leave out a handset with a call in service (R82)? -/
def State.leavesOutBusy (s : State) (units : FloorSet) : Bool :=
  (List.range 8).any (fun h => s.cli.params.floorUnits.getLsbD h && !units.getLsbD h && !(s.handset h).stack.isEmpty)

/-- The BUSY condition of a parameter (R179). -/
def State.paramBusy (s : State) (id : Nat) (p : Params) : Bool :=
  if id = 11 then s.leavesOutBusy p.floorUnits else id == 12 && s.mke.batch.state != .idle

/-- A handset whose address leaves FLOOR_UNITS becomes OFF, one whose address joins becomes ACTIVE (R106). -/
def joinLeave (old new : FloorSet) (h : Nat) (x : Handset) : Handset :=
  match old.getLsbD h, new.getLsbD h with
  | true, false => { x with state := .off, stack := [], timer := 0, note := none, awayDue := false }
  | false, true => { x with state := .active, stack := [], timer := 0, note := none, awayDue := false }
  | _, _ => x

/-- A call under ESCALATE_TIME_S as it now stands: 0 sets every timer to 0 (R103). The model's choice: an escalation that is due
is dropped, for good, by a value above the timer (log 40); a lower value set later makes the call escalate at the next timebase
second, as R103 says. -/
def Call.underLimit (limit : Nat) (c : Call) : Call :=
  if limit = 0 then { c with timer := 0, escalationDue := false }
  else { c with escalationDue := c.escalationDue && decide (limit ≤ c.timer) }

/-- A handset under HANDSET_AWAY_S as it now stands (R108). The model's choice: going AWAY, when due, is dropped, for good, by 0 or a
value above the timer (log 40); a lower value set later makes the handset go AWAY at the next timebase second, as R108 says. -/
def Handset.underLimit (limit : Nat) (h : Handset) : Handset :=
  { h with awayDue := h.awayDue && decide (0 < limit ∧ limit ≤ h.timer) }

/-- The store takes a change, and the owning blocks are given it in the same event (R179). -/
def State.applyParams (s : State) (p : Params) : State :=
  { s with
    cli.params := p
    cdp.calls := mapAll (Option.map (Call.underLimit p.escalateTime)) s.cdp.calls
    cdp.handsets := s.cdp.handsets.mapIdx (fun h x =>
      (joinLeave s.cli.params.floorUnits p.floorUnits h x).underLimit p.handsetAway) }

/-- SET_PARAM (R179); a value equal to the present one changes nothing. -/
def ansSetParam (param : Byte) (value : Word) (s : State) : State × Answer :=
  withArgs (setParamChecks s.cli.params param value) (fun s =>
    match s.cli.params.change param.toNat value.toNat with
    | none => (s, badArgument 2)
    | some p =>
      if s.paramBusy param.toNat p then (s, refuse .busy)
      else
        let before := (s.cli.params.value param.toNat).getD 0
        (if p = s.cli.params then s else s.applyParams p, ok (.param param.toNat before value.toNat))) s

/-- SET_PARAM. -/
def execSetParam (param : Byte) (value : Word) : State → Outcome := answerTo 0x39 (ansSetParam param value)

/-- The identifiers GET_PARAM names: one, or all in order (R180). -/
def paramsFor (b : Byte) : List Nat := if b = 0xFF#8 then (List.range 13).map (· + 1) else [b.toNat]

/-- GET_PARAM (R180). -/
def ansGetParam (param : Byte) : State → State × Answer :=
  withArgs [param == 0xFF#8 || (1 ≤ param.toNat && param.toNat ≤ 13)] (fun s =>
    (s, ok (.params ((paramsFor param).filterMap (fun id => (s.cli.params.value id).map (fun v => (id, v)))))))

/-- GET_PARAM. -/
def execGetParam (param : Byte) : State → Outcome := answerTo 0x3A (ansGetParam param)

/-! ### IDENTIFY, READ_STATUS and RESET (R181, R182, R186) -/

/-- The identity record (R181). -/
def State.identity (s : State) : Identity :=
  ⟨Config.vendorCode, Config.partCode, Config.revision, Config.capacities, strapRate s.cli.rate1 s.cli.rate0⟩

/-- IDENTIFY (R181). -/
def ansIdentify (s : State) : State × Answer := (s, ok (.identity s.identity))

/-- IDENTIFY. -/
def execIdentify : State → Outcome := answerTo 0x3B ansIdentify

/-- READ_STATUS's reply (R182). -/
def ansReadStatus (s : State) : State × Answer :=
  (s, ok (.status s.cli.flags s.cli.resets s.cli.notices.length (s.ulc.links.toList.map (·.running))
    s.mke.batch.state))

/-- READ_STATUS with the clearing that follows the forming of its reply (R182). -/
def State.readStatus (s : State) : State := s.requestThen 0x3C ansReadStatus State.clearStatus

/-- READ_STATUS. -/
def execReadStatus (s : State) : Outcome := done s.readStatus

/-- RESET: answered OK, and the reset waits for its reply to be sent (R186, log 20). -/
def ansReset (scope : Byte) : State → State × Answer :=
  withArgs [(scopeOf scope).isSome] (fun s => ({ s with cli.resetTaken := scopeOf scope }, ok .none))

/-- RESET. -/
def execReset (scope : Byte) : State → Outcome := answerTo 0x3D (ansReset scope)

end Sys2Proof.Machine
end

