-- ==== Sys2Proof/Machine/Resets.lean ====
section
/-!
DEFINITION. The resets (chapter 10 and the reset values of every chapter): RESET_PORTS, RESET_HALL, POWER_ON, LINK_RESET
and LINE_IDLE_RETURN.
-/

namespace Sys2Proof.Machine

/-- The reply list, the overrun count with its mark, the receiver and the pending reset under a RESET, and the frame on the line
with them, then the notice queue as the last step (R186, R178). -/
def State.resetControl (s : State) (cause : ResetCause) : State :=
  let s1 := s.recordReset cause
  { s1 with
    cli.replies := []
    cli.overruns := 0
    cli.discarded := false
    cli.receiver := .hunt
    cli.resetTaken := none
    cli.resetDue := none
    cli.notices := [] }

/-- What both scopes of RESET do in the hall: pauses ended, calls and stacks emptied (R117), links restarted (R79), the
reader port resynchronised (R150), channels IDLE (R129). -/
def State.resetHallPorts (s : State) : State :=
  let s1 := s.resumeAll.clearCalls.restartLinks.resyncReader
  { s1 with scu.channels := Vector.replicate 4 Channel.atReset }

/-- RESET(PORTS) acts, one event (R186, R162). -/
def State.actPorts (s : State) : State :=
  (s.resetHallPorts.modBatch Batch.portsReset).resetControl .ports

/-- A seat under RESET(HALL): FREE or ABSENT by its kind, unbound, the setup fields kept (R1, R3). -/
def Seat.hallReset (x : Seat) : Seat :=
  { x with
    state := if x.kind = .seat then .free else .absent
    bound := none
    fault := none
    answering := false
    heldOrigin := false }

/-- The tables RESET(HALL) clears beyond RESET(PORTS): sittings with their mark lists, candidates, waiting queue, seat
states, exception list, keys, store and batch (R186). -/
def State.clearHall (s : State) : State :=
  { s with
    htu.seats := mapAll Seat.hallReset s.htu.seats
    htu.cands := Vector.replicate 512 none
    sal.queue := []
    sal.retryDue := 0
    sal.relocations := []
    tme.sittings := Vector.replicate 8 Sitting.atReset
    scu.exceptions := []
    mke := Mke.atReset }

/-- RESET(HALL) acts, one event: the pauses end before the call list is emptied, the records are freed after that
(R186). -/
def State.actHall (s : State) : State := s.resetHallPorts.clearHall.resetControl .hall

/-- RESET_PORTS: a RESET(PORTS) whose reply has been sent acts (R186); with none due nothing happens (log 20). -/
def execResetPorts (s : State) : Outcome := if s.cli.resetDue = some .ports then done s.actPorts else done s

/-- RESET_HALL: a RESET(HALL) whose reply has been sent acts (R186); with none due nothing happens (log 20). -/
def execResetHall (s : State) : Outcome := if s.cli.resetDue = some .hall then done s.actHall else done s

/-- POWER_ON (R184): every record at its value; the straps are sampled; the pins HRDY and RRDY are as they stand. -/
def execPowerOn (rate1 rate0 : Bool) (s : State) : Outcome :=
  done { State.reset with
    cli.hrdy := s.cli.hrdy
    cli.rate1 := rate1
    cli.rate0 := rate0
    srp.rrdy := s.srp.rrdy
    pending := s.pending }

/-- The Control Link Interface under LINK_RESET (R185): its values after POWER_ON, but for the straps, the pin, the
SYNC_LOST flag and the reset cause record; the line is at break. The model's choice: a RESET taken that has not acted yet is
dropped with the reply list, and no cause of its own is recorded (R185 and R186 do not settle it; log 41). -/
def Cli.linkReset (x : Cli) (resets : ResetRecord) : Cli :=
  { Cli.atReset with
    flags := ⟨false, false, x.flags.syncLost, true⟩
    lineHeld := true
    hrdy := x.hrdy
    rate1 := x.rate1
    rate0 := x.rate0
    resets := resets }

/-- LINK_RESET acts (R185): the state after POWER_ON with the exceptions the rule lists. The pauses that R117 ends first
leave no trace, since the records are freed. -/
def State.actLinkReset (s : State) : State :=
  let port := s.resyncReader.srp
  { State.reset with
    cli := s.cli.linkReset (s.recordReset .linkReset).cli.resets
    tme := { s.tme with sittings := Vector.replicate 8 Sitting.atReset }
    srp := { Srp.atReset with rrdy := s.srp.rrdy, verdicts := port.verdicts, verdictSending := port.verdictSending }
    pending := s.pending }

/-- LINK_RESET (R185): the receive line has been at break for 50 ms. One break is one LINK_RESET. -/
def execLinkReset (s : State) : Outcome := if s.cli.lineHeld then done s else done s.actLinkReset

/-- LINE_IDLE_RETURN (R185): the receive line is back at the idle level. -/
def execLineIdleReturn (s : State) : Outcome := done { s with cli.lineHeld := false }

end Sys2Proof.Machine
end

