-- ==== Sys2Proof/Machine/Frames.lean ====
section
/-!
DEFINITION. The control link's receiver and transmitter (10.1, 10.2): a complete frame (R173, R174), the receiver byte by
byte (R172), bad frames (R175), and the meanings of BAD_FRAME, RECEIVE_GAP_TIMEOUT, UNKNOWN_KIND, OVERRUN, HRDY_CHANGE and
FRAME_SENT.
-/

namespace Sys2Proof.Machine

/-- A request is passed to the block that owns its matter, and answered (R173, step 4). An event row is no request. -/
def State.runRequest (s : State) (i : Instr) : State :=
  match i with
  | .defineSeats f l k z a => s.request 0x01 (ansDefineSeats f l k z a)
  | .holdSeat a => s.request 0x02 (ansHoldSeat a)
  | .freeSeat a => s.request 0x03 (ansFreeSeat a)
  | .repairSeat a => s.request 0x04 (ansRepairSeat a)
  | .readSeat a n => s.request 0x05 (ansReadSeat a n)
  | .withdraw a => s.request 0x06 (ansWithdraw a)
  | .readCandidate c n k => s.request 0x07 (ansReadCandidate c n k)
  | .setRoute p h z => s.request 0x08 (ansSetRoute p h z)
  | .clearRoute p => s.request 0x09 (ansClearRoute p)
  | .readRoutes => s.request 0x0A ansReadRoutes
  | .allocate n k d a r => s.request 0x0B (ansAllocate n k d a r)
  | .allocateRun n c k d a r => s.request 0x0C (ansAllocateRun n c k d a r)
  | .readQueue => s.request 0x0D ansReadQueue
  | .move c a => s.request 0x0E (ansMove c a)
  | .setTimebase t f p m => s.request 0x0F (ansSetTimebase t f p m)
  | .setHallTime h m t => s.request 0x10 (ansSetHallTime h m t)
  | .readClock => s.request 0x11 ansReadClock
  | .defineSitting i p r w c o l n q t t' k => s.request 0x12 (ansDefineSitting i p r w c o l n q t t' k)
  | .startSitting k h m t => s.request 0x13 (ansStartSitting k h m t)
  | .cancelStart k => s.request 0x14 (ansCancelStart k)
  | .holdSitting k => s.request 0x15 (ansHoldSitting k)
  | .resumeSitting k => s.request 0x16 (ansResumeSitting k)
  | .closeSitting k => s.request 0x17 (ansCloseSitting k)
  | .forceClose k => s.request 0x18 (ansForceClose k)
  | .clearSitting k => s.request 0x19 (ansClearSitting k)
  | .readSitting k => s.request 0x1A (ansReadSitting k)
  | .leave c => s.request 0x1B (ansLeave c)
  | .readMarks k f n => s.request 0x1C (ansReadMarks k f n)
  | .startLink l => s.request 0x1D (ansStartLink l)
  | .stopLink l => s.request 0x1E (ansStopLink l)
  | .readLink l f n => s.request 0x1F (ansReadLink l f n)
  | .raiseAlert a => s.request 0x20 (ansRaiseAlert a)
  | .setHandsetZones h z => s.request 0x21 (ansSetHandsetZones h z)
  | .cancelCall c => s.request 0x22 (ansCancelCall c)
  | .readCalls => s.request 0x23 ansReadCalls
  | .issueBooklet c => s.request 0x24 (ansIssueBooklet c)
  | .takeExceptions n => s.request 0x25 (ansTakeExceptions n)
  | .startSweep c m a b t => s.request 0x26 (ansStartSweep c m a b t)
  | .stopSweep c => s.request 0x27 (ansStopSweep c)
  | .readScripts f n => s.request 0x28 (ansReadScripts f n)
  | .readSweep c => s.request 0x29 (ansReadSweep c)
  | .readReader => s.request 0x2A ansReadReader
  | .keyBegin k f q p => s.request 0x2B (ansKeyBegin k f q p)
  | .keyPart k f e => s.request 0x2C (ansKeyPart k f e)
  | .keyEnd k => s.request 0x2D (ansKeyEnd k)
  | .withdrawQuestion k q => s.request 0x2E (ansWithdrawQuestion k q)
  | .readKey k f n => s.request 0x2F (ansReadKey k f n)
  | .readSheet i => s.request 0x30 (ansReadSheet i)
  | .readBatch => s.request 0x31 ansReadBatch
  | .startBatch k n a b => s.request 0x32 (ansStartBatch k n a b)
  | .continueBatch => s.request 0x33 ansContinueBatch
  | .extendSegment e => s.request 0x34 (ansExtendSegment e)
  | .releaseSlots l => s.request 0x35 (ansReleaseSlots l)
  | .abortBatch => s.request 0x36 ansAbortBatch
  | .resolveDuplicate i a => s.request 0x37 (ansResolveDuplicate i a)
  | .remark k => s.request 0x38 (ansRemark k)
  | .setParam i v => s.request 0x39 (ansSetParam i v)
  | .getParam i => s.request 0x3A (ansGetParam i)
  | .identify => s.request 0x3B ansIdentify
  | .readStatus => s.readStatus
  | .reset c => s.request 0x3D (ansReset c)
  | _ => s

/-- A kind outside 0x01–0x5F (R173, step 1). -/
def kindOutside (kind : Byte) : Bool := kind.toNat == 0 || 0x5F < kind.toNat

/-- A kind in the range that names no request (R173, step 2; 11.2). -/
def kindUnnamed (kind : Byte) : Bool := 0x3D < kind.toNat && kind.toNat ≤ 0x5F

/-- The reply to a kind outside the request kinds carries the kind received (R173, 11.2). -/
def unknownAnswer (kind : Byte) : Answer := ⟨.unknownKind, .unknownKind kind⟩

/-- A complete frame is checked and taken as a request (R173). -/
def State.takeRequest (kind : Byte) (body : List Byte) (s : State) : State :=
  if kindOutside kind then s.pushReply 0xFF#8 (unknownAnswer kind)
  else if kindUnnamed kind then s.pushReply (kind + 0x80#8) ⟨.unknownKind, .none⟩
  else
    match decodeRequest kind body with
    | none => s.pushReply (kind + 0x80#8) ⟨.badLength, .none⟩
    | some i => s.runRequest i

/-- A complete frame ends (R173, R174). -/
def State.takeFrame (kind : Byte) (body : List Byte) (s : State) : State := s.onFrame (State.takeRequest kind body)

/-- UNKNOWN_KIND (R173): a complete frame, here given by its kind and body; whatever they are, it is taken as R173 and
R174 say (log 12). -/
def execUnknownKind (kind : Byte) (body : List Byte) (s : State) : Outcome := done (s.takeFrame kind body)

/-- OVERRUN (R174): a complete frame that ends while a request is waiting is discarded and counted; with none waiting it
is a request (log 12). -/
def execOverrun (kind : Byte) (body : List Byte) (s : State) : Outcome := done (s.takeFrame kind body)

/-! ### Bad frames (R172, R175) -/

/-- A BAD_FRAME entry counts one more bad frame, held at 255, and keeps the ending of the first (R175). -/
def ReplyEntry.addBad : ReplyEntry → ReplyEntry
  | .badFrame n e => .badFrame (heldAdd 255 n) e
  | other => other

/-- The reply list after a bad frame (R175). -/
def repliesWithBad (ending : BadEnding) (l : List ReplyEntry) : List ReplyEntry :=
  if l.any ReplyEntry.isBadFrame then l.map ReplyEntry.addBad else l ++ [.badFrame 1 ending]

/-- A bad frame ends: it is recorded, and the receiver is in HUNT (R172, R175). -/
def State.badFrame (s : State) (ending : BadEnding) : State :=
  { s with cli.receiver := .hunt, cli.replies := repliesWithBad ending s.cli.replies }

/-- The receiver's state. -/
def State.setReceiver (s : State) (r : Receiver) : State := { s with cli.receiver := r }

/-- The receiver once the length and the kind are in: BODY, skipped for a length of 0 (R172). -/
def afterKind (len : Nat) (kind : Byte) : Receiver := if len = 0 then .check len kind [] none else .body len kind []

/-- The receiver after one more body byte (R172). -/
def afterBody (len : Nat) (kind : Byte) (taken : List Byte) : Receiver :=
  if taken.length = len then .check len kind taken none else .body len kind taken

/-- The end of a frame at its second CRC byte: the CRC covers length, kind and body (R172, 11.2). -/
def State.endFrame (s : State) (len : Nat) (kind : Byte) (body : List Byte) (hi lo : Byte) : State :=
  if crcBytes (be2 len ++ [kind] ++ body) = [hi, lo] then s.takeFrame kind body else s.badFrame .check

/-- A byte without framing error, by the receiver's state (R172). -/
def State.receiveData (s : State) (b : Byte) : State :=
  match s.cli.receiver with
  | .hunt => if b = 0xA5#8 then s.setReceiver (.length none) else s
  | .length none => s.setReceiver (.length (some b))
  | .length (some hi) =>
    if 1024 < beNat [hi, b] then s.badFrame .length else s.setReceiver (.kind (beNat [hi, b]))
  | .kind len => s.setReceiver (afterKind len b)
  | .body len kind taken => s.setReceiver (afterBody len kind (taken ++ [b]))
  | .check len kind taken none => s.setReceiver (.check len kind taken (some b))
  | .check len kind taken (some hi) => s.endFrame len kind taken hi b

/-- A byte with its stop bit at break level: discarded in HUNT, a FRAMING ending otherwise (R172). -/
def State.receiveFraming (s : State) : State :=
  match s.cli.receiver with
  | .hunt => s
  | _ => s.badFrame .framing

/-- One byte on the receive line; a line held at break since a LINK_RESET is not taken (R172, R185). -/
def State.receiveByte (b : RxByte) (s : State) : State :=
  if s.cli.lineHeld then s else if b.framingError then s.receiveFraming else s.receiveData b.data

/-- BAD_FRAME (R172): a run of bytes on the receive line, in which frames may end, well or badly (log 11). -/
def execBadFrame (run : List RxByte) (s : State) : Outcome := done (s.takeRun State.receiveByte run)

/-- RECEIVE_GAP_TIMEOUT (R172): 10 ms pass with no byte; out of HUNT the frame ends badly. -/
def execReceiveGapTimeout (s : State) : Outcome :=
  match s.cli.receiver with
  | .hunt => done s
  | _ => done (s.badFrame .gap)

/-! ### The transmitter (R174, R175, R186) -/

/-- HRDY_CHANGE (R175): the pin takes a level; a frame already begun is completed. -/
def execHrdyChange (level : Bool) (s : State) : Outcome := done { s with cli.hrdy := level }

/-- The reply to the waiting request has been sent and its wait is over: the OVERRUN reply joins the list when frames
were discarded during that wait, and the mark of the wait is cleared (R174, R175). The entry joins also when an earlier
OVERRUN reply, sent during the wait, has returned the count to 0 (log 30); the list holds at most one (R175). -/
def State.markOverrun (s : State) : State :=
  { s with
    cli.discarded := false
    cli.replies := if s.cli.discarded = true ∧ s.cli.replies.any ReplyEntry.isOverrun = false
      then s.cli.replies ++ [.overrun] else s.cli.replies }

/-- A RESET whose reply has been sent is about to act (R186). -/
def State.releaseReset (s : State) : State :=
  match s.cli.resetTaken with
  | some scope => { s with cli.resetTaken := none, cli.resetDue := some scope }
  | none => s

/-- The last byte of a frame has been sent: its entry leaves its list (R174, R175, R178). -/
def State.frameSent (s : State) (f : OutFrame) : State :=
  let s1 := { s with cli.sending := none }
  match f with
  | .reply _ => ({ s1 with cli.replies := s.cli.replies.tail }).markOverrun.releaseReset
  | .badFrame _ _ _ => { s1 with cli.replies := s.cli.replies.tail }
  | .overrun _ _ => { s1 with cli.replies := s.cli.replies.tail, cli.overruns := 0 }
  | .notice _ _ => { s1 with cli.notices := s.cli.notices.tail }

/-- FRAME_SENT (R175): with no frame on the line nothing happens (log 3). -/
def execFrameSent (s : State) : Outcome :=
  match s.cli.sending with
  | some f => done (s.frameSent f)
  | none => done s

end Sys2Proof.Machine
end

