-- ==== Sys2Proof/Machine/Dispatch.lean ====
section
/-! DEFINITION. The dispatch: one arm per command, each one call of its meaning. -/

namespace Sys2Proof.Machine

def exec (i : Instr) (s : State) : Host.Outcome State Fault Refusal :=
  match i with
  | .defineSeats first last kind zone attrs => Sys2Proof.Machine.execDefineSeats first last kind zone attrs s
  | .holdSeat seat => Sys2Proof.Machine.execHoldSeat seat s
  | .freeSeat seat => Sys2Proof.Machine.execFreeSeat seat s
  | .repairSeat seat => Sys2Proof.Machine.execRepairSeat seat s
  | .readSeat first count => Sys2Proof.Machine.execReadSeat first count s
  | .withdraw slot => Sys2Proof.Machine.execWithdraw slot s
  | .readCandidate slot number sitting => Sys2Proof.Machine.execReadCandidate slot number sitting s
  | .setRoute paper home overflow => Sys2Proof.Machine.execSetRoute paper home overflow s
  | .clearRoute paper => Sys2Proof.Machine.execClearRoute paper s
  | .readRoutes => Sys2Proof.Machine.execReadRoutes s
  | .allocate number sitting needs allowance rest => Sys2Proof.Machine.execAllocate number sitting needs allowance rest s
  | .allocateRun base count sitting needs allowance rest => Sys2Proof.Machine.execAllocateRun base count sitting needs allowance rest s
  | .readQueue => Sys2Proof.Machine.execReadQueue s
  | .move slot seat => Sys2Proof.Machine.execMove slot seat s
  | .setTimebase source frequency prescale syncMode => Sys2Proof.Machine.execSetTimebase source frequency prescale syncMode s
  | .setHallTime hour minute second => Sys2Proof.Machine.execSetHallTime hour minute second s
  | .readClock => Sys2Proof.Machine.execReadClock s
  | .defineSitting sitting paper reading writing cutoff opening closing warnings quiet threshold scriptKind keyId => Sys2Proof.Machine.execDefineSitting sitting paper reading writing cutoff opening closing warnings quiet threshold scriptKind keyId s
  | .startSitting sitting hour minute second => Sys2Proof.Machine.execStartSitting sitting hour minute second s
  | .cancelStart sitting => Sys2Proof.Machine.execCancelStart sitting s
  | .holdSitting sitting => Sys2Proof.Machine.execHoldSitting sitting s
  | .resumeSitting sitting => Sys2Proof.Machine.execResumeSitting sitting s
  | .closeSitting sitting => Sys2Proof.Machine.execCloseSitting sitting s
  | .forceClose sitting => Sys2Proof.Machine.execForceClose sitting s
  | .clearSitting sitting => Sys2Proof.Machine.execClearSitting sitting s
  | .readSitting sitting => Sys2Proof.Machine.execReadSitting sitting s
  | .leave slot => Sys2Proof.Machine.execLeave slot s
  | .readMarks sitting first count => Sys2Proof.Machine.execReadMarks sitting first count s
  | .startLink link => Sys2Proof.Machine.execStartLink link s
  | .stopLink link => Sys2Proof.Machine.execStopLink link s
  | .readLink link first count => Sys2Proof.Machine.execReadLink link first count s
  | .raiseAlert seat => Sys2Proof.Machine.execRaiseAlert seat s
  | .setHandsetZones handset zones => Sys2Proof.Machine.execSetHandsetZones handset zones s
  | .cancelCall call => Sys2Proof.Machine.execCancelCall call s
  | .readCalls => Sys2Proof.Machine.execReadCalls s
  | .issueBooklet slot => Sys2Proof.Machine.execIssueBooklet slot s
  | .takeExceptions count => Sys2Proof.Machine.execTakeExceptions count s
  | .startSweep channel mode start finish stride => Sys2Proof.Machine.execStartSweep channel mode start finish stride s
  | .stopSweep channel => Sys2Proof.Machine.execStopSweep channel s
  | .readScripts first count => Sys2Proof.Machine.execReadScripts first count s
  | .readSweep channel => Sys2Proof.Machine.execReadSweep channel s
  | .readReader => Sys2Proof.Machine.execReadReader s
  | .keyBegin key form questions penalty => Sys2Proof.Machine.execKeyBegin key form questions penalty s
  | .keyPart key first entries => Sys2Proof.Machine.execKeyPart key first entries s
  | .keyEnd key => Sys2Proof.Machine.execKeyEnd key s
  | .withdrawQuestion key question => Sys2Proof.Machine.execWithdrawQuestion key question s
  | .readKey key first count => Sys2Proof.Machine.execReadKey key first count s
  | .readSheet store => Sys2Proof.Machine.execReadSheet store s
  | .readBatch => Sys2Proof.Machine.execReadBatch s
  | .startBatch sitting count segStart segEnd => Sys2Proof.Machine.execStartBatch sitting count segStart segEnd s
  | .continueBatch => Sys2Proof.Machine.execContinueBatch s
  | .extendSegment segEnd => Sys2Proof.Machine.execExtendSegment segEnd s
  | .releaseSlots stores => Sys2Proof.Machine.execReleaseSlots stores s
  | .abortBatch => Sys2Proof.Machine.execAbortBatch s
  | .resolveDuplicate store action => Sys2Proof.Machine.execResolveDuplicate store action s
  | .remark sitting => Sys2Proof.Machine.execRemark sitting s
  | .setParam param value => Sys2Proof.Machine.execSetParam param value s
  | .getParam param => Sys2Proof.Machine.execGetParam param s
  | .identify => Sys2Proof.Machine.execIdentify s
  | .readStatus => Sys2Proof.Machine.execReadStatus s
  | .reset scope => Sys2Proof.Machine.execReset scope s
  | .resetPorts => Sys2Proof.Machine.execResetPorts s
  | .resetHall => Sys2Proof.Machine.execResetHall s
  | .powerOn rate1 rate0 => Sys2Proof.Machine.execPowerOn rate1 rate0 s
  | .linkReset => Sys2Proof.Machine.execLinkReset s
  | .badFrame run => Sys2Proof.Machine.execBadFrame run s
  | .receiveGapTimeout => Sys2Proof.Machine.execReceiveGapTimeout s
  | .unknownKind kind body => Sys2Proof.Machine.execUnknownKind kind body s
  | .overrun kind body => Sys2Proof.Machine.execOverrun kind body s
  | .hrdyChange level => Sys2Proof.Machine.execHrdyChange level s
  | .frameSent => Sys2Proof.Machine.execFrameSent s
  | .timebaseSecond => Sys2Proof.Machine.execTimebaseSecond s
  | .syncEdge => Sys2Proof.Machine.execSyncEdge s
  | .syncLost => Sys2Proof.Machine.execSyncLost s
  | .scheduledStart sitting => Sys2Proof.Machine.execScheduledStart sitting s
  | .sittingSecond sitting => Sys2Proof.Machine.execSittingSecond sitting s
  | .readingCompare sitting => Sys2Proof.Machine.execReadingCompare sitting s
  | .sittingWarning sitting => Sys2Proof.Machine.execSittingWarning sitting s
  | .lateCutoff sitting => Sys2Proof.Machine.execLateCutoff sitting s
  | .writingCompare sitting => Sys2Proof.Machine.execWritingCompare sitting s
  | .warnFiring slot => Sys2Proof.Machine.execWarnFiring slot s
  | .endFiring slot => Sys2Proof.Machine.execEndFiring slot s
  | .restExpiry slot => Sys2Proof.Machine.execRestExpiry slot s
  | .escalation call => Sys2Proof.Machine.execEscalation call s
  | .handsetAway handset => Sys2Proof.Machine.execHandsetAway handset s
  | .retryPass => Sys2Proof.Machine.execRetryPass s
  | .relocation => Sys2Proof.Machine.execRelocation s
  | .pollCycleStart link => Sys2Proof.Machine.execPollCycleStart link s
  | .pollFrame link => Sys2Proof.Machine.execPollFrame link s
  | .pollTimeout link => Sys2Proof.Machine.execPollTimeout link s
  | .seatReply link frame => Sys2Proof.Machine.execSeatReply link frame s
  | .handsetReply frame => Sys2Proof.Machine.execHandsetReply frame s
  | .stationReply frame => Sys2Proof.Machine.execStationReply frame s
  | .wallClockReply frame => Sys2Proof.Machine.execWallClockReply frame s
  | .lateUnitReply link frame => Sys2Proof.Machine.execLateUnitReply link frame s
  | .pollCycleEnd link => Sys2Proof.Machine.execPollCycleEnd link s
  | .timeCodeBroadcast link => Sys2Proof.Machine.execTimeCodeBroadcast link s
  | .timeCodeRepeat link => Sys2Proof.Machine.execTimeCodeRepeat link s
  | .sheetFrameEnd run => Sys2Proof.Machine.execSheetFrameEnd run s
  | .frameGapTimeout => Sys2Proof.Machine.execFrameGapTimeout s
  | .rrdyChange level => Sys2Proof.Machine.execRrdyChange level s
  | .verdictSent => Sys2Proof.Machine.execVerdictSent s
  | .lineIdleReturn => Sys2Proof.Machine.execLineIdleReturn s

end Sys2Proof.Machine
end

