-- ==== Sys2Proof/Safety.lean ====
section
/-!
DEFINITION. What it means for a state of the part to be in order: the properties that every command keeps and that the
state after reset has. No command ends in a fault or a refusal (`Machine.State.safeStep`).
-/

namespace Sys2Proof.Machine

/-- The lists that grow stay within the Capacities of 00_scope: the notice queue (R178), the exception list (R127), the
verdict list (R138), the route table (R21) and the waiting queue (R32). -/
def State.withinCapacity (s : State) : Prop :=
  s.cli.notices.length ≤ 64 ∧ s.scu.exceptions.length ≤ 64 ∧ s.srp.verdicts.length ≤ 4 ∧ s.sal.routes.length ≤ 16 ∧
    s.sal.queue.length ≤ 32

/-- The reply list holds at most one entry of each of its three kinds (R175). -/
def State.oneReplyOfEach (s : State) : Prop :=
  s.cli.replies.countP ReplyEntry.isReply ≤ 1 ∧ s.cli.replies.countP ReplyEntry.isBadFrame ≤ 1 ∧
    s.cli.replies.countP ReplyEntry.isOverrun ≤ 1

/-- The frame on the transmit line is the head of the list it came from (R175): a reply of the reply list, a notice of the
notice queue. -/
def State.sendsHead (s : State) : OutFrame → Prop
  | .reply r => s.cli.replies.head? = some (.reply r)
  | .badFrame _ _ _ => s.cli.replies.head?.any ReplyEntry.isBadFrame = true
  | .overrun _ _ => s.cli.replies.head? = some .overrun
  | .notice _ n => s.cli.notices.head? = some n

/-- The transmitter is in order: the frame on the line is the head of its list (R175), and no frame is on the line while a
reset is about to act (R186). -/
def State.lineInOrder (s : State) : Prop :=
  (∀ f, s.cli.sending = some f → s.sendsHead f) ∧ (s.cli.resetDue.isSome = true → s.cli.sending = none)

/-- A mark list is ordered by due time, then by slot (R64). -/
def Sitting.marksOrdered (x : Sitting) : Prop := x.marks.Pairwise (fun a b => b.before a = false)

/-- Every sitting's mark list is ordered (R64). -/
def State.marksOrdered (s : State) : Prop := ∀ x ∈ s.tme.sittings.toList, x.marksOrdered

/-- The hall clock holds a time of day (R40). -/
def State.hallValid (s : State) : Prop := s.tme.hall.valid = true

/-- The HELD flag is set only while a sitting is READING, WRITING or EXTENDED (R46). -/
def State.heldOnlyRunning (s : State) : Prop :=
  ∀ x ∈ s.tme.sittings.toList, x.held = true → x.state.running = true

/-- A seat names a candidate exactly when the candidate names the seat (R3). -/
def State.paired (s : State) : Prop :=
  ∀ i c : Nat, (s.seat? i).bind (·.bound) = some c ↔ (s.cand? c).bind (·.bound) = some i

/-- Seats and candidates are in order (R3, R12, R32): the pairing; a seat bound to a candidate is ASSIGNED, OCCUPIED, VACATED
or FAULTED, and one in the first three of these is bound; a WAITING or ABSENT candidate has no seat; and the waiting queue names
the WAITING candidates, each once, and no others. -/
def State.seatsInOrder (s : State) : Prop :=
  s.paired ∧
  (∀ (i : Nat) (x : Seat), s.seat? i = some x → x.bound ≠ none →
    x.state = .assigned ∨ x.state = .occupied ∨ x.state = .vacated ∨ x.state = .faulted) ∧
  (∀ (i : Nat) (x : Seat), s.seat? i = some x → x.state = .assigned ∨ x.state = .occupied ∨ x.state = .vacated →
    x.bound ≠ none) ∧
  (∀ (c : Nat) (x : Candidate), s.cand? c = some x → x.state = .waiting ∨ x.state = .absent → x.bound = none) ∧
  s.sal.queue.Nodup ∧ ∀ c, c ∈ s.sal.queue ↔ ∃ x, s.cand? c = some x ∧ x.state = .waiting

/-- The sittings are settled: the late cutoff is no later than the writing length (R47), is not taken before writing, and in
WRITING is taken exactly when the clock has reached it (R53); so a WAITING or EXPECTED candidate's sitting has not passed its
cutoff (R17), and no candidate of a CLOSED sitting has a seat (R18). -/
def State.sittingsSettled (s : State) : Prop :=
  (∀ x ∈ s.tme.sittings.toList, x.cutoff ≤ x.writing ∧
    (x.state = .empty ∨ x.state = .defined ∨ x.state = .armed ∨ x.state = .reading → x.cutoffTaken = false) ∧
    (x.state = .writing → (x.cutoffTaken = true ↔ x.cutoff * 60 ≤ x.clock))) ∧
  ∀ (c : Nat) (y : Candidate), s.cand? c = some y →
    let x := s.sitting y.sitting
    (y.state = .waiting ∨ y.state = .expected → x.state = .defined ∨ x.state = .armed ∨ x.state = .reading ∨
      (x.state = .writing ∧ x.cutoffTaken = false)) ∧
    (x.state = .closed → y.bound = none)

/-- In `u` the bindings of the candidates `p` of `s` are cleared (R16 to R19, R113): their seats are FREE, or FAULTED as
they were, and unbound; their calls are detached; and one retry pass is asked for when any seat became FREE. -/
def State.clearedFor (s u : State) (p : Candidate → Bool) : Prop :=
  let named (i : Nat) : Prop := ∃ c x, s.cand? c = some x ∧ p x = true ∧ x.bound = some i
  let freed : Prop := ∃ i z, named i ∧ s.seat? i = some z ∧ z.state ≠ .faulted
  (∀ i z, s.seat? i = some z → named i → u.seat? i =
    some { z with bound := none, state := if z.state = .faulted then .faulted else .free }) ∧
  (∀ i, ¬named i → u.seat? i = s.seat? i) ∧
  (∀ n, u.call? n = (s.call? n).map (fun y =>
    if (s.cand? y.slot).any (fun x => p x && x.bound.isSome) then { y with seat := none } else y)) ∧
  (freed → u.sal.retryDue = s.sal.retryDue + 1) ∧ (¬freed → u.sal.retryDue = s.sal.retryDue)

/-- The first condition of a list that fails is answered by its place, counted from `n` (R176). -/
def firstFails (answer : Nat → Prop) : Nat → List Prop → Prop
  | _, [] => True
  | n, p :: rest => (¬p → answer n) ∧ (p → firstFails answer (n + 1) rest)

/-- The receiver is in HUNT, as it is after every frame (R172). -/
def State.toHunt (s : State) : State := { s with cli.receiver := .hunt }

/-- The outcome of a request of a kind whose event leaves `u` and answers `a`: the reply, of kind + 0x80, joins the reply
list, and the transmitters begin what they may (R173, R175). -/
def State.replied (u : State) (kind : Byte) (a : Answer) : Outcome := .next (u.pushReply (kind + 0x80#8) a).settle

/-- The command at the front of the queue ends in a next state: no fault, no refusal. -/
def State.safeStep (s : State) : Prop := ∃ t, step s = .next t

end Sys2Proof.Machine
end

