-- ==== Sys2Proof/WellFormed.lean ====
section
/-!
DEFINITION. What the encodings of 11.1 and 11.2 allow a command to carry: a list argument is counted by one byte, and
a control frame's body has at most 1024 bytes. A command outside these bounds cannot be spelt on the line.
-/

namespace Sys2Proof

/-- The longest body of a control frame (11.2). -/
def maxBody : Nat := 1024

/-- Is the command one that the encodings can spell? -/
def Instr.wellFormed : Instr → Bool
  | .setRoute _ _ overflow => overflow.length ≤ 255
  | .defineSitting _ _ _ _ _ _ _ warnings _ _ _ _ => warnings.length ≤ 255
  | .keyPart _ _ entries => entries.length ≤ 255
  | .releaseSlots stores => stores.length ≤ 255
  | .unknownKind _ body => body.length ≤ maxBody
  | .overrun _ body => body.length ≤ maxBody
  | _ => true

end Sys2Proof
end

