-- ==== Sys2Proof/Certificates/Slice0/Obligations.lean ====
section
/-!
DEFINITION. The statements for the provers. A request's statement says the whole outcome: `u.replied kind a` is the next
state in which the request's event has left `u` and its reply, of kind + 0x80 and with the answer `a`, has joined the reply
list; `u` is written out from the state before, so the statement says what changes and that nothing else does. A request is
taken while the receiver listens (`State.listening`: the line is not held at break and no request is waiting, R172, R174).
An event's outcome is `.next u.settle`: the event leaves `u`, and the two transmitters begin what they may (R148, R175).
-/

section

open Sys2Proof Sys2Proof.Machine

/-! ### The step and the queue -/

/-- A step takes the command at the front of the queue and runs `exec` on it over the queue's rest. -/
def Obligations.StepTakesFrontCommand : Prop :=
  ∀ (c : Instr) (s : State), step { s with pending := c :: s.pending } = exec c s

/-- Every command ends in a next state: no fault and no refusal; and none touches the queue. With no command waiting
the part idles (the model's choice, log 1). -/
def Obligations.StepsNeverStop : Prop :=
  (∀ (c : Instr) (s : State), ∃ t, exec c s = .next t ∧ t.pending = s.pending) ∧
  (∀ s : State, s.pending = [] → step s = .next s)

/-! ### After power-up, and what every step keeps -/

/-- The state after power-up holds the values the chapters give for POWER_ON: every seat, an empty candidate table, no
route and no queue, the timebase and the clock, every sitting EMPTY with its paper code blank, its numbers 0, its
lists empty, its optional fields absent and its flags clear, every link STOPPED with its marks clear, no call, every
handset, channel and key, an empty store, a cleared batch record, the reader port, the control link and the
parameters. -/
def Obligations.StateAfterPowerUp : Prop :=
  (∀ i, i < 384 → State.reset.seat? i = some ⟨.seat, i / 16 / 3, 0, .free, none, none, false, false⟩) ∧
  (∀ c, State.reset.cand? c = none) ∧
  State.reset.sal.routes = [] ∧ State.reset.sal.queue = [] ∧
  State.reset.tme.timebase = ⟨.internal, 10000, 4, .off⟩ ∧ State.reset.tme.hall = ⟨0, 0, 0⟩ ∧
  (∀ k, k < 8 → (State.reset.sitting k).paper = Vector.replicate 6 0x20#8 ∧ (State.reset.sitting k).state = .empty ∧
    (State.reset.sitting k).reading = 0 ∧ (State.reset.sitting k).writing = 0 ∧ (State.reset.sitting k).cutoff = 0 ∧
    (State.reset.sitting k).opening = 0 ∧ (State.reset.sitting k).closing = 0 ∧ (State.reset.sitting k).warnings = [] ∧
    (State.reset.sitting k).quiet = 0 ∧ (State.reset.sitting k).threshold = 0 ∧
    (State.reset.sitting k).nextWarning = 0 ∧ (State.reset.sitting k).absentCount = 0 ∧
    (State.reset.sitting k).cutoffTaken = false ∧ (State.reset.sitting k).marks = [] ∧
    (State.reset.sitting k).held = false ∧ (State.reset.sitting k).scheduled = none ∧
    (State.reset.sitting k).clock = 0 ∧ (State.reset.sitting k).keyId = none) ∧
  (∀ l, (State.reset.link l).running = false ∧ (State.reset.link l).history = [] ∧ (State.reset.link l).sequence = 0 ∧
    (State.reset.link l).broadcastPending = false ∧ (State.reset.link l).repeatPending = false ∧
    (State.reset.link l).silentReported = false ∧ (State.reset.link l).members = []) ∧
  (∀ l a, State.reset.unit l a = ⟨0, 0, 0, none, none⟩) ∧
  (∀ i, State.reset.call? i = none) ∧
  (∀ h, h < 8 → State.reset.handset h = ⟨.active, 0xFF#8, [], 0, none, false⟩) ∧
  (∀ k, k < 4 → State.reset.channel k = ⟨.idle, none, none, none, none, 0, 0, 0⟩) ∧
  State.reset.scu.exceptions = [] ∧
  State.reset.srp.assembler = .hunt ∧ State.reset.srp.parked = none ∧ State.reset.srp.verdicts = [] ∧
  State.reset.srp.lastFault = none ∧ State.reset.srp.counts = ⟨0, 0, 0, 0, 0, 0, 0, 0, 0, 0⟩ ∧
  (∀ k, k < 8 → State.reset.key k = ⟨.empty, 0, 0, []⟩) ∧
  (∀ i, State.reset.stored? i = none) ∧
  State.reset.mke.batch =
    { state := .idle, endCause := .none, sitting := 0, key := 0, count := 0, remaining := 0, blockSize := 0, tolerance := 0,
      blockNumber := 0, block := ⟨0, 0, 0, 0⟩, totals := ⟨0, 0, 0, 0⟩, rejects := ⟨0, 0, 0, 0, 0, 0⟩, segStart := 0,
      segEnd := 0, haltPending := false } ∧
  State.reset.cli.flags = ⟨false, false, false, true⟩ ∧ State.reset.cli.resets = ⟨.powerOn, ⟨0, 0, 0⟩, [.powerOn]⟩ ∧
  State.reset.cli.receiver = .hunt ∧ State.reset.cli.replies = [] ∧ State.reset.cli.overruns = 0 ∧
  State.reset.cli.notices = [] ∧
  State.reset.cli.params = ⟨.row, .ascending, 0, 4, 5, 2, 2, 1, 0, 30, 0xFFFFF#20, 8, 2⟩

/-- The state after power-up has every property the invariants below keep: the capacities, the replies and the line,
the mark lists, the hall time, the holds, the pairing with what goes with it, and the settled sittings; and its step
is safe. -/
def Obligations.StateAfterPowerUpIsInOrder : Prop :=
  State.reset.withinCapacity ∧ State.reset.oneReplyOfEach ∧ State.reset.lineInOrder ∧ State.reset.marksOrdered ∧
    State.reset.hallValid ∧ State.reset.heldOnlyRunning ∧ State.reset.paired ∧
    State.reset.seatsInOrder ∧ State.reset.sittingsSettled ∧ State.reset.safeStep

/-- The lists that grow stay within their capacities. -/
def Obligations.StepKeepsCapacities : Prop := ∀ s t : State, s.withinCapacity → step s = .next t → t.withinCapacity

/-- The reply list holds at most one entry of each kind. The frame on the transmit line is the head of the list it
came from, and none is on it while a reset is about to act. -/
def Obligations.StepKeepsReplyListInOrder : Prop :=
  (∀ s t : State, s.oneReplyOfEach → step s = .next t → t.oneReplyOfEach) ∧
  (∀ s t : State, s.lineInOrder → step s = .next t → t.lineInOrder)

/-- Every mark list stays ordered by due time, then by slot. -/
def Obligations.StepKeepsMarkListsOrdered : Prop := ∀ s t : State, s.marksOrdered → step s = .next t → t.marksOrdered

/-- The hall clock holds a time of day. The HELD flag is set only in READING, WRITING and EXTENDED. -/
def Obligations.StepKeepsClocksAndHolds : Prop :=
  (∀ s t : State, s.hallValid → step s = .next t → t.hallValid) ∧
  (∀ s t : State, s.heldOnlyRunning → step s = .next t → t.heldOnlyRunning)

/-! ### The control link -/

/-- Every request the encodings can spell is read back from its kind and body as itself, and a kind and body are read
as a request only when they are that request's: a body of any other length is none (R173). (The widths and the order
of the fields that 11.1 and 11.2 leave open are the model's deduction, log 13.) -/
def Obligations.RequestEncodingRoundTrip : Prop :=
  ∀ (i : Instr) (kind : Byte) (body : List Byte),
    (i.wellFormed = true → encodeRequest i = some (kind, body) → decodeRequest kind body = some i ∧ body.length ≤ 1024) ∧
    (decodeRequest kind body = some i → i.wellFormed = true ∧ encodeRequest i = some (kind, body))

/-- A request taken while the receiver listens gets one reply, of its kind + 0x80, at the tail of the reply list; and
a request refused, whatever the reason, changes nothing else. -/
def Obligations.EveryRequestGetsOneReply : Prop :=
  ∀ (i : Instr) (kind : Byte) (body : List Byte) (s : State), encodeRequest i = some (kind, body) → s.listening = true →
    ∃ (u : State) (r : Reply), exec i s = .next u.settle ∧ r.kind = kind + 0x80#8 ∧
      u.cli.replies = s.cli.replies ++ [.reply r] ∧
      (r.status ≠ .ok → r.status ≠ .queued → r.status ≠ .isPartial →
        u = { s with cli.receiver := .hunt, cli.replies := s.cli.replies ++ [.reply r] })

/-- A complete frame that arrives while the receiver listens is a request, checked in the order of R173: a kind
outside 0x01 to 0x5F, a kind that names no request, a body of a length the kind does not allow, and else the request
itself. The model's choices: the UNKNOWN_KIND and OVERRUN rows carry a kind and a body, and an OVERRUN row with
nothing waiting is taken as that request (log 12); a request row is the arrival of a whole frame and leaves the
receiver in HUNT (log 2, deduced). A complete frame that ends while a request is waiting is discarded, whatever it is,
and counted up to 255 (R174, the OVERRUN row among the rest), and marks the OVERRUN reply due once the waiting reply
has been sent; one that comes while the line is held at break is not received (R172). A request is waiting while its
reply stands in the list, and a RESET until it acts (log 20). -/
def Obligations.CompleteFrameIsTakenOrDiscarded : Prop :=
  (∀ (kind : Byte) (body : List Byte) (s : State), s.listening = true →
     (kind.toNat = 0 ∨ 0x5F < kind.toNat → exec (.unknownKind kind body) s =
       .next (s.toHunt.pushReply 0xFF#8 ⟨.unknownKind, .unknownKind kind⟩).settle) ∧
     (0x3D < kind.toNat → kind.toNat ≤ 0x5F → exec (.unknownKind kind body) s =
       s.toHunt.replied kind ⟨.unknownKind, .none⟩) ∧
     (1 ≤ kind.toNat → kind.toNat ≤ 0x3D → decodeRequest kind body = none → exec (.unknownKind kind body) s =
       s.toHunt.replied kind ⟨.badLength, .none⟩) ∧
     (∀ i, decodeRequest kind body = some i → exec (.unknownKind kind body) s = exec i s) ∧
     exec (.overrun kind body) s = exec (.unknownKind kind body) s) ∧
  ((∀ s : State, (s.waiting = true ↔ (∃ r, ReplyEntry.reply r ∈ s.cli.replies) ∨ s.cli.resetDue ≠ none) ∧
     (s.listening = true ↔ s.cli.lineHeld = false ∧ s.waiting = false)) ∧
   ∀ (i : Instr) (s : State),
     ((∃ kind body, encodeRequest i = some (kind, body)) ∨ (∃ kind body, i = .unknownKind kind body) ∨
       (∃ kind body, i = .overrun kind body)) →
     (s.cli.lineHeld = true → exec i s = .next s.settle) ∧
     (s.cli.lineHeld = false → s.waiting = true → exec i s = .next { s with
       cli.receiver := .hunt
       cli.overruns := if s.cli.overruns < 255 then s.cli.overruns + 1 else 255
       cli.discarded := true }.settle))

/-- The receiver takes a byte by its state (R172), and a bad frame is recorded for the BAD_FRAME reply (R175);
RECEIVE_GAP_TIMEOUT ends a frame in progress by GAP. A frame that ends well is taken as the UNKNOWN_KIND row takes the
same kind and body (O11): as a request, or discarded (R173, R174; log 12). After each byte the transmitters begin what
they may, so that the BAD_FRAME reply of a first bad frame goes out, the line free and HRDY asserted, before the next
is counted (R175). That the BAD_FRAME row carries a run of bytes, taken one after another, is the model's choice (log
11). -/
def Obligations.ReceiverTakesBytes : Prop :=
  (∀ s : State, exec (.badFrame []) s = .next s.settle) ∧
  (∀ (kind : Byte) (body : List Byte) (s : State), exec (.unknownKind kind body) s = .next (s.takeFrame kind body).settle) ∧
  (∀ (b : RxByte) (run : List RxByte) (s : State),
    exec (.badFrame (b :: run)) s = .next (run.foldl (fun t c => (t.receiveByte c).settle) (s.receiveByte b).settle)) ∧
  (∀ (b : RxByte) (s : State),
    let put (r : Receiver) : State := { s with cli.receiver := r }
    let bad (e : BadEnding) : State := { s with
      cli.receiver := .hunt
      cli.replies := if s.cli.replies.any ReplyEntry.isBadFrame then s.cli.replies.map (fun r => match r with
          | .badFrame n f => .badFrame (if n < 255 then n + 1 else 255) f
          | other => other)
        else s.cli.replies ++ [.badFrame 1 e] }
    (s.cli.receiver = .hunt → exec .receiveGapTimeout s = .next s.settle) ∧
    (s.cli.receiver ≠ .hunt → exec .receiveGapTimeout s = .next (bad .gap).settle) ∧
    (s.cli.lineHeld = true → s.receiveByte b = s) ∧
    (s.cli.lineHeld = false → b.framingError = true → s.cli.receiver = .hunt → s.receiveByte b = s) ∧
    (s.cli.lineHeld = false → b.framingError = true → s.cli.receiver ≠ .hunt → s.receiveByte b = bad .framing) ∧
    (s.cli.lineHeld = false → b.framingError = false →
      (s.cli.receiver = .hunt → s.receiveByte b = if b.data = 0xA5#8 then put (.length none) else s) ∧
      (s.cli.receiver = .length none → s.receiveByte b = put (.length (some b.data))) ∧
      (∀ hi, s.cli.receiver = .length (some hi) → s.receiveByte b =
        if 1024 < hi.toNat * 256 + b.data.toNat then bad .length else put (.kind (hi.toNat * 256 + b.data.toNat))) ∧
      (∀ len, s.cli.receiver = .kind len → s.receiveByte b =
        put (if len = 0 then .check 0 b.data [] none else .body len b.data [])) ∧
      (∀ len kind taken, s.cli.receiver = .body len kind taken → s.receiveByte b =
        put (if taken.length + 1 = len then .check len kind (taken ++ [b.data]) none
          else .body len kind (taken ++ [b.data]))) ∧
      (∀ len kind taken, s.cli.receiver = .check len kind taken none → s.receiveByte b =
        put (.check len kind taken (some b.data))) ∧
      (∀ len kind taken hi, s.cli.receiver = .check len kind taken (some hi) → s.receiveByte b =
        if crcBytes (be2 len ++ [kind] ++ taken) = [hi, b.data] then s.takeFrame kind taken else bad .check)))

/-- What the transmitters do at the end of an event, and what a reply is: a VERDICT begins when RRDY is asserted and
the list is not empty; a control frame begins when the line is free, HRDY is asserted and no reset is about to act,
the head of the reply list first, else the head of the notice queue; a reply joins the list with the hall flags as
they stand. HRDY_CHANGE takes the pin's level. FRAME_SENT takes the frame off its list: a request's reply ends its
wait, makes the OVERRUN reply due when frames were discarded during it, and releases a RESET; an OVERRUN reply returns
the count to 0; with no frame on the line nothing happens (R174, R175, R186). The model's: a row with nothing to do is
idle (log 3); the entry stays in its list until it has been sent and leaves with what was counted meanwhile (log 10);
an OVERRUN is due even when an earlier one, sent during the wait, has cleared the count (log 30); BAD_FRAME and
OVERRUN replies show the flags as their frame is begun (log 31); a RESET acts by its own row, and no frame is begun
before it (log 20). -/
def Obligations.TransmittersBeginAndEndFrames : Prop :=
  ((∀ s : State, s.settle = { s with
     srp.verdictSending := s.srp.verdictSending || (s.srp.rrdy && !s.srp.verdicts.isEmpty)
     cli.sending :=
       if s.cli.hrdy = true ∧ s.cli.sending = none ∧ s.cli.resetDue = none then
         match s.cli.replies, s.cli.notices with
         | .reply r :: _, _ => some (.reply r)
         | .badFrame n e :: _, _ => some (.badFrame s.cli.flags n e)
         | .overrun :: _, _ => some (.overrun s.cli.flags s.cli.overruns)
         | [], n :: _ => some (.notice s.cli.flags n)
         | [], [] => none
       else s.cli.sending }) ∧
   (∀ (s : State) (kind : Byte) (a : Answer), s.pushReply kind a =
     { s with cli.replies := s.cli.replies ++ [.reply ⟨kind, a.status, s.cli.flags, a.body⟩] })) ∧
  (∀ s : State,
     (∀ level, exec (.hrdyChange level) s = .next ({ s with cli.hrdy := level } : State).settle) ∧
     (s.cli.sending = none → exec .frameSent s = .next s.settle) ∧
     (∀ r, s.cli.sending = some (.reply r) → exec .frameSent s = .next (State.settle { s with
       cli.sending := none
       cli.replies := if s.cli.discarded = true ∧ s.cli.replies.tail.any ReplyEntry.isOverrun = false
         then s.cli.replies.tail ++ [.overrun] else s.cli.replies.tail
       cli.discarded := false
       cli.resetTaken := none
       cli.resetDue := if s.cli.resetTaken = none then s.cli.resetDue else s.cli.resetTaken })) ∧
     (∀ f n e, s.cli.sending = some (.badFrame f n e) → exec .frameSent s = .next (State.settle
       { s with cli.sending := none, cli.replies := s.cli.replies.tail })) ∧
     (∀ f n, s.cli.sending = some (.overrun f n) → exec .frameSent s = .next (State.settle
       { s with cli.sending := none, cli.replies := s.cli.replies.tail, cli.overruns := 0 })) ∧
     (∀ f n, s.cli.sending = some (.notice f n) → exec .frameSent s = .next (State.settle
       { s with cli.sending := none, cli.notices := s.cli.notices.tail })))

/-! ### Requests that read -/

/-- The reads that take no argument answer OK with the state as it stands, and change nothing; IDENTIFY gives every
value of the Capacities table (R181). That READ_READER's number of bytes counts the start marker is the model's choice
(log 14), and the vendor and the part code are free values (log 6). The calls as READ_CALLS gives them (R118): a call
with its id, its fields, the finish seat when it is detached, the number and the sitting of its candidate, and whether
it is dispatchable now (R105); those in service by handset, bottom of the stack first. That a call in service is shown
as not dispatchable is the model's choice (log 36). READ_SITTING and READ_SWEEP answer OK with the record and the
counts their rules name. READ_CANDIDATE by slot, or by number with or without a sitting; given both or neither it is
refused, and which position the refusal names is the model's choice (log 8). -/
def Obligations.ReadsReportState : Prop :=
  (∀ s : State, s.listening = true →
     exec .readRoutes s = s.toHunt.replied 0x0A (ok (.routes s.sal.routes)) ∧
     exec .readClock s = s.toHunt.replied 0x11
       (ok (.clock s.tme.hall s.tme.timebase s.cli.flags.syncLost s.tme.sinceEdge)) ∧
     exec .readCalls s = s.toHunt.replied 0x23 (ok (.calls (s.callsWhere (fun _ => true)).length
       (s.pendingCalls.map (fun e => s.callView e.1 e.2)) s.serviceViews s.cdp.handsets.toList)) ∧
     exec .readReader s = s.toHunt.replied 0x2A (ok (.reader s.srp.rrdy (s.mke.batch.state != .active) s.srp.assembler
       (s.srp.assembler.taken.map (fun t => (feedOf t).isSome)) (s.srp.assembler.taken.bind feedOf)
       (s.srp.assembler.taken.map (fun t => t.length + 1)) s.srp.parked s.srp.verdicts s.srp.lastFault s.srp.counts)) ∧
     exec .readBatch s = s.toHunt.replied 0x31 (ok (.batch s.mke.batch (s.mke.batch.count - s.mke.batch.remaining)
       (s.srp.parked.map (fun p => (p.sheet.feed, p.slot))) (s.mke.store.toList.map (Option.map (·.kind)))
       s.emptySlots.length)) ∧
     exec .identify s = s.toHunt.replied 0x3B (ok (.identity ⟨Config.vendorCode, Config.partCode, 'A',
       { seats := 384, rows := 24, columns := 16, zones := 8, candidateSlots := 512, greatestNumber := 99999999
         sittings := 8, paperCharacters := 6, routes := 16, overflowZones := 3, waitingQueue := 32, markEntries := 512
         calls := 48, callLevels := 8, handsets := 8, stackDepth := 3, stations := 4, channels := 4, booklets := 8
         exceptions := 64, keys := 8, formRows := [40, 80, 120, 160], formOptions := ['A', 'B', 'C', 'D', 'E']
         storeSlots := 64, batchCount := 256, notices := 64, frameBody := 1024 },
       match s.cli.rate1, s.cli.rate0 with
         | false, false => 115200
         | false, true => 230400
         | true, false => 460800
         | true, true => 921600⟩))) ∧
  (∀ s : State,
     (∀ (i : Nat) (c : Call) (y : Candidate), s.cand? c.slot = some y → s.callView i c =
       { id := i
         call := c
         finishSeat := if c.seat = none then y.finish else none
         number := y.number
         sitting := y.sitting
         dispatchable := if c.state = .pending then s.dispatchable c else false }) ∧
     s.serviceViews = (s.cdp.handsets.toList.flatMap (fun h => h.stack)).filterMap (fun i =>
       (s.call? i).map (fun c => s.callView i c))) ∧
  (∀ (b : Byte) (s : State), s.listening = true →
     (b.toNat < 8 → exec (.readSitting b) s = s.toHunt.replied 0x1A (ok (.sitting (s.sitting b.toNat)
       ([CandState.waiting, .expected, .present, .writing, .paused, .finished, .absent, .withdrawn].map (fun st =>
         s.countCands (fun c => c.sitting == b.toNat && c.state == st)))
       (s.sitting b.toNat).marks.length (s.countCands (fun c => c.sitting == b.toNat && decide (c.collectedCount < c.issued)))
       (s.callsOfSitting b.toNat).length
       (match (s.sitting b.toNat).state with
         | .reading => some ((s.sitting b.toNat).reading * 60 - (s.sitting b.toNat).clock)
         | .writing => some ((s.sitting b.toNat).writing * 60 - (s.sitting b.toNat).clock)
         | _ => none)))) ∧
     (b.toNat < 4 → exec (.readSweep b) s = s.toHunt.replied 0x29 (ok (.sweeps [(b.toNat, s.channel b.toNat)]
       s.scu.exceptions.length s.cli.flags.exceptionsLost))) ∧
     exec (.readSweep 0xFF#8) s = s.toHunt.replied 0x29 (ok (.sweeps [(0, s.channel 0), (1, s.channel 1), (2, s.channel 2),
       (3, s.channel 3)] s.scu.exceptions.length s.cli.flags.exceptionsLost))) ∧
  (∀ (slot : Half) (number : Word) (sitting : Byte) (s : State), s.listening = true →
     (slot.toNat < 512 → number = 0#32 →
       (∀ x, s.cand? slot.toNat = some x →
         exec (.readCandidate slot number sitting) s = s.toHunt.replied 0x07 (ok (.candidate slot.toNat x))) ∧
       (s.cand? slot.toNat = none →
         exec (.readCandidate slot number sitting) s = s.toHunt.replied 0x07 notFound)) ∧
     (slot = 0xFFFF#16 → 1 ≤ number.toNat → number.toNat ≤ 99999999 → (sitting = 0xFF#8 ∨ sitting.toNat < 8) →
       (∀ c x, s.lookup number.toNat (if sitting = 0xFF#8 then none else some sitting.toNat) = some c → s.cand? c = some x →
         exec (.readCandidate slot number sitting) s = s.toHunt.replied 0x07 (ok (.candidate c x))) ∧
       (s.lookup number.toNat (if sitting = 0xFF#8 then none else some sitting.toNat) = none →
         exec (.readCandidate slot number sitting) s = s.toHunt.replied 0x07 notFound)) ∧
     ((slot = 0xFFFF#16 ↔ number = 0#32) → exec (.readCandidate slot number sitting) s = s.toHunt.replied 0x07
       (badArgument (if slot = 0xFFFF#16 ∨ slot.toNat < 512 then 2 else 1))))

/-- The reads of a run of records answer OK with each record of the run, when the run lies within its table. (Deduced:
a key with no questions answers with an empty range whatever the first question, log 25; the widths of the READ_LINK
and READ_MARKS operands, log 13. The model's choice: the clock READ_MARKS gives in READING is the reading clock, log
34.) A mark entry as READ_MARKS gives it (R78, R63): its position, the entry, the candidate's number and state, the
personal end, the time left, the warning stage, and for a PAUSED candidate the pause start and the rest left, which is
r of R72 as it stood at the pause (deduced, log 26). -/
def Obligations.RunReadsReportRecords : Prop :=
  (∀ (first : Half) (count key store link : Byte) (s : State), s.listening = true →
     (1 ≤ count.toNat → count.toNat ≤ 32 →
       (first.toNat + count.toNat ≤ 384 → exec (.readSeat first count) s = s.toHunt.replied 0x05 (ok (.seats
         ((List.range count.toNat).filterMap (fun n => (s.seat? (first.toNat + n)).map (fun x =>
           (first.toNat + n, x, (s.boundNumber (first.toNat + n)).map (·.2)))))))) ∧
       (first.toNat + count.toNat ≤ 512 → exec (.readScripts first count) s = s.toHunt.replied 0x28 (ok (.scripts
         ((List.range count.toNat).map (fun n => ⟨first.toNat + n, s.cand? (first.toNat + n),
           ((s.cand? (first.toNat + n)).bind (·.bound)).any s.needsCollection⟩))))) ∧
       (∀ l, linkOf link = some l → linkBase l ≤ first.toNat → first.toNat + count.toNat ≤ linkBase l + linkSize l →
         exec (.readLink link first count) s = s.toHunt.replied 0x1F (ok (.link (s.link l) (s.link l).members.length
           ((List.range count.toNat).map (fun n => ⟨first.toNat + n, (s.link l).members.contains (first.toNat + n),
             s.unit l (first.toNat + n)⟩)))))) ∧
     (∀ k : Byte, k.toNat < 8 → 1 ≤ first.toNat → 1 ≤ count.toNat → count.toNat ≤ 32 →
       exec (.readMarks k first count) s = s.toHunt.replied 0x1C (ok (.marks (s.sitting k.toNat).marks.length
         (s.sitting k.toNat).clock (s.sitting k.toNat).held
         ((((s.sitting k.toNat).marks.zipIdx.drop (first.toNat - 1)).take count.toNat).filterMap (fun e =>
           s.markView (s.sitting k.toNat) (e.2 + 1) e.1))))) ∧
     (∀ q : Byte, key.toNat < 8 → 1 ≤ q.toNat → 1 ≤ count.toNat → count.toNat ≤ 40 →
       ((s.key key.toNat).questions = [] ∨ q.toNat + count.toNat - 1 ≤ (s.key key.toNat).questions.length) →
       exec (.readKey key q count) s = s.toHunt.replied 0x2F (ok (.key (s.key key.toNat).state (s.key key.toNat).form
         (s.key key.toNat).questions.length (s.key key.toNat).penalty
         (((s.key key.toNat).questions.filter (fun q => !q.withdrawn)).map (·.weight)).sum
           (((s.key key.toNat).questions.drop (q.toNat - 1)).take count.toNat)))) ∧
     (store.toNat < 64 → exec (.readSheet store) s = s.toHunt.replied 0x30 (ok (.sheet (s.stored? store.toNat)
       ((((s.stored? store.toNat).bind (·.ref)).bind s.cand?).map (·.number)))))) ∧
  (∀ (s : State) (x : Sitting) (position : Nat) (e : MarkEntry),
     (s.cand? e.slot = none → s.markView x position e = none) ∧
     (∀ y, s.cand? e.slot = some y →
       let finish := x.writing * 60 + y.extension + y.pausedTotal
       let now := if y.state = .paused then y.pauseStart.getD x.clock else x.clock
       s.markView x position e = some
         { position := position
           entry := e
           number := y.number
           state := y.state
           personalEnd := finish
           timeLeft := finish - now
           stage := x.warnings.countP (fun w => decide (finish - w * 60 ≤ now))
           pause := if y.state = .paused then y.pauseStart.map (fun p => (p, y.restBudget - y.restUsed)) else none }))

/-- READ_QUEUE gives every entry of the waiting queue, oldest first, with its position, slot, number, sitting and
needs. -/
def Obligations.ReadQueueListsWaiting : Prop :=
  ∀ s : State, s.listening = true →
    exec .readQueue s = s.toHunt.replied 0x0D (ok (.queue s.queueEntries)) ∧
    ((∀ c ∈ s.sal.queue, (s.cand? c).isSome = true) →
      s.queueEntries.length = s.sal.queue.length ∧
      ∀ (n c : Nat) (x : Candidate), s.sal.queue[n]? = some c → s.cand? c = some x →
        s.queueEntries[n]? = some (n + 1, c, x.number, x.sitting, x.needs))

/-- READ_STATUS reports the flags, the reset cause record, the notices waiting, the links and the batch state; after
its reply is formed NOTICES_LOST, EXCEPTIONS_LOST, RESET_SEEN and the cause set are cleared, and SYNC_LOST stays. One
that comes while a request is waiting is discarded as an overrun and clears nothing. -/
def Obligations.ReadStatusReportsThenClears : Prop :=
  (∀ s : State, s.cli.lineHeld = false → s.waiting = true → exec .readStatus s = .next s.discardFrame.settle) ∧
  ∀ s : State, s.listening = true → exec .readStatus s = .next { s with
    cli.receiver := .hunt
    cli.replies := s.cli.replies ++ [ReplyEntry.reply ⟨0xBC#8, .ok, s.cli.flags, .status s.cli.flags s.cli.resets
      s.cli.notices.length (s.ulc.links.toList.map (fun (l : Link) => l.running)) s.mke.batch.state⟩]
    cli.flags := ⟨false, false, s.cli.flags.syncLost, false⟩
    cli.resets := ⟨s.cli.resets.latest, s.cli.resets.time, []⟩ }.settle

/-- The number lookup: an active record that matches; else the closed record in the lowest slot that matches; else
none. -/
def Obligations.LookupPrefersActiveRecord : Prop :=
  ∀ (s : State) (number : Nat) (sitting : Option Nat),
    (∀ c, s.lookup number sitting = some c → ∃ x, s.cand? c = some x ∧ x.number = number ∧
      (∀ k, sitting = some k → x.sitting = k) ∧
      (x.state.active = false → ∀ (d : Nat) (y : Candidate), s.cand? d = some y → y.number = number →
        (∀ k, sitting = some k → y.sitting = k) → y.state.active = false ∧ c ≤ d)) ∧
    (s.lookup number sitting = none → ∀ (d : Nat) (y : Candidate), s.cand? d = some y → y.number = number →
      ∃ k, sitting = some k ∧ y.sitting ≠ k) ∧
    (∀ c, s.activeSlot number = some c → ∃ x, s.cand? c = some x ∧ x.number = number ∧ x.state.active = true) ∧
    (s.activeSlot number = none → ∀ (d : Nat) (y : Candidate), s.cand? d = some y → y.number = number →
      y.state.active = false)

/-- A first argument that is a seat, slot, sitting, link, handset, call, channel, key or store slot out of range
refuses the request with BAD_ARGUMENT at position 1, and nothing changes. The argument that a refusal names is the
first that fails, also among the later ones, for the requests of several arguments: routes, seats, READ_CANDIDATE,
READ_LINK, ALLOCATE and ALLOCATE_RUN, the timebase and the hall time, DEFINE_SITTING, sweeps, the keys and
START_BATCH. (Where a check relates two fields, that it is the later one is the model's choice, log 8; that READ_KEY
refuses a first question 0 by its own position and takes any range of a key with no questions is deduced, log 25.) The
codes of the fields a request carries (11.1), by which the statements say what a code names: a paper code of capital
letters and digits, links, steps and where they lead (R131), timebase sources, SYNC modes, script kinds, scopes,
attribute sets. -/
def Obligations.FirstArgumentOutOfRange : Prop :=
  (∀ (h h' : Half) (b b1 b2 b3 : Byte) (es : List KeyEntry) (s : State), s.listening = true →
     (384 ≤ h.toNat →
       exec (.holdSeat h) s = s.toHunt.replied 0x02 (badArgument 1) ∧
       exec (.freeSeat h) s = s.toHunt.replied 0x03 (badArgument 1) ∧
       exec (.repairSeat h) s = s.toHunt.replied 0x04 (badArgument 1) ∧
       exec (.readSeat h b) s = s.toHunt.replied 0x05 (badArgument 1) ∧
       exec (.raiseAlert h) s = s.toHunt.replied 0x20 (badArgument 1) ∧
       exec (.defineSeats h h' b b1 b2) s = s.toHunt.replied 0x01 (badArgument 1)) ∧
     (512 ≤ h.toNat →
       exec (.withdraw h) s = s.toHunt.replied 0x06 (badArgument 1) ∧
       exec (.move h h') s = s.toHunt.replied 0x0E (badArgument 1) ∧
       exec (.leave h) s = s.toHunt.replied 0x1B (badArgument 1) ∧
       exec (.issueBooklet h) s = s.toHunt.replied 0x24 (badArgument 1) ∧
       exec (.readScripts h b) s = s.toHunt.replied 0x28 (badArgument 1)) ∧
     (8 ≤ b.toNat →
       exec (.startSitting b b1 b2 b3) s = s.toHunt.replied 0x13 (badArgument 1) ∧
       exec (.cancelStart b) s = s.toHunt.replied 0x14 (badArgument 1) ∧
       exec (.closeSitting b) s = s.toHunt.replied 0x17 (badArgument 1) ∧
       exec (.forceClose b) s = s.toHunt.replied 0x18 (badArgument 1) ∧
       exec (.clearSitting b) s = s.toHunt.replied 0x19 (badArgument 1) ∧
       exec (.readSitting b) s = s.toHunt.replied 0x1A (badArgument 1) ∧
       exec (.readMarks b h b1) s = s.toHunt.replied 0x1C (badArgument 1) ∧
       exec (.setHandsetZones b b1) s = s.toHunt.replied 0x21 (badArgument 1) ∧
       exec (.keyBegin b b1 b2 b3) s = s.toHunt.replied 0x2B (badArgument 1) ∧
       exec (.keyPart b b1 es) s = s.toHunt.replied 0x2C (badArgument 1) ∧
       exec (.keyEnd b) s = s.toHunt.replied 0x2D (badArgument 1) ∧
       exec (.withdrawQuestion b b1) s = s.toHunt.replied 0x2E (badArgument 1) ∧
       exec (.readKey b b1 b2) s = s.toHunt.replied 0x2F (badArgument 1) ∧
       exec (.startBatch b b1 b2 b3) s = s.toHunt.replied 0x32 (badArgument 1) ∧
       exec (.remark b) s = s.toHunt.replied 0x38 (badArgument 1)) ∧
     (8 ≤ b.toNat → b ≠ 0xFF#8 →
       exec (.holdSitting b) s = s.toHunt.replied 0x15 (badArgument 1) ∧
       exec (.resumeSitting b) s = s.toHunt.replied 0x16 (badArgument 1)) ∧
     (5 ≤ b.toNat → b ≠ 0xFF#8 →
       exec (.startLink b) s = s.toHunt.replied 0x1D (badArgument 1) ∧
       exec (.stopLink b) s = s.toHunt.replied 0x1E (badArgument 1)) ∧
     (5 ≤ b.toNat → exec (.readLink b h b1) s = s.toHunt.replied 0x1F (badArgument 1)) ∧
     (48 ≤ b.toNat → exec (.cancelCall b) s = s.toHunt.replied 0x22 (badArgument 1)) ∧
     (4 ≤ b.toNat →
       exec (.startSweep b b1 h h' b2) s = s.toHunt.replied 0x26 (badArgument 1) ∧
       exec (.stopSweep b) s = s.toHunt.replied 0x27 (badArgument 1) ∧
       (b ≠ 0xFF#8 → exec (.readSweep b) s = s.toHunt.replied 0x29 (badArgument 1))) ∧
     (64 ≤ b.toNat →
       exec (.readSheet b) s = s.toHunt.replied 0x30 (badArgument 1) ∧
       exec (.extendSegment b) s = s.toHunt.replied 0x34 (badArgument 1) ∧
       exec (.resolveDuplicate b b1) s = s.toHunt.replied 0x37 (badArgument 1)) ∧
     (2 ≤ b.toNat → exec (.reset b) s = s.toHunt.replied 0x3D (badArgument 1)) ∧
     (b.toNat = 0 ∨ 32 < b.toNat → exec (.takeExceptions b) s = s.toHunt.replied 0x25 (badArgument 1))) ∧
  (∀ (h h' h2 h3 : Half) (w : Word) (b b1 b2 b3 b4 b5 : Byte) (paper : Paper) (list : List Byte) (es : List KeyEntry)
     (s : State), s.listening = true →
     let named (i : Instr) (kind : Byte) (ok : List Prop) : Prop :=
       firstFails (fun n => exec i s = s.toHunt.replied kind (badArgument n)) 1 ok
     let shared (k needs allowance rest : Byte) : List Prop :=
       [k.toNat < 8, needs.toNat < 8, allowance.toNat ≤ 100 ∧ allowance.toNat % 5 = 0, rest.toNat ≤ 60]
     named (.defineSeats h h' b b1 b2) 0x01 [h.toNat < 384, h'.toNat < 384 ∧ h.toNat ≤ h'.toNat, b.toNat < 2,
       b = 1#8 ∨ b1.toNat < 8, b = 1#8 ∨ b2.toNat < 8] ∧
     named (.readSeat h b) 0x05 [h.toNat < 384, 1 ≤ b.toNat ∧ b.toNat ≤ 32 ∧ h.toNat + b.toNat ≤ 384] ∧
     named (.setRoute paper b list) 0x08 [isPaper paper = true, b.toNat < 8,
       list.length ≤ 3 ∧ (∀ z ∈ list, z.toNat < 8) ∧ (b :: list).Nodup] ∧
     named (.clearRoute paper) 0x09 [isPaper paper = true] ∧
     named (.allocate w b b1 b2 b3) 0x0B ((1 ≤ w.toNat ∧ w.toNat ≤ 99999999) :: shared b b1 b2 b3) ∧
     named (.allocateRun w b b1 b2 b3 b4) 0x0C ((1 ≤ w.toNat ∧ w.toNat ≤ 99999999) ::
       (1 ≤ b.toNat ∧ b.toNat ≤ 64 ∧ w.toNat + b.toNat - 1 ≤ 99999999) :: shared b1 b2 b3 b4) ∧
     named (.move h h') 0x0E [h.toNat < 512, h'.toNat < 384] ∧
     named (.readCandidate h w b) 0x07 [h = 0xFFFF#16 ∨ h.toNat < 512,
       (h = 0xFFFF#16 ↔ w ≠ 0#32) ∧ (w = 0#32 ∨ w.toNat ≤ 99999999), h ≠ 0xFFFF#16 ∨ b = 0xFF#8 ∨ b.toNat < 8] ∧
     (let on (a : Nat) : Prop := ∃ l, linkOf b = some l ∧ a ∈ linkAddresses l;
       named (.readLink b h b1) 0x1F [b.toNat < 5, on h.toNat, 1 ≤ b1.toNat ∧ b1.toNat ≤ 32 ∧ on (h.toNat + b1.toNat - 1)]) ∧
     (let f := if b = 0#8 then 10000 else h.toNat;
       named (.setTimebase b h b1 b2) 0x0F [b.toNat < 2, 1000 ≤ f ∧ f ≤ 40000, 1 ≤ b1.toNat ∧ b1.toNat ≤ 16 ∧
         f % b1.toNat = 0 ∧ 1000 ≤ f / b1.toNat ∧ f / b1.toNat ≤ 2500, b2.toNat < 2]) ∧
     named (.setHallTime b b1 b2) 0x10 [b.toNat < 24, b1.toNat < 60, b2.toNat < 60] ∧
     named (.defineSitting b paper b1 h h' h2 h3 list b2 b3 b4 b5) 0x12 [b.toNat < 8, isPaper paper = true,
       b1.toNat ≤ 60, 1 ≤ h.toNat ∧ h.toNat ≤ 360, h'.toNat ≤ h.toNat, h2.toNat ≤ h.toNat,
       h3.toNat ≤ h.toNat ∧ h2.toNat + h3.toNat ≤ h.toNat,
       list.length ≤ 4 ∧ (∀ x ∈ list, 1 ≤ x.toNat ∧ x.toNat ≤ 120 ∧ x.toNat ≤ h.toNat) ∧
         (list.map (·.toNat)).Pairwise (· > ·),
       b2.toNat ≤ 30, b3.toNat < 8, b4.toNat < 2, b5 = 0xFF#8 ∨ b5.toNat < 8] ∧
     named (.startSitting b b1 b2 b3) 0x13 [b.toNat < 8, (b1 = 0xFF#8 ∧ b2 = 0xFF#8 ∧ b3 = 0xFF#8) ∨
       (b1.toNat < 24 ∧ b2.toNat < 60 ∧ b3.toNat < 60)] ∧
     named (.readMarks b h b1) 0x1C [b.toNat < 8, 1 ≤ h.toNat, 1 ≤ b1.toNat ∧ b1.toNat ≤ 32] ∧
     named (.startSweep b b1 h h' b2) 0x26 [b.toNat < 4, b1 = 1#8 ∨ b1 = 2#8, b1 = 2#8 ∨ h.toNat < 384,
       b1 = 2#8 ∨ h'.toNat < 384,
       b1 = 2#8 ∨ ∃ st, strideOf b2 = some st ∧ stepLeads st h.toNat h'.toNat = true] ∧
     named (.readScripts h b) 0x28 [h.toNat < 512, 1 ≤ b.toNat ∧ b.toNat ≤ 32 ∧ h.toNat + b.toNat ≤ 512] ∧
     named (.keyBegin b b1 b2 b3) 0x2B [b.toNat < 8, b1.toNat < 4, 1 ≤ b2.toNat ∧ b2.toNat ≤ 40 * (b1.toNat + 1),
       b3.toNat ≤ 2] ∧
     named (.keyPart b b1 es) 0x2C [b.toNat < 8, 1 ≤ b1.toNat, 1 ≤ es.length ∧ es.length ≤ 40 ∧
       b1.toNat + es.length - 1 ≤ (s.key b.toNat).questions.length ∧ ∀ e ∈ es, 1 ≤ e.answers.toNat ∧
         e.answers.toNat < 32 ∧ e.mode.toNat < 2 ∧ 1 ≤ e.weight.toNat ∧ e.weight.toNat ≤ 4] ∧
     named (.withdrawQuestion b b1) 0x2E [b.toNat < 8, 1 ≤ b1.toNat ∧ b1.toNat ≤ (s.key b.toNat).questions.length] ∧
     named (.readKey b b1 b2) 0x2F [b.toNat < 8, 1 ≤ b1.toNat, 1 ≤ b2.toNat ∧ b2.toNat ≤ 40 ∧
       ((s.key b.toNat).questions = [] ∨ b1.toNat + b2.toNat - 1 ≤ (s.key b.toNat).questions.length)] ∧
     named (.startBatch b b1 b2 b3) 0x32 [b.toNat < 8, True, b2.toNat < 64, b3.toNat < 64 ∧ b2.toNat ≤ b3.toNat] ∧
     named (.resolveDuplicate b b1) 0x37 [b.toNat < 64, b1.toNat < 2]) ∧
  ((∀ p : Paper, isPaper p = true ↔
     ∀ b ∈ p.toList, (0x41 ≤ b.toNat ∧ b.toNat ≤ 0x5A) ∨ (0x30 ≤ b.toNat ∧ b.toNat ≤ 0x39)) ∧
   (∀ b : Byte,
     linkOf b = (if b = 0#8 then some .a else if b = 1#8 then some .b else if b = 2#8 then some .c
       else if b = 3#8 then some .d else if b = 4#8 then some .floor else none) ∧
     strideOf b = (if b = 0#8 then some .right else if b = 1#8 then some .left else if b = 2#8 then some .down
       else if b = 3#8 then some .up else none) ∧
     sourceOf b = (if b = 0#8 then some .internal else if b = 1#8 then some .external else none) ∧
     syncModeOf b = (if b = 0#8 then some .off else if b = 1#8 then some .minute else none) ∧
     scriptKindOf b = (if b = 0#8 then some .booklet else if b = 1#8 then some .sheet else none) ∧
     scopeOf b = (if b = 0#8 then some .ports else if b = 1#8 then some .hall else none) ∧
     ∀ n, n < 3 → (attrsOf b).getLsbD n = b.getLsbD n) ∧
   (∀ a e : Nat,
     (stepLeads .right a e = true ↔ a / 16 = e / 16 ∧ a ≤ e) ∧ (stepLeads .left a e = true ↔ a / 16 = e / 16 ∧ e ≤ a) ∧
     (stepLeads .down a e = true ↔ a % 16 = e % 16 ∧ a ≤ e) ∧ (stepLeads .up a e = true ↔ a % 16 = e % 16 ∧ e ≤ a)))

/-! ### The hall tables -/

/-- HOLD_SEAT: a FREE seat becomes HELD; any other state refuses; a HELD seat is offered by no search and is no target
of MOVE; no retry pass is asked for. FREE_SEAT: a HELD seat becomes FREE and one retry pass is asked for; a FAULTED
unbound seat that was held loses its held origin flag; any other state refuses. -/
def Obligations.SeatsAreHeldAndFreed : Prop :=
  (∀ (seat : Half) (s : State), s.listening = true →
     (384 ≤ seat.toNat → exec (.holdSeat seat) s = s.toHunt.replied 0x02 (badArgument 1)) ∧
     (∀ x, s.seat? seat.toNat = some x →
       (x.state = .free → exec (.holdSeat seat) s =
         (s.toHunt.modSeat seat.toNat (fun y => { y with state := .held })).replied 0x02 (ok .none)) ∧
       (x.state ≠ .free → exec (.holdSeat seat) s =
         s.toHunt.replied 0x02 (refuse .refusedState .none (.seatState x.state))) ∧
       (x.state = .held → (∀ k needs c zones, s.searchZones k needs c zones ≠ some seat.toNat) ∧
         ∀ (slot : Half) (y : Candidate), slot.toNat < 512 → s.cand? slot.toNat = some y →
           (y.state = .expected ∨ y.state = .present ∨ y.state = .writing ∨ y.state = .paused) →
           exec (.move slot seat) s = s.toHunt.replied 0x0E (refuse .refusedState .targetState (.seatState .held))))) ∧
  (∀ (seat : Half) (s : State), s.listening = true →
     (384 ≤ seat.toNat → exec (.freeSeat seat) s = s.toHunt.replied 0x03 (badArgument 1)) ∧
     (∀ x, s.seat? seat.toNat = some x →
       (x.state = .held → exec (.freeSeat seat) s = State.replied { s.toHunt.modSeat seat.toNat (fun y =>
         { y with state := .free }) with sal.retryDue := s.sal.retryDue + 1 } 0x03 (ok .none)) ∧
       (x.state = .faulted → x.bound = none → x.heldOrigin = true → exec (.freeSeat seat) s =
         (s.toHunt.modSeat seat.toNat (fun y => { y with heldOrigin := false })).replied 0x03 (ok .none)) ∧
       (x.state ≠ .held → ¬(x.state = .faulted ∧ x.bound = none ∧ x.heldOrigin = true) → exec (.freeSeat seat) s =
         s.toHunt.replied 0x03 (refuse .refusedState .none (.seatState x.state)))))

/-- DEFINE_SEATS over a run of positions none of which is HELD, FAULTED or bound: every position takes the new fields,
the others are as before, and one retry pass is asked for when some position is released; a blocked run is refused and
the reply names its lowest blocking id. REPAIR_SEAT: a FAULTED seat with the answering flag set takes the state its
binding requires, by the table of R9; one that becomes FREE asks for a retry pass; any other seat refuses. -/
def Obligations.SeatsAreDefinedAndRepaired : Prop :=
  (∀ (first last : Half) (kind zone attrs : Byte) (s : State), s.listening = true → first.toNat ≤ last.toNat →
     last.toNat < 384 → (kind = 1#8 ∨ (kind = 0#8 ∧ zone.toNat < 8 ∧ attrs.toNat < 8)) →
     let inRun (i : Nat) : Prop := first.toNat ≤ i ∧ i ≤ last.toNat
     let blocked (i : Nat) : Prop := ∃ x, s.seat? i = some x ∧ (x.state = .held ∨ x.state = .faulted ∨ x.bound ≠ none)
     ((∀ i, inRun i → ¬blocked i) → ∃ u : State,
       exec (.defineSeats first last kind zone attrs) s = u.replied 0x01 (ok (.positions (last.toNat - first.toNat + 1))) ∧
       u = { s.toHunt with htu.seats := u.htu.seats, sal.retryDue := u.sal.retryDue } ∧
       (∀ i, ¬inRun i → u.seat? i = s.seat? i) ∧
       (∀ i x, inRun i → s.seat? i = some x → u.seat? i = some
         (if kind = 0#8 then { x with kind := .seat, zone := zone.toNat, attrs := attrsOf attrs, state := .free }
           else { x with kind := .aisle, zone := i / 16 / 3, attrs := 0, state := .absent })) ∧
       ((∃ i x, inRun i ∧ s.seat? i = some x ∧ kind = 0#8 ∧
           (x.state = .absent ∨ x.zone ≠ zone.toNat ∨ x.attrs ≠ attrsOf attrs)) →
         u.sal.retryDue = s.sal.retryDue + 1) ∧
       ((∀ i x, inRun i → s.seat? i = some x →
           kind = 1#8 ∨ (x.state ≠ .absent ∧ x.zone = zone.toNat ∧ x.attrs = attrsOf attrs)) →
         u.sal.retryDue = s.sal.retryDue)) ∧
     (∀ i, inRun i → blocked i → (∀ j, inRun j → j < i → ¬blocked j) →
       exec (.defineSeats first last kind zone attrs) s = s.toHunt.replied 0x01 (refuse .refusedState .none (.seat i)))) ∧
  (∀ (seat : Half) (s : State), s.listening = true →
     (384 ≤ seat.toNat → exec (.repairSeat seat) s = s.toHunt.replied 0x04 (badArgument 1)) ∧
     (∀ x, s.seat? seat.toNat = some x →
       (x.state ≠ .faulted ∨ x.answering = false →
         exec (.repairSeat seat) s = s.toHunt.replied 0x04 (refuse .refusedState)) ∧
       (∀ st : SeatState, x.state = .faulted → x.answering = true →
         ((x.bound = none ∧ x.heldOrigin = true ∧ st = .held) ∨ (x.bound = none ∧ x.heldOrigin = false ∧ st = .free) ∨
           ∃ c y, x.bound = some c ∧ s.cand? c = some y ∧
             ((y.state = .expected ∧ st = .assigned) ∨
               ((y.state = .present ∨ y.state = .writing ∨ y.state = .paused) ∧ y.relocating = true ∧ st = .assigned) ∨
               ((y.state = .present ∨ y.state = .writing ∨ y.state = .paused) ∧ y.relocating = false ∧ st = .occupied) ∨
               ((y.state = .finished ∨ y.state = .withdrawn) ∧ st = .vacated))) →
         exec (.repairSeat seat) s = State.replied { s.toHunt.modSeat seat.toNat (fun z =>
             { z with state := st, fault := none, answering := false, heldOrigin := false }) with
           sal.retryDue := if st = .free then s.sal.retryDue + 1 else s.sal.retryDue } 0x04 (ok (.seatState st)))))

/-- The clearing of a binding: the seat becomes FREE, or stays FAULTED, unbound; the candidate has no seat; its calls
are detached; and the answer says whether the seat became FREE, which then asks for one retry pass. For a candidate
with no seat nothing changes, and no seat became FREE (R18, R125). A finish claim (R16): the candidate is FINISHED
with its finish seat recorded; with booklets outstanding it stays bound and its seat is VACATED or FAULTED; with none
the binding is cleared; its pending call is cancelled; a retry pass is asked for when the seat became FREE; and a
candidate no longer WRITING is left alone. WITHDRAW: a free slot, and a candidate PAUSED or in a closed state, refuse;
otherwise the candidate is WITHDRAWN, by its previous state, and the reply gives that state and the seat with its
resulting state. (That one withdrawn while EXPECTED gets no finish seat is deduced, log 39.) What the end of a
candidate's paper does, for a finish and for the WITHDRAW of a PRESENT or WRITING candidate alike: the state, the
finish seat and RELOCATING; with booklets outstanding the candidate stays bound and its seat is VACATED or FAULTED,
with none the binding is cleared; the pending call goes; and the answer says whether the seat became FREE. -/
def Obligations.FinishAndWithdrawal : Prop :=
  ((∀ (s : State) (c i : Nat) (x : Candidate) (z : Seat), s.cand? c = some x → x.bound = some i → s.seat? i = some z →
     let u := (s.clearBinding c).1
     u = { s with htu := u.htu, cdp.calls := u.cdp.calls } ∧
     u.seat? i = some { z with bound := none, state := if z.state = .faulted then .faulted else .free } ∧
     (∀ j, j ≠ i → u.seat? j = s.seat? j) ∧
     u.cand? c = some { x with bound := none } ∧ (∀ d, d ≠ c → u.cand? d = s.cand? d) ∧
     (∀ n, u.call? n = (s.call? n).map (fun y => if y.slot = c then { y with seat := none } else y)) ∧
     ((s.clearBinding c).2 = true ↔ z.state ≠ .faulted) ∧
     (∀ t : State, t.askRetryIf true = { t with sal.retryDue := t.sal.retryDue + 1 } ∧ t.askRetryIf false = t)) ∧
   (∀ (s : State) (c : Nat), (∀ x, s.cand? c = some x → x.bound = none) → s.clearBinding c = (s, false))) ∧
  (∀ (s : State) (c : Nat) (x : Candidate), s.cand? c = some x →
     let u := s.finishClaim c
     (x.state ≠ .writing → u = s) ∧
     (x.state = .writing →
       u = { s with htu := u.htu, cdp.calls := u.cdp.calls, sal.retryDue := u.sal.retryDue } ∧
       u.cand? c = some { x with
         state := .finished, finish := x.bound, relocating := false, bound := if x.owes then x.bound else none } ∧
       (∀ d, d ≠ c → u.cand? d = s.cand? d) ∧
       (∀ i z, x.bound = some i → s.seat? i = some z →
         (x.owes = true → u.seat? i = some { z with
             state := if z.state = .assigned ∨ z.state = .occupied then .vacated else z.state } ∧
           u.sal.retryDue = s.sal.retryDue) ∧
         (x.owes = false → u.seat? i = some { z with
             bound := none, state := if z.state = .faulted then .faulted else .free } ∧
           u.sal.retryDue = if z.state = .faulted then s.sal.retryDue else s.sal.retryDue + 1)) ∧
       (∀ j, x.bound ≠ some j → u.seat? j = s.seat? j) ∧
       (∀ n y, s.call? n = some y → y.slot = c → y.state = .pending → u.call? n = none) ∧
       (∀ n y, s.call? n = some y → y.slot ≠ c → u.call? n = some y))) ∧
  (∀ (slot : Half) (s : State), s.listening = true → slot.toNat < 512 →
     let c := slot.toNat
     let taken (x : Candidate) (u : State) : Prop := exec (.withdraw slot) s =
       u.replied 0x06 (ok (.withdrawn c x.state (x.bound.map (fun i => (i, u.seatState i)))))
     (s.cand? c = none → exec (.withdraw slot) s = s.toHunt.replied 0x06 notFound) ∧
     (∀ x, s.cand? c = some x →
       (x.state = .paused ∨ x.state = .finished ∨ x.state = .absent ∨ x.state = .withdrawn →
         exec (.withdraw slot) s = s.toHunt.replied 0x06 (refuse .refusedState)) ∧
       (x.state = .waiting → taken x (State.collectIfEmpty
         { s.toHunt.modCand c (fun y => { y with state := .withdrawn }) with sal.queue := s.sal.queue.filter (· != c) }
         x.sitting)) ∧
       (x.state = .expected →
         let r := (s.toHunt.modCand c (fun y => { y with state := .withdrawn })).clearBinding c
         taken x ((r.1.askRetryIf r.2).collectIfEmpty x.sitting)) ∧
       (x.state = .present →
         let r := s.toHunt.retire c .withdrawn
         taken x ((r.1.askRetryIf r.2).collectIfEmpty x.sitting)) ∧
       (x.state = .writing →
         let r := (s.toHunt.dropMark x.sitting c).retire c .withdrawn
         taken x ((r.1.askRetryIf r.2).collectIfEmpty x.sitting)))) ∧
  (∀ (s : State) (c : Nat) (x : Candidate) (target : CandState), s.cand? c = some x →
     let u := (s.retire c target).1
     u = { s with htu := u.htu, cdp.calls := u.cdp.calls } ∧
     u.cand? c = some { x with
       state := target, finish := x.bound, relocating := false, bound := if x.owes then x.bound else none } ∧
     (∀ d, d ≠ c → u.cand? d = s.cand? d) ∧
     (∀ i z, x.bound = some i → s.seat? i = some z → u.seat? i = some (if x.owes then
         { z with state := if z.state = .assigned ∨ z.state = .occupied then .vacated else z.state }
       else { z with bound := none, state := if z.state = .faulted then .faulted else .free })) ∧
     (∀ j, x.bound ≠ some j → u.seat? j = s.seat? j) ∧
     (∀ n, u.call? n = match s.call? n with
       | none => none
       | some y => if y.slot ≠ c then some y else if y.state = .pending then none
         else some (if x.owes = true ∨ x.bound = none then y else { y with seat := none })) ∧
     ((s.retire c target).2 = true ↔
       x.owes = false ∧ ∃ i z, x.bound = some i ∧ s.seat? i = some z ∧ z.state ≠ .faulted))

/-- SET_ROUTE replaces the entry of its paper code in its place, or adds one at the end of the table, and refuses with
FULL when sixteen stand there; a retry pass is asked for when the waiting queue is not empty. An overflow list that is
too long, holds a zone out of range, repeats one or repeats the home zone refuses with BAD_ARGUMENT; that the position
is 3, the list's, also where it repeats the home zone is the model's choice (log 8). A home zone out of range names
position 2. CLEAR_ROUTE removes the entry. -/
def Obligations.RoutesAreSetAndCleared : Prop :=
  ∀ (paper : Paper) (home : Byte) (overflow : List Byte) (s : State), s.listening = true → isPaper paper = true →
    let entry : Route := ⟨paper, home.toNat, overflow.map (·.toNat)⟩
    let known : Prop := ∃ r ∈ s.sal.routes, r.paper = paper
    let taken (routes : List Route) : Prop := exec (.setRoute paper home overflow) s = State.replied
      { s.toHunt with
        sal.routes := routes
        sal.retryDue := if s.sal.queue = [] then s.sal.retryDue else s.sal.retryDue + 1 } 0x08
      (ok (.routeCount routes.length))
    (home.toNat < 8 → overflow.length ≤ 3 → (∀ z ∈ overflow, z.toNat < 8) → (home :: overflow).Nodup →
      (known → taken (s.sal.routes.map (fun r => if r.paper = paper then entry else r))) ∧
      (¬known → s.sal.routes.length < 16 → taken (s.sal.routes ++ [entry])) ∧
      (¬known → 16 ≤ s.sal.routes.length →
        exec (.setRoute paper home overflow) s = s.toHunt.replied 0x08 (refuse .full))) ∧
    (home.toNat < 8 → (3 < overflow.length ∨ (∃ z ∈ overflow, 8 ≤ z.toNat) ∨ ¬(home :: overflow).Nodup) →
      exec (.setRoute paper home overflow) s = s.toHunt.replied 0x08 (badArgument 3)) ∧
    (8 ≤ home.toNat → exec (.setRoute paper home overflow) s = s.toHunt.replied 0x08 (badArgument 2)) ∧
    (known → exec (.clearRoute paper) s = State.replied
      { s.toHunt with sal.routes := s.sal.routes.filter (fun r => r.paper ≠ paper) } 0x09 (ok .none)) ∧
    (¬known → exec (.clearRoute paper) s = s.toHunt.replied 0x09 notFound)

/-- The seat a search finds is a desk of one of its zones that is FREE, has every needed attribute and has no
neighbour bound to another candidate of the sitting; when none is found no desk of the zones is so; no such desk
stands in a zone earlier in the list; and an accessible desk is given to a candidate without that need only when no
other desk of the zone will do. Which desk of its zone a search finds: the first in FILL_ORDER of those that will do,
rows ascending and under SERPENTINE the columns of an odd row descending (R26), the accessible desks standing after
the others for a candidate without that need (R28). The neighbours of a desk: under ROW the desks beside it in its
row, under CROSS those before and behind it as well, on the grid (R24, R27). -/
def Obligations.SearchFindsQualifyingSeat : Prop :=
  (∀ (s : State) (k : Nat) (needs : Attrs) (c : Option Nat) (zones : List Nat),
     let suits (z i : Nat) : Prop := ∃ x, s.seat? i = some x ∧ x.kind = .seat ∧ x.zone = z ∧ x.state = .free ∧
       needs &&& x.attrs = needs ∧
       ∀ j ∈ neighbours s.cli.params.spacingRule i, ∀ y, s.seat? j = some y → y.kind = .seat →
         ∀ d w, s.boundTo j = some (d, w) → w.sitting = k → c = some d
     (∀ i, s.searchZones k needs c zones = some i → ∃ z ∈ zones, suits z i) ∧
     (s.searchZones k needs c zones = none → ∀ z ∈ zones, ∀ i, ¬suits z i) ∧
     (∀ i pre z post, s.searchZones k needs c zones = some i → zones = pre ++ z :: post → suits z i → z ∉ pre →
       ∀ y ∈ pre, ∀ j, ¬suits y j) ∧
     (∀ i x, s.searchZones k needs c zones = some i → s.seat? i = some x → x.attrs.getLsbD 0 = true →
       needs.getLsbD 0 = false → ∀ j y, s.seat? j = some y → y.attrs.getLsbD 0 = false → ¬suits x.zone j)) ∧
  ((∀ (s : State) (k : Nat) (needs : Attrs) (c : Option Nat) (zones : List Nat) (i j : Nat) (x y : Seat),
     let rank (n : Nat) : Nat := n / 16 * 16 +
       (if s.cli.params.fillOrder = .serpentine ∧ n / 16 % 2 = 1 then 15 - n % 16 else n % 16)
     s.searchZones k needs c zones = some i → s.seat? i = some x → s.seat? j = some y → y.kind = .seat →
     y.zone = x.zone → s.qualifies k needs c j = true → rank j < rank i →
     (x.attrs.getLsbD 0 = false ∨ needs.getLsbD 0 = true) ∧ y.attrs.getLsbD 0 = true ∧ needs.getLsbD 0 = false) ∧
   (∀ (s : State) (k : Nat) (needs : Attrs) (c : Option Nat) (i : Nat), s.qualifies k needs c i = true ↔
     ∃ x, s.seat? i = some x ∧ x.state = .free ∧ needs &&& x.attrs = needs ∧
       ∀ j ∈ neighbours s.cli.params.spacingRule i, ∀ y, s.seat? j = some y → y.kind = .seat →
         ∀ d w, s.boundTo j = some (d, w) → w.sitting = k → c = some d) ∧
   (∀ (rule : SpacingRule) (i j : Nat), i < 384 →
     (j ∈ neighbours rule i ↔ j < 384 ∧
       ((rule ≠ .none ∧ j / 16 = i / 16 ∧ (j = i + 1 ∨ i = j + 1)) ∨ (rule = .cross ∧ (j = i + 16 ∨ i = j + 16))))))

/-- ALLOCATE with arguments in range: refused by the sitting's state, by an active record with the number, by a full
table or a full queue, in that order; otherwise a fresh record takes the lowest free slot, with the seat the search
finds, or at the tail of the waiting queue; a missed route gives the flag and the notice. ALLOCATE_RUN takes each
number as one ALLOCATE, in order, until one is refused; the candidates created stay; one ROUTE_MISS is sent for the
run; and the reply gives the numbers done and remaining. The creation of one candidate, for ALLOCATE and for each
number of a run alike (R29, R30): refused by the sitting's state, by an active record with the number, by a full table
or a full queue, in that order; otherwise a fresh record takes the lowest free slot, with the seat the search finds,
or at the tail of the waiting queue. The ROUTE_MISS of a run (R31): one, for the first candidate created, when the
paper code has no entry in the route table, and none when no candidate was created. -/
def Obligations.AllocateCreatesCandidates : Prop :=
  (∀ (number : Word) (sitting needs allowance rest : Byte) (s : State), s.listening = true → 1 ≤ number.toNat →
     number.toNat ≤ 99999999 → sitting.toNat < 8 → needs.toNat < 8 → allowance.toNat ≤ 100 → allowance.toNat % 5 = 0 →
     rest.toNat ≤ 60 →
     let k := sitting.toNat
     let x := s.sitting k
     let admits : Prop := x.state = .defined ∨ x.state = .armed ∨ x.state = .reading ∨
       (x.state = .writing ∧ x.clock < x.cutoff * 60)
     let missed : Bool := (s.route? x.paper).isNone
     let fresh (state : CandState) : Candidate :=
       { number := number.toNat, sitting := k, needs := attrsOf needs, state := state, bound := none, finish := none,
         lateAdmit := false, relocating := false, earlyLeave := false, unrouted := missed, shortfall := false,
         checkIn := none, allowance := allowance.toNat, extension := 0, restBudget := rest.toNat * 60, restUsed := 0,
         pausedTotal := 0, pauseStart := none, issued := 0, collected := 0, lastStation := none, summary := none }
     let noted (c : Nat) (u : State) : State := if missed then u.notify (.routeMiss k x.paper c) else u
     let answered (u : State) (a : Answer) : Prop := exec (.allocate number sitting needs allowance rest) s = u.replied 0x0B a
     let found := s.searchZones k (attrsOf needs) none
       (match s.route? x.paper with
         | some r => r.home :: r.overflow
         | none => [s.cli.params.defaultZone])
     (¬admits → answered s.toHunt (refuse .refusedState .none (.sittingState x.state))) ∧
     (admits → (∀ c, s.activeSlot number.toNat = some c → answered s.toHunt (refuse .duplicate .none (.slot c))) ∧
       (s.activeSlot number.toNat = none →
         ((∀ c, c < 512 → s.cand? c ≠ none) → answered s.toHunt (refuse .full .table)) ∧
         (∀ c, c < 512 → s.cand? c = none → (∀ d, d < c → s.cand? d ≠ none) →
           (∀ i, found = some i → answered
             (noted c ((s.toHunt.putCand c (some { fresh .expected with bound := some i })).modSeat i (fun y =>
               { y with state := .assigned, bound := some c }))) ⟨.ok, .allocated c (.seated i)⟩) ∧
           (found = none → s.sal.queue.length < 32 → answered
             (noted c { s.toHunt.putCand c (some (fresh .waiting)) with sal.queue := s.sal.queue ++ [c] })
             ⟨.queued, .allocated c (.queued (s.sal.queue.length + 1))⟩) ∧
           (found = none → 32 ≤ s.sal.queue.length → answered s.toHunt (refuse .full .queue)))))) ∧
  (∀ (base : Word) (count sitting needs allowance rest : Byte) (s : State), s.listening = true → 1 ≤ base.toNat →
     1 ≤ count.toNat → count.toNat ≤ 64 → base.toNat + count.toNat - 1 ≤ 99999999 → sitting.toNat < 8 → needs.toNat < 8 →
     allowance.toNat ≤ 100 → allowance.toNat % 5 = 0 → rest.toNat ≤ 60 →
     let e : Entry := ⟨sitting.toNat, attrsOf needs, allowance.toNat, rest.toNat⟩
     let n := count.toNat
     ∃ (u : State) (places : List (Nat × Placement)) (run : Nat → State),
       places.length ≤ n ∧ run 0 = s.toHunt ∧ run places.length = u ∧
       (∀ j p, places[j]? = some p → (run j).createCandidate (base.toNat + j) e = .ok (run (j + 1), p.1, p.2)) ∧
       (places.length = n → exec (.allocateRun base count sitting needs allowance rest) s =
         (u.noteRunMiss sitting.toNat places).replied 0x0C ⟨.ok, .run n 0 places none⟩) ∧
       (places.length < n → ∃ a, u.createCandidate (base.toNat + places.length) e = .error a ∧
         exec (.allocateRun base count sitting needs allowance rest) s = (u.noteRunMiss sitting.toNat places).replied 0x0C
           ⟨.isPartial, .run places.length (n - places.length) places (some a.status)⟩)) ∧
  ((∀ (s : State) (number : Nat) (e : Entry),
     let x := s.sitting e.sitting
     let admits : Prop := x.state = .defined ∨ x.state = .armed ∨ x.state = .reading ∨
       (x.state = .writing ∧ x.clock < x.cutoff * 60)
     let fresh (state : CandState) : Candidate :=
       { number := number, sitting := e.sitting, needs := e.needs, state := state, bound := none, finish := none,
         lateAdmit := false, relocating := false, earlyLeave := false, unrouted := (s.route? x.paper).isNone,
         shortfall := false, checkIn := none, allowance := e.allowance, extension := 0, restBudget := e.restMinutes * 60,
         restUsed := 0, pausedTotal := 0, pauseStart := none, issued := 0, collected := 0, lastStation := none,
         summary := none }
     let found := s.searchZones e.sitting e.needs none
       (match s.route? x.paper with
         | some r => r.home :: r.overflow
         | none => [s.cli.params.defaultZone])
     (¬admits → s.createCandidate number e = .error (refuse .refusedState .none (.sittingState x.state))) ∧
     (∀ c, admits → s.activeSlot number = some c → s.createCandidate number e = .error (refuse .duplicate .none (.slot c))) ∧
     (admits → s.activeSlot number = none →
       ((∀ c, c < 512 → s.cand? c ≠ none) → s.createCandidate number e = .error (refuse .full .table)) ∧
       (∀ c, c < 512 → s.cand? c = none → (∀ d, d < c → s.cand? d ≠ none) →
         (∀ i, found = some i → s.createCandidate number e =
           .ok ((s.putCand c (some { fresh .expected with bound := some i })).modSeat i (fun y =>
             { y with state := .assigned, bound := some c }), c, .seated i)) ∧
         (found = none → s.sal.queue.length < 32 → s.createCandidate number e =
           .ok ({ s.putCand c (some (fresh .waiting)) with sal.queue := s.sal.queue ++ [c] }, c,
             .queued (s.sal.queue.length + 1))) ∧
         (found = none → 32 ≤ s.sal.queue.length → s.createCandidate number e = .error (refuse .full .queue))))) ∧
   (∀ (s : State) (k : Nat),
     let p := (s.sitting k).paper
     s.noteRunMiss k [] = s ∧
     (∀ c place rest, s.route? p = none → s.noteRunMiss k ((c, place) :: rest) = s.notify (.routeMiss k p c)) ∧
     (∀ r places, s.route? p = some r → s.noteRunMiss k places = s)) ∧
   (∀ (s : State) (p : Paper),
     (∀ r, s.route? p = some r → r ∈ s.sal.routes ∧ r.paper = p) ∧
     (s.route? p = none → ∀ r ∈ s.sal.routes, r.paper ≠ p)))

/-- The binding move (R15, R114): the target becomes ASSIGNED and bound; the old seat becomes FREE, or stays FAULTED,
unbound; a checked-in candidate gets RELOCATING; its calls are re-pointed; a retry pass is asked for when the old seat
became FREE; and nothing else changes. MOVE: a free slot, a candidate in the wrong state, a target that is not FREE
and a target that lacks a needed attribute refuse, in that order; otherwise the binding moves. -/
def Obligations.MoveRebindsCandidates : Prop :=
  (∀ (s : State) (c i t : Nat) (x : Candidate) (old target : Seat), s.cand? c = some x → x.bound = some i →
     s.seat? i = some old → s.seat? t = some target → i ≠ t →
     let u := s.moveBinding c t
     u = { s with htu := u.htu, cdp.calls := u.cdp.calls, sal.retryDue := u.sal.retryDue } ∧
     u.seat? t = some { target with state := .assigned, bound := some c } ∧
     u.seat? i = some { old with bound := none, state := if old.state = .faulted then .faulted else .free } ∧
     (∀ j, j ≠ i → j ≠ t → u.seat? j = s.seat? j) ∧
     u.cand? c = some { x with
       bound := some t
       relocating := x.relocating || (x.state == .present || x.state == .writing || x.state == .paused) } ∧
     (∀ d, d ≠ c → u.cand? d = s.cand? d) ∧
     (∀ n, u.call? n = (s.call? n).map (fun y => if y.slot = c then { y with seat := some t } else y)) ∧
     u.sal.retryDue = if old.state = .faulted then s.sal.retryDue else s.sal.retryDue + 1) ∧
  (∀ (slot seat : Half) (s : State), s.listening = true → slot.toNat < 512 →
     let answered (u : State) (a : Answer) : Prop := exec (.move slot seat) s = u.replied 0x0E a
     (384 ≤ seat.toNat → answered s.toHunt (badArgument 2)) ∧
     (∀ target, s.seat? seat.toNat = some target →
       (s.cand? slot.toNat = none → answered s.toHunt notFound) ∧
       (∀ x, s.cand? slot.toNat = some x →
         let movable : Prop := x.state = .expected ∨ x.state = .present ∨ x.state = .writing ∨ x.state = .paused
         (¬movable → answered s.toHunt (refuse .refusedState .candidateState)) ∧
         (movable → target.state ≠ .free →
           answered s.toHunt (refuse .refusedState .targetState (.seatState target.state))) ∧
         (movable → target.state = .free → x.needs &&& target.attrs ≠ x.needs →
           answered s.toHunt (refuse .refusedState .targetNeeds)) ∧
         (movable → target.state = .free → x.needs &&& target.attrs = x.needs →
           let u := s.toHunt.moveBinding slot.toNat seat.toNat
           answered u (ok (.moved slot.toNat (x.bound.map (fun i => (i, u.seatState i))) seat.toNat))))))

/-- RETRY_PASS: one of the passes asked for walks the waiting queue once, from the oldest entry to the newest; a
candidate for whom the full search finds a seat is bound, EXPECTED, off the queue and noticed; any other stays in its
place. With no pass asked for nothing happens (log 3). RELOCATION: the oldest one asked for is taken (the order is
deduced, log 19); a candidate no longer in one of the four states, or no longer bound to the seat, is left alone;
otherwise the binding moves to the seat the search finds, or the failure is reported. With none asked for nothing
happens (log 3). -/
def Obligations.RetryAndRelocation : Prop :=
  ((∀ s : State, s.sal.retryDue = 0 → exec .retryPass s = .next s.settle) ∧
   (∀ (s : State) (n : Nat), s.sal.retryDue = n + 1 →
     exec .retryPass s = .next (s.sal.queue.foldl (fun (t : State) c => t.retryOne c) { s with sal.retryDue := n }).settle) ∧
   (∀ (s : State) (c : Nat) (x : Candidate), s.cand? c = some x →
     let found := s.searchZones x.sitting x.needs (some c)
       (match s.route? (s.sitting x.sitting).paper with
         | some r => r.home :: r.overflow
         | none => [s.cli.params.defaultZone])
     (found = none → s.retryOne c = s) ∧
     (∀ i, found = some i → s.retryOne c = State.notify
       { (s.modSeat i (fun y => { y with state := .assigned, bound := some c })).modCand c (fun y =>
           { y with state := .expected, bound := some i }) with
         sal.queue := s.sal.queue.filter (· != c) }
       (.queueSeated c x.number x.sitting i)))) ∧
  ((∀ s : State, s.sal.relocations = [] → exec .relocation s = .next s.settle) ∧
   (∀ (s : State) (c i : Nat) (rest : List (Nat × Nat)), s.sal.relocations = (c, i) :: rest →
     let s1 : State := { s with sal.relocations := rest }
     (s.cand? c = none → exec .relocation s = .next s1.settle) ∧
     (∀ x, s.cand? c = some x →
       let asked : Prop := (x.state = .expected ∨ x.state = .present ∨ x.state = .writing ∨ x.state = .paused) ∧
         x.bound = some i
       let zone := ((s.seat? i).map (·.zone)).getD 0
       let found := s.searchZones x.sitting x.needs (some c)
         (match s.route? (s.sitting x.sitting).paper with
           | some r => zone :: r.overflow.filter (· != zone)
           | none => [zone])
       (¬asked → exec .relocation s = .next s1.settle) ∧
       (asked → ∀ t, found = some t →
         exec .relocation s = .next ((s1.moveBinding c t).notify (.relocated c x.number i t)).settle) ∧
       (asked → found = none → exec .relocation s = .next (s1.notify (.relocateFailed c x.number i)).settle))))

/-! ### The timebase and the sittings -/

/-- SET_TIMEBASE: refused with BUSY while a sitting is ARMED, READING, WRITING or EXTENDED, naming the lowest;
otherwise the four settings are replaced, the second count and the silence timer restart and SYNC_LOST is cleared. The
model's choices: the last edge is forgotten with them (log 9), and a loss of SYNC that is due and not yet taken is
dropped (log 33). -/
def Obligations.SetTimebaseReplacesSettings : Prop :=
  ∀ (source : Byte) (frequency : Half) (prescale syncMode : Byte) (s : State), s.listening = true →
    ∀ (src : TimeSource) (mode : SyncMode), sourceOf source = some src → syncModeOf syncMode = some mode →
    let f := if src = .internal then 10000 else frequency.toNat
    let busy (k : Nat) : Prop := k < 8 ∧ ((s.sitting k).state = .armed ∨ (s.sitting k).state.running = true)
    1000 ≤ f → f ≤ 40000 → 1 ≤ prescale.toNat → prescale.toNat ≤ 16 → f % prescale.toNat = 0 →
    1000 ≤ f / prescale.toNat → f / prescale.toNat ≤ 2500 →
    (∀ k, busy k → (∀ j, j < k → ¬busy j) → exec (.setTimebase source frequency prescale syncMode) s =
      s.toHunt.replied 0x0F (refuse .busy .none (.sitting k))) ∧
    ((∀ k, ¬busy k) → exec (.setTimebase source frequency prescale syncMode) s = State.replied
      { s.toHunt with
        tme.timebase := ⟨src, f, prescale.toNat, mode⟩
        tme.secondCount := 0
        tme.syncTimer := 0
        tme.sinceEdge := none
        tme.lastEdge := none
        tme.syncLostDue := false
        cli.flags.syncLost := false } 0x0F (ok (.timebase ⟨src, f, prescale.toNat, mode⟩)))

/-- SET_HALL_TIME is a clock jump: the clock and the second count are set, the ARMED sittings the jump passes start in
ascending number, and a broadcast is asked for on every RUNNING link; the reply gives both times and the sittings
started. A forward jump starts those due after the old time and no later than the new; a backward jump those due at
the new time. The model's choice, here and at a SYNC edge: a start already reached and not yet taken by its row stays
due through the jump (log 42). What asking for a broadcast does (R93): every RUNNING link is marked, a STOPPED one
takes no mark, and nothing else changes. SYNC_EDGE: with SYNC_MODE OFF nothing happens; in MINUTE mode the clock is
corrected to the nearest whole minute, a forward correction starts the ARMED sittings it passes (over midnight too)
and a backward one those due at the new time, the second count and the silence timer restart, SYNC_LOST is cleared,
and a change of minute asks for a broadcast. The model's choices: the last edge is remembered as the corrected hall
time (log 9), and a loss that is due and not yet taken is dropped (log 33). SYNC_LOST: the silence timer having come
to 180 in MINUTE mode, the flag is set and one notice gives the hall time of the last edge, or none; with nothing due
nothing happens (log 3). -/
def Obligations.ClockJumpsAndSync : Prop :=
  (∀ (hour minute second : Byte) (s : State), s.listening = true → hour.toNat < 24 → minute.toNat < 60 → second.toNat < 60 →
     let t1 : HallTime := ⟨hour.toNat, minute.toNat, second.toNat⟩
     let old := s.tme.hall
     ∃ started : List Nat,
       exec (.setHallTime hour minute second) s =
         (started.foldl (fun (u : State) k => u.startSittingNow k)
           { s.toHunt with tme.hall := t1, tme.secondCount := 0 }).askBroadcast.replied 0x10
         (ok (.hallTime old t1 started)) ∧
       started.Pairwise (· < ·) ∧
       ∀ k, k ∈ started ↔ k < 8 ∧ (s.sitting k).state = .armed ∧ ∃ t, (s.sitting k).scheduled = some t ∧
         ((old.seconds < t1.seconds ∧ old.seconds < t.seconds ∧ t.seconds ≤ t1.seconds) ∨
           (t1.seconds < old.seconds ∧ t = t1))) ∧
  (∀ s : State, s.askBroadcast = { s with ulc.links := s.askBroadcast.ulc.links } ∧
     ∀ l, s.askBroadcast.link l = if (s.link l).running = true then { s.link l with broadcastPending := true } else s.link l) ∧
  (∀ s : State,
     (s.tme.timebase.syncMode = .off → exec .syncEdge s = .next s.settle) ∧
     (s.tme.timebase.syncMode = .minute → s.hallValid →
       let old := s.tme.hall
       ∃ (started : List Nat) (t1 : HallTime),
         exec .syncEdge s = .next (State.settle
           (let u := started.foldl (fun u k => u.startSittingNow k) { s with tme.hall := t1, tme.secondCount := 0 }
           let v : State := { u with
             tme.syncTimer := 0
             tme.sinceEdge := some 0
             tme.lastEdge := some t1
             tme.syncLostDue := false
             cli.flags.syncLost := false }
           if t1.minute = old.minute then v else v.askBroadcast)) ∧
         t1.second = 0 ∧ t1.valid = true ∧
         (old.second < 30 → t1.seconds + old.second = old.seconds) ∧
         (30 ≤ old.second → t1.seconds = (old.seconds + (60 - old.second)) % 86400) ∧
         started.Pairwise (· < ·) ∧
         ∀ k, k ∈ started ↔ k < 8 ∧ (s.sitting k).state = .armed ∧ ∃ t, (s.sitting k).scheduled = some t ∧
           ((1 ≤ old.second ∧ old.second < 30 ∧ t = t1) ∨
             (30 ≤ old.second ∧ old.seconds < t1.seconds ∧ old.seconds < t.seconds ∧ t.seconds ≤ t1.seconds) ∨
             (30 ≤ old.second ∧ t1.seconds < old.seconds ∧ (old.seconds < t.seconds ∨ t = t1))))) ∧
  (∀ s : State,
     (s.tme.timebase.syncMode = .minute → s.tme.syncLostDue = true → exec .syncLost s = .next (State.settle
       (State.notify { s with tme.syncLostDue := false, cli.flags.syncLost := true } (.syncLost s.tme.lastEdge)))) ∧
     (s.tme.timebase.syncMode = .off ∨ s.tme.syncLostDue = false → exec .syncLost s = .next s.settle))

/-- TIMEBASE_SECOND: the hall clock goes on by one second round the day and the second count restarts; a change of
minute marks a broadcast on every RUNNING link; an ARMED sitting whose start is reached falls due; a running sitting
not held is owed a second; in MINUTE mode the silence timer advances to 180 and stands; the timers of the PENDING
calls and the ACTIVE handsets advance. Nothing else changes. The model's choices: each event so made due is a row of
its own (log 3), the seconds since the last edge go on past 180 (log 9), and the timer of a call whose escalation is
due goes on until its row (log 44); seconds owed to a sitting and not taken at once are counted (log 45). -/
def Obligations.TimebaseSecondStepsClocks : Prop :=
  ∀ s : State, ∃ u : State, exec .timebaseSecond s = .next u.settle ∧
    u = { s with tme := u.tme, ulc.links := u.ulc.links, cdp := u.cdp } ∧
    u.tme.timebase = s.tme.timebase ∧ u.tme.secondCount = 0 ∧ u.tme.lastEdge = s.tme.lastEdge ∧
    (s.hallValid → u.hallValid ∧ u.tme.hall.seconds = (s.tme.hall.seconds + 1) % 86400) ∧
    (∀ l, u.link l = if u.tme.hall.minute ≠ s.tme.hall.minute ∧ (s.link l).running = true
      then { s.link l with broadcastPending := true } else s.link l) ∧
    (∀ k, k < 8 → u.sitting k =
      if (s.sitting k).state = .armed ∧ (s.sitting k).scheduled = some u.tme.hall then
        { s.sitting k with startDue := true }
      else if (s.sitting k).state.running = true ∧ (s.sitting k).held = false then
        { s.sitting k with secondsDue := (s.sitting k).secondsDue + 1 }
      else s.sitting k) ∧
    (s.tme.timebase.syncMode = .off → u.tme.syncTimer = s.tme.syncTimer ∧ u.tme.sinceEdge = s.tme.sinceEdge ∧
      u.tme.syncLostDue = s.tme.syncLostDue) ∧
    (s.tme.timebase.syncMode = .minute →
      u.tme.syncTimer = (if s.tme.syncTimer < 180 then s.tme.syncTimer + 1 else 180) ∧
      u.tme.sinceEdge = s.tme.sinceEdge.map (· + 1) ∧
      (u.tme.syncLostDue = true ↔ s.tme.syncLostDue = true ∨ s.tme.syncTimer = 179)) ∧
    (∀ n, u.call? n = (s.call? n).map (fun c =>
      if 0 < s.cli.params.escalateTime ∧ c.state = .pending ∧ 0 < c.level then
        { c with timer := c.timer + 1, escalationDue := decide (s.cli.params.escalateTime ≤ c.timer + 1) }
      else c)) ∧
    (∀ h, h < 8 → u.handset h =
      if (s.handset h).state = .active then
        { s.handset h with
          timer := (s.handset h).timer + 1
          awayDue := decide (0 < s.cli.params.handsetAway ∧ s.cli.params.handsetAway ≤ (s.handset h).timer + 1) }
      else s.handset h)

/-- DEFINE_SITTING: in EMPTY or DEFINED every field is replaced and the sitting is DEFINED, with its clock, index,
count and flag at their first values; from EMPTY a PHASE notice follows, and a redefinition asks for a retry pass when
the waiting queue is not empty; in any other state it is refused with the state. -/
def Obligations.DefineSittingReplacesFields : Prop :=
  ∀ (sitting : Byte) (paper : Paper) (reading : Byte) (writing cutoff opening closing : Half) (warnings : List Byte)
    (quiet threshold scriptKind keyId : Byte) (kind : ScriptKind) (s : State), s.listening = true → sitting.toNat < 8 →
    isPaper paper = true → reading.toNat ≤ 60 → 1 ≤ writing.toNat → writing.toNat ≤ 360 → cutoff.toNat ≤ writing.toNat →
    opening.toNat ≤ writing.toNat → closing.toNat ≤ writing.toNat → opening.toNat + closing.toNat ≤ writing.toNat →
    warnings.length ≤ 4 → (∀ w ∈ warnings, 1 ≤ w.toNat ∧ w.toNat ≤ 120 ∧ w.toNat ≤ writing.toNat) →
    (warnings.map (·.toNat)).Pairwise (· > ·) → quiet.toNat ≤ 30 → threshold.toNat < 8 →
    scriptKindOf scriptKind = some kind → (keyId = 0xFF#8 ∨ keyId.toNat < 8) →
    let k := sitting.toNat
    let x : Sitting :=
      { paper := paper, state := .defined, reading := reading.toNat, writing := writing.toNat, cutoff := cutoff.toNat,
        opening := opening.toNat, closing := closing.toNat, warnings := warnings.map (·.toNat), quiet := quiet.toNat,
        threshold := threshold.toNat, scriptKind := kind, keyId := if keyId = 0xFF#8 then none else some keyId.toNat,
        scheduled := none, clock := 0, held := false, nextWarning := 0, absentCount := 0, cutoffTaken := false,
        secondsDue := 0, startDue := false, marks := [] }
    let answered (u : State) (a : Answer) : Prop := exec (.defineSitting sitting paper reading writing cutoff opening
      closing warnings quiet threshold scriptKind keyId) s = u.replied 0x12 a
    ((s.sitting k).state = .empty →
      answered ((s.toHunt.modSitting k (fun _ => x)).notify (.phase k .defined false 0 .define)) (ok .none)) ∧
    ((s.sitting k).state = .defined → answered
      { s.toHunt.modSitting k (fun _ => x) with
        sal.retryDue := if s.sal.queue = [] then s.sal.retryDue else s.sal.retryDue + 1 } (ok .none)) ∧
    ((s.sitting k).state ≠ .empty → (s.sitting k).state ≠ .defined →
      answered s.toHunt (refuse .refusedState .none (.sittingState (s.sitting k).state)))

/-- START_SITTING and CANCEL_START: a DEFINED sitting starts at once with NOW or with the hall time as it stands, or
becomes ARMED; one of SHEETS with no key is refused; an ARMED sitting returns to DEFINED; SCHEDULED_START starts an
ARMED sitting whose start has been reached (that the start is marked due by its second and taken by its own row, which
otherwise does nothing, is the model's choice, log 3). A sitting that starts (R48, R49, R50): READING with its clock
at 0 and a PHASE notice; or, with reading 0, the start of writing in the five steps of R50. -/
def Obligations.SittingStarts : Prop :=
  (∀ (b hour minute second : Byte) (s : State), b.toNat < 8 →
     let k := b.toNat
     let x := s.sitting k
     let t : HallTime := ⟨hour.toNat, minute.toNat, second.toNat⟩
     let absent : Prop := hour = 0xFF#8 ∧ minute = 0xFF#8 ∧ second = 0xFF#8
     let answered (u : State) (a : Answer) : Prop := exec (.startSitting b hour minute second) s = u.replied 0x13 a
     (s.listening = true → (absent ∨ t.valid = true) →
       (x.state ≠ .defined → answered s.toHunt (refuse .refusedState .none (.sittingState x.state))) ∧
       (x.state = .defined → x.scriptKind = .sheet → x.keyId = none → answered s.toHunt (refuse .refusedState .noKey)) ∧
       (x.state = .defined → (x.scriptKind = .booklet ∨ x.keyId ≠ none) →
         (absent ∨ t = s.tme.hall →
           let u := s.toHunt.startSittingNow k
           answered u (ok (.started (u.sitting k).state (u.sitting k).scheduled))) ∧
         (¬absent → t ≠ s.tme.hall → answered
           ((s.toHunt.modSitting k (fun y => { y with state := .armed, scheduled := some t, startDue := false })).notify
             (.phase k .armed x.held x.clock .schedule)) (ok (.started .armed (some t)))))) ∧
     (s.listening = true →
       (x.state = .armed → exec (.cancelStart b) s =
         ((s.toHunt.modSitting k (fun y => { y with state := .defined, scheduled := none, startDue := false })).notify
           (.phase k .defined x.held x.clock .cancel)).replied 0x14 (ok .none)) ∧
       (x.state ≠ .armed → exec (.cancelStart b) s = s.toHunt.replied 0x14 (refuse .refusedState))) ∧
     (∀ n : Fin 8, n.val = k →
       (x.state = .armed → x.startDue = true → exec (.scheduledStart n) s = .next (s.startSittingNow k).settle) ∧
       (¬(x.state = .armed ∧ x.startDue = true) → exec (.scheduledStart n) s = .next s.settle))) ∧
  (∀ (s : State) (k : Nat), k < 8 →
     let x := s.sitting k
     let started := s.modSitting k (fun y => { y with scheduled := none, startDue := false, secondsDue := 0, clock := 0 })
     (x.reading ≠ 0 → s.startSittingNow k =
       (s.modSitting k (fun y => { y with
         scheduled := none, startDue := false, secondsDue := 0, clock := 0, state := .reading })).notify
         (.phase k .reading x.held 0 .start)) ∧
     (x.reading = 0 → s.startSittingNow k = started.startWriting k .start) ∧
     (∀ cause, s.startWriting k cause =
       (let s1 := (s.modSitting k (fun y => { y with state := .writing, clock := 0, nextWarning := 1 })).notify
         (.phase k .writing x.held 0 cause)
       let s2 := (s.slotsWhere (fun c => c.sitting == k && c.state == .present)).foldl (fun t c => t.beginWriting c) s1
       ((s2.giveWarning k).cutoffIfReached k).fireInserted k)) ∧
     (∀ c y, s.cand? c = some y → s.beginWriting c =
       (s.modCand c (fun z => { z with
         state := .writing
         extension := ((s.sitting y.sitting).writing * z.allowance + 99) / 100 * 60 })).addWritingEntry c))

/-- HOLD_SITTING and RESUME_SITTING of one sitting, and of ALL: each sitting concerned gets or loses the HELD flag
with a PHASE notice, in ascending number, and the reply lists them; with none the request is refused. (A second owed
and not yet taken is lost at a hold, log 24, and so are several, by the model's choice, log 45.) -/
def Obligations.HoldAndResumeSittings : Prop :=
  ∀ (b : Byte) (s : State), s.listening = true →
    let holdable (k : Nat) : Prop := (s.sitting k).state.running = true ∧ (s.sitting k).held = false
    let resumable (k : Nat) : Prop := (s.sitting k).state.running = true ∧ (s.sitting k).held = true
    let hold (u : State) (k : Nat) : State := (u.modSitting k (fun y => { y with held := true, secondsDue := 0 })).notify
      (.phase k (s.sitting k).state true (s.sitting k).clock .hold)
    let resume (u : State) (k : Nat) : State := (u.modSitting k (fun y => { y with held := false, secondsDue := 0 })).notify
      (.phase k (s.sitting k).state false (s.sitting k).clock .resume)
    (b.toNat < 8 →
      (holdable b.toNat → exec (.holdSitting b) s = (hold s.toHunt b.toNat).replied 0x15 (ok (.sittings [b.toNat]))) ∧
      (¬holdable b.toNat → exec (.holdSitting b) s = s.toHunt.replied 0x15
        (refuse .refusedState .none (.sittingHeld (s.sitting b.toNat).state (s.sitting b.toNat).held))) ∧
      (resumable b.toNat → exec (.resumeSitting b) s = (resume s.toHunt b.toNat).replied 0x16 (ok (.sittings [b.toNat]))) ∧
      (¬resumable b.toNat → exec (.resumeSitting b) s = s.toHunt.replied 0x16 (refuse .refusedState))) ∧
    (∀ ks : List Nat, ks.Pairwise (· < ·) →
      ((∀ k, k ∈ ks ↔ k < 8 ∧ holdable k) →
        exec (.holdSitting 0xFF#8) s = if ks = [] then s.toHunt.replied 0x15 (refuse .refusedState)
          else (ks.foldl hold s.toHunt).replied 0x15 (ok (.sittings ks))) ∧
      ((∀ k, k ∈ ks ↔ k < 8 ∧ resumable k) →
        exec (.resumeSitting 0xFF#8) s = if ks = [] then s.toHunt.replied 0x16 (refuse .refusedState)
          else (ks.foldl resume s.toHunt).replied 0x16 (ok (.sittings ks))))

/-- CLOSE_SITTING, FORCE_CLOSE and CLEAR_SITTING, with their refusals: a close needs the three counts at zero; a force
close cancels the sitting's calls, marks the shortfalls and unbinds the seats; either looks at the sweep channels 0 to
3 before its PHASE notice (R134); a clear frees the sitting's slots and returns its record to its reset values. The
closing claim (R18): every candidate of the sitting loses its binding, the seats are cleared with one retry pass when
any became FREE, the calls are detached, and nothing else changes; its answer is the number of seats unbound. The
cancellation of a sitting's calls (R115): every call of the sitting leaves the list; one in service leaves its
handset's stack, whose note is CANCELLED; and nothing else changes. -/
def Obligations.SittingIsClosedOrCleared : Prop :=
  (∀ (b : Byte) (s : State), s.listening = true → b.toNat < 8 →
     let k := b.toNat
     let x := s.sitting k
     let marking : Prop := s.mke.batch.state ≠ .idle ∧ s.mke.batch.sitting = k
     let owing := (s.slotsWhere (fun c => c.sitting == k && c.owes)).length
     let calls := (s.callsOfSitting k).length
     let cands := (s.slotsWhere (fun c => c.sitting == k)).length
     let examined (u : State) : State := [0, 1, 2, 3].foldl (fun t n => t.advanceIfDone n) u
     (x.state ≠ .collecting →
       exec (.closeSitting b) s = s.toHunt.replied 0x17 (refuse .refusedState .none (.sittingState x.state)) ∧
       exec (.forceClose b) s = s.toHunt.replied 0x18 (refuse .refusedState)) ∧
     (x.state = .collecting → ¬(owing = 0 ∧ calls = 0 ∧ ¬marking) → ∃ n, (marking → n = 1) ∧ (¬marking → n = 0) ∧
       exec (.closeSitting b) s = s.toHunt.replied 0x17 (refuse .refusedState .none (.closeCounts owing calls n))) ∧
     (x.state = .collecting → owing = 0 → calls = 0 → ¬marking → exec (.closeSitting b) s =
       ((examined ((s.toHunt.modSitting k (fun y => { y with state := .closed })).closingClaim k).1).notify
         (.phase k .closed x.held x.clock .close)).replied 0x17 (ok .none)) ∧
     (x.state = .collecting → marking → exec (.forceClose b) s = s.toHunt.replied 0x18 (refuse .busy)) ∧
     (x.state = .collecting → ¬marking → exec (.forceClose b) s =
       (let s1 := (s.toHunt.cancelSittingCalls k).1
       let short := s.slotsWhere (fun c => c.sitting == k && c.owes)
       let s2 := short.foldl (fun t c => t.modCand c (fun y => { y with shortfall := true })) s1
       let r := (s2.modSitting k (fun y => { y with state := .closed })).closingClaim k
       ((examined r.1).notify (.phase k .closed x.held x.clock .force)).replied 0x18
         (ok (.forceClosed calls short.length r.2)))) ∧
     (¬(x.state = .closed ∨ ((x.state = .defined ∨ x.state = .armed) ∧ cands = 0)) → exec (.clearSitting b) s =
       s.toHunt.replied 0x19 (refuse .refusedState .none (.clearState x.state cands))) ∧
     ((x.state = .closed ∨ ((x.state = .defined ∨ x.state = .armed) ∧ cands = 0)) →
       (x.state = .closed → marking → exec (.clearSitting b) s = s.toHunt.replied 0x19 (refuse .busy)) ∧
       (¬(x.state = .closed ∧ marking) → ∃ u : State, exec (.clearSitting b) s =
           (u.notify (.phase k .empty false 0 .clear)).replied 0x19 (ok (.slotsFreed cands)) ∧
         u = { s.toHunt with htu.cands := u.htu.cands, tme.sittings := u.tme.sittings, mke.store := u.mke.store } ∧
         (∀ c, u.cand? c = (s.cand? c).filter (fun y => y.sitting != k)) ∧
         u.sitting k = Sitting.atReset ∧ (∀ j, j < 8 → j ≠ k → u.sitting j = s.sitting j) ∧
         (∀ i, u.stored? i = (s.stored? i).map (fun y => { y with
           ref := y.ref.filter (fun c => !(s.cand? c).any (fun z => z.sitting == k)) }))))) ∧
  ((∀ (s : State) (k : Nat),
     let u := (s.closingClaim k).1
     u = { s with htu := u.htu, cdp.calls := u.cdp.calls, sal.retryDue := u.sal.retryDue } ∧
     s.clearedFor u (fun x => x.sitting == k) ∧
     (∀ c, u.cand? c = (s.cand? c).map (fun x => if x.sitting = k then { x with bound := none } else x)) ∧
     (s.closingClaim k).2 = s.countCands (fun x => x.sitting == k && x.bound.isSome)) ∧
   (∀ (s : State) (k : Nat),
     let u := (s.cancelSittingCalls k).1
     let mine (n : Nat) : Bool := (s.call? n).any (fun y => (s.cand? y.slot).any (fun x => x.sitting == k))
     u = { s with cdp := u.cdp } ∧ (∀ n, u.call? n = if mine n = true then none else s.call? n) ∧
     (∀ h, h < 8 →
       let served (n : Nat) : Bool := mine n && (s.call? n).any (fun y => y.state == .inService h)
       ((∃ n, served n = true) → u.handset h = { s.handset h with
         stack := (s.handset h).stack.filter (fun n => !served n), note := some ⟨.cancelled, 5⟩ }) ∧
       ((∀ n, served n = false) → u.handset h = s.handset h)) ∧
     (s.cancelSittingCalls k).2 = (s.callsOfSitting k).length ∧ (s.callsOfSitting k).Nodup ∧
     ∀ n, n ∈ s.callsOfSitting k ↔ mine n = true))

/-- SITTING_SECOND: a second owed to a running sitting that is not held advances its clock by one; in READING the
compare starts writing; in WRITING and EXTENDED the warning, the cutoff, the mark entries and the compare follow, in
that order. With no second owed nothing happens (log 3). READING_COMPARE, SITTING_WARNING, LATE_CUTOFF and
WRITING_COMPARE as rows of their own (log 4): a point that stands reached and not taken is taken; else, when the next
second owed reaches it, that second is taken, whole; else nothing happens. -/
def Obligations.SittingSecondTakesWork : Prop :=
  (∀ (n : Fin 8) (s : State),
     let k := n.val
     let x := s.sitting k
     let owed : Prop := x.state.running = true ∧ x.held = false ∧ 0 < x.secondsDue
     let s1 := s.modSitting k (fun y => { y with clock := y.clock + 1, secondsDue := y.secondsDue - 1 })
     (¬owed → exec (.sittingSecond n) s = .next s.settle) ∧
     (owed → x.state = .reading → x.clock + 1 < x.reading * 60 → exec (.sittingSecond n) s = .next s1.settle) ∧
     (owed → x.state = .reading → x.reading * 60 ≤ x.clock + 1 →
       exec (.sittingSecond n) s = .next (s1.startWriting k .compare).settle) ∧
     (owed → x.state ≠ .reading → exec (.sittingSecond n) s =
       .next ((((s1.giveWarning k).cutoffIfReached k).fireDue k).compareIfReached k).settle)) ∧
  (∀ (n : Fin 8) (s : State),
     let k := n.val
     let x := s.sitting k
     let row (c : Instr) (reached : Sitting → Bool) (take : State → State) : Prop :=
       (x.state.running = true → x.held = false → reached x = true → exec c s = .next (take s).settle) ∧
       (x.state.running = true → x.held = false → reached x = false → 0 < x.secondsDue →
         reached { x with clock := x.clock + 1 } = true → exec c s = exec (.sittingSecond n) s) ∧
       (x.state.running = false ∨ x.held = true → exec c s = .next s.settle) ∧
       (reached x = false → (x.secondsDue = 0 ∨ reached { x with clock := x.clock + 1 } = false) →
         exec c s = .next s.settle)
     row (.readingCompare n) (fun y => y.state == .reading && decide (y.reading * 60 ≤ y.clock))
       (fun t => t.startWriting k .compare) ∧
     row (.sittingWarning n) (fun y => (y.state == .writing || y.state == .extended) && y.warningReached)
       (fun t => t.giveWarning k) ∧
     row (.lateCutoff n)
       (fun y => (y.state == .writing || y.state == .extended) && !y.cutoffTaken && decide (y.cutoff * 60 ≤ y.clock))
       (fun t => t.takeCutoff k) ∧
     row (.writingCompare n) (fun y => y.state == .writing && decide (y.writing * 60 ≤ y.clock)) (fun t => t.takeCompare k))

/-- What the points do: a sitting warning sends its notice and raises the index (R52); the late cutoff makes every
WAITING and EXPECTED candidate of the sitting ABSENT, unbound and off the queue, frees their seats with one retry pass
when any became FREE, counts and reports them, and touches nothing else (R53, R17, R6, R32, R113); the writing compare
makes the sitting EXTENDED or COLLECTING by its mark list, and an EXTENDED sitting whose list is empty becomes
COLLECTING and loses its HELD flag (R54). Within a second the cutoff and the compare are taken when their point is
reached, once, and the entries inserted by another event fire at its end while the sitting writes and is not held
(R55, R65). -/
def Obligations.PointsTakeTheirEffect : Prop :=
  ∀ (s : State) (k : Nat), k < 8 →
    let x := s.sitting k
    (∀ i w, x.nextWarning = i + 1 → x.warnings[i]? = some w → (x.writing - w) * 60 ≤ x.clock →
      s.giveWarning k = (s.notify (.warning k (i + 1) w)).modSitting k (fun y => { y with nextWarning := i + 2 })) ∧
    ((x.nextWarning = 0 ∨ x.warnings[x.nextWarning - 1]? = none ∨
        ∃ w, x.warnings[x.nextWarning - 1]? = some w ∧ x.clock < (x.writing - w) * 60) → s.giveWarning k = s) ∧
    (x.warningReached = true ↔
      ∃ i w, x.nextWarning = i + 1 ∧ x.warnings[i]? = some w ∧ (x.writing - w) * 60 ≤ x.clock) ∧
    s.cutoffIfReached k = (if (x.state = .writing ∨ x.state = .extended) ∧ x.cutoffTaken = false ∧ x.cutoff * 60 ≤ x.clock
      then s.takeCutoff k else s) ∧
    s.compareIfReached k = (if x.state = .writing ∧ x.writing * 60 ≤ x.clock then s.takeCompare k else s) ∧
    s.fireInserted k = (if (x.state = .writing ∨ x.state = .extended) ∧ x.held = false then s.fireDue k else s) ∧
    (let u := s.takeCutoff k
      let late (y : Candidate) : Prop := y.sitting = k ∧ (y.state = .waiting ∨ y.state = .expected)
      let n := s.countCands (fun y => y.sitting == k && (y.state == .waiting || y.state == .expected))
      (∀ c y, s.cand? c = some y → late y → u.cand? c = some { y with state := .absent, bound := none }) ∧
      (∀ c y, s.cand? c = some y → ¬late y → u.cand? c = some y) ∧
      (∀ c, s.cand? c = none → u.cand? c = none) ∧
      s.clearedFor u (fun y => y.sitting == k && (y.state == .waiting || y.state == .expected)) ∧
      u.sal.queue = s.sal.queue.filter (fun c => !(s.cand? c).any (fun y =>
        y.sitting == k && (y.state == .waiting || y.state == .expected))) ∧
      u.sitting k = { x with cutoffTaken := true, absentCount := x.absentCount + n } ∧
      (∀ j, j < 8 → j ≠ k → u.sitting j = s.sitting j) ∧
      u = { s.notify (.lateCutoff k n) with
        htu := u.htu
        sal.queue := u.sal.queue
        sal.retryDue := u.sal.retryDue
        tme.sittings := u.tme.sittings
        cdp.calls := u.cdp.calls }) ∧
    (x.marks ≠ [] → s.takeCompare k =
      (s.modSitting k (fun y => { y with state := .extended })).notify (.phase k .extended x.held x.clock .compare)) ∧
    (x.marks = [] → s.takeCompare k =
      (s.modSitting k (fun y => { y with state := .collecting, secondsDue := 0 })).notify
        (.phase k .collecting x.held x.clock .compare)) ∧
    (x.state = .extended → x.marks = [] → s.collectIfEmpty k =
      (s.modSitting k (fun y => { y with state := .collecting, held := false, secondsDue := 0 })).notify
        (.phase k .collecting false x.clock .listEmpty)) ∧
    (x.state ≠ .extended ∨ x.marks ≠ [] → s.collectIfEmpty k = s)

/-- The extension in minutes is the writing length times the allowance, divided by 100 and rounded up to a whole
minute; the field holds sixty times that, with the table of R62 as examples. A candidate's writing entry is the
earliest of its warning points beyond the clock, as WARN, and of its personal end, as END (R63, R65); it takes its
place in the list by due time, then by slot (R64). A mark list takes an entry and loses one: an entry is inserted in
its sitting's list, ordered by due time and then by slot (R64); the removal of a candidate's entry takes it out of the
list of its sitting and nothing else (R71 to R73); and a candidate's writing entry, chosen for the clock as it stands,
is inserted in the list of the candidate's sitting (R65). -/
def Obligations.PersonalTime : Prop :=
  ((∀ writing allowance, ∃ m, extensionOf writing allowance = m * 60 ∧ writing * allowance ≤ m * 100 ∧
     m * 100 < writing * allowance + 100) ∧
   extensionOf 90 0 = 0 ∧ extensionOf 90 25 = 1380 ∧ extensionOf 60 5 = 180 ∧ extensionOf 10 5 = 60 ∧
   extensionOf 360 100 = 21600) ∧
  (∀ (x : Sitting) (slot c : Nat) (y : Candidate),
     let finish := x.writing * 60 + y.extension + y.pausedTotal
     let e := writingEntry x slot y c
     e.slot = slot ∧
     ((e.kind = .finish ∧ e.due = finish) ∨
       ∃ i w, x.warnings[i]? = some w ∧ e.kind = .warn (i + 1) ∧ e.due = finish - w * 60 ∧ c < e.due) ∧
     e.due ≤ finish ∧
     (∀ w ∈ x.warnings, c < finish - w * 60 → e.due ≤ finish - w * 60) ∧
     (∀ (m : MarkEntry) (l : List MarkEntry), l.Pairwise (fun a b => b.before a = false) →
       (insertMark m l).Pairwise (fun a b => b.before a = false) ∧ (insertMark m l).Perm (m :: l))) ∧
  ((∀ a b : MarkEntry, a.before b = true ↔ a.due < b.due ∨ (a.due = b.due ∧ a.slot < b.slot)) ∧
   (∀ (s : State) (k : Nat), k < 8 →
     let x := s.sitting k
     let only (u : State) : Prop := u = { s with tme.sittings := u.tme.sittings } ∧ ∀ j, j < 8 → j ≠ k → u.sitting j = s.sitting j
     (∀ m, only (s.addMark k m) ∧ (s.addMark k m).sitting k = { x with marks := insertMark m x.marks }) ∧
     (∀ c, only (s.dropMark k c) ∧ (s.dropMark k c).sitting k = { x with marks := x.marks.filter (fun m => m.slot != c) }) ∧
     (∀ c y, s.cand? c = some y → y.sitting = k → only (s.addWritingEntry c) ∧
       (s.addWritingEntry c).sitting k = { x with marks := insertMark (writingEntry x c y x.clock) x.marks })) ∧
   (∀ (s : State) (c : Nat), s.cand? c = none → s.addWritingEntry c = s))

/-- WARN_FIRING, END_FIRING and REST_EXPIRY fire the entries due, the first of the list first: with the candidate's
entry of that kind the first and only one due, it is removed and acts by its kind (R69, R70, R74). A mark row does
nothing when no entry of its candidate and of its own kind is due, now or at a next second that is owed; nor does one
of a free slot, or in a sitting that is held or does not run (R68, log 3, 4). Several entries due in one event (R68):
while the first entry of the list is due it is removed and acts by its kind, so that none is due at the end: a WARN by
the next writing entry, an END by the finish, a REST_EXPIRY of a PAUSED candidate by the resume with the whole rest
left, the mark on its live REST call and the notice; an END of a candidate not WRITING, a REST_EXPIRY of one not
PAUSED and an entry of a free slot only leave. Each mark row fires them so when an entry of its candidate and kind is
due; when the next second owed makes one due, the row takes that second, whole (log 4). The live REST call of a
candidate is its lowest in service that is not marked expired. CAND_END (R70): it is sent exactly when the personal
end differs from the sitting's writing × 60, and gives the slot, the number, the sitting, the finish seat or none, the
personal end, the extension and the paused total. -/
def Obligations.MarkEntriesFire : Prop :=
  (∀ (n : Fin 512) (s : State) (y : Candidate) (e : MarkEntry) (rest : List MarkEntry), s.cand? n.val = some y →
     y.sitting < 8 → (s.sitting y.sitting).state.running = true → (s.sitting y.sitting).held = false →
     (s.sitting y.sitting).marks = e :: rest → e.slot = n.val → e.due ≤ (s.sitting y.sitting).clock →
     let k := y.sitting
     let s1 := s.modSitting k (fun z => { z with marks := rest })
     let quiet (u : State) : Prop := ∀ m l, (u.sitting k).marks = m :: l → (u.sitting k).clock < m.due
     (∀ j, e.kind = .warn j →
       let u := (s1.addWritingEntry n.val).collectIfEmpty k
       quiet u → exec (.warnFiring n) s = .next u.settle) ∧
     (e.kind = .finish → y.state = .writing →
       let u := ((s1.finishClaim n.val).noteCandEnd n.val).collectIfEmpty k
       quiet u → exec (.endFiring n) s = .next u.settle) ∧
     (e.kind = .restExpiry → y.state = .paused →
       let d := y.restBudget - y.restUsed
       let s2 := (s1.modCand n.val (fun z => { z with
         pausedTotal := z.pausedTotal + d, restUsed := z.restUsed + d, pauseStart := none, state := .writing
         })).addWritingEntry n.val
       let s3 := match s.liveRest n.val with
         | some i => s2.modCall i (fun z => { z with expired := true })
         | none => s2
       let u := (s3.notify (.restExpired n.val y.number k y.bound (s.liveRest n.val) (y.restUsed + d))).collectIfEmpty k
       quiet u → exec (.restExpiry n) s = .next u.settle)) ∧
  (∀ (n : Fin 512) (s : State),
     (s.cand? n.val = none → exec (.warnFiring n) s = .next s.settle ∧ exec (.endFiring n) s = .next s.settle ∧
       exec (.restExpiry n) s = .next s.settle) ∧
     (∀ y, s.cand? n.val = some y →
       let x := s.sitting y.sitting
       let idle (c : Instr) (kind : MarkKind → Prop) : Prop :=
         (x.held = true ∨ x.state.running = false ∨ ∀ e ∈ x.marks, e.slot = n.val → kind e.kind →
           x.clock < e.due ∧ (x.secondsDue = 0 ∨ x.clock + 1 < e.due)) → exec c s = .next s.settle
       idle (.warnFiring n) (fun e => ∃ j, e = .warn j) ∧ idle (.endFiring n) (fun e => e = .finish) ∧
         idle (.restExpiry n) (fun e => e = .restExpiry))) ∧
  ((∀ (s : State) (k : Nat),
     let due (u : State) : Prop := ∃ e rest, (u.sitting k).marks = e :: rest ∧ e.due ≤ (u.sitting k).clock
     (¬due s → s.fireDue k = s) ∧ (due s → s.fireDue k = (s.fireHead k).fireDue k) ∧ ¬due (s.fireDue k) ∧
     (∀ e rest, (s.sitting k).marks = e :: rest →
       let s1 := s.modSitting k (fun x => { x with marks := rest })
       (∀ j, e.kind = .warn j → s.fireHead k = (s1.addWritingEntry e.slot).collectIfEmpty k) ∧
       (∀ y, e.kind = .finish → s.cand? e.slot = some y → s.fireHead k =
         (if y.state = .writing then (s1.finishClaim e.slot).noteCandEnd e.slot else s1).collectIfEmpty k) ∧
       (∀ y, e.kind = .restExpiry → s.cand? e.slot = some y → y.state ≠ .paused → s.fireHead k = s1.collectIfEmpty k) ∧
       (∀ y, e.kind = .restExpiry → s.cand? e.slot = some y → y.state = .paused →
         let d := y.restBudget - y.restUsed
         let s2 := (s1.modCand e.slot (fun z => { z with
           pausedTotal := z.pausedTotal + d, restUsed := z.restUsed + d, pauseStart := none, state := .writing
           })).addWritingEntry e.slot
         let s3 := match s.liveRest e.slot with
           | some i => s2.modCall i (fun z => { z with expired := true })
           | none => s2
         s.fireHead k = (s3.notify (.restExpired e.slot y.number y.sitting y.bound (s.liveRest e.slot)
           (y.restUsed + d))).collectIfEmpty k) ∧
       (s.cand? e.slot = none → s.fireHead k = s1.collectIfEmpty k))) ∧
   (∀ (s : State) (c i : Nat),
     let live (n : Nat) : Prop := ∃ d, s.call? n = some d ∧ d.slot = c ∧ d.kind = .rest ∧ d.expired = false ∧
       d.state ≠ .pending
     s.liveRest c = some i ↔ live i ∧ ∀ j, j < i → ¬live j) ∧
   (∀ (n : Fin 512) (s : State) (y : Candidate) (m : Fin 8), s.cand? n.val = some y → y.sitting = m.val →
     let x := s.sitting m.val
     let row (c : Instr) (kind : MarkKind → Prop) : Prop :=
       let has (clock : Nat) : Prop := ∃ e ∈ x.marks, e.slot = n.val ∧ kind e.kind ∧ e.due ≤ clock
       x.state.running = true → x.held = false →
         (has x.clock → exec c s = .next (s.fireDue m.val).settle) ∧
         (¬has x.clock → 0 < x.secondsDue → has (x.clock + 1) → exec c s = exec (.sittingSecond m) s)
     row (.warnFiring n) (fun e => ∃ j, e = .warn j) ∧ row (.endFiring n) (fun e => e = .finish) ∧
       row (.restExpiry n) (fun e => e = .restExpiry))) ∧
  (∀ (s : State) (c : Nat) (y : Candidate), s.cand? c = some y →
     let base := (s.sitting y.sitting).writing * 60
     let finish := base + y.extension + y.pausedTotal
     (finish = base → s.noteCandEnd c = s) ∧
     (finish ≠ base → s.noteCandEnd c =
       s.notify (.candEnd c y.number y.sitting y.finish finish y.extension y.pausedTotal)))

/-- A pause (R72) and a resume (R73): the candidate's entry is replaced, the pause start set or the pause credited.
LEAVE: the five checks in the order of R71, each with its reason (that this order names CANDIDATE_STATE also after a
compare that left the sitting COLLECTING, for which R77 names SITTING_STATE, is deduced, log 43); otherwise the
writing entry goes, the candidate finishes and has EARLY_LEAVE, and the reply gives the slot, the clock, the finish
seat and its resulting state. -/
def Obligations.PausesAndEarlyLeave : Prop :=
  (∀ (s : State) (c : Nat) (y : Candidate), s.cand? c = some y →
     let k := y.sitting
     let now := (s.sitting k).clock
     (y.state = .writing → s.pauseClaim c = ((((s.dropMark k c).modCand c (fun z =>
       { z with pauseStart := some now, state := .paused })).addMark k
         ⟨now + (y.restBudget - y.restUsed), c, .restExpiry⟩).fireInserted k)) ∧
     (y.state ≠ .writing → s.pauseClaim c = s) ∧
     (∀ start, y.state = .paused → y.pauseStart = some start → s.resumeClaim c = ((((s.dropMark k c).modCand c (fun z =>
       { z with
         pausedTotal := z.pausedTotal + (now - start)
         restUsed := z.restUsed + (now - start)
         pauseStart := none
         state := .writing })).addWritingEntry c).fireInserted k)) ∧
     (y.state ≠ .paused → s.resumeClaim c = s)) ∧
  (∀ (slot : Half) (s : State), s.listening = true → slot.toNat < 512 →
     let c := slot.toNat
     let refused (r : Reason) : Prop := exec (.leave slot) s = s.toHunt.replied 0x1B (refuse .refusedState r)
     (s.cand? c = none → exec (.leave slot) s = s.toHunt.replied 0x1B notFound) ∧
     (∀ y, s.cand? c = some y →
       let x := s.sitting y.sitting
       (y.state ≠ .writing → refused .candidateState) ∧
       (y.state = .writing → x.state ≠ .writing → refused .sittingState) ∧
       (y.state = .writing → x.state = .writing → x.held = true → refused .sittingHeld) ∧
       (y.state = .writing → x.state = .writing → x.held = false → x.clock < x.opening * 60 → refused .windowNotOpen) ∧
       (y.state = .writing → x.state = .writing → x.held = false → x.opening * 60 ≤ x.clock →
         (x.writing - x.closing) * 60 ≤ x.clock → refused .windowClosed) ∧
       (y.state = .writing → x.state = .writing → x.held = false → x.opening * 60 ≤ x.clock →
         x.clock < (x.writing - x.closing) * 60 → exec (.leave slot) s =
           (let u := ((s.toHunt.dropMark y.sitting c).finishClaim c).modCand c (fun z => { z with earlyLeave := true })
           u.replied 0x1B (ok (.left c x.clock y.bound (y.bound.map u.seatState)))))))

/-! ### Calls and handsets -/

/-- ESCALATION: a PENDING call above level 0 whose timer has come to the limit falls by one level and its timer
restarts; otherwise nothing happens (log 3). HANDSET_AWAY: the silence of an ACTIVE handset having come to the limit,
its calls return to PENDING from the top down, each live REST call first ending its pause, its stack and note are
cleared, it is AWAY, and the notice lists the calls; otherwise nothing happens (log 3). A due event whose parameter is
raised above the timer first is dropped: the model's choice (log 40). -/
def Obligations.EscalationAndHandsetAway : Prop :=
  (∀ (n : Fin 48) (s : State),
     let due (c : Call) : Prop := c.state = .pending ∧ 0 < c.level ∧ c.escalationDue = true ∧
       0 < s.cli.params.escalateTime ∧ s.cli.params.escalateTime ≤ c.timer
     (∀ c, s.call? n.val = some c → due c → exec (.escalation n) s = .next (s.modCall n.val (fun x =>
       { x with level := x.level - 1, timer := 0, escalationDue := false })).settle) ∧
     ((s.call? n.val = none ∨ ∃ c, s.call? n.val = some c ∧ ¬due c) → exec (.escalation n) s = .next s.settle)) ∧
  (∀ (n : Fin 8) (s : State),
     let h := s.handset n.val
     let due : Prop := h.state = .active ∧ h.awayDue = true ∧ 0 < s.cli.params.handsetAway ∧
       s.cli.params.handsetAway ≤ h.timer
     (¬due → exec (.handsetAway n) s = .next s.settle) ∧
     (due → exec (.handsetAway n) s = .next (State.settle (((h.stack.reverse.foldl (fun t i => t.returnCall i) s).modHandset
       n.val (fun x => { x with stack := [], note := none, state := .away, awayDue := false })).notify
         (.handsetAway n.val h.stack.reverse)))) ∧
     (∀ i c, s.call? i = some c →
       (c.kind = .rest → c.expired = false →
         s.returnCall i = (s.resumeClaim c.slot).modCall i (fun x => { x with state := .pending })) ∧
       (c.kind ≠ .rest ∨ c.expired = true → s.returnCall i = s.modCall i (fun x => { x with state := .pending }))))

/-- RAISE_ALERT, by the conditions of R101 in their order: a call of the seat, a full list, no candidate in one of the
three states; otherwise an ALERT call takes the lowest free id and ALERT_RAISED follows. CANCEL_CALL: a free id is not
found; a PENDING call leaves the list; a call in service leaves its stack, its handset has the note CANCELLED, a live
REST call ends its pause, and it leaves the list. Every raise (R101), from a seat key, a handset or RAISE_ALERT, by
its conditions in their order: a call of the seat, a full list, no candidate in one of the three states, the kind's
own condition; an accepted one is the call of R99, in the lowest free id, at the level of its kind (R100). A call is
dispatchable when its sitting is not quiet or its level is at or below the threshold (R105). The pending order is
level, then raised at, then id, over the PENDING calls (R102). -/
def Obligations.CallsAreRaisedAndCancelled : Prop :=
  (∀ (seat : Half) (s : State), s.listening = true → seat.toNat < 384 →
     let i := seat.toNat
     let answered (u : State) (a : Answer) : Prop := exec (.raiseAlert seat) s = u.replied 0x20 a
     let free (n : Nat) : Prop := n < 48 ∧ s.call? n = none
     let atSeat (n : Nat) : Prop := ∃ c, s.call? n = some c ∧ c.seat = some i
     (∀ n c, s.call? n = some c → c.seat = some i → (∀ m, m < n → ¬atSeat m) →
       answered s.toHunt (refuse .busy .none (.call n c.kind c.state))) ∧
     ((∀ n, ¬atSeat n) → (∀ n, ¬free n) → answered s.toHunt (refuse .full)) ∧
     ((∀ n, ¬atSeat n) → (∃ n, free n) →
       (∀ c y, s.boundTo i = some (c, y) → y.state ≠ .present → y.state ≠ .writing → y.state ≠ .paused →
         answered s.toHunt (refuse .refusedState .none (.seatAndCand (s.seatState i) (some y.state)))) ∧
       (s.boundTo i = none → answered s.toHunt (refuse .refusedState .none (.seatAndCand (s.seatState i) none)))) ∧
     ((∀ n, ¬atSeat n) → ∀ n, free n → (∀ m, m < n → ¬free m) → ∀ c y, s.boundTo i = some (c, y) →
       (y.state = .present ∨ y.state = .writing ∨ y.state = .paused) → answered
         ((s.toHunt.putCall n (some
           { seat := some i, slot := c, kind := .alert, level := s.cli.params.levelAlert, raisedAt := s.tme.hall.seconds,
             timer := 0, state := .pending, expired := false, escalationDue := false })).notify
           (.alertRaised n i c y.number s.cli.params.levelAlert none))
         (ok (.alert n s.cli.params.levelAlert)))) ∧
  (∀ (call : Byte) (s : State), s.listening = true → call.toNat < 48 →
     let i := call.toNat
     (s.call? i = none → exec (.cancelCall call) s = s.toHunt.replied 0x22 notFound) ∧
     (∀ c, s.call? i = some c →
       let answered (u : State) : Prop := exec (.cancelCall call) s = u.replied 0x22 (ok (.cancelled c.kind c.seat c.state))
       (c.state = .pending → answered (s.toHunt.putCall i none)) ∧
       (∀ h, c.state = .inService h →
         let s1 := s.toHunt.modHandset h (fun x => { x with stack := x.stack.filter (· != i), note := some ⟨.cancelled, 5⟩ })
         (c.kind = .rest → c.expired = false → answered ((s1.resumeClaim c.slot).putCall i none)) ∧
         (c.kind ≠ .rest ∨ c.expired = true → answered (s1.putCall i none))))) ∧
  ((∀ (s : State) (i : Nat) (kind : CallKind) (origin : Option Nat),
     let atSeat (n : Nat) : Prop := ∃ c, s.call? n = some c ∧ c.seat = some i
     let free (n : Nat) : Prop := n < 48 ∧ s.call? n = none
     (∀ n, atSeat n → (∀ m, m < n → ¬atSeat m) → s.raise i kind origin = (s, .seatBusy n)) ∧
     ((∀ n, ¬atSeat n) → (∀ n, ¬free n) → s.raise i kind origin = (s, .listFull)) ∧
     ((∀ n, ¬atSeat n) → ∀ n, free n → (∀ m, m < n → ¬free m) →
       (s.boundTo i = none → s.raise i kind origin = (s, .noCandidate)) ∧
       (∀ c y, s.boundTo i = some (c, y) →
         let x := s.sitting y.sitting
         let seated : Prop := y.state = .present ∨ y.state = .writing ∨ y.state = .paused
         let allowed : Prop := match kind with
           | .query | .supply | .escort => y.state = .present ∨ y.state = .writing
           | .rest => y.state = .writing ∧ (x.state = .writing ∨ x.state = .extended) ∧ y.restUsed < y.restBudget
           | .alert => True
         let level := match kind with
           | .query => s.cli.params.levelQuery
           | .supply => s.cli.params.levelSupply
           | .escort => s.cli.params.levelEscort
           | .rest => s.cli.params.levelRest
           | .alert => s.cli.params.levelAlert
         (¬seated → s.raise i kind origin = (s, .noCandidate)) ∧
         (seated → ¬allowed → s.raise i kind origin = (s, .kindRefused)) ∧
         (seated → allowed → s.raise i kind origin =
           (let u := s.putCall n (some
             { seat := some i, slot := c, kind := kind, level := level, raisedAt := s.tme.hall.seconds, timer := 0,
               state := .pending, expired := false, escalationDue := false })
           (if kind = .alert then u.notify (.alertRaised n i c y.number level origin) else u, .accepted n)))))) ∧
   (∀ (s : State) (i n : Nat),
     let atSeat (m : Nat) : Prop := ∃ c, s.call? m = some c ∧ c.seat = some i
     s.callOfSeat i = some n ↔ atSeat n ∧ ∀ m, m < n → ¬atSeat m) ∧
   (∀ (s : State) (c : Call), s.dispatchable c = true ↔ ∃ y, s.cand? c.slot = some y ∧
     let x := s.sitting y.sitting
     (¬(x.state = .extended ∨ (x.state = .writing ∧ 0 < x.quiet ∧ (x.writing - x.quiet) * 60 ≤ x.clock)) ∨
       c.level ≤ x.threshold)) ∧
   (∀ a b : Nat × Call, pendingBefore a b = true ↔ a.2.level < b.2.level ∨ (a.2.level = b.2.level ∧
     (a.2.raisedAt < b.2.raisedAt ∨ (a.2.raisedAt = b.2.raisedAt ∧ a.1 < b.1)))) ∧
   (∀ s : State, (∀ i c, (i, c) ∈ s.pendingCalls ↔ s.call? i = some c ∧ c.state = .pending) ∧
     s.pendingCalls.Pairwise (fun a b => pendingBefore a b = true)))

/-- SET_HANDSET_ZONES replaces a handset's zone set, in every handset state. -/
def Obligations.SetHandsetZonesReplacesSet : Prop :=
  ∀ (handset zones : Byte) (s : State), s.listening = true →
    (handset.toNat < 8 → exec (.setHandsetZones handset zones) s =
      (s.toHunt.modHandset handset.toNat (fun h => { h with zones := zones })).replied 0x21 (ok (.zones zones))) ∧
    (8 ≤ handset.toNat → exec (.setHandsetZones handset zones) s = s.toHunt.replied 0x21 (badArgument 1))

/-- TAKE (R110): an OFF handset takes nothing; three calls on the stack, or no eligible call, set the note NONE; else
the first eligible call in the pending order goes into service on top of the stack, and a live REST call pauses its
candidate. An eligible call is PENDING, dispatchable, in a zone of the handset (by its seat, or by the finish seat
when it is detached) and strictly below the level of its top call; and none eligible stands before the one taken. That
the TAKE drops an escalation of the call that is due, its timer standing, is the model's choice (log 44). DONE (R111):
DONE(TOP) is ignored on an empty stack or under the note CANCELLED, DONE(id) when the call is not on the stack; a call
removed leaves the stack and the list; a live REST call ends its pause; a SUPPLY call of a seated candidate issues a
booklet, or sends ISSUE_LIMIT at eight. -/
def Obligations.TakeAndDone : Prop :=
  (∀ (s : State) (h : Nat), h < 8 →
     let x := s.handset h
     let none' := s.modHandset h (fun y => { y with note := some ⟨.none, 5⟩ })
     (x.state = .off → s.take h = s) ∧
     (x.state ≠ .off → 3 ≤ x.stack.length → s.take h = none') ∧
     (x.state ≠ .off → x.stack.length < 3 → s.eligibleCalls h = [] → s.take h = none') ∧
     (∀ i rest c, x.state ≠ .off → x.stack.length < 3 → s.eligibleCalls h = i :: rest → s.call? i = some c →
       let s1 := (s.modCall i (fun y => { y with state := .inService h, escalationDue := false })).modHandset h (fun y =>
         { y with stack := y.stack ++ [i] })
       s.take h = if c.kind = .rest ∧ c.expired = false then s1.pauseClaim c.slot else s1) ∧
     (∀ i, i ∈ s.eligibleCalls h ↔ ∃ c, s.call? i = some c ∧ c.state = .pending ∧ s.dispatchable c = true ∧
       (∃ j z, s.callSeat c = some j ∧ s.seat? j = some z ∧ x.zones.getLsbD z.zone = true) ∧
       (∀ t d, x.stack.getLast? = some t → s.call? t = some d → c.level < d.level)) ∧
     (∀ c y, s.cand? c.slot = some y → s.callSeat c = if c.seat = none then y.finish else c.seat) ∧
     (s.eligibleCalls h).Pairwise (fun a b => ∀ c d, s.call? a = some c → s.call? b = some d →
       pendingBefore (b, d) (a, c) = false)) ∧
  (∀ (s : State) (h : Nat),
     let x := s.handset h
     ((x.stack = [] ∨ ∃ p, x.note = some ⟨.cancelled, p⟩) → s.doneCall h none = s) ∧
     (∀ i, x.stack.getLast? = some i → (∀ p, x.note ≠ some ⟨.cancelled, p⟩) → s.doneCall h none = s.finishCall h i) ∧
     (∀ i, i ∈ x.stack → s.doneCall h (some i) = s.finishCall h i) ∧
     (∀ i, i ∉ x.stack → s.doneCall h (some i) = s) ∧
     (∀ i c, s.call? i = some c →
       let s1 := (s.modHandset h (fun y => { y with stack := y.stack.filter (· != i) })).putCall i none
       (c.kind = .rest → c.expired = false → s.finishCall h i = s1.resumeClaim c.slot) ∧
       (c.kind = .rest → c.expired = true → s.finishCall h i = s1) ∧
       (c.kind = .query ∨ c.kind = .escort ∨ c.kind = .alert → s.finishCall h i = s1) ∧
       (∀ y, c.kind = .supply → s.cand? c.slot = some y →
         (y.state.seated = false → s.finishCall h i = s1) ∧
         (y.state.seated = true → y.issued < 8 → s.finishCall h i = s1.modCand c.slot (fun z =>
           { z with issued := z.issued + 1 })) ∧
         (y.state.seated = true → 8 ≤ y.issued → s.finishCall h i = s1.notify
           (.issueLimit c.seat c.slot y.number i)))))

/-! ### Unit links -/

/-- START_LINK and STOP_LINK of one link, and of ALL: each link concerned starts or stops, in the order of their
names, and the reply lists them; with none the request is refused. What starting and stopping a link do (R80, R81):
its record restarts, and the unit records of its addresses take their reset values; a start broadcasts the current
minute with sequence 0 and begins a cycle over the members as they stand. No other link, no other unit record and
nothing else changes. -/
def Obligations.LinksAreStartedAndStopped : Prop :=
  (∀ (b : Byte) (s : State), s.listening = true →
     (∀ l, linkOf b = some l →
       ((s.link l).running = false → exec (.startLink b) s = (s.toHunt.startLink l).replied 0x1D (ok (.links [l]))) ∧
       ((s.link l).running = true → exec (.startLink b) s = s.toHunt.replied 0x1D (refuse .refusedState)) ∧
       ((s.link l).running = true → exec (.stopLink b) s = (s.toHunt.stopLink l).replied 0x1E (ok (.links [l]))) ∧
       ((s.link l).running = false → exec (.stopLink b) s = s.toHunt.replied 0x1E (refuse .refusedState))) ∧
     (let stopped := [LinkName.a, .b, .c, .d, .floor].filter (fun l => !(s.link l).running)
       let running := [LinkName.a, .b, .c, .d, .floor].filter (fun l => (s.link l).running)
       (exec (.startLink 0xFF#8) s = if stopped = [] then s.toHunt.replied 0x1D (refuse .refusedState)
         else (stopped.foldl (fun u l => u.startLink l) s.toHunt).replied 0x1D (ok (.links stopped))) ∧
       (exec (.stopLink 0xFF#8) s = if running = [] then s.toHunt.replied 0x1E (refuse .refusedState)
         else (running.foldl (fun u l => u.stopLink l) s.toHunt).replied 0x1E (ok (.links running))))) ∧
  (∀ (s : State) (l : LinkName),
     let members := (linkAddresses l).filter (s.isMember l)
     let code : TimeCode := ⟨s.tme.hall.minute, 0⟩
     (s.startLink l = { s with ulc := (s.startLink l).ulc }) ∧ (s.stopLink l = { s with ulc := (s.stopLink l).ulc }) ∧
     (∀ m, m ≠ l → (s.startLink l).link m = s.link m ∧ (s.stopLink l).link m = s.link m) ∧
     (s.startLink l).link l =
       { running := true, history := [code], sequence := 1, broadcastPending := false, repeatPending := false,
         silentReported := false, members := members, cycleOpen := true, toPoll := members, current := none,
         heardInCycle := false, sent := some (.broadcast code) } ∧
     (s.stopLink l).link l =
       { running := false, history := [], sequence := 0, broadcastPending := false, repeatPending := false,
         silentReported := false, members := [], cycleOpen := false, toPoll := [], current := none, heardInCycle := false,
         sent := none } ∧
     (∀ a ∈ linkAddresses l, (s.startLink l).unit l a = ⟨0, 0, 0, none, none⟩ ∧
       (s.stopLink l).unit l a = ⟨0, 0, 0, none, none⟩) ∧
     (∀ m a, (a ∉ linkAddresses l ∨ (l = .floor ↔ m ≠ .floor)) →
       (s.startLink l).unit m a = s.unit m a ∧ (s.stopLink l).unit m a = s.unit m a))

/-- POLL_CYCLE_START and POLL_FRAME: a RUNNING link between cycles fixes the members of its next cycle and drops the
records of units that are no members; in a cycle the next member is polled, unless a transaction is in progress or a
broadcast waits, and its frame uses up a poll of its one-shot or note. Otherwise nothing happens (log 3). That a unit
which left and came back before the cycle keeps its record is the model's choice (log 32). Who is polled (R82): a
position of kind SEAT of a seat link, an address of FLOOR_UNITS on the floor link, in ascending order. The end of a
cycle sends a pending repeat only when no broadcast waits, no transaction is in progress and the visits are over; it
sends the head of the history, and with an empty history only clears its mark (R94). POLL_TIMEOUT and POLL_CYCLE_END:
a reply window that closes with no reply is a miss of the unit polled; a cycle whose visits are over ends, an all-miss
one with one LINK_SILENT until a unit answers, and the repeat that is pending goes out (with this row or with its own,
as log 17 deduces). Otherwise nothing happens (log 3). TIME_CODE_BROADCAST and TIME_CODE_REPEAT: a pending broadcast
goes out between transactions with the minute as it stands, joins the history and advances the sequence; a repeat goes
out once the cycle's visits are over and sends the head of the history again, or, with an empty history, only clears
its mark (log 17). Otherwise nothing happens (log 3). The displays. A seat's poll frame carries its one-shot, which
has no indicators (the model's choice, log 16), else the display derived from the tables: the mode by the table of
R84, a FAULTED seat by the state its binding requires, with the WARNING, CALL and HELD indicators; an unbound seat is
BLANK. A one-shot or a note stands for five polls, each frame using one up (R85, R109). A handset's frame carries its
note, or its top call, the depth and the waiting count (R109); a station's its channel (R97); a wall clock's the hall
time (R97). -/
def Obligations.PollCycles : Prop :=
  (∀ (l : LinkName) (s : State),
     let x := s.link l
     let members := (linkAddresses l).filter (s.isMember l)
     (x.running = true → x.cycleOpen = false → exec (.pollCycleStart l) s = .next (State.settle
       (((((linkAddresses l).filter (fun a => !s.isMember l a)).foldl (fun t a => t.modUnit l a (fun _ =>
         ⟨0, 0, 0, none, none⟩)) s).modLink l (fun y => { y with
           members := members, toPoll := members, cycleOpen := true, current := none, heardInCycle := false }))))) ∧
     ((x.running = false ∨ x.cycleOpen = true) → exec (.pollCycleStart l) s = .next s.settle) ∧
     (∀ a rest, x.running = true → x.cycleOpen = true → x.current = none → x.broadcastPending = false →
       x.toPoll = a :: rest →
       let s1 := s.modLink l (fun y => { y with sent := some (s.formPoll l a), current := some a, toPoll := rest })
       exec (.pollFrame l) s = .next (State.settle (match l with
         | .floor => if a < 8 then s1.spendNote a else s1
         | _ => s1.spendOneShot l a))) ∧
     ((x.running = false ∨ x.cycleOpen = false ∨ x.current ≠ none ∨ x.broadcastPending = true ∨ x.toPoll = []) →
       exec (.pollFrame l) s = .next s.settle)) ∧
  ((∀ (s : State) (i : Nat),
     let desk : Prop := ∃ x, s.seat? i = some x ∧ x.kind = .seat
     (s.isMember .a i = true ↔ desk) ∧ (s.isMember .b i = true ↔ desk) ∧ (s.isMember .c i = true ↔ desk) ∧
       (s.isMember .d i = true ↔ desk) ∧
     (s.isMember .floor i = true ↔ s.cli.params.floorUnits.getLsbD i = true)) ∧
   (∀ i : Nat, (i ∈ linkAddresses .a ↔ i < 96) ∧ (i ∈ linkAddresses .b ↔ 96 ≤ i ∧ i < 192) ∧
     (i ∈ linkAddresses .c ↔ 192 ≤ i ∧ i < 288) ∧ (i ∈ linkAddresses .d ↔ 288 ≤ i ∧ i < 384) ∧
     (i ∈ linkAddresses .floor ↔ i < 20)) ∧
   (∀ l, (linkAddresses l).Pairwise (· < ·)) ∧
   (∀ (s : State) (l : LinkName),
     let x := s.link l
     let due : Prop := x.running = true ∧ x.repeatPending = true ∧ x.broadcastPending = false ∧ x.current = none ∧
       (x.cycleOpen = false ∨ x.toPoll = [])
     (∀ head rest, due → x.history = head :: rest → s.sendRepeat l = s.modLink l (fun y =>
       { y with repeatPending := false, sent := some (.broadcast head) })) ∧
     (due → x.history = [] → s.sendRepeat l = s.modLink l (fun y => { y with repeatPending := false })) ∧
     (¬due → s.sendRepeat l = s))) ∧
  (∀ (l : LinkName) (s : State),
     let x := s.link l
     (∀ a, x.running = true → x.current = some a → exec (.pollTimeout l) s = .next (State.settle
       ((s.modLink l (fun y => { y with current := none })).countUnit l a .miss))) ∧
     ((x.running = false ∨ x.current = none) → exec (.pollTimeout l) s = .next s.settle) ∧
     (let ended : Prop := x.running = true ∧ x.cycleOpen = true ∧ x.toPoll = [] ∧ x.current = none
       let silent : Prop := x.members ≠ [] ∧ x.heardInCycle = false ∧ x.silentReported = false
       (ended → silent → exec (.pollCycleEnd l) s = .next (State.settle
         (((((s.modLink l (fun y => { y with silentReported := true })).notify (.linkSilent l x.members.length)).sendRepeat
           l).modLink l (fun y => { y with cycleOpen := false }))))) ∧
       (ended → ¬silent → exec (.pollCycleEnd l) s = .next (State.settle
         ((s.sendRepeat l).modLink l (fun y => { y with cycleOpen := false })))) ∧
       (¬ended → exec (.pollCycleEnd l) s = .next s.settle))) ∧
  (∀ (l : LinkName) (s : State),
     let x := s.link l
     let code : TimeCode := ⟨s.tme.hall.minute, x.sequence⟩
     let free : Prop := x.running = true ∧ x.current = none
     (free → x.broadcastPending = true → exec (.timeCodeBroadcast l) s = .next (s.modLink l (fun y => { y with
       broadcastPending := false, repeatPending := false, history := (code :: y.history).take 2,
       sequence := (y.sequence + 1) % 4, sent := some (.broadcast code) })).settle) ∧
     (¬(free ∧ x.broadcastPending = true) → exec (.timeCodeBroadcast l) s = .next s.settle) ∧
     (let due : Prop := free ∧ x.repeatPending = true ∧ x.broadcastPending = false ∧ (x.cycleOpen = false ∨ x.toPoll = []);
       (∀ head rest, due → x.history = head :: rest → exec (.timeCodeRepeat l) s = .next (s.modLink l (fun y =>
         { y with repeatPending := false, sent := some (.broadcast head) })).settle) ∧
       (due → x.history = [] → exec (.timeCodeRepeat l) s = .next (s.modLink l (fun y =>
         { y with repeatPending := false })).settle) ∧
       (¬due → exec (.timeCodeRepeat l) s = .next s.settle))) ∧
  ((∀ (s : State) (l : SeatLink) (i : Nat), s.formPoll l.link i = .seatPoll i (match (s.unit l.link i).oneShot with
     | some ⟨.refused code, _⟩ => ⟨.refused code, 0, .none, false⟩
     | some ⟨.goTo j, _⟩ => ⟨.goTo j, 0, .none, false⟩
     | none => s.derivedDisplay i)) ∧
   (∀ (s : State) (i : Nat) (x : Seat), s.seat? i = some x →
     (x.bound = none → s.derivedDisplay i = ⟨.blank, 0, .none, false⟩) ∧
     (∀ c y, x.bound = some c → s.cand? c = some y →
       let k := s.sitting y.sitting
       let finish := k.writing * 60 + y.extension + y.pausedTotal
       let now := if y.state = .paused then y.pauseStart.getD k.clock else k.clock
       let stage := k.warnings.countP (fun w => decide (finish - w * 60 ≤ now))
       let call : CallMark := match (s.callOfSeat i).bind s.call? with
         | none => .none
         | some d => if d.state = .pending then .pending else .inService
       let shows (mode : SeatMode) (warning : Nat) : Prop := s.derivedDisplay i = ⟨mode, warning, call, k.held⟩
       let is (st : SeatState) : Prop := x.state = st ∨ (x.state = .faulted ∧ s.bindingState x = st)
       (is .assigned → shows (.welcome (y.number % 10000)) 0) ∧
       (is .occupied → y.state = .present → k.state ≠ .reading → shows (.welcome (y.number % 10000)) 0) ∧
       (is .occupied → y.state = .present → k.state = .reading →
         shows (.reading ((k.reading * 60 - k.clock + 59) / 60)) 0) ∧
       (is .occupied → y.state = .writing → shows (.writing ((finish - k.clock + 59) / 60)) stage) ∧
       (is .occupied → y.state = .paused → shows .paused stage) ∧
       (is .vacated → shows .finished 0))) ∧
   (∀ (s : State) (x : Seat),
     (x.bound = none → s.bindingState x = if x.heldOrigin = true then .held else .free) ∧
     (∀ c y, x.bound = some c → s.cand? c = some y →
       let seated : Prop := y.state = .present ∨ y.state = .writing ∨ y.state = .paused
       (y.state = .expected ∨ (seated ∧ y.relocating = true) → s.bindingState x = .assigned) ∧
       (seated → y.relocating = false → s.bindingState x = .occupied) ∧
       (y.state = .finished ∨ y.state = .withdrawn → s.bindingState x = .vacated))) ∧
   (∀ (s : State) (l : SeatLink) (i : Nat) (shot : OneShot), i < 384 →
     let set := s.modUnit l.link i (fun u => { u with oneShot := some ⟨shot, 5⟩ })
     let after (n : Nat) : State := (List.range n).foldl (fun t _ => t.spendOneShot l.link i) set
     (∀ n, n < 5 → after n = s.modUnit l.link i (fun u => { u with oneShot := some ⟨shot, 5 - n⟩ })) ∧
     after 5 = s.modUnit l.link i (fun u => { u with oneShot := none }) ∧
     ((s.unit l.link i).oneShot = none → s.spendOneShot l.link i = s)) ∧
   (∀ (s : State) (h : Nat) (note : Note), h < 8 →
     let set := s.modHandset h (fun x => { x with note := some ⟨note, 5⟩ })
     let after (n : Nat) : State := (List.range n).foldl (fun t _ => t.spendNote h) set
     (∀ n, n < 5 → after n = s.modHandset h (fun x => { x with note := some ⟨note, 5 - n⟩ })) ∧
     after 5 = s.modHandset h (fun x => { x with note := none }) ∧
     ((s.handset h).note = none → s.spendNote h = s)) ∧
   (∀ (s : State) (a : Nat),
     (8 ≤ a → a < 12 → s.formPoll .floor a = .stationPoll (a - 8) (s.channel (a - 8)).state
       (if (s.channel (a - 8)).state = .sweep then (s.channel (a - 8)).current else none)) ∧
     (12 ≤ a → s.formPoll .floor a = .clockPoll a s.tme.hall) ∧
     (a < 8 →
       let x := s.handset a
       let shows (w : HandsetShow) : Prop := s.formPoll .floor a = .handsetPoll a ⟨w, x.stack.length, (s.eligibleCalls a).length⟩
       (x.state = .off → s.formPoll .floor a = .handsetPoll a ⟨.none, 0, 0⟩) ∧
       (x.state ≠ .off →
         (∀ p, x.note = some ⟨.none, p⟩ → shows .none) ∧ (∀ p, x.note = some ⟨.cancelled, p⟩ → shows .cancelled) ∧
         (x.note = none → x.stack = [] → shows .none) ∧
         (∀ n d, x.note = none → x.stack.getLast? = some n → s.call? n = some d →
           shows (.call n d.kind d.level (s.callSeat d) d.seat.isNone))))))

/-- The four reply rows and the late one: with no transaction in progress a reply is discarded; one that fails its
check is a miss of the unit polled, and so is one that is not of the kind of the unit polled or holds a code outside
its field's table (what the check looks at is deduced, log 15); one that passes is counted by its echo, closes the
window, and its contents are then taken. What passes the check of R188 and what its payload spells (11.4): a frame of
start byte 0x7E, the address of the unit polled, type REPLY, the payload's length, the payload and the CRC over all
but the start; a seat's payload of 6 bytes, a handset's of 4, a station's of 3 + 8t with t from 0 to 4, a wall clock's
of 1; and in each every code within its table. The CRC is that of 11.2, bit by bit. That a SKIP byte above 1 fails,
and that the bytes of a MISREAD and the operand of NONE and TAKE are not looked at, is deduced (log 15). The contents
of a seat reply are taken unless the seat is FAULTED and not answering, the card before the key (R86); a key is a
raise at the seat, and a refused raise shows REFUSED(CALL) unless the card read set a one-shot (R88). A handset of
FLOOR_UNITS is heard, and its key is taken (R96); that its going AWAY, due and not yet taken, is dropped is the
model's choice (log 40). A station's tags are taken in order, then its SKIP (R97). -/
def Obligations.UnitRepliesAreTaken : Prop :=
  ((∀ (l : SeatLink) (frame : List Byte) (s : State) (a : Nat), (s.link l.link).running = true →
     (s.link l.link).current = some a →
     ((checkedPayload (a % 96) frame).bind seatReplyOf = none →
       exec (.seatReply l frame) s = .next (s.endPoll l.link a .miss).settle) ∧
     (∀ r, (checkedPayload (a % 96) frame).bind seatReplyOf = some r → exec (.seatReply l frame) s = .next (State.settle
       (State.takeSeatReply l.link a r (s.endPoll l.link a ((s.link l.link).echoOutcome r.echo)))))) ∧
   (∀ (frame : List Byte) (s : State) (a : Nat), (s.link .floor).running = true → (s.link .floor).current = some a →
     (∀ r, a < 8 → (checkedPayload a frame).bind handsetReplyOf = some r → exec (.handsetReply frame) s = .next (State.settle
       (State.takeHandsetReply a r (s.endPoll .floor a ((s.link .floor).echoOutcome r.2))))) ∧
     (∀ r, 8 ≤ a → a < 12 → (checkedPayload a frame).bind stationReplyOf = some r → exec (.stationReply frame) s =
       .next (State.settle (State.takeStationReply a r (s.endPoll .floor a ((s.link .floor).echoOutcome r.echo))))) ∧
     (∀ e, 12 ≤ a → (checkedPayload a frame).bind clockReplyOf = some e →
       exec (.wallClockReply frame) s = .next (s.endPoll .floor a ((s.link .floor).echoOutcome e)).settle) ∧
     (8 ≤ a ∨ (checkedPayload a frame).bind handsetReplyOf = none →
       exec (.handsetReply frame) s = .next (s.endPoll .floor a .miss).settle) ∧
     (a < 8 ∨ 12 ≤ a ∨ (checkedPayload a frame).bind stationReplyOf = none →
       exec (.stationReply frame) s = .next (s.endPoll .floor a .miss).settle) ∧
     (a < 12 ∨ (checkedPayload a frame).bind clockReplyOf = none →
       exec (.wallClockReply frame) s = .next (s.endPoll .floor a .miss).settle)) ∧
   (∀ (l : SeatLink) (frame : List Byte) (s : State), ((s.link l.link).running = false ∨ (s.link l.link).current = none) →
     exec (.seatReply l frame) s = .next s.settle) ∧
   (∀ (frame : List Byte) (s : State), ((s.link .floor).running = false ∨ (s.link .floor).current = none) →
     exec (.handsetReply frame) s = .next s.settle ∧ exec (.stationReply frame) s = .next s.settle ∧
       exec (.wallClockReply frame) s = .next s.settle) ∧
   (∀ (l : LinkName) (frame : List Byte) (s : State), exec (.lateUnitReply l frame) s = .next s.settle)) ∧
  ((∀ (a : Nat) (frame payload : List Byte), checkedPayload a frame = some payload ↔
     payload.length < 256 ∧ ∃ addr : Byte, addr.toNat = a ∧
       (let covered := [addr, 0x81#8, BitVec.ofNat 8 payload.length] ++ payload
       frame = [0x7E#8] ++ covered ++ crcBytes covered)) ∧
   (∀ (p : List Byte) (r : SeatReply), seatReplyOf p = some r ↔ ∃ c3 c2 c1 c0 key : Byte,
     p = [c3, c2, c1, c0, key, r.echo] ∧ r.card = ((c3.toNat * 256 + c2.toNat) * 256 + c1.toNat) * 256 + c0.toNat ∧
     ((key = 0#8 ∧ r.key = none) ∨ (key = 1#8 ∧ r.key = some .query) ∨ (key = 2#8 ∧ r.key = some .supply) ∨
       (key = 3#8 ∧ r.key = some .escort) ∨ (key = 4#8 ∧ r.key = some .rest))) ∧
   (∀ (p : List Byte) (k : HandsetKey) (echo : Byte), handsetReplyOf p = some (k, echo) ↔ ∃ key a1 a0 : Byte,
     p = [key, a1, a0, echo] ∧
     (let n := a1.toNat * 256 + a0.toNat
     (key = 0#8 ∧ k = .none) ∨ (key = 1#8 ∧ k = .take) ∨
       (key = 2#8 ∧ k = .done (if n = 0xFFFF then none else some n)) ∨ (key = 3#8 ∧ k = .alert n))) ∧
   (∀ (p : List Byte) (r : StationReply), stationReplyOf p = some r ↔ ∃ (t skip : Byte) (body : List Byte),
     p = [t] ++ body ++ [skip, r.echo] ∧ t.toNat = r.reads.length ∧ t.toNat ≤ 4 ∧ body.length = 8 * t.toNat ∧
     ((skip = 0#8 ∧ r.skip = false) ∨ (skip = 1#8 ∧ r.skip = true)) ∧
     ∀ n g, r.reads[n]? = some g → ∃ status n3 n2 n1 n0 sitting sequence check : Byte,
       (body.drop (8 * n)).take 8 = [status, n3, n2, n1, n0, sitting, sequence, check] ∧
       ((status = 1#8 ∧ g = none) ∨ (status = 0#8 ∧ g = some
         ⟨BitVec.ofNat 32 (((n3.toNat * 256 + n2.toNat) * 256 + n1.toNat) * 256 + n0.toNat), sitting, sequence, check⟩))) ∧
   (∀ (p : List Byte) (echo : Byte), clockReplyOf p = some echo ↔ p = [echo]) ∧
   (let shift (c : Half) : Half := if c.getLsbD 15 = true then (c <<< 1) ^^^ 0x1021#16 else c <<< 1
   ∀ bytes : List Byte,
     let crc : Half := bytes.foldl (fun c b => (List.range 8).foldl (fun d _ => shift d) (c ^^^ (b ++ 0#8))) 0xFFFF#16
     crcBytes bytes = [crc.extractLsb' 8 8, crc.extractLsb' 0 8])) ∧
  ((∀ (s : State) (l : SeatLink) (i : Nat) (r : SeatReply) (x : Seat), s.seat? i = some x →
     (x.state = .faulted → x.answering = false → State.takeSeatReply l.link i r s = s) ∧
     (x.state ≠ .faulted ∨ x.answering = true →
       let s1 := if r.card = 0 then s else s.checkIn l.link i r.card
       (r.key = none → State.takeSeatReply l.link i r s = s1) ∧
       (∀ kind, r.key = some kind →
         (∀ n, (s1.raise i kind none).2 = .accepted n → State.takeSeatReply l.link i r s = (s1.raise i kind none).1) ∧
         ((∀ n, (s1.raise i kind none).2 ≠ .accepted n) →
           State.takeSeatReply l.link i r s = if r.card ≠ 0 ∧ (s.cardOutcome i r.card).shows = true then s1
             else s1.modUnit l.link i (fun u => { u with oneShot := some ⟨.refused .call, 5⟩ }))))) ∧
   (∀ (s : State) (a : Nat) (r : HandsetKey × Byte),
     (s.cli.params.floorUnits.getLsbD a = false → State.takeHandsetReply a r s = s) ∧
     (s.cli.params.floorUnits.getLsbD a = true →
       let s1 := s.modHandset a (fun x => { x with
         timer := 0, awayDue := false, state := if x.state = .away then .active else x.state })
       State.takeHandsetReply a r s = match r.1 with
         | .none => s1
         | .take => s1.take a
         | .done id => s1.doneCall a id
         | .alert i => (s1.raise i .alert (some a)).1)) ∧
   (∀ (s : State) (a : Nat) (r : StationReply),
     (s.cli.params.floorUnits.getLsbD a = false → State.takeStationReply a r s = s) ∧
     (s.cli.params.floorUnits.getLsbD a = true →
       let s1 := r.reads.foldl (fun t g => State.tagRead (a - 8) g t) s
       State.takeStationReply a r s = if r.skip = true then s1.skip (a - 8) else s1)))

/-- The end of a transaction: the outcome closes the link's window, and a reply that passed its check is remembered
for the cycle and clears the silent-reported mark (R92), an unset one marking a repeat pending (R94). The runs of a
unit after an outcome (R83), and what they call for. A seat unit: a miss clears the answering flag of a FAULTED seat,
a good run that reaches 3 sets it, and a miss run or invalid-echo run that reaches 3 makes the seat FAULTED with its
notice and the relocation asked for (R7, R8, R89, R90). A floor unit: a run that reaches 3 sets its floor fault, when
it has none, and a good run that reaches 3 clears the one it has, each with its UNIT_FAULT notice (R91). An answering
claim writes that flag of a FAULTED seat and nothing else, and the candidate bound to a seat is the one in the slot
its record names (R3). -/
def Obligations.OutcomesCountAndFault : Prop :=
  (∀ u : UnitRec,
    u.count .miss = { u with missRun := u.missRun + 1, goodRun := 0 } ∧
    u.count .good = { u with missRun := 0, staleRun := 0, goodRun := min 3 (u.goodRun + 1) } ∧
    u.count .stale = { u with missRun := 0, staleRun := u.staleRun + 1, goodRun := 0 } ∧
    u.count .unset = { u with missRun := 0, goodRun := 0 }) ∧
  (∀ (x : Link) (echo : Byte),
    (echo = 0xFF#8 → x.echoOutcome echo = .unset) ∧
    (echo ≠ 0xFF#8 → (⟨echo.toNat % 64, echo.toNat / 64⟩ : TimeCode) ∈ x.history → x.echoOutcome echo = .good) ∧
    (echo ≠ 0xFF#8 → (⟨echo.toNat % 64, echo.toNat / 64⟩ : TimeCode) ∉ x.history → x.echoOutcome echo = .stale)) ∧
  (∀ (s : State) (i : Nat) (x : Seat) (kind : FaultKind), s.seat? i = some x →
    (x.state = .faulted ∨ x.state = .absent → s.faultClaim i kind = s) ∧
    (x.state ≠ .faulted → x.state ≠ .absent →
      let s1 := (s.modSeat i (fun y => { y with
          state := .faulted, fault := some kind, answering := false, heldOrigin := (x.state == .held) })).notify
        (.seatFault i kind ((s.boundTo i).map (fun b => (b.1, b.2.number))))
      (∀ c y, s.boundTo i = some (c, y) →
        (y.state = .expected ∨ y.state = .present ∨ y.state = .writing ∨ y.state = .paused) →
        s.faultClaim i kind = { s1 with sal.relocations := s.sal.relocations ++ [(c, i)] }) ∧
      ((s.boundTo i = none ∨ ∃ c y, s.boundTo i = some (c, y) ∧ y.state ≠ .expected ∧ y.state ≠ .present ∧
          y.state ≠ .writing ∧ y.state ≠ .paused) → s.faultClaim i kind = s1))) ∧
  (∀ (s : State) (i : Nat) (v : Bool),
    s.answeringClaim i v = s.modSeat i (fun x => if x.state = .faulted then { x with answering := v } else x) ∧
    (∀ x, s.seat? i = some x →
      (s.answeringClaim i v).seat? i = some (if x.state = .faulted then { x with answering := v } else x)) ∧
    (∀ j, j ≠ i → (s.answeringClaim i v).seat? j = s.seat? j)) ∧
  (∀ (s : State) (i c : Nat) (y : Candidate),
    s.boundTo i = some (c, y) ↔ (∃ x, s.seat? i = some x ∧ x.bound = some c) ∧ s.cand? c = some y) ∧
  (∀ (s : State) (l : SeatLink) (i : Nat) (o : PollOutcome),
    let v := (s.unit l.link i).count o
    let s1 := s.modUnit l.link i (fun _ => { v with
      missRun := if 3 ≤ v.missRun then 0 else v.missRun, staleRun := if 3 ≤ v.staleRun then 0 else v.staleRun })
    let s2 := if o = .miss then s1.answeringClaim i false
      else if (s.unit l.link i).goodRun < 3 ∧ v.goodRun = 3 then s1.answeringClaim i true else s1
    s.countUnit l.link i o = if 3 ≤ v.missRun then s2.faultClaim i .silent
      else if 3 ≤ v.staleRun then s2.faultClaim i .clock else s2) ∧
  (∀ (s : State) (l : LinkName) (a : Nat) (o : PollOutcome), s.endPoll l a o =
    (s.modLink l (fun x => { x with
      current := none
      heardInCycle := x.heardInCycle || decide (o ≠ .miss)
      silentReported := x.silentReported && decide (o = .miss)
      repeatPending := x.repeatPending || decide (o = .unset) })).countUnit l a o) ∧
  (∀ (s : State) (a : Nat) (o : PollOutcome),
    let u := s.unit .floor a
    let v := u.count o
    let w : UnitRec := { v with
      missRun := if 3 ≤ v.missRun then 0 else v.missRun, staleRun := if 3 ≤ v.staleRun then 0 else v.staleRun }
    let called : Option FaultKind := if 3 ≤ v.missRun then some .silent else if 3 ≤ v.staleRun then some .clock else none
    let kind : UnitKind := if a < 8 then .handset else if a < 12 then .station else .clock
    let recovers : Prop := u.goodRun < 3 ∧ v.goodRun = 3
    (∀ k, called = some k → u.floorFault = none → s.countUnit .floor a o =
      (s.modUnit .floor a (fun _ => { w with floorFault := some k })).notify (.unitFault a kind (some k))) ∧
    (called = none → u.floorFault ≠ none → recovers → s.countUnit .floor a o =
      (s.modUnit .floor a (fun _ => { w with floorFault := none })).notify (.unitFault a kind none)) ∧
    ((called ≠ none ∧ u.floorFault ≠ none) ∨ (called = none ∧ (u.floorFault = none ∨ ¬recovers)) →
      s.countUnit .floor a o = s.modUnit .floor a (fun _ => w)))

/-- A card read, by the rows of R87's table, and which of them show a one-shot (R88). The model's choices: a row that
checks a candidate in leaves a one-shot still standing at the seat (log 35), and the card of an active candidate that
does not wait and has no seat, which no run reaches, is refused as UNKNOWN (log 29). -/
def Obligations.CardReadByTable : Prop :=
  ∀ (s : State) (l : SeatLink) (i number : Nat),
    let shown (o : OneShot) : State := s.modUnit l.link i (fun u => { u with oneShot := some ⟨o, 5⟩ })
    let occupied (u : State) : State := u.modSeat i (fun x => if x.state = .assigned then { x with state := .occupied } else x)
    (s.activeSlot number = none → s.checkIn l.link i number =
      (shown (.refused .unknown)).notify (.checkinRefused i number .unknown)) ∧
    (∀ c y, s.activeSlot number = some c → s.cand? c = some y →
      let k := s.sitting y.sitting
      (y.state = .waiting → s.checkIn l.link i number =
        (shown (.refused .noSeat)).notify (.checkinRefused i number .noSeat)) ∧
      (y.state ≠ .waiting → y.bound = none → s.checkIn l.link i number =
        (shown (.refused .unknown)).notify (.checkinRefused i number .unknown)) ∧
      (∀ b, y.state ≠ .waiting → y.bound = some b → b ≠ i → s.checkIn l.link i number =
        (shown (.goTo b)).notify (.wrongSeat i number c (some b))) ∧
      (y.state = .expected → y.bound = some i →
        ((k.state = .defined ∨ k.state = .armed ∨ k.state = .reading) → s.checkIn l.link i number =
          (occupied (s.modCand c (fun z => { z with state := .present, checkIn := some s.tme.hall, issued := 1 }))).notify
            (.checkin i c y.number y.sitting .onTime s.tme.hall)) ∧
        (k.state = .writing → k.clock < k.cutoff * 60 → s.checkIn l.link i number =
          ((occupied ((s.modCand c (fun z => { z with
            lateAdmit := true, checkIn := some s.tme.hall, issued := 1 })).beginWriting c)).notify
              (.checkin i c y.number y.sitting .late s.tme.hall)).fireInserted y.sitting) ∧
        ((k.state = .empty ∨ k.state = .extended ∨ k.state = .collecting ∨ k.state = .closed ∨
            (k.state = .writing ∧ k.cutoff * 60 ≤ k.clock)) → s.checkIn l.link i number =
          (shown (.refused .unknown)).notify (.checkinRefused i number .unknown))) ∧
      ((y.state = .present ∨ y.state = .writing ∨ y.state = .paused) → y.bound = some i →
        (y.relocating = true → s.checkIn l.link i number =
          (occupied (s.modCand c (fun z => { z with relocating := false }))).notify
            (.checkin i c y.number y.sitting .relocated s.tme.hall)) ∧
        (y.relocating = false → s.checkIn l.link i number = s))) ∧
    ((s.cardOutcome i number).shows = true ↔ s.activeSlot number = none ∨
      ∃ c y, s.activeSlot number = some c ∧ s.cand? c = some y ∧
        (let k := s.sitting y.sitting
        y.state = .waiting ∨ y.bound ≠ some i ∨ (y.state = .expected ∧ ¬(k.state = .defined ∨ k.state = .armed ∨
          k.state = .reading ∨ (k.state = .writing ∧ k.clock < k.cutoff * 60)))))

/-! ### Script collection -/

/-- ISSUE_BOOKLET: its refusals in their order; otherwise the issued count rises by one and the reply gives it. -/
def Obligations.IssueBookletCountsOne : Prop :=
  ∀ (slot : Half) (s : State), s.listening = true →
    let c := slot.toNat
    (512 ≤ c → exec (.issueBooklet slot) s = s.toHunt.replied 0x24 (badArgument 1)) ∧
    (c < 512 → s.cand? c = none → exec (.issueBooklet slot) s = s.toHunt.replied 0x24 notFound) ∧
    (∀ y, c < 512 → s.cand? c = some y →
      let seated : Prop := y.state = .present ∨ y.state = .writing ∨ y.state = .paused
      (¬seated → exec (.issueBooklet slot) s =
        s.toHunt.replied 0x24 (refuse .refusedState .none (.candState y.state))) ∧
      (seated → 8 ≤ y.issued → exec (.issueBooklet slot) s = s.toHunt.replied 0x24 (refuse .full)) ∧
      (seated → y.issued < 8 → exec (.issueBooklet slot) s =
        (s.toHunt.modCand c (fun z => { z with issued := z.issued + 1 })).replied 0x24 (ok (.issued c (y.issued + 1)))))

/-- TAKE_EXCEPTIONS removes the oldest entries, up to the count, and the reply gives them and the number left. -/
def Obligations.TakeExceptionsRemovesOldest : Prop :=
  ∀ (count : Byte) (s : State), s.listening = true →
    (1 ≤ count.toNat → count.toNat ≤ 32 → exec (.takeExceptions count) s = State.replied
      { s.toHunt with scu.exceptions := s.scu.exceptions.drop count.toNat } 0x25
      (ok (.exceptions (s.scu.exceptions.take count.toNat) (s.scu.exceptions.length - count.toNat)))) ∧
    (count.toNat = 0 ∨ 32 < count.toNat → exec (.takeExceptions count) s = s.toHunt.replied 0x25 (badArgument 1))

/-- START_SWEEP and STOP_SWEEP: a channel that is not IDLE is busy; with DESK it takes no seats; with SWEEP its first
seat is the start when that needs collection, else the first that does in the step direction up to the end; with none
the sweep is done at once, with its notice; a stop ends the order with its notice and the counts. What a GOOD read
must be to be taken (R122, 11.6): its check byte is 255 less the sum of the six bytes before it modulo 256, its number
is 1 to 99 999 999, its sitting 0 to 7 and its sequence number 1 to 8. A tag read and a SKIP (R122 to R124, R130,
R133): a SWEEP channel first leaves a seat that no longer needs collection; a read that fails its checks, one with no
record, one above the issue and one collected already add their exception and record nothing; otherwise the sequence
number joins the collected set with the station. A SKIP at a SWEEP channel adds MISSING, counts and moves on. A tag
that is recorded, whole (R124, R132, R125): after the channel has left a seat that no longer needs collection, the
sequence number joins the collected set with the station; EARLY is added for a candidate not finished; at a SWEEP
channel a candidate of another seat adds OUT_OF_ORDER and counts; and a closed candidate whose collection is complete
is unbound, with a retry pass when its seat became FREE and a look at every channel. A channel advance (R130): the
next seat in the step direction, up to the end, that needs collection becomes the current one, or the sweep is done
with its notice. -/
def Obligations.SweepsTagsAndSkips : Prop :=
  (∀ (b mode : Byte) (start finish : Half) (step' : Byte) (s : State), s.listening = true → b.toNat < 4 →
     let k := b.toNat
     let x := s.channel k
     let answered (u : State) (a : Answer) : Prop := exec (.startSweep b mode start finish step') s = u.replied 0x26 a
     (mode = 2#8 → (x.state ≠ .idle → answered s.toHunt (refuse .busy .none (.channelState x.state))) ∧
       (x.state = .idle → answered
         (s.toHunt.modChannel k (fun _ => ⟨.desk, none, none, none, none, 0, 0, 0⟩)) (ok .none))) ∧
     (∀ st, mode = 1#8 → start.toNat < 384 → finish.toNat < 384 → strideOf step' = some st →
       stepLeads st start.toNat finish.toNat = true →
       let first := (start.toNat :: seatsAfter st start.toNat finish.toNat).find? s.needsCollection
       let begun (c : Option Nat) : Channel := ⟨.sweep, some start.toNat, some finish.toNat, some st, c, 0, 0, 0⟩
       (x.state ≠ .idle → answered s.toHunt (refuse .busy .none (.channelState x.state))) ∧
       (∀ i, x.state = .idle → first = some i → answered (s.toHunt.modChannel k (fun _ => begun (some i)))
         (ok (.sweepStarted (some i)))) ∧
       (x.state = .idle → first = none → answered
         ((s.toHunt.modChannel k (fun _ => { begun none with state := .idle })).notify
           (.sweepDone k .sweep false (some start.toNat) (some finish.toNat) (some st) none 0 0 0))
         (ok (.sweepStarted none)))) ∧
     (x.state = .idle → exec (.stopSweep b) s = s.toHunt.replied 0x27 (refuse .refusedState)) ∧
     (x.state ≠ .idle → exec (.stopSweep b) s =
       ((s.toHunt.modChannel k (fun y => { y with state := .idle, current := none })).notify
         (.sweepDone k x.state true x.start x.finish x.stride (if x.state = .sweep then x.current else none) x.completed
           x.skipped x.outOfOrder)).replied 0x27 (ok (.sweepCounts x.completed x.skipped x.outOfOrder)))) ∧
  (∀ (t : Tag) (n3 n2 n1 n0 : Byte),
     t.number.toNat = ((n3.toNat * 256 + n2.toNat) * 256 + n1.toNat) * 256 + n0.toNat →
     (t.valid = true ↔
       t.check.toNat = 255 - (n3.toNat + n2.toNat + n1.toNat + n0.toNat + t.sitting.toNat + t.sequence.toNat) % 256 ∧
       1 ≤ t.number.toNat ∧ t.number.toNat ≤ 99999999 ∧ t.sitting.toNat < 8 ∧ 1 ≤ t.sequence.toNat ∧ t.sequence.toNat ≤ 8)) ∧
  (∀ (s : State) (k : Nat), k < 4 →
     let s1 := s.advanceIfDone k
     (State.tagRead k none s = s1.addException .misread k none none) ∧
     (∀ t : Tag, t.valid = false → State.tagRead k (some t) s = s1.addException .misread k (some t) none) ∧
     (∀ t : Tag, t.valid = true →
       (s.lookup t.number.toNat (some t.sitting.toNat) = none →
         State.tagRead k (some t) s = s1.addException .unknown k (some t) none) ∧
       (∀ c y, s.lookup t.number.toNat (some t.sitting.toNat) = some c → s.cand? c = some y →
         (y.issued < t.sequence.toNat → State.tagRead k (some t) s = s1.addException .overIssue k (some t) y.seat) ∧
         (t.sequence.toNat ≤ y.issued → y.collected.getLsbD (t.sequence.toNat - 1) = true →
           State.tagRead k (some t) s = s1.addException .duplicate k (some t) y.seat) ∧
         (t.sequence.toNat ≤ y.issued → y.collected.getLsbD (t.sequence.toNat - 1) = false →
           ∃ z, (State.tagRead k (some t) s).cand? c = some z ∧ z.lastStation = some k ∧
             (∀ n, z.collected.getLsbD n = (y.collected.getLsbD n || decide (n + 1 = t.sequence.toNat))) ∧
             z = { y with collected := z.collected, lastStation := z.lastStation, bound := z.bound } ∧
             ((y.state = .finished ∨ y.state = .absent ∨ y.state = .withdrawn) → z.collectedCount = y.issued →
               z.bound = none) ∧
             (z.collectedCount ≠ y.issued → z.bound = y.bound)))) ∧
     ((s1.channel k).state ≠ .sweep → s.skip k = s1) ∧
     ((s1.channel k).state = .sweep → s.skip k = ((s1.addException .missing k none (s1.channel k).current).modChannel k
       (fun x => { x with skipped := x.skipped + 1 })).advance k)) ∧
  ((∀ (s : State) (k c : Nat) (t : Tag) (y : Candidate), k < 4 → t.valid = true →
     s.lookup t.number.toNat (some t.sitting.toNat) = some c → s.cand? c = some y → t.sequence.toNat ≤ y.issued →
     y.collected.getLsbD (t.sequence.toNat - 1) = false →
     let n := t.sequence.toNat - 1
     let cur := ((s.advanceIfDone k).channel k).current
     let inOrder : Prop := ((s.advanceIfDone k).channel k).state ≠ .sweep ∨ y.bound = cur ∨ y.finish = cur
     let early : Prop := y.state = .present ∨ y.state = .writing ∨ y.state = .paused
     let complete : Prop := (y.state = .finished ∨ y.state = .absent ∨ y.state = .withdrawn) ∧
       countBits (y.collected ||| 1#8 <<< n) = y.issued
     let s1 := (s.advanceIfDone k).modCand c (fun x => { x with
       collected := x.collected ||| 1#8 <<< n, lastStation := some k })
     let s2 := if early then s1.addException .early k (some t) y.seat else s1
     let s3 := if inOrder then s2 else (s2.addException .outOfOrder k (some t) y.seat).modChannel k (fun x => { x with
       outOfOrder := if x.outOfOrder < 65535 then x.outOfOrder + 1 else 65535 })
     let r := s3.clearBinding c
     State.tagRead k (some t) s = if complete then
       [0, 1, 2, 3].foldl (fun u m => u.advanceIfDone m) (r.1.askRetryIf r.2) else s3) ∧
   (∀ (s : State) (k : Nat), k < 4 →
     let x := s.channel k
     let left : Prop := x.state = .sweep ∧ ∃ i, x.current = some i ∧ s.needsCollection i = false
     (¬left → s.advanceIfDone k = s) ∧
     (left → s.advanceIfDone k = (s.modChannel k (fun y => { y with completed := y.completed + 1 })).advance k) ∧
     (∀ st i e, x.stride = some st → x.current = some i → x.finish = some e →
       (∀ j, (seatsAfter st i e).find? s.needsCollection = some j →
         s.advance k = s.modChannel k (fun y => { y with current := some j })) ∧
       ((seatsAfter st i e).find? s.needsCollection = none → s.advance k =
         (s.modChannel k (fun y => { y with state := .idle, current := none })).notify
           (.sweepDone k x.state false x.start x.finish x.stride none x.completed x.skipped x.outOfOrder)))) ∧
   (∀ i e j : Nat, i < 384 → e < 384 →
     (j ∈ seatsAfter .right i e ↔ i < j ∧ j ≤ e) ∧ (j ∈ seatsAfter .left i e ↔ j < i ∧ e ≤ j) ∧
     (j ∈ seatsAfter .down i e ↔ i < j ∧ j ≤ e ∧ j % 16 = i % 16) ∧
     (j ∈ seatsAfter .up i e ↔ j < i ∧ e ≤ j ∧ j % 16 = i % 16) ∧
     (seatsAfter .right i e).Pairwise (· < ·) ∧ (seatsAfter .down i e).Pairwise (· < ·) ∧
     (seatsAfter .left i e).Pairwise (· > ·) ∧ (seatsAfter .up i e).Pairwise (· > ·)) ∧
   (∀ (s : State) (i : Nat), s.needsCollection i = true ↔ ∃ c y, s.boundTo i = some (c, y) ∧
     (y.state = .finished ∨ y.state = .withdrawn) ∧ y.collectedCount < y.issued))

/-! ### The sheet reader port -/

/-- SHEET_FRAME_END takes its bytes one after another, and after each the transmitters begin what they may (log 11):
while RRDY is deasserted they are discarded; in HUNT only the start marker begins a frame; in DRAIN they are discarded
with the frame; in ASSEMBLE the byte that ends the frame ends it with its fault or none, and the assembler is then in
DRAIN after LENGTH and HEADER and in HUNT otherwise. The end of a frame is one event (R143, R144): the counts and the
last fault are recorded; an unaddressed frame goes no further; an addressed one is a stray unless the batch is ACTIVE,
with a REJECT verdict and its notice; in an ACTIVE batch a fault is reported to the Marking Engine and rejected. Which
byte ends a frame, and how (R141, R143): with the feed sequence in, a count outside 1 to 15 ends it by HEADER; the
last byte of the ID block ends it by LENGTH when the form is above 3; the last byte of the trailer ends it by LENGTH
when it is no end marker, by CHECK when the checksum over the ID block and the rows differs, and well formed
otherwise; no other byte ends it. What the bytes of a frame after its start marker spell (R141, R146): the count, the
feed sequence, up to three further transport bytes as far as the count includes them, the ID block of six bytes after
the header, and a row for each of the form's bytes, bits 0 to 4 its options, bits 5 and 6 its quality with the fourth
code UNREADABLE, bit 7 its erasure mark (11.5). FRAME_GAP_TIMEOUT and RRDY_CHANGE: the gap ends a frame in ASSEMBLE
with LENGTH, and the fall of RRDY with TORN, or with HEADER when its count is faulty; a frame in DRAIN is discarded;
the level of RRDY is the pin's. -/
def Obligations.SheetFramesAreAssembled : Prop :=
  ((∀ s : State, exec (.sheetFrameEnd []) s = .next s.settle) ∧
   (∀ (b : Byte) (run : List Byte) (s : State),
     exec (.sheetFrameEnd (b :: run)) s = .next
       (run.foldl (fun t c => (t.takeSheetByte c).settle) (s.takeSheetByte b).settle)) ∧
   (∀ (b : Byte) (s : State),
     let put (a : Assembler) : State := { s with srp.assembler := a }
     (s.srp.rrdy = false → s.takeSheetByte b = s) ∧
     (s.srp.rrdy = true →
       (s.srp.assembler = .hunt → s.takeSheetByte b = if b = 0x5B#8 then put (.assemble []) else s) ∧
       (∀ taken, s.srp.assembler = .drain taken → s.takeSheetByte b = put (.drain (taken ++ [b]))) ∧
       (∀ taken, s.srp.assembler = .assemble taken → progress (taken ++ [b]) = .more →
         s.takeSheetByte b = put (.assemble (taken ++ [b]))) ∧
       (∀ taken f, s.srp.assembler = .assemble taken → progress (taken ++ [b]) = .ended f → s.takeSheetByte b =
         { s.endSheetFrame (taken ++ [b]) f with
           srp.assembler := if f = some .length ∨ f = some .header then .drain (taken ++ [b]) else .hunt })))) ∧
  (∀ (s : State) (taken : List Byte) (f : Option FrameFault),
     let top (n : Nat) : Nat := if n < 65535 then n + 1 else 65535
     let n := s.srp.counts
     let recorded : State := { s with
       srp.counts :=
         { ended := top n.ended
           wellFormed := if f = none then top n.wellFormed else n.wellFormed
           check := if f = some .check then top n.check else n.check
           length := if f = some .length then top n.length else n.length
           header := if f = some .header then top n.header else n.header
           torn := if f = some .torn then top n.torn else n.torn
           stray := n.stray
           unaddressed := if taken.length < 2 then top n.unaddressed else n.unaddressed
           sent := n.sent
           lost := n.lost }
       srp.lastFault := match f with
         | some k => some ⟨k, taken[1]?, s.tme.hall⟩
         | none => s.srp.lastFault }
     (taken.length < 2 → s.endSheetFrame taken f = recorded) ∧
     (∀ feed, taken[1]? = some feed →
       (s.mke.batch.state ≠ .active → s.endSheetFrame taken f =
         ((({ recorded with srp.counts.stray := top n.stray } : State).formVerdict feed .reject).notify
           (.straySheet feed f (idBlockOf taken) s.mke.batch.state s.tme.hall))) ∧
       (∀ k, s.mke.batch.state = .active → f = some k →
         s.endSheetFrame taken f = recorded.takeFaultReport.formVerdict feed .reject) ∧
       (∀ h id, s.mke.batch.state = .active → f = none → taken[0]? = some h → idBytes taken = some id →
         (∀ u bin, recorded.takeSheet (sheetOf h id taken) = (u, some bin) →
           s.endSheetFrame taken f = u.formVerdict feed bin) ∧
         (∀ u, recorded.takeSheet (sheetOf h id taken) = (u, none) → s.endSheetFrame taken f = u)))) ∧
  (∀ taken : List Byte,
     (taken.length < 2 → progress taken = .more) ∧
     (∀ (h feed : Byte) (rest : List Byte), taken = h :: feed :: rest →
       let header := 4 * ((h.toNat + 4) / 4)
       ((h.toNat = 0 ∨ 15 < h.toNat) → progress taken = .ended (some .header)) ∧
       (1 ≤ h.toNat → h.toNat ≤ 15 →
         (taken.length < header + 6 → progress taken = .more) ∧
         (∀ form, taken[header + 5]? = some form →
           let rows := 40 * (form.toNat + 1)
           let last := header + 6 + rows + 2
           (3 < form.toNat → progress taken = .ended (some .length)) ∧
           (form.toNat ≤ 3 → taken.length ≤ last → progress taken = .more) ∧
           (∀ b, form.toNat ≤ 3 → taken[last]? = some b →
             (b ≠ 0x5D#8 → progress taken = .ended (some .length)) ∧
             (b = 0x5D#8 → progress taken = .ended
               (if (taken.drop (header + 6 + rows)).take 2 = crcBytes ((taken.drop header).take (6 + rows)) then none
                 else some .check))))))) ∧
  ((∀ taken : List Byte, feedOf taken = taken[1]? ∧
     (headerFault taken = true ↔ ∃ h, taken[0]? = some h ∧ (h.toNat = 0 ∨ 15 < h.toNat))) ∧
   (∀ (h feed n3 n2 n1 n0 sitting form : Byte) (rest before after : List Byte),
     let header := 4 * ((h.toNat + 4) / 4)
     let taken := h :: feed :: rest
     let number := ((n3.toNat * 256 + n2.toNat) * 256 + n1.toNat) * 256 + n0.toNat
     let id := [n3, n2, n1, n0, sitting, form]
     1 ≤ h.toNat → h.toNat ≤ 15 → taken = before ++ id ++ after → before.length = header →
       idBytes taken = some id ∧ idBlockOf taken = some (number, sitting.toNat) ∧
       (form.toNat ≤ 3 → sheetOf h id taken =
         { number := number
           sitting := sitting.toNat
           form := form.toNat
           rows := (after.take (40 * (form.toNat + 1))).map (fun b =>
             { options := b.extractLsb' 0 5
               quality := if b.extractLsb' 5 2 = 0#2 then .clean else if b.extractLsb' 5 2 = 1#2 then .corrected else .unreadable
               erased := b.getLsbD 7 })
           feed := feed
           further := rest.take (min 3 (h.toNat - 1)) })) ∧
   (∀ (h : Byte) (taken : List Byte), taken[0]? = some h →
     (h.toNat = 0 ∨ 15 < h.toNat ∨ taken.length < 4 * ((h.toNat + 4) / 4) + 6) → idBytes taken = none ∧ idBlockOf taken = none)) ∧
  (∀ s : State,
     let cut (u : State) (f : FrameFault) : State := match u.srp.assembler with
       | .hunt => u
       | .drain _ => { u with srp.assembler := .hunt }
       | .assemble taken => { u.endSheetFrame taken (some (if headerFault taken = true then .header else f)) with
           srp.assembler := .hunt }
     exec .frameGapTimeout s = .next (cut s .length).settle ∧
     (∀ level, (s.srp.rrdy = false ∨ level = true) →
       exec (.rrdyChange level) s = .next ({ s with srp.rrdy := level } : State).settle) ∧
     (s.srp.rrdy = true → exec (.rrdyChange false) s = .next (cut { s with srp.rrdy := false } .torn).settle))

/-- A verdict joins the tail of the verdict list when it holds fewer than four, and is dropped and counted otherwise;
VERDICT_SENT removes the head and counts it; with no VERDICT on the line nothing happens (R148, log 3). A notice joins
the tail of the queue with the hall time; the one that finds 64 there is dropped and NOTICES_LOST is set; an exception
likewise with EXCEPTIONS_LOST (R127, R178). -/
def Obligations.VerdictsNoticesAndExceptionsQueue : Prop :=
  (∀ s : State,
     let top (n : Nat) : Nat := if n < 65535 then n + 1 else 65535
     (∀ feed bin, s.srp.verdicts.length < 4 →
       s.formVerdict feed bin = { s with srp.verdicts := s.srp.verdicts ++ [⟨feed, bin⟩] }) ∧
     (∀ feed bin, 4 ≤ s.srp.verdicts.length →
       s.formVerdict feed bin = { s with srp.counts.lost := top s.srp.counts.lost }) ∧
     (s.srp.verdictSending = true → exec .verdictSent s = .next ({ s with
       srp.verdicts := s.srp.verdicts.tail
       srp.verdictSending := false
       srp.counts.sent := top s.srp.counts.sent } : State).settle) ∧
     (s.srp.verdictSending = false → exec .verdictSent s = .next s.settle)) ∧
  (∀ s : State,
     (∀ b, s.cli.notices.length < 64 → s.notify b = { s with cli.notices := s.cli.notices ++ [⟨s.tme.hall, b⟩] }) ∧
     (∀ b, 64 ≤ s.cli.notices.length → s.notify b = { s with cli.flags.noticesLost := true }) ∧
     (∀ kind station tag seat, s.scu.exceptions.length < 64 → s.addException kind station tag seat =
       { s with scu.exceptions := s.scu.exceptions ++ [⟨kind, station, tag, seat, s.tme.hall⟩] }) ∧
     (∀ kind station tag seat, 64 ≤ s.scu.exceptions.length → s.addException kind station tag seat =
       { s with cli.flags.exceptionsLost := true }))

/-! ### Marking -/

/-- The key edits: an edit of the key of a batch that is not IDLE is busy; KEY_BEGIN makes the key LOADING with no
question defined; KEY_PART defines a run of a LOADING key; KEY_END makes a LOADING key with every question defined
READY, and names the lowest undefined one otherwise; WITHDRAW_QUESTION sets a question's withdrawn flag. That a
question not defined has an empty set, SINGLE and weight 0 is the model's choice (log 38). -/
def Obligations.KeyEditsAreTaken : Prop :=
  ∀ (b b1 b2 b3 : Byte) (entries : List KeyEntry) (s : State), s.listening = true → b.toNat < 8 →
    let k := b.toNat
    let x := s.key k
    let inUse : Prop := s.mke.batch.state ≠ .idle ∧ s.mke.batch.key = k
    let busy := refuse .busy .none (.batch s.mke.batch.state s.mke.batch.sitting)
    let max (qs : List Question) : Nat := ((qs.filter (fun q => !q.withdrawn)).map (·.weight)).sum
    (b1.toNat < 4 → 1 ≤ b2.toNat → b2.toNat ≤ 40 * (b1.toNat + 1) → b3.toNat ≤ 2 →
      (inUse → exec (.keyBegin b b1 b2 b3) s = s.toHunt.replied 0x2B busy) ∧
      (¬inUse → exec (.keyBegin b b1 b2 b3) s = (s.toHunt.modKey k (fun _ =>
        ⟨.loading, b1.toNat, b3.toNat, List.replicate b2.toNat ⟨false, 0, .single, 0, false⟩⟩)).replied 0x2B
        (ok (.keyLoading k b1.toNat b2.toNat)))) ∧
    (1 ≤ b1.toNat → 1 ≤ entries.length → entries.length ≤ 40 → b1.toNat + entries.length - 1 ≤ x.questions.length →
      (∀ e ∈ entries, 1 ≤ e.answers.toNat ∧ e.answers.toNat < 32 ∧ e.mode.toNat < 2 ∧ 1 ≤ e.weight.toNat ∧
        e.weight.toNat ≤ 4) →
      let taken := entries.map (fun e =>
        (⟨true, e.answers.truncate 5, if e.mode = 0#8 then .single else .any, e.weight.toNat, false⟩ : Question))
      let qs := x.questions.take (b1.toNat - 1) ++ taken ++ x.questions.drop (b1.toNat - 1 + entries.length)
      (inUse → exec (.keyPart b b1 entries) s = s.toHunt.replied 0x2C busy) ∧
      (¬inUse → x.state ≠ .loading → exec (.keyPart b b1 entries) s = s.toHunt.replied 0x2C (refuse .refusedState)) ∧
      (¬inUse → x.state = .loading → exec (.keyPart b b1 entries) s =
        (s.toHunt.modKey k (fun y => { y with questions := qs })).replied 0x2C
          (ok (.keyDefined (qs.countP (·.defined)))))) ∧
    ((inUse → exec (.keyEnd b) s = s.toHunt.replied 0x2D busy) ∧
      (¬inUse → x.state ≠ .loading → exec (.keyEnd b) s = s.toHunt.replied 0x2D (refuse .refusedState)) ∧
      (∀ i q, ¬inUse → x.state = .loading → x.questions[i]? = some q → q.defined = false →
        (∀ j p, j < i → x.questions[j]? = some p → p.defined = true) →
        exec (.keyEnd b) s = s.toHunt.replied 0x2D (refuse .refusedState .none (.question (i + 1)))) ∧
      (¬inUse → x.state = .loading → (∀ q ∈ x.questions, q.defined = true) → exec (.keyEnd b) s =
        (s.toHunt.modKey k (fun y => { y with state := .ready })).replied 0x2D
          (ok (.keyReady x.questions.length (max x.questions) (x.questions.countP (·.withdrawn)))))) ∧
    (1 ≤ b1.toNat → b1.toNat ≤ x.questions.length →
      let qs := x.questions.modify (b1.toNat - 1) (fun q => { q with withdrawn := true })
      (inUse → exec (.withdrawQuestion b b1) s = s.toHunt.replied 0x2E busy) ∧
      (∀ q, ¬inUse → x.questions[b1.toNat - 1]? = some q → x.state = .loading → q.defined = false →
        exec (.withdrawQuestion b b1) s = s.toHunt.replied 0x2E (refuse .refusedState)) ∧
      (∀ q, ¬inUse → x.questions[b1.toNat - 1]? = some q → (x.state ≠ .loading ∨ q.defined = true) →
        exec (.withdrawQuestion b b1) s = (s.toHunt.modKey k (fun y => { y with questions := qs })).replied 0x2E
          (ok (.keyMax (max qs)))))

/-- START_BATCH: busy while a batch is not IDLE; refused by the sitting's state, for want of a key, and by the key's
state, in that order; otherwise the batch record is set and the batch is ACTIVE. CONTINUE_BATCH: a HALTED batch
becomes ACTIVE with halt pending clear, so HOLD is released; any other refuses. ABORT_BATCH: an IDLE batch refuses;
otherwise a parked sheet is rejected, the batch is IDLE with end cause ABORTED, so HOLD is asserted, and BATCH_END
follows with the aborted mark. -/
def Obligations.BatchesAreStartedContinuedAborted : Prop :=
  (∀ (sitting count first last : Byte) (s : State), s.listening = true → sitting.toNat < 8 → first.toNat ≤ last.toNat →
     last.toNat < 64 →
     let x := s.sitting sitting.toNat
     let answered (u : State) (a : Answer) : Prop := exec (.startBatch sitting count first last) s = u.replied 0x32 a
     let n := if count = 0#8 then 256 else count.toNat
     let marks : Prop := x.state = .collecting ∨ x.state = .closed
     (s.mke.batch.state ≠ .idle →
       answered s.toHunt (refuse .busy .none (.batch s.mke.batch.state s.mke.batch.sitting))) ∧
     (s.mke.batch.state = .idle → ¬marks →
       answered s.toHunt (refuse .refusedState .sittingState (.sittingState x.state))) ∧
     (s.mke.batch.state = .idle → marks → x.keyId = none → answered s.toHunt (refuse .refusedState .noKey)) ∧
     (∀ key, s.mke.batch.state = .idle → marks → x.keyId = some key →
       ((s.key key).state ≠ .ready → answered s.toHunt (refuse .refusedState .keyState)) ∧
       ((s.key key).state = .ready → answered
         { s.toHunt with
           mke.batch :=
             { state := .active, endCause := .none, sitting := sitting.toNat, key := key, count := n, remaining := n,
               blockSize := s.cli.params.blockSize, tolerance := s.cli.params.tolerance, blockNumber := 1,
               block := ⟨0, 0, 0, 0⟩, totals := ⟨0, 0, 0, 0⟩, rejects := ⟨0, 0, 0, 0, 0, 0⟩, segStart := first.toNat,
               segEnd := last.toNat, haltPending := false } }
         (ok (.batchStarted n first.toNat last.toNat ((List.range 64).countP (fun i =>
           decide (first.toNat ≤ i) && decide (i ≤ last.toNat) && (s.stored? i).isNone))))))) ∧
  (∀ s : State, s.listening = true →
     (s.mke.batch.state = .halted →
       let u : State := { s.toHunt with mke.batch := { s.mke.batch with state := .active, haltPending := false } }
       exec .continueBatch s = u.replied 0x33 (ok (.remaining s.mke.batch.remaining)) ∧ u.hold = false) ∧
     (s.mke.batch.state ≠ .halted → exec .continueBatch s =
       s.toHunt.replied 0x33 (refuse .refusedState .none (.batchState s.mke.batch.state)))) ∧
  (∀ s : State, s.listening = true →
     (s.mke.batch.state = .idle → exec .abortBatch s = s.toHunt.replied 0x36 (refuse .refusedState)) ∧
     (s.mke.batch.state ≠ .idle →
       let s1 := match s.srp.parked with
         | some p => State.formVerdict { s.toHunt with srp.parked := none } p.sheet.feed .reject
         | none => s.toHunt
       let u := ({ s1 with mke.batch := { s.mke.batch with state := .idle, endCause := .aborted, haltPending := false } }
         : State).notify (.batchAborted s.mke.batch.sitting s.mke.batch.totals s.mke.batch.remaining)
       exec .abortBatch s = u.replied 0x36 (ok (.remaining s.mke.batch.remaining)) ∧ u.hold = true))

/-- The verdict table (R158), by its first row that matches; the storing kind, DUPLICATE when the candidate has a
result slot; storing (R161): FILLED sets the candidate's summary, DUPLICATE sends DUP_SHEET; and the block steps
(R164): at a block end BLOCK_DONE, with the next block begun; with no sheet remaining BATCH_END and IDLE with
COMPLETE; else, with halt pending at a block end, BATCH_HALTED and HALTED. That the block number rises after the last
block too is deduced (log 28). The EMPTY slots of the batch's segment are those from its start to its end, ascending.
A sheet taken into an ACTIVE batch (R158, R161, R164): remaining falls by one; a rejected sheet is counted rejected; a
sheet to be stored goes into the lowest EMPTY slot of the segment, or is parked, which makes the batch WAIT_SPACE with
SEGMENT_FULL; and the block steps follow unless it was parked. A fault report taken into an ACTIVE batch (R145, R164):
remaining falls by one, the sheet is counted rejected in the block tallies and the totals alike, under line fault,
halt pending is set, and the block steps follow. A rejected sheet is counted under its own reason. EXTEND_SEGMENT,
RELEASE_SLOTS and RESOLVE_DUPLICATE: their refusals; their own changes of the segment and the store; and then the
resume of a WAIT_SPACE batch when its segment holds an EMPTY slot: the parked sheet is stored in the lowest, its
verdict formed, the batch ACTIVE, and the deferred block steps taken (R166, R167, R169). That the reply to a DISCARD
gives the slot as it is before the resume is the model's choice (log 37). -/
def Obligations.SheetsAreJudgedAndStored : Prop :=
  ((∀ (s : State) (x : Sheet),
     let b := s.mke.batch
     let key := s.key b.key
     let number : Prop := 1 ≤ x.number ∧ x.number ≤ 99999999
     (¬number → s.judge x = .reject .idNotFound) ∧
     (number → x.sitting ≠ b.sitting → s.judge x = .reject .wrongSitting) ∧
     (number → x.sitting = b.sitting → s.lookup x.number (some b.sitting) = none →
       (s.lookup x.number none ≠ none → s.judge x = .reject .wrongSitting) ∧
       (s.lookup x.number none = none → s.judge x = .reject .idNotFound)) ∧
     (∀ c y, number → x.sitting = b.sitting → s.lookup x.number (some b.sitting) = some c → s.cand? c = some y →
       let r := scoreSheet key x.rows
       (x.form ≠ key.form → s.judge x = .reject .formMismatch) ∧
       (x.form = key.form → y.state = .absent → s.judge x = .reject .notSat) ∧
       (x.form = key.form → y.state ≠ .absent → b.tolerance < r.unreadable → s.judge x = .reject .tooUnreadable) ∧
       (x.form = key.form → y.state ≠ .absent → r.unreadable ≤ b.tolerance → s.judge x = .store c { r with
         verdict := if r.unreadable = 0 then .accept else .review
         withdrawnSat := y.state == .withdrawn
         uncollected := !y.collected.getLsbD 0
         remarked := false }))) ∧
   (∀ (s : State) (c : Nat),
     let scored : Prop := ∃ y m j, s.cand? c = some y ∧ y.summary = some m ∧ m.store = some j
     (scored → s.storingKind c = .duplicate) ∧ (¬scored → s.storingKind c = .filled)) ∧
   (∀ (s : State) (i : Nat) (p : Parked) (y : Candidate), s.cand? p.slot = some y →
     let u := s.putStore i (some ⟨p.kind, some p.slot, p.sheet, p.result, p.erasures⟩)
     (p.kind = .filled → s.storeSheet i p = u.modCand p.slot (fun z => { z with summary := some ⟨p.result, some i⟩ })) ∧
     (p.kind = .duplicate → s.storeSheet i p = u.notify (.dupSheet p.slot y.number i (y.summary.bind (·.store))
       p.sheet.feed))) ∧
   (∀ s : State,
     let b := s.mke.batch
     let ends : Prop := b.block.accepted + b.block.review + b.block.rejected + b.block.duplicate = b.blockSize ∨
       b.remaining = 0
     let next : Batch := { b with
       blockNumber := b.blockNumber + 1, block := ⟨0, 0, 0, 0⟩, rejects := ⟨0, 0, 0, 0, 0, 0⟩ }
     let told := s.notify (.blockDone b.blockNumber b.block b.rejects b.remaining)
     (¬ends → s.blockSteps = s) ∧
     (b.remaining = 0 → s.blockSteps = ({ told with mke.batch := { next with
       state := .idle, endCause := .complete, haltPending := false } } : State).notify
         (.batchEnd b.sitting b.totals b.count b.haltPending)) ∧
     (ends → b.remaining ≠ 0 → b.haltPending = true → s.blockSteps =
       ({ told with mke.batch := { next with state := .halted } } : State).notify
         (.batchHalted b.blockNumber b.remaining b.totals)) ∧
     (ends → b.remaining ≠ 0 → b.haltPending = false → s.blockSteps = { told with mke.batch := next })) ∧
   (∀ s : State,
     (∀ i, i ∈ s.emptySlots ↔ i < 64 ∧ s.stored? i = none ∧ s.mke.batch.segStart ≤ i ∧ i ≤ s.mke.batch.segEnd) ∧
     s.emptySlots.Pairwise (· < ·))) ∧
  (∀ (s : State) (x : Sheet),
     let s1 : State := { s with mke.batch.remaining := s.mke.batch.remaining - 1 }
     let b := s1.mke.batch
     (∀ reason, s.judge x = .reject reason → s.takeSheet x =
       (State.blockSteps { s1 with mke.batch := { b with
         block := { b.block with rejected := b.block.rejected + 1 }
         totals := { b.totals with rejected := b.totals.rejected + 1 }
         rejects := b.rejects.add reason
         haltPending := b.haltPending || reason == .lineFault } }, some .reject)) ∧
     (∀ slot r, s.judge x = .store slot r →
       let p : Parked := ⟨x, slot, r, x.rows.countP (·.erased), s.storingKind slot,
         if s.storingKind slot = .duplicate then .review else r.verdict⟩
       let add (t : Tally) : Tally := if s.storingKind slot = .duplicate then { t with duplicate := t.duplicate + 1 }
         else if r.verdict = .accept then { t with accepted := t.accepted + 1 } else { t with review := t.review + 1 }
       let s2 : State := { s1 with mke.batch := { b with block := add b.block, totals := add b.totals } }
       (∀ i rest, s.emptySlots = i :: rest → s.takeSheet x = ((s2.storeSheet i p).blockSteps, some p.bin)) ∧
       (s.emptySlots = [] → s.takeSheet x =
         (({ s2 with srp.parked := some p, mke.batch := { s2.mke.batch with state := .waitSpace } } : State).notify
           (.segmentFull b.segStart b.segEnd x.feed slot), none)))) ∧
  ((∀ s : State,
     let b := s.mke.batch
     s.takeFaultReport = State.blockSteps { s with mke.batch := { b with
       remaining := b.remaining - 1
       block := { b.block with rejected := b.block.rejected + 1 }
       totals := { b.totals with rejected := b.totals.rejected + 1 }
       rejects := { b.rejects with lineFault := b.rejects.lineFault + 1 }
       haltPending := true } }) ∧
   (∀ r : Rejects,
     r.add .idNotFound = { r with idNotFound := r.idNotFound + 1 } ∧
     r.add .wrongSitting = { r with wrongSitting := r.wrongSitting + 1 } ∧
     r.add .formMismatch = { r with formMismatch := r.formMismatch + 1 } ∧
     r.add .notSat = { r with notSat := r.notSat + 1 } ∧
     r.add .tooUnreadable = { r with tooUnreadable := r.tooUnreadable + 1 } ∧
     r.add .lineFault = { r with lineFault := r.lineFault + 1 })) ∧
  (∀ (b action : Byte) (stores : List Byte) (s : State), s.listening = true →
     (b.toNat < 64 → s.mke.batch.segEnd ≤ b.toNat →
       (s.mke.batch.state = .idle → exec (.extendSegment b) s = s.toHunt.replied 0x34 (refuse .refusedState)) ∧
       (s.mke.batch.state ≠ .idle →
         let u := State.resumeBatch { s.toHunt with mke.batch.segEnd := b.toNat }
         exec (.extendSegment b) s = u.replied 0x34 (ok (.segment u.mke.batch.segStart u.mke.batch.segEnd
           u.emptySlots.length u.mke.batch.state)))) ∧
     (b.toNat < s.mke.batch.segEnd → exec (.extendSegment b) s = s.toHunt.replied 0x34 (badArgument 1)) ∧
     (1 ≤ stores.length → stores.length ≤ 64 → (∀ i ∈ stores, i.toNat < 64) → ∃ (u : State) (n : Nat),
       exec (.releaseSlots stores) s = u.resumeBatch.replied 0x35 (ok (.emptied n)) ∧
       u = { s.toHunt with htu.cands := u.htu.cands, mke.store := u.mke.store } ∧
       (∀ i, u.stored? i = if i ∈ stores.map (·.toNat) then none else s.stored? i) ∧
       n = (List.range 64).countP (fun i => (stores.map (·.toNat)).contains i && (s.stored? i).isSome) ∧
       (∀ c, u.cand? c = (s.cand? c).map (fun y => { y with
         summary := y.summary.map (fun m => { m with
           store := m.store.filter (fun i => !((stores.map (·.toNat)).contains i && (s.stored? i).isSome)) }) }))) ∧
     (stores = [] ∨ 64 < stores.length ∨ (∃ i ∈ stores, 64 ≤ i.toNat) →
       exec (.releaseSlots stores) s = s.toHunt.replied 0x35 (badArgument 1)) ∧
     (b.toNat < 64 →
       let i := b.toNat
       let answered (u : State) (a : Answer) : Prop := exec (.resolveDuplicate b action) s = u.replied 0x37 a
       ((action = 0#8 ∨ action = 1#8) → (∀ y, s.stored? i = some y → y.kind ≠ .duplicate) →
         answered s.toHunt (refuse .refusedState)) ∧
       (∀ y, s.stored? i = some y → y.kind = .duplicate →
         (action = 1#8 → answered (s.toHunt.putStore i none).resumeBatch (ok (.resolved none (some i)))) ∧
         (action = 0#8 → y.ref = none → answered s.toHunt (refuse .refusedState .noCandidate)) ∧
         (∀ c, action = 0#8 → y.ref = some c →
           ((∃ p, s.srp.parked = some p ∧ p.slot = c) → answered s.toHunt (refuse .busy)) ∧
           ((∀ p, s.srp.parked = some p → p.slot ≠ c) →
             let s1 := s.toHunt.putStore i (some { y with kind := .filled })
             let s2 := match s.resultSlot c with
               | some j => s1.emptyStore j
               | none => s1
             answered (s2.modCand c (fun z => { z with summary := some ⟨y.result, some i⟩ })).resumeBatch
               (ok (.resolved (some .filled) (s.resultSlot c))))))) ∧
     (∀ p i rest, s.mke.batch.state = .waitSpace → s.srp.parked = some p → s.emptySlots = i :: rest →
       s.resumeBatch = State.blockSteps
         (let t := State.formVerdict { s.storeSheet i p with srp.parked := none } p.sheet.feed p.bin
         { t with mke.batch := { t.mke.batch with state := .active } })) ∧
     ((s.mke.batch.state ≠ .waitSpace ∨ s.srp.parked = none ∨ s.emptySlots = []) → s.resumeBatch = s) ∧
     (∀ c y, s.cand? c = some y → s.resultSlot c = y.summary.bind (·.store)) ∧
     (∀ i, i < 64 → s.emptyStore i = { s with htu.cands := (s.emptyStore i).htu.cands, mke.store := (s.emptyStore i).mke.store } ∧
       (∀ j, (s.emptyStore i).stored? j = if j = i then none else s.stored? j) ∧
       (∀ c, (s.emptyStore i).cand? c = (s.cand? c).map (fun y => { y with
         summary := y.summary.map (fun m => { m with store := if m.store = some i then none else m.store }) }))))

/-- Scoring (R157): the questions not withdrawn, each by its row; unreadable, blank, correct and wrong are tested in
that order; the score is the weights of the correct ones less the penalty for each wrong one, or 0 when that is below
0; each of the four counts is the number of questions used in its class, and they add up to the questions used.
REMARK: its refusals in their order; otherwise every stored sheet of the sitting with a candidate is rescored with the
key as it stands, in ascending slot order, or counted as mismatched when its form is another; for a FILLED sheet the
candidate's summary takes the new result and keeps its result slot, and every other candidate is as before. -/
def Obligations.ScoringAndRemark : Prop :=
  ((∀ (q : Question) (row : MarkRow),
     (row.quality = .unreadable → classify q row = .unreadable) ∧
     (row.quality ≠ .unreadable → row.options = 0 → classify q row = .blank) ∧
     (row.quality ≠ .unreadable → row.options ≠ 0 → q.mode = .single →
       classify q row = if row.options = q.answers then .correct else .wrong) ∧
     (row.quality ≠ .unreadable → row.options ≠ 0 → q.mode = .any →
       ((∃ n, n < 5 ∧ row.options = 1#5 <<< n ∧ q.answers.getLsbD n = true) → classify q row = .correct) ∧
       ((∀ n, n < 5 → row.options = 1#5 <<< n → q.answers.getLsbD n = false) → classify q row = .wrong))) ∧
   (∀ (key : Key) (rows : List MarkRow), key.questions.length ≤ rows.length →
     let r := scoreSheet key rows
     r.correct + r.wrong + r.blank + r.unreadable = key.questions.countP (fun q => !q.withdrawn) ∧
     r.max = ((key.questions.filter (fun q => !q.withdrawn)).map (·.weight)).sum ∧ r.score ≤ r.max ∧
     (let inClass (a : AnswerClass) : List (Question × MarkRow) :=
         (key.questions.zip rows).filter (fun p => !p.1.withdrawn && classify p.1 p.2 == a)
       let gained : Nat := ((inClass .correct).map (·.1.weight)).sum
       let lost : Nat := (inClass .wrong).length * key.penalty
       r.correct = (inClass .correct).length ∧ r.wrong = (inClass .wrong).length ∧ r.blank = (inClass .blank).length ∧
         r.unreadable = (inClass .unreadable).length ∧ (lost ≤ gained → r.score + lost = gained) ∧
         (gained < lost → r.score = 0)))) ∧
  (∀ (sitting : Byte) (s : State), s.listening = true → sitting.toNat < 8 →
     let answered (u : State) (a : Answer) : Prop := exec (.remark sitting) s = u.replied 0x38 a
     (s.mke.batch.state ≠ .idle → answered s.toHunt (refuse .busy)) ∧
     (s.mke.batch.state = .idle → (s.sitting sitting.toNat).keyId = none → answered s.toHunt (refuse .refusedState)) ∧
     (∀ key, s.mke.batch.state = .idle → (s.sitting sitting.toNat).keyId = some key →
       ((s.key key).state ≠ .ready → answered s.toHunt (refuse .refusedState)) ∧
       ((s.key key).state = .ready → ∃ u : State,
         let marked (i : Nat) (x : Stored) : Prop := s.stored? i = some x ∧ x.sheet.sitting = sitting.toNat
         let rescored (x : Stored) (c : Candidate) : Result :=
           let r := scoreSheet (s.key key) x.sheet.rows;
           { r with
             verdict := if r.unreadable = 0 then .accept else .review
             withdrawnSat := c.state == .withdrawn
             uncollected := !c.collected.getLsbD 0
             remarked := true }
         let counted (p : Stored → Bool) : Nat := (List.range 64).countP (fun i => (s.stored? i).any (fun x =>
           x.sheet.sitting == sitting.toNat && x.ref.any (fun c => (s.cand? c).isSome) && p x))
         answered u (ok (.remarked (counted (fun x => x.kind == .filled && x.sheet.form == (s.key key).form))
           (counted (fun x => x.kind == .duplicate && x.sheet.form == (s.key key).form))
           (counted (fun x => x.sheet.form != (s.key key).form)))) ∧
         u = { s.toHunt with htu.cands := u.htu.cands, mke.store := u.mke.store } ∧
         (∀ i x slot c, marked i x → x.ref = some slot → s.cand? slot = some c → x.sheet.form = (s.key key).form →
           u.stored? i = some { x with result := rescored x c }) ∧
         (∀ i, (∀ x slot c, marked i x → x.ref = some slot → s.cand? slot = some c → x.sheet.form ≠ (s.key key).form) →
           u.stored? i = s.stored? i) ∧
         (let filledFor (c i : Nat) (x : Stored) : Prop := marked i x ∧ x.kind = .filled ∧ x.ref = some c ∧
             x.sheet.form = (s.key key).form;
           (∀ c i x y, s.cand? c = some y → filledFor c i x → (∀ j w, filledFor c j w → j ≤ i) → ∃ slot : Option Nat,
             u.cand? c = some { y with summary := some ⟨rescored x y, slot⟩ } ∧
             (∀ m, y.summary = some m → slot = m.store) ∧
             (y.summary = none → ∃ j w, filledFor c j w ∧ slot = some j)) ∧
           (∀ c, (∀ i x, ¬filledFor c i x) → u.cand? c = s.cand? c)))))

/-! ### Parameters and resets -/

/-- SET_PARAM: an identifier that names none, then a value out of range, refuse with BAD_ARGUMENT; FLOOR_UNITS that
leaves out a handset with a call in service and BLOCK_SIZE while the batch is not IDLE are busy; otherwise the store
takes the value and nothing but the calls' timers and the handsets may change with it; an equal value changes nothing
(that busy is tested before an equal value is deduced, log 27). The model's choice: an escalation or a going AWAY that
is due is dropped when its parameter now stands at 0 or above its timer (log 40). The ranges and the values of the
thirteen parameters (R179, 11.3): a value in the range of its identifier is the one taken, and no other is. GET_PARAM
gives one parameter or all thirteen in the order of their identifiers. -/
def Obligations.ParametersAreSetAndRead : Prop :=
  (∀ (id : Byte) (value : Word) (s : State), s.listening = true →
     let old := s.cli.params
     let answered (u : State) (a : Answer) : Prop := exec (.setParam id value) s = u.replied 0x39 a
     (id.toNat = 0 ∨ 13 < id.toNat → answered s.toHunt (badArgument 1)) ∧
     (1 ≤ id.toNat → id.toNat ≤ 13 →
       (old.change id.toNat value.toNat = none → answered s.toHunt (badArgument 2)) ∧
       (∀ p, old.change id.toNat value.toNat = some p →
         let busy : Prop := (id.toNat = 12 ∧ s.mke.batch.state ≠ .idle) ∨ (id.toNat = 11 ∧ ∃ h, h < 8 ∧
           old.floorUnits.getLsbD h = true ∧ p.floorUnits.getLsbD h = false ∧ (s.handset h).stack ≠ [])
         p.values[id.toNat - 1]? = some value.toNat ∧
         (∀ n, n ≠ id.toNat - 1 → p.values[n]? = old.values[n]?) ∧
         (busy → answered s.toHunt (refuse .busy)) ∧
         (¬busy → ∃ (u : State) (before : Nat), old.values[id.toNat - 1]? = some before ∧
           answered u (ok (.param id.toNat before value.toNat)) ∧
           u = { s.toHunt with cli.params := p, cdp := u.cdp } ∧
           (p = old → u = s.toHunt) ∧
           (∀ n, u.call? n = (s.call? n).map (fun c =>
             if p = old then c
             else if p.escalateTime = 0 then { c with timer := 0, escalationDue := false }
             else { c with escalationDue := c.escalationDue && decide (p.escalateTime ≤ c.timer) })) ∧
           (∀ h, h < 8 → p ≠ old →
             (old.floorUnits.getLsbD h = p.floorUnits.getLsbD h → u.handset h =
               { s.handset h with awayDue := (s.handset h).awayDue && decide (0 < p.handsetAway ∧
                 p.handsetAway ≤ (s.handset h).timer) }) ∧
             (old.floorUnits.getLsbD h = true → p.floorUnits.getLsbD h = false → u.handset h =
               { s.handset h with state := .off, stack := [], timer := 0, note := none, awayDue := false }) ∧
             (old.floorUnits.getLsbD h = false → p.floorUnits.getLsbD h = true → u.handset h =
               { s.handset h with state := .active, stack := [], timer := 0, note := none, awayDue := false })))))) ∧
  (∀ (p : Params) (v : Nat),
     let takes (id lo hi : Nat) (q : Params) : Prop := p.change id v = if lo ≤ v ∧ v ≤ hi then some q else none
     takes 1 0 2 { p with spacingRule := if v = 0 then .none else if v = 1 then .row else .cross } ∧
     takes 2 0 1 { p with fillOrder := if v = 0 then .ascending else .serpentine } ∧
     takes 3 0 7 { p with defaultZone := v } ∧ takes 4 0 7 { p with levelQuery := v } ∧
     takes 5 0 7 { p with levelSupply := v } ∧ takes 6 0 7 { p with levelEscort := v } ∧
     takes 7 0 7 { p with levelRest := v } ∧ takes 8 0 7 { p with levelAlert := v } ∧
     takes 9 0 600 { p with escalateTime := v } ∧ takes 10 0 300 { p with handsetAway := v } ∧
     takes 11 0 0xFFFFF { p with floorUnits := BitVec.ofNat 20 v } ∧ takes 12 1 16 { p with blockSize := v } ∧
     takes 13 0 8 { p with tolerance := v }) ∧
  (∀ (b : Byte) (s : State), s.listening = true →
     (∀ v, 1 ≤ b.toNat → s.cli.params.values[b.toNat - 1]? = some v →
       exec (.getParam b) s = s.toHunt.replied 0x3A (ok (.params [(b.toNat, v)]))) ∧
     (b = 0xFF#8 → exec (.getParam b) s = s.toHunt.replied 0x3A (ok (.params (s.cli.params.values.zipIdx.map (fun e =>
       (e.2 + 1, e.1)))))) ∧
     ((b.toNat = 0 ∨ (13 < b.toNat ∧ b ≠ 0xFF#8)) →
       exec (.getParam b) s = s.toHunt.replied 0x3A (badArgument 1)))

/-- RESET is answered OK and waits: its reply sent by FRAME_SENT, it is about to act, and no frame is begun at the end
of any event before it does (R186, log 20). RESET_PORTS and RESET_HALL then act: pauses ended, calls emptied, links
restarted, the reader resynchronised, channels IDLE; under PORTS the batch is IDLE and the tables are kept, under HALL
they are cleared; and the reply list, the overrun count, the receiver and, last, the notice queue are emptied with the
cause recorded. With no reset due nothing happens. That PORTS keeps the relocations and retry passes asked for, and
HALL drops them, is deduced (log 19). What both scopes do in the hall: every PAUSED candidate is resumed, in ascending
slot order, so that none is left (R117); the call list and the stacks are emptied, each handset keeping its zone set
(R117); every link restarts in the state it is in (R79); and the port abandons a frame and a parked sheet with a
REJECT verdict each, as the list has room, and keeps its verdicts (R150). POWER_ON sets every record to its value
after power-up and samples the straps, the pins staying as they stand (log 5). LINK_RESET does so but for the straps,
the timebase, the clock, SYNC_LOST, the reset cause record and the verdict list, and holds the line until it is back
at the idle level; one break is one LINK_RESET. That a RESET not yet acted on is dropped by it is the model's choice
(log 41). -/
def Obligations.ResetsActAsTheirScope : Prop :=
  (∀ (b : Byte) (scope : ResetScope) (s : State),
     (s.listening = true → scopeOf b = some scope → exec (.reset b) s =
       State.replied { s.toHunt with cli.resetTaken := some scope } 0x3D (ok .none)) ∧
     (∀ r, s.cli.sending = some (.reply r) → s.cli.resetTaken = some scope → ∃ u : State, exec .frameSent s = .next u ∧
       u.cli.sending = none ∧ u.cli.resetTaken = none ∧ u.cli.resetDue = some scope) ∧
     (s.cli.resetDue ≠ none → s.settle.cli.sending = s.cli.sending) ∧
     (let ports := { s.resumeAll.clearCalls.restartLinks.resyncReader with
         scu.channels := Vector.replicate 4 Channel.atReset }
       let batch := s.mke.batch
       let cleared (u : State) (cause : ResetCause) : State := { u with
         cli.flags.resetSeen := true
         cli.resets := ⟨cause, s.tme.hall,
           if cause ∈ s.cli.resets.causes then s.cli.resets.causes else s.cli.resets.causes ++ [cause]⟩
         cli.replies := []
         cli.overruns := 0
         cli.discarded := false
         cli.receiver := .hunt
         cli.resetTaken := none
         cli.resetDue := none
         cli.notices := [] }
       (s.cli.resetDue = some .ports → exec .resetPorts s = .next (cleared { ports with
         mke.batch := if batch.state = .idle then batch else
           { batch with state := .idle, endCause := .reset, remaining := 0, haltPending := false } } .ports).settle) ∧
       (s.cli.resetDue ≠ some .ports → exec .resetPorts s = .next s.settle) ∧
       (s.cli.resetDue = some .hall → exec .resetHall s = .next (cleared { ports with
         htu.seats := ports.htu.seats.map (fun x => { x with
           state := if x.kind = .seat then .free else .absent
           bound := none
           fault := none
           answering := false
           heldOrigin := false })
         htu.cands := Vector.replicate 512 none
         sal.queue := []
         sal.retryDue := 0
         sal.relocations := []
         tme.sittings := Vector.replicate 8 Sitting.atReset
         scu.exceptions := []
         mke := Mke.atReset } .hall).settle) ∧
       (s.cli.resetDue ≠ some .hall → exec .resetHall s = .next s.settle))) ∧
  ((∀ s : State, s.resumeAll = (s.slotsWhere (fun c => c.state == .paused)).foldl (fun t c => t.resumeClaim c) s ∧
     (s.slotsWhere (fun c => c.state == .paused)).Pairwise (· < ·) ∧
     (∀ c, c ∈ s.slotsWhere (fun c => c.state == .paused) ↔ ∃ x, s.cand? c = some x ∧ x.state = .paused) ∧
     ∀ c x, s.resumeAll.cand? c = some x → x.state ≠ .paused) ∧
   (∀ s : State,
     let u := s.clearCalls
     u = { s with cdp := u.cdp } ∧ (∀ n, u.call? n = none) ∧
     (∀ h, h < 8 → u.handset h = ⟨if s.cli.params.floorUnits.getLsbD h then .active else .off, (s.handset h).zones, [], 0,
       none, false⟩)) ∧
   (∀ s : State,
     let u := s.restartLinks
     let code : TimeCode := ⟨s.tme.hall.minute, 0⟩
     u = { s with ulc := u.ulc } ∧ (∀ l a, u.unit l a = ⟨0, 0, 0, none, none⟩) ∧
     (∀ l, (s.link l).running = false → u.link l =
       { running := false, history := [], sequence := 0, broadcastPending := false, repeatPending := false,
         silentReported := false, members := [], cycleOpen := false, toPoll := [], current := none, heardInCycle := false,
         sent := none }) ∧
     (∀ l, (s.link l).running = true → u.link l =
       { running := true, history := [code], sequence := 1, broadcastPending := false, repeatPending := false,
         silentReported := false, members := (linkAddresses l).filter (s.isMember l), cycleOpen := true,
         toPoll := (linkAddresses l).filter (s.isMember l), current := none, heardInCycle := false,
         sent := some (.broadcast code) })) ∧
   (∀ s : State,
     let reject (l : List Verdict) (feed : Byte) : List Verdict := if l.length < 4 then l ++ [⟨feed, .reject⟩] else l
     let v1 := match s.srp.assembler with
       | .assemble (_ :: feed :: _) => reject s.srp.verdicts feed
       | _ => s.srp.verdicts
     let v2 := match s.srp.parked with
       | some p => reject v1 p.sheet.feed
       | none => v1
     s.resyncReader = { s with
       srp.assembler := .hunt
       srp.parked := none
       srp.verdicts := v2
       srp.lastFault := none
       srp.counts := ⟨0, 0, 0, 0, 0, 0, 0, 0, 0, 0⟩ })) ∧
  (∀ (rate1 rate0 : Bool) (s : State),
     exec (.powerOn rate1 rate0) s = .next (State.settle { State.reset with
       cli.hrdy := s.cli.hrdy
       cli.rate1 := rate1
       cli.rate0 := rate0
       srp.rrdy := s.srp.rrdy
       pending := s.pending }) ∧
     (s.cli.lineHeld = true → exec .linkReset s = .next s.settle) ∧
     (s.cli.lineHeld = false → exec .linkReset s = .next (State.settle { State.reset with
       cli.hrdy := s.cli.hrdy
       cli.rate1 := s.cli.rate1
       cli.rate0 := s.cli.rate0
       cli.lineHeld := true
       cli.flags := ⟨false, false, s.cli.flags.syncLost, true⟩
       cli.resets := ⟨.linkReset, s.tme.hall, if .linkReset ∈ s.cli.resets.causes then s.cli.resets.causes
         else s.cli.resets.causes ++ [.linkReset]⟩
       tme := { s.tme with sittings := Vector.replicate 8 Sitting.atReset }
       srp.rrdy := s.srp.rrdy
       srp.verdicts := s.resyncReader.srp.verdicts
       srp.verdictSending := s.srp.verdictSending
       pending := s.pending })) ∧
     exec .lineIdleReturn s = .next ({ s with cli.lineHeld := false } : State).settle)

/-! ### Seats and candidates -/

/-- The pairing of seats and candidates (R3) and what it rests on hold after power-up and are kept by every step: a
seat names a candidate exactly when the candidate names the seat; a bound seat is ASSIGNED, OCCUPIED, VACATED or
FAULTED, and an ASSIGNED, OCCUPIED or VACATED one is bound (R3); a WAITING or ABSENT candidate has no seat (R12, R17);
a candidate is in the waiting queue exactly when it is WAITING, and there once (R32); a WAITING or EXPECTED
candidate's sitting has not passed its late cutoff (R17, R53); and no candidate of a CLOSED sitting has a seat (R18).
-/
def Obligations.StepKeepsSeatsPaired : Prop :=
  State.reset.seatsInOrder ∧ State.reset.sittingsSettled ∧
  ∀ s t : State, s.seatsInOrder → s.sittingsSettled → step s = .next t → t.seatsInOrder ∧ t.sittingsSettled

end
end

