-- ==== Sys2Proof/Laws/State.lean ====
section
/-!
SUPPORT. The record updates of the state: one lemma for each part of the state that an update leaves alone, true by
definition, so that no proof unfolds an update.
-/

namespace Sys2Proof.Machine

variable (s : State)

/-! ### modSeat -/

@[simp] theorem modSeat_cli (i : Nat) (f : Seat → Seat) : (s.modSeat i f).cli = s.cli := rfl
@[simp] theorem modSeat_sal (i : Nat) (f : Seat → Seat) : (s.modSeat i f).sal = s.sal := rfl
@[simp] theorem modSeat_tme (i : Nat) (f : Seat → Seat) : (s.modSeat i f).tme = s.tme := rfl
@[simp] theorem modSeat_ulc (i : Nat) (f : Seat → Seat) : (s.modSeat i f).ulc = s.ulc := rfl
@[simp] theorem modSeat_cdp (i : Nat) (f : Seat → Seat) : (s.modSeat i f).cdp = s.cdp := rfl
@[simp] theorem modSeat_scu (i : Nat) (f : Seat → Seat) : (s.modSeat i f).scu = s.scu := rfl
@[simp] theorem modSeat_srp (i : Nat) (f : Seat → Seat) : (s.modSeat i f).srp = s.srp := rfl
@[simp] theorem modSeat_mke (i : Nat) (f : Seat → Seat) : (s.modSeat i f).mke = s.mke := rfl
@[simp] theorem modSeat_pending (i : Nat) (f : Seat → Seat) : (s.modSeat i f).pending = s.pending := rfl
@[simp] theorem modSeat_htu_cands (i : Nat) (f : Seat → Seat) : (s.modSeat i f).htu.cands = s.htu.cands := rfl
@[simp] theorem modSeat_cand? (i : Nat) (f : Seat → Seat) (j : Nat) : (s.modSeat i f).cand? j = s.cand? j := rfl
@[simp] theorem modSeat_sitting (i : Nat) (f : Seat → Seat) (j : Nat) : (s.modSeat i f).sitting j = s.sitting j := rfl
@[simp] theorem modSeat_link (i : Nat) (f : Seat → Seat) (j : LinkName) : (s.modSeat i f).link j = s.link j := rfl
@[simp] theorem modSeat_call? (i : Nat) (f : Seat → Seat) (j : Nat) : (s.modSeat i f).call? j = s.call? j := rfl
@[simp] theorem modSeat_handset (i : Nat) (f : Seat → Seat) (j : Nat) : (s.modSeat i f).handset j = s.handset j := rfl
@[simp] theorem modSeat_channel (i : Nat) (f : Seat → Seat) (j : Nat) : (s.modSeat i f).channel j = s.channel j := rfl
@[simp] theorem modSeat_key (i : Nat) (f : Seat → Seat) (j : Nat) : (s.modSeat i f).key j = s.key j := rfl
@[simp] theorem modSeat_stored? (i : Nat) (f : Seat → Seat) (j : Nat) : (s.modSeat i f).stored? j = s.stored? j := rfl

/-! ### modCand -/

@[simp] theorem modCand_cli (c : Nat) (f : Candidate → Candidate) : (s.modCand c f).cli = s.cli := rfl
@[simp] theorem modCand_sal (c : Nat) (f : Candidate → Candidate) : (s.modCand c f).sal = s.sal := rfl
@[simp] theorem modCand_tme (c : Nat) (f : Candidate → Candidate) : (s.modCand c f).tme = s.tme := rfl
@[simp] theorem modCand_ulc (c : Nat) (f : Candidate → Candidate) : (s.modCand c f).ulc = s.ulc := rfl
@[simp] theorem modCand_cdp (c : Nat) (f : Candidate → Candidate) : (s.modCand c f).cdp = s.cdp := rfl
@[simp] theorem modCand_scu (c : Nat) (f : Candidate → Candidate) : (s.modCand c f).scu = s.scu := rfl
@[simp] theorem modCand_srp (c : Nat) (f : Candidate → Candidate) : (s.modCand c f).srp = s.srp := rfl
@[simp] theorem modCand_mke (c : Nat) (f : Candidate → Candidate) : (s.modCand c f).mke = s.mke := rfl
@[simp] theorem modCand_pending (c : Nat) (f : Candidate → Candidate) : (s.modCand c f).pending = s.pending := rfl
@[simp] theorem modCand_htu_seats (c : Nat) (f : Candidate → Candidate) : (s.modCand c f).htu.seats = s.htu.seats := rfl
@[simp] theorem modCand_seat? (c : Nat) (f : Candidate → Candidate) (j : Nat) : (s.modCand c f).seat? j = s.seat? j := rfl
@[simp] theorem modCand_sitting (c : Nat) (f : Candidate → Candidate) (j : Nat) : (s.modCand c f).sitting j = s.sitting j := rfl
@[simp] theorem modCand_link (c : Nat) (f : Candidate → Candidate) (j : LinkName) : (s.modCand c f).link j = s.link j := rfl
@[simp] theorem modCand_call? (c : Nat) (f : Candidate → Candidate) (j : Nat) : (s.modCand c f).call? j = s.call? j := rfl
@[simp] theorem modCand_handset (c : Nat) (f : Candidate → Candidate) (j : Nat) : (s.modCand c f).handset j = s.handset j := rfl
@[simp] theorem modCand_channel (c : Nat) (f : Candidate → Candidate) (j : Nat) : (s.modCand c f).channel j = s.channel j := rfl
@[simp] theorem modCand_key (c : Nat) (f : Candidate → Candidate) (j : Nat) : (s.modCand c f).key j = s.key j := rfl
@[simp] theorem modCand_stored? (c : Nat) (f : Candidate → Candidate) (j : Nat) : (s.modCand c f).stored? j = s.stored? j := rfl

/-! ### putCand -/

@[simp] theorem putCand_cli (c : Nat) (x : Option Candidate) : (s.putCand c x).cli = s.cli := rfl
@[simp] theorem putCand_sal (c : Nat) (x : Option Candidate) : (s.putCand c x).sal = s.sal := rfl
@[simp] theorem putCand_tme (c : Nat) (x : Option Candidate) : (s.putCand c x).tme = s.tme := rfl
@[simp] theorem putCand_ulc (c : Nat) (x : Option Candidate) : (s.putCand c x).ulc = s.ulc := rfl
@[simp] theorem putCand_cdp (c : Nat) (x : Option Candidate) : (s.putCand c x).cdp = s.cdp := rfl
@[simp] theorem putCand_scu (c : Nat) (x : Option Candidate) : (s.putCand c x).scu = s.scu := rfl
@[simp] theorem putCand_srp (c : Nat) (x : Option Candidate) : (s.putCand c x).srp = s.srp := rfl
@[simp] theorem putCand_mke (c : Nat) (x : Option Candidate) : (s.putCand c x).mke = s.mke := rfl
@[simp] theorem putCand_pending (c : Nat) (x : Option Candidate) : (s.putCand c x).pending = s.pending := rfl
@[simp] theorem putCand_htu_seats (c : Nat) (x : Option Candidate) : (s.putCand c x).htu.seats = s.htu.seats := rfl
@[simp] theorem putCand_seat? (c : Nat) (x : Option Candidate) (j : Nat) : (s.putCand c x).seat? j = s.seat? j := rfl
@[simp] theorem putCand_sitting (c : Nat) (x : Option Candidate) (j : Nat) : (s.putCand c x).sitting j = s.sitting j := rfl
@[simp] theorem putCand_link (c : Nat) (x : Option Candidate) (j : LinkName) : (s.putCand c x).link j = s.link j := rfl
@[simp] theorem putCand_call? (c : Nat) (x : Option Candidate) (j : Nat) : (s.putCand c x).call? j = s.call? j := rfl
@[simp] theorem putCand_handset (c : Nat) (x : Option Candidate) (j : Nat) : (s.putCand c x).handset j = s.handset j := rfl
@[simp] theorem putCand_channel (c : Nat) (x : Option Candidate) (j : Nat) : (s.putCand c x).channel j = s.channel j := rfl
@[simp] theorem putCand_key (c : Nat) (x : Option Candidate) (j : Nat) : (s.putCand c x).key j = s.key j := rfl
@[simp] theorem putCand_stored? (c : Nat) (x : Option Candidate) (j : Nat) : (s.putCand c x).stored? j = s.stored? j := rfl

/-! ### modSitting -/

@[simp] theorem modSitting_cli (k : Nat) (f : Sitting → Sitting) : (s.modSitting k f).cli = s.cli := rfl
@[simp] theorem modSitting_htu (k : Nat) (f : Sitting → Sitting) : (s.modSitting k f).htu = s.htu := rfl
@[simp] theorem modSitting_sal (k : Nat) (f : Sitting → Sitting) : (s.modSitting k f).sal = s.sal := rfl
@[simp] theorem modSitting_ulc (k : Nat) (f : Sitting → Sitting) : (s.modSitting k f).ulc = s.ulc := rfl
@[simp] theorem modSitting_cdp (k : Nat) (f : Sitting → Sitting) : (s.modSitting k f).cdp = s.cdp := rfl
@[simp] theorem modSitting_scu (k : Nat) (f : Sitting → Sitting) : (s.modSitting k f).scu = s.scu := rfl
@[simp] theorem modSitting_srp (k : Nat) (f : Sitting → Sitting) : (s.modSitting k f).srp = s.srp := rfl
@[simp] theorem modSitting_mke (k : Nat) (f : Sitting → Sitting) : (s.modSitting k f).mke = s.mke := rfl
@[simp] theorem modSitting_pending (k : Nat) (f : Sitting → Sitting) : (s.modSitting k f).pending = s.pending := rfl
@[simp] theorem modSitting_tme_timebase (k : Nat) (f : Sitting → Sitting) : (s.modSitting k f).tme.timebase = s.tme.timebase := rfl
@[simp] theorem modSitting_tme_secondCount (k : Nat) (f : Sitting → Sitting) : (s.modSitting k f).tme.secondCount = s.tme.secondCount := rfl
@[simp] theorem modSitting_tme_hall (k : Nat) (f : Sitting → Sitting) : (s.modSitting k f).tme.hall = s.tme.hall := rfl
@[simp] theorem modSitting_tme_syncTimer (k : Nat) (f : Sitting → Sitting) : (s.modSitting k f).tme.syncTimer = s.tme.syncTimer := rfl
@[simp] theorem modSitting_tme_sinceEdge (k : Nat) (f : Sitting → Sitting) : (s.modSitting k f).tme.sinceEdge = s.tme.sinceEdge := rfl
@[simp] theorem modSitting_tme_lastEdge (k : Nat) (f : Sitting → Sitting) : (s.modSitting k f).tme.lastEdge = s.tme.lastEdge := rfl
@[simp] theorem modSitting_tme_syncLostDue (k : Nat) (f : Sitting → Sitting) : (s.modSitting k f).tme.syncLostDue = s.tme.syncLostDue := rfl
@[simp] theorem modSitting_seat? (k : Nat) (f : Sitting → Sitting) (j : Nat) : (s.modSitting k f).seat? j = s.seat? j := rfl
@[simp] theorem modSitting_cand? (k : Nat) (f : Sitting → Sitting) (j : Nat) : (s.modSitting k f).cand? j = s.cand? j := rfl
@[simp] theorem modSitting_link (k : Nat) (f : Sitting → Sitting) (j : LinkName) : (s.modSitting k f).link j = s.link j := rfl
@[simp] theorem modSitting_call? (k : Nat) (f : Sitting → Sitting) (j : Nat) : (s.modSitting k f).call? j = s.call? j := rfl
@[simp] theorem modSitting_handset (k : Nat) (f : Sitting → Sitting) (j : Nat) : (s.modSitting k f).handset j = s.handset j := rfl
@[simp] theorem modSitting_channel (k : Nat) (f : Sitting → Sitting) (j : Nat) : (s.modSitting k f).channel j = s.channel j := rfl
@[simp] theorem modSitting_key (k : Nat) (f : Sitting → Sitting) (j : Nat) : (s.modSitting k f).key j = s.key j := rfl
@[simp] theorem modSitting_stored? (k : Nat) (f : Sitting → Sitting) (j : Nat) : (s.modSitting k f).stored? j = s.stored? j := rfl

/-! ### modLink -/

@[simp] theorem modLink_cli (l : LinkName) (f : Link → Link) : (s.modLink l f).cli = s.cli := rfl
@[simp] theorem modLink_htu (l : LinkName) (f : Link → Link) : (s.modLink l f).htu = s.htu := rfl
@[simp] theorem modLink_sal (l : LinkName) (f : Link → Link) : (s.modLink l f).sal = s.sal := rfl
@[simp] theorem modLink_tme (l : LinkName) (f : Link → Link) : (s.modLink l f).tme = s.tme := rfl
@[simp] theorem modLink_cdp (l : LinkName) (f : Link → Link) : (s.modLink l f).cdp = s.cdp := rfl
@[simp] theorem modLink_scu (l : LinkName) (f : Link → Link) : (s.modLink l f).scu = s.scu := rfl
@[simp] theorem modLink_srp (l : LinkName) (f : Link → Link) : (s.modLink l f).srp = s.srp := rfl
@[simp] theorem modLink_mke (l : LinkName) (f : Link → Link) : (s.modLink l f).mke = s.mke := rfl
@[simp] theorem modLink_pending (l : LinkName) (f : Link → Link) : (s.modLink l f).pending = s.pending := rfl
@[simp] theorem modLink_ulc_seatUnits (l : LinkName) (f : Link → Link) : (s.modLink l f).ulc.seatUnits = s.ulc.seatUnits := rfl
@[simp] theorem modLink_ulc_floorUnits (l : LinkName) (f : Link → Link) : (s.modLink l f).ulc.floorUnits = s.ulc.floorUnits := rfl
@[simp] theorem modLink_seat? (l : LinkName) (f : Link → Link) (j : Nat) : (s.modLink l f).seat? j = s.seat? j := rfl
@[simp] theorem modLink_cand? (l : LinkName) (f : Link → Link) (j : Nat) : (s.modLink l f).cand? j = s.cand? j := rfl
@[simp] theorem modLink_sitting (l : LinkName) (f : Link → Link) (j : Nat) : (s.modLink l f).sitting j = s.sitting j := rfl
@[simp] theorem modLink_call? (l : LinkName) (f : Link → Link) (j : Nat) : (s.modLink l f).call? j = s.call? j := rfl
@[simp] theorem modLink_handset (l : LinkName) (f : Link → Link) (j : Nat) : (s.modLink l f).handset j = s.handset j := rfl
@[simp] theorem modLink_channel (l : LinkName) (f : Link → Link) (j : Nat) : (s.modLink l f).channel j = s.channel j := rfl
@[simp] theorem modLink_key (l : LinkName) (f : Link → Link) (j : Nat) : (s.modLink l f).key j = s.key j := rfl
@[simp] theorem modLink_stored? (l : LinkName) (f : Link → Link) (j : Nat) : (s.modLink l f).stored? j = s.stored? j := rfl

/-! ### modCall -/

@[simp] theorem modCall_cli (i : Nat) (f : Call → Call) : (s.modCall i f).cli = s.cli := rfl
@[simp] theorem modCall_htu (i : Nat) (f : Call → Call) : (s.modCall i f).htu = s.htu := rfl
@[simp] theorem modCall_sal (i : Nat) (f : Call → Call) : (s.modCall i f).sal = s.sal := rfl
@[simp] theorem modCall_tme (i : Nat) (f : Call → Call) : (s.modCall i f).tme = s.tme := rfl
@[simp] theorem modCall_ulc (i : Nat) (f : Call → Call) : (s.modCall i f).ulc = s.ulc := rfl
@[simp] theorem modCall_scu (i : Nat) (f : Call → Call) : (s.modCall i f).scu = s.scu := rfl
@[simp] theorem modCall_srp (i : Nat) (f : Call → Call) : (s.modCall i f).srp = s.srp := rfl
@[simp] theorem modCall_mke (i : Nat) (f : Call → Call) : (s.modCall i f).mke = s.mke := rfl
@[simp] theorem modCall_pending (i : Nat) (f : Call → Call) : (s.modCall i f).pending = s.pending := rfl
@[simp] theorem modCall_cdp_handsets (i : Nat) (f : Call → Call) : (s.modCall i f).cdp.handsets = s.cdp.handsets := rfl
@[simp] theorem modCall_seat? (i : Nat) (f : Call → Call) (j : Nat) : (s.modCall i f).seat? j = s.seat? j := rfl
@[simp] theorem modCall_cand? (i : Nat) (f : Call → Call) (j : Nat) : (s.modCall i f).cand? j = s.cand? j := rfl
@[simp] theorem modCall_sitting (i : Nat) (f : Call → Call) (j : Nat) : (s.modCall i f).sitting j = s.sitting j := rfl
@[simp] theorem modCall_link (i : Nat) (f : Call → Call) (j : LinkName) : (s.modCall i f).link j = s.link j := rfl
@[simp] theorem modCall_handset (i : Nat) (f : Call → Call) (j : Nat) : (s.modCall i f).handset j = s.handset j := rfl
@[simp] theorem modCall_channel (i : Nat) (f : Call → Call) (j : Nat) : (s.modCall i f).channel j = s.channel j := rfl
@[simp] theorem modCall_key (i : Nat) (f : Call → Call) (j : Nat) : (s.modCall i f).key j = s.key j := rfl
@[simp] theorem modCall_stored? (i : Nat) (f : Call → Call) (j : Nat) : (s.modCall i f).stored? j = s.stored? j := rfl

/-! ### putCall -/

@[simp] theorem putCall_cli (i : Nat) (x : Option Call) : (s.putCall i x).cli = s.cli := rfl
@[simp] theorem putCall_htu (i : Nat) (x : Option Call) : (s.putCall i x).htu = s.htu := rfl
@[simp] theorem putCall_sal (i : Nat) (x : Option Call) : (s.putCall i x).sal = s.sal := rfl
@[simp] theorem putCall_tme (i : Nat) (x : Option Call) : (s.putCall i x).tme = s.tme := rfl
@[simp] theorem putCall_ulc (i : Nat) (x : Option Call) : (s.putCall i x).ulc = s.ulc := rfl
@[simp] theorem putCall_scu (i : Nat) (x : Option Call) : (s.putCall i x).scu = s.scu := rfl
@[simp] theorem putCall_srp (i : Nat) (x : Option Call) : (s.putCall i x).srp = s.srp := rfl
@[simp] theorem putCall_mke (i : Nat) (x : Option Call) : (s.putCall i x).mke = s.mke := rfl
@[simp] theorem putCall_pending (i : Nat) (x : Option Call) : (s.putCall i x).pending = s.pending := rfl
@[simp] theorem putCall_cdp_handsets (i : Nat) (x : Option Call) : (s.putCall i x).cdp.handsets = s.cdp.handsets := rfl
@[simp] theorem putCall_seat? (i : Nat) (x : Option Call) (j : Nat) : (s.putCall i x).seat? j = s.seat? j := rfl
@[simp] theorem putCall_cand? (i : Nat) (x : Option Call) (j : Nat) : (s.putCall i x).cand? j = s.cand? j := rfl
@[simp] theorem putCall_sitting (i : Nat) (x : Option Call) (j : Nat) : (s.putCall i x).sitting j = s.sitting j := rfl
@[simp] theorem putCall_link (i : Nat) (x : Option Call) (j : LinkName) : (s.putCall i x).link j = s.link j := rfl
@[simp] theorem putCall_handset (i : Nat) (x : Option Call) (j : Nat) : (s.putCall i x).handset j = s.handset j := rfl
@[simp] theorem putCall_channel (i : Nat) (x : Option Call) (j : Nat) : (s.putCall i x).channel j = s.channel j := rfl
@[simp] theorem putCall_key (i : Nat) (x : Option Call) (j : Nat) : (s.putCall i x).key j = s.key j := rfl
@[simp] theorem putCall_stored? (i : Nat) (x : Option Call) (j : Nat) : (s.putCall i x).stored? j = s.stored? j := rfl

/-! ### modHandset -/

@[simp] theorem modHandset_cli (h : Nat) (f : Handset → Handset) : (s.modHandset h f).cli = s.cli := rfl
@[simp] theorem modHandset_htu (h : Nat) (f : Handset → Handset) : (s.modHandset h f).htu = s.htu := rfl
@[simp] theorem modHandset_sal (h : Nat) (f : Handset → Handset) : (s.modHandset h f).sal = s.sal := rfl
@[simp] theorem modHandset_tme (h : Nat) (f : Handset → Handset) : (s.modHandset h f).tme = s.tme := rfl
@[simp] theorem modHandset_ulc (h : Nat) (f : Handset → Handset) : (s.modHandset h f).ulc = s.ulc := rfl
@[simp] theorem modHandset_scu (h : Nat) (f : Handset → Handset) : (s.modHandset h f).scu = s.scu := rfl
@[simp] theorem modHandset_srp (h : Nat) (f : Handset → Handset) : (s.modHandset h f).srp = s.srp := rfl
@[simp] theorem modHandset_mke (h : Nat) (f : Handset → Handset) : (s.modHandset h f).mke = s.mke := rfl
@[simp] theorem modHandset_pending (h : Nat) (f : Handset → Handset) : (s.modHandset h f).pending = s.pending := rfl
@[simp] theorem modHandset_cdp_calls (h : Nat) (f : Handset → Handset) : (s.modHandset h f).cdp.calls = s.cdp.calls := rfl
@[simp] theorem modHandset_seat? (h : Nat) (f : Handset → Handset) (j : Nat) : (s.modHandset h f).seat? j = s.seat? j := rfl
@[simp] theorem modHandset_cand? (h : Nat) (f : Handset → Handset) (j : Nat) : (s.modHandset h f).cand? j = s.cand? j := rfl
@[simp] theorem modHandset_sitting (h : Nat) (f : Handset → Handset) (j : Nat) : (s.modHandset h f).sitting j = s.sitting j := rfl
@[simp] theorem modHandset_link (h : Nat) (f : Handset → Handset) (j : LinkName) : (s.modHandset h f).link j = s.link j := rfl
@[simp] theorem modHandset_call? (h : Nat) (f : Handset → Handset) (j : Nat) : (s.modHandset h f).call? j = s.call? j := rfl
@[simp] theorem modHandset_channel (h : Nat) (f : Handset → Handset) (j : Nat) : (s.modHandset h f).channel j = s.channel j := rfl
@[simp] theorem modHandset_key (h : Nat) (f : Handset → Handset) (j : Nat) : (s.modHandset h f).key j = s.key j := rfl
@[simp] theorem modHandset_stored? (h : Nat) (f : Handset → Handset) (j : Nat) : (s.modHandset h f).stored? j = s.stored? j := rfl

/-! ### modChannel -/

@[simp] theorem modChannel_cli (k : Nat) (f : Channel → Channel) : (s.modChannel k f).cli = s.cli := rfl
@[simp] theorem modChannel_htu (k : Nat) (f : Channel → Channel) : (s.modChannel k f).htu = s.htu := rfl
@[simp] theorem modChannel_sal (k : Nat) (f : Channel → Channel) : (s.modChannel k f).sal = s.sal := rfl
@[simp] theorem modChannel_tme (k : Nat) (f : Channel → Channel) : (s.modChannel k f).tme = s.tme := rfl
@[simp] theorem modChannel_ulc (k : Nat) (f : Channel → Channel) : (s.modChannel k f).ulc = s.ulc := rfl
@[simp] theorem modChannel_cdp (k : Nat) (f : Channel → Channel) : (s.modChannel k f).cdp = s.cdp := rfl
@[simp] theorem modChannel_srp (k : Nat) (f : Channel → Channel) : (s.modChannel k f).srp = s.srp := rfl
@[simp] theorem modChannel_mke (k : Nat) (f : Channel → Channel) : (s.modChannel k f).mke = s.mke := rfl
@[simp] theorem modChannel_pending (k : Nat) (f : Channel → Channel) : (s.modChannel k f).pending = s.pending := rfl
@[simp] theorem modChannel_scu_exceptions (k : Nat) (f : Channel → Channel) : (s.modChannel k f).scu.exceptions = s.scu.exceptions := rfl
@[simp] theorem modChannel_seat? (k : Nat) (f : Channel → Channel) (j : Nat) : (s.modChannel k f).seat? j = s.seat? j := rfl
@[simp] theorem modChannel_cand? (k : Nat) (f : Channel → Channel) (j : Nat) : (s.modChannel k f).cand? j = s.cand? j := rfl
@[simp] theorem modChannel_sitting (k : Nat) (f : Channel → Channel) (j : Nat) : (s.modChannel k f).sitting j = s.sitting j := rfl
@[simp] theorem modChannel_link (k : Nat) (f : Channel → Channel) (j : LinkName) : (s.modChannel k f).link j = s.link j := rfl
@[simp] theorem modChannel_call? (k : Nat) (f : Channel → Channel) (j : Nat) : (s.modChannel k f).call? j = s.call? j := rfl
@[simp] theorem modChannel_handset (k : Nat) (f : Channel → Channel) (j : Nat) : (s.modChannel k f).handset j = s.handset j := rfl
@[simp] theorem modChannel_key (k : Nat) (f : Channel → Channel) (j : Nat) : (s.modChannel k f).key j = s.key j := rfl
@[simp] theorem modChannel_stored? (k : Nat) (f : Channel → Channel) (j : Nat) : (s.modChannel k f).stored? j = s.stored? j := rfl

/-! ### modKey -/

@[simp] theorem modKey_cli (k : Nat) (f : Key → Key) : (s.modKey k f).cli = s.cli := rfl
@[simp] theorem modKey_htu (k : Nat) (f : Key → Key) : (s.modKey k f).htu = s.htu := rfl
@[simp] theorem modKey_sal (k : Nat) (f : Key → Key) : (s.modKey k f).sal = s.sal := rfl
@[simp] theorem modKey_tme (k : Nat) (f : Key → Key) : (s.modKey k f).tme = s.tme := rfl
@[simp] theorem modKey_ulc (k : Nat) (f : Key → Key) : (s.modKey k f).ulc = s.ulc := rfl
@[simp] theorem modKey_cdp (k : Nat) (f : Key → Key) : (s.modKey k f).cdp = s.cdp := rfl
@[simp] theorem modKey_scu (k : Nat) (f : Key → Key) : (s.modKey k f).scu = s.scu := rfl
@[simp] theorem modKey_srp (k : Nat) (f : Key → Key) : (s.modKey k f).srp = s.srp := rfl
@[simp] theorem modKey_pending (k : Nat) (f : Key → Key) : (s.modKey k f).pending = s.pending := rfl
@[simp] theorem modKey_mke_store (k : Nat) (f : Key → Key) : (s.modKey k f).mke.store = s.mke.store := rfl
@[simp] theorem modKey_mke_batch (k : Nat) (f : Key → Key) : (s.modKey k f).mke.batch = s.mke.batch := rfl
@[simp] theorem modKey_seat? (k : Nat) (f : Key → Key) (j : Nat) : (s.modKey k f).seat? j = s.seat? j := rfl
@[simp] theorem modKey_cand? (k : Nat) (f : Key → Key) (j : Nat) : (s.modKey k f).cand? j = s.cand? j := rfl
@[simp] theorem modKey_sitting (k : Nat) (f : Key → Key) (j : Nat) : (s.modKey k f).sitting j = s.sitting j := rfl
@[simp] theorem modKey_link (k : Nat) (f : Key → Key) (j : LinkName) : (s.modKey k f).link j = s.link j := rfl
@[simp] theorem modKey_call? (k : Nat) (f : Key → Key) (j : Nat) : (s.modKey k f).call? j = s.call? j := rfl
@[simp] theorem modKey_handset (k : Nat) (f : Key → Key) (j : Nat) : (s.modKey k f).handset j = s.handset j := rfl
@[simp] theorem modKey_channel (k : Nat) (f : Key → Key) (j : Nat) : (s.modKey k f).channel j = s.channel j := rfl
@[simp] theorem modKey_stored? (k : Nat) (f : Key → Key) (j : Nat) : (s.modKey k f).stored? j = s.stored? j := rfl

/-! ### putStore -/

@[simp] theorem putStore_cli (i : Nat) (x : Option Stored) : (s.putStore i x).cli = s.cli := rfl
@[simp] theorem putStore_htu (i : Nat) (x : Option Stored) : (s.putStore i x).htu = s.htu := rfl
@[simp] theorem putStore_sal (i : Nat) (x : Option Stored) : (s.putStore i x).sal = s.sal := rfl
@[simp] theorem putStore_tme (i : Nat) (x : Option Stored) : (s.putStore i x).tme = s.tme := rfl
@[simp] theorem putStore_ulc (i : Nat) (x : Option Stored) : (s.putStore i x).ulc = s.ulc := rfl
@[simp] theorem putStore_cdp (i : Nat) (x : Option Stored) : (s.putStore i x).cdp = s.cdp := rfl
@[simp] theorem putStore_scu (i : Nat) (x : Option Stored) : (s.putStore i x).scu = s.scu := rfl
@[simp] theorem putStore_srp (i : Nat) (x : Option Stored) : (s.putStore i x).srp = s.srp := rfl
@[simp] theorem putStore_pending (i : Nat) (x : Option Stored) : (s.putStore i x).pending = s.pending := rfl
@[simp] theorem putStore_mke_keys (i : Nat) (x : Option Stored) : (s.putStore i x).mke.keys = s.mke.keys := rfl
@[simp] theorem putStore_mke_batch (i : Nat) (x : Option Stored) : (s.putStore i x).mke.batch = s.mke.batch := rfl
@[simp] theorem putStore_seat? (i : Nat) (x : Option Stored) (j : Nat) : (s.putStore i x).seat? j = s.seat? j := rfl
@[simp] theorem putStore_cand? (i : Nat) (x : Option Stored) (j : Nat) : (s.putStore i x).cand? j = s.cand? j := rfl
@[simp] theorem putStore_sitting (i : Nat) (x : Option Stored) (j : Nat) : (s.putStore i x).sitting j = s.sitting j := rfl
@[simp] theorem putStore_link (i : Nat) (x : Option Stored) (j : LinkName) : (s.putStore i x).link j = s.link j := rfl
@[simp] theorem putStore_call? (i : Nat) (x : Option Stored) (j : Nat) : (s.putStore i x).call? j = s.call? j := rfl
@[simp] theorem putStore_handset (i : Nat) (x : Option Stored) (j : Nat) : (s.putStore i x).handset j = s.handset j := rfl
@[simp] theorem putStore_channel (i : Nat) (x : Option Stored) (j : Nat) : (s.putStore i x).channel j = s.channel j := rfl
@[simp] theorem putStore_key (i : Nat) (x : Option Stored) (j : Nat) : (s.putStore i x).key j = s.key j := rfl

/-! ### modBatch -/

@[simp] theorem modBatch_cli (f : Batch → Batch) : (s.modBatch f).cli = s.cli := rfl
@[simp] theorem modBatch_htu (f : Batch → Batch) : (s.modBatch f).htu = s.htu := rfl
@[simp] theorem modBatch_sal (f : Batch → Batch) : (s.modBatch f).sal = s.sal := rfl
@[simp] theorem modBatch_tme (f : Batch → Batch) : (s.modBatch f).tme = s.tme := rfl
@[simp] theorem modBatch_ulc (f : Batch → Batch) : (s.modBatch f).ulc = s.ulc := rfl
@[simp] theorem modBatch_cdp (f : Batch → Batch) : (s.modBatch f).cdp = s.cdp := rfl
@[simp] theorem modBatch_scu (f : Batch → Batch) : (s.modBatch f).scu = s.scu := rfl
@[simp] theorem modBatch_srp (f : Batch → Batch) : (s.modBatch f).srp = s.srp := rfl
@[simp] theorem modBatch_pending (f : Batch → Batch) : (s.modBatch f).pending = s.pending := rfl
@[simp] theorem modBatch_mke_keys (f : Batch → Batch) : (s.modBatch f).mke.keys = s.mke.keys := rfl
@[simp] theorem modBatch_mke_store (f : Batch → Batch) : (s.modBatch f).mke.store = s.mke.store := rfl
@[simp] theorem modBatch_seat? (f : Batch → Batch) (j : Nat) : (s.modBatch f).seat? j = s.seat? j := rfl
@[simp] theorem modBatch_cand? (f : Batch → Batch) (j : Nat) : (s.modBatch f).cand? j = s.cand? j := rfl
@[simp] theorem modBatch_sitting (f : Batch → Batch) (j : Nat) : (s.modBatch f).sitting j = s.sitting j := rfl
@[simp] theorem modBatch_link (f : Batch → Batch) (j : LinkName) : (s.modBatch f).link j = s.link j := rfl
@[simp] theorem modBatch_call? (f : Batch → Batch) (j : Nat) : (s.modBatch f).call? j = s.call? j := rfl
@[simp] theorem modBatch_handset (f : Batch → Batch) (j : Nat) : (s.modBatch f).handset j = s.handset j := rfl
@[simp] theorem modBatch_channel (f : Batch → Batch) (j : Nat) : (s.modBatch f).channel j = s.channel j := rfl
@[simp] theorem modBatch_key (f : Batch → Batch) (j : Nat) : (s.modBatch f).key j = s.key j := rfl
@[simp] theorem modBatch_stored? (f : Batch → Batch) (j : Nat) : (s.modBatch f).stored? j = s.stored? j := rfl

/-! ### askRetry -/

@[simp] theorem askRetry_cli : (s.askRetry).cli = s.cli := rfl
@[simp] theorem askRetry_htu : (s.askRetry).htu = s.htu := rfl
@[simp] theorem askRetry_tme : (s.askRetry).tme = s.tme := rfl
@[simp] theorem askRetry_ulc : (s.askRetry).ulc = s.ulc := rfl
@[simp] theorem askRetry_cdp : (s.askRetry).cdp = s.cdp := rfl
@[simp] theorem askRetry_scu : (s.askRetry).scu = s.scu := rfl
@[simp] theorem askRetry_srp : (s.askRetry).srp = s.srp := rfl
@[simp] theorem askRetry_mke : (s.askRetry).mke = s.mke := rfl
@[simp] theorem askRetry_pending : (s.askRetry).pending = s.pending := rfl
@[simp] theorem askRetry_sal_routes : (s.askRetry).sal.routes = s.sal.routes := rfl
@[simp] theorem askRetry_sal_queue : (s.askRetry).sal.queue = s.sal.queue := rfl
@[simp] theorem askRetry_sal_relocations : (s.askRetry).sal.relocations = s.sal.relocations := rfl
@[simp] theorem askRetry_seat? (j : Nat) : (s.askRetry).seat? j = s.seat? j := rfl
@[simp] theorem askRetry_cand? (j : Nat) : (s.askRetry).cand? j = s.cand? j := rfl
@[simp] theorem askRetry_sitting (j : Nat) : (s.askRetry).sitting j = s.sitting j := rfl
@[simp] theorem askRetry_link (j : LinkName) : (s.askRetry).link j = s.link j := rfl
@[simp] theorem askRetry_call? (j : Nat) : (s.askRetry).call? j = s.call? j := rfl
@[simp] theorem askRetry_handset (j : Nat) : (s.askRetry).handset j = s.handset j := rfl
@[simp] theorem askRetry_channel (j : Nat) : (s.askRetry).channel j = s.channel j := rfl
@[simp] theorem askRetry_key (j : Nat) : (s.askRetry).key j = s.key j := rfl
@[simp] theorem askRetry_stored? (j : Nat) : (s.askRetry).stored? j = s.stored? j := rfl

/-! ### askBroadcast -/

@[simp] theorem askBroadcast_cli : (s.askBroadcast).cli = s.cli := rfl
@[simp] theorem askBroadcast_htu : (s.askBroadcast).htu = s.htu := rfl
@[simp] theorem askBroadcast_sal : (s.askBroadcast).sal = s.sal := rfl
@[simp] theorem askBroadcast_tme : (s.askBroadcast).tme = s.tme := rfl
@[simp] theorem askBroadcast_cdp : (s.askBroadcast).cdp = s.cdp := rfl
@[simp] theorem askBroadcast_scu : (s.askBroadcast).scu = s.scu := rfl
@[simp] theorem askBroadcast_srp : (s.askBroadcast).srp = s.srp := rfl
@[simp] theorem askBroadcast_mke : (s.askBroadcast).mke = s.mke := rfl
@[simp] theorem askBroadcast_pending : (s.askBroadcast).pending = s.pending := rfl
@[simp] theorem askBroadcast_ulc_seatUnits : (s.askBroadcast).ulc.seatUnits = s.ulc.seatUnits := rfl
@[simp] theorem askBroadcast_ulc_floorUnits : (s.askBroadcast).ulc.floorUnits = s.ulc.floorUnits := rfl
@[simp] theorem askBroadcast_seat? (j : Nat) : (s.askBroadcast).seat? j = s.seat? j := rfl
@[simp] theorem askBroadcast_cand? (j : Nat) : (s.askBroadcast).cand? j = s.cand? j := rfl
@[simp] theorem askBroadcast_sitting (j : Nat) : (s.askBroadcast).sitting j = s.sitting j := rfl
@[simp] theorem askBroadcast_call? (j : Nat) : (s.askBroadcast).call? j = s.call? j := rfl
@[simp] theorem askBroadcast_handset (j : Nat) : (s.askBroadcast).handset j = s.handset j := rfl
@[simp] theorem askBroadcast_channel (j : Nat) : (s.askBroadcast).channel j = s.channel j := rfl
@[simp] theorem askBroadcast_key (j : Nat) : (s.askBroadcast).key j = s.key j := rfl
@[simp] theorem askBroadcast_stored? (j : Nat) : (s.askBroadcast).stored? j = s.stored? j := rfl

/-! ### leaveQueue -/

@[simp] theorem leaveQueue_cli (c : Nat) : (s.leaveQueue c).cli = s.cli := rfl
@[simp] theorem leaveQueue_htu (c : Nat) : (s.leaveQueue c).htu = s.htu := rfl
@[simp] theorem leaveQueue_tme (c : Nat) : (s.leaveQueue c).tme = s.tme := rfl
@[simp] theorem leaveQueue_ulc (c : Nat) : (s.leaveQueue c).ulc = s.ulc := rfl
@[simp] theorem leaveQueue_cdp (c : Nat) : (s.leaveQueue c).cdp = s.cdp := rfl
@[simp] theorem leaveQueue_scu (c : Nat) : (s.leaveQueue c).scu = s.scu := rfl
@[simp] theorem leaveQueue_srp (c : Nat) : (s.leaveQueue c).srp = s.srp := rfl
@[simp] theorem leaveQueue_mke (c : Nat) : (s.leaveQueue c).mke = s.mke := rfl
@[simp] theorem leaveQueue_pending (c : Nat) : (s.leaveQueue c).pending = s.pending := rfl
@[simp] theorem leaveQueue_sal_routes (c : Nat) : (s.leaveQueue c).sal.routes = s.sal.routes := rfl
@[simp] theorem leaveQueue_sal_retryDue (c : Nat) : (s.leaveQueue c).sal.retryDue = s.sal.retryDue := rfl
@[simp] theorem leaveQueue_sal_relocations (c : Nat) : (s.leaveQueue c).sal.relocations = s.sal.relocations := rfl
@[simp] theorem leaveQueue_seat? (c : Nat) (j : Nat) : (s.leaveQueue c).seat? j = s.seat? j := rfl
@[simp] theorem leaveQueue_cand? (c : Nat) (j : Nat) : (s.leaveQueue c).cand? j = s.cand? j := rfl
@[simp] theorem leaveQueue_sitting (c : Nat) (j : Nat) : (s.leaveQueue c).sitting j = s.sitting j := rfl
@[simp] theorem leaveQueue_link (c : Nat) (j : LinkName) : (s.leaveQueue c).link j = s.link j := rfl
@[simp] theorem leaveQueue_call? (c : Nat) (j : Nat) : (s.leaveQueue c).call? j = s.call? j := rfl
@[simp] theorem leaveQueue_handset (c : Nat) (j : Nat) : (s.leaveQueue c).handset j = s.handset j := rfl
@[simp] theorem leaveQueue_channel (c : Nat) (j : Nat) : (s.leaveQueue c).channel j = s.channel j := rfl
@[simp] theorem leaveQueue_key (c : Nat) (j : Nat) : (s.leaveQueue c).key j = s.key j := rfl
@[simp] theorem leaveQueue_stored? (c : Nat) (j : Nat) : (s.leaveQueue c).stored? j = s.stored? j := rfl

/-! ### detachCalls -/

@[simp] theorem detachCalls_cli (c : Nat) : (s.detachCalls c).cli = s.cli := rfl
@[simp] theorem detachCalls_htu (c : Nat) : (s.detachCalls c).htu = s.htu := rfl
@[simp] theorem detachCalls_sal (c : Nat) : (s.detachCalls c).sal = s.sal := rfl
@[simp] theorem detachCalls_tme (c : Nat) : (s.detachCalls c).tme = s.tme := rfl
@[simp] theorem detachCalls_ulc (c : Nat) : (s.detachCalls c).ulc = s.ulc := rfl
@[simp] theorem detachCalls_scu (c : Nat) : (s.detachCalls c).scu = s.scu := rfl
@[simp] theorem detachCalls_srp (c : Nat) : (s.detachCalls c).srp = s.srp := rfl
@[simp] theorem detachCalls_mke (c : Nat) : (s.detachCalls c).mke = s.mke := rfl
@[simp] theorem detachCalls_pending (c : Nat) : (s.detachCalls c).pending = s.pending := rfl
@[simp] theorem detachCalls_cdp_handsets (c : Nat) : (s.detachCalls c).cdp.handsets = s.cdp.handsets := rfl
@[simp] theorem detachCalls_seat? (c : Nat) (j : Nat) : (s.detachCalls c).seat? j = s.seat? j := rfl
@[simp] theorem detachCalls_cand? (c : Nat) (j : Nat) : (s.detachCalls c).cand? j = s.cand? j := rfl
@[simp] theorem detachCalls_sitting (c : Nat) (j : Nat) : (s.detachCalls c).sitting j = s.sitting j := rfl
@[simp] theorem detachCalls_link (c : Nat) (j : LinkName) : (s.detachCalls c).link j = s.link j := rfl
@[simp] theorem detachCalls_handset (c : Nat) (j : Nat) : (s.detachCalls c).handset j = s.handset j := rfl
@[simp] theorem detachCalls_channel (c : Nat) (j : Nat) : (s.detachCalls c).channel j = s.channel j := rfl
@[simp] theorem detachCalls_key (c : Nat) (j : Nat) : (s.detachCalls c).key j = s.key j := rfl
@[simp] theorem detachCalls_stored? (c : Nat) (j : Nat) : (s.detachCalls c).stored? j = s.stored? j := rfl

/-! ### repointCalls -/

@[simp] theorem repointCalls_cli (c t : Nat) : (s.repointCalls c t).cli = s.cli := rfl
@[simp] theorem repointCalls_htu (c t : Nat) : (s.repointCalls c t).htu = s.htu := rfl
@[simp] theorem repointCalls_sal (c t : Nat) : (s.repointCalls c t).sal = s.sal := rfl
@[simp] theorem repointCalls_tme (c t : Nat) : (s.repointCalls c t).tme = s.tme := rfl
@[simp] theorem repointCalls_ulc (c t : Nat) : (s.repointCalls c t).ulc = s.ulc := rfl
@[simp] theorem repointCalls_scu (c t : Nat) : (s.repointCalls c t).scu = s.scu := rfl
@[simp] theorem repointCalls_srp (c t : Nat) : (s.repointCalls c t).srp = s.srp := rfl
@[simp] theorem repointCalls_mke (c t : Nat) : (s.repointCalls c t).mke = s.mke := rfl
@[simp] theorem repointCalls_pending (c t : Nat) : (s.repointCalls c t).pending = s.pending := rfl
@[simp] theorem repointCalls_cdp_handsets (c t : Nat) : (s.repointCalls c t).cdp.handsets = s.cdp.handsets := rfl
@[simp] theorem repointCalls_seat? (c t : Nat) (j : Nat) : (s.repointCalls c t).seat? j = s.seat? j := rfl
@[simp] theorem repointCalls_cand? (c t : Nat) (j : Nat) : (s.repointCalls c t).cand? j = s.cand? j := rfl
@[simp] theorem repointCalls_sitting (c t : Nat) (j : Nat) : (s.repointCalls c t).sitting j = s.sitting j := rfl
@[simp] theorem repointCalls_link (c t : Nat) (j : LinkName) : (s.repointCalls c t).link j = s.link j := rfl
@[simp] theorem repointCalls_handset (c t : Nat) (j : Nat) : (s.repointCalls c t).handset j = s.handset j := rfl
@[simp] theorem repointCalls_channel (c t : Nat) (j : Nat) : (s.repointCalls c t).channel j = s.channel j := rfl
@[simp] theorem repointCalls_key (c t : Nat) (j : Nat) : (s.repointCalls c t).key j = s.key j := rfl
@[simp] theorem repointCalls_stored? (c t : Nat) (j : Nat) : (s.repointCalls c t).stored? j = s.stored? j := rfl

/-! ### cancelPending -/

@[simp] theorem cancelPending_cli (c : Nat) : (s.cancelPending c).cli = s.cli := rfl
@[simp] theorem cancelPending_htu (c : Nat) : (s.cancelPending c).htu = s.htu := rfl
@[simp] theorem cancelPending_sal (c : Nat) : (s.cancelPending c).sal = s.sal := rfl
@[simp] theorem cancelPending_tme (c : Nat) : (s.cancelPending c).tme = s.tme := rfl
@[simp] theorem cancelPending_ulc (c : Nat) : (s.cancelPending c).ulc = s.ulc := rfl
@[simp] theorem cancelPending_scu (c : Nat) : (s.cancelPending c).scu = s.scu := rfl
@[simp] theorem cancelPending_srp (c : Nat) : (s.cancelPending c).srp = s.srp := rfl
@[simp] theorem cancelPending_mke (c : Nat) : (s.cancelPending c).mke = s.mke := rfl
@[simp] theorem cancelPending_pending (c : Nat) : (s.cancelPending c).pending = s.pending := rfl
@[simp] theorem cancelPending_cdp_handsets (c : Nat) : (s.cancelPending c).cdp.handsets = s.cdp.handsets := rfl
@[simp] theorem cancelPending_seat? (c : Nat) (j : Nat) : (s.cancelPending c).seat? j = s.seat? j := rfl
@[simp] theorem cancelPending_cand? (c : Nat) (j : Nat) : (s.cancelPending c).cand? j = s.cand? j := rfl
@[simp] theorem cancelPending_sitting (c : Nat) (j : Nat) : (s.cancelPending c).sitting j = s.sitting j := rfl
@[simp] theorem cancelPending_link (c : Nat) (j : LinkName) : (s.cancelPending c).link j = s.link j := rfl
@[simp] theorem cancelPending_handset (c : Nat) (j : Nat) : (s.cancelPending c).handset j = s.handset j := rfl
@[simp] theorem cancelPending_channel (c : Nat) (j : Nat) : (s.cancelPending c).channel j = s.channel j := rfl
@[simp] theorem cancelPending_key (c : Nat) (j : Nat) : (s.cancelPending c).key j = s.key j := rfl
@[simp] theorem cancelPending_stored? (c : Nat) (j : Nat) : (s.cancelPending c).stored? j = s.stored? j := rfl

/-! ### setAssembler -/

@[simp] theorem setAssembler_cli (a : Assembler) : (s.setAssembler a).cli = s.cli := rfl
@[simp] theorem setAssembler_htu (a : Assembler) : (s.setAssembler a).htu = s.htu := rfl
@[simp] theorem setAssembler_sal (a : Assembler) : (s.setAssembler a).sal = s.sal := rfl
@[simp] theorem setAssembler_tme (a : Assembler) : (s.setAssembler a).tme = s.tme := rfl
@[simp] theorem setAssembler_ulc (a : Assembler) : (s.setAssembler a).ulc = s.ulc := rfl
@[simp] theorem setAssembler_cdp (a : Assembler) : (s.setAssembler a).cdp = s.cdp := rfl
@[simp] theorem setAssembler_scu (a : Assembler) : (s.setAssembler a).scu = s.scu := rfl
@[simp] theorem setAssembler_mke (a : Assembler) : (s.setAssembler a).mke = s.mke := rfl
@[simp] theorem setAssembler_pending (a : Assembler) : (s.setAssembler a).pending = s.pending := rfl
@[simp] theorem setAssembler_srp_rrdy (a : Assembler) : (s.setAssembler a).srp.rrdy = s.srp.rrdy := rfl
@[simp] theorem setAssembler_srp_parked (a : Assembler) : (s.setAssembler a).srp.parked = s.srp.parked := rfl
@[simp] theorem setAssembler_srp_verdicts (a : Assembler) : (s.setAssembler a).srp.verdicts = s.srp.verdicts := rfl
@[simp] theorem setAssembler_srp_verdictSending (a : Assembler) : (s.setAssembler a).srp.verdictSending = s.srp.verdictSending := rfl
@[simp] theorem setAssembler_srp_lastFault (a : Assembler) : (s.setAssembler a).srp.lastFault = s.srp.lastFault := rfl
@[simp] theorem setAssembler_srp_counts (a : Assembler) : (s.setAssembler a).srp.counts = s.srp.counts := rfl
@[simp] theorem setAssembler_seat? (a : Assembler) (j : Nat) : (s.setAssembler a).seat? j = s.seat? j := rfl
@[simp] theorem setAssembler_cand? (a : Assembler) (j : Nat) : (s.setAssembler a).cand? j = s.cand? j := rfl
@[simp] theorem setAssembler_sitting (a : Assembler) (j : Nat) : (s.setAssembler a).sitting j = s.sitting j := rfl
@[simp] theorem setAssembler_link (a : Assembler) (j : LinkName) : (s.setAssembler a).link j = s.link j := rfl
@[simp] theorem setAssembler_call? (a : Assembler) (j : Nat) : (s.setAssembler a).call? j = s.call? j := rfl
@[simp] theorem setAssembler_handset (a : Assembler) (j : Nat) : (s.setAssembler a).handset j = s.handset j := rfl
@[simp] theorem setAssembler_channel (a : Assembler) (j : Nat) : (s.setAssembler a).channel j = s.channel j := rfl
@[simp] theorem setAssembler_key (a : Assembler) (j : Nat) : (s.setAssembler a).key j = s.key j := rfl
@[simp] theorem setAssembler_stored? (a : Assembler) (j : Nat) : (s.setAssembler a).stored? j = s.stored? j := rfl

/-! ### setReceiver -/

@[simp] theorem setReceiver_htu (r : Receiver) : (s.setReceiver r).htu = s.htu := rfl
@[simp] theorem setReceiver_sal (r : Receiver) : (s.setReceiver r).sal = s.sal := rfl
@[simp] theorem setReceiver_tme (r : Receiver) : (s.setReceiver r).tme = s.tme := rfl
@[simp] theorem setReceiver_ulc (r : Receiver) : (s.setReceiver r).ulc = s.ulc := rfl
@[simp] theorem setReceiver_cdp (r : Receiver) : (s.setReceiver r).cdp = s.cdp := rfl
@[simp] theorem setReceiver_scu (r : Receiver) : (s.setReceiver r).scu = s.scu := rfl
@[simp] theorem setReceiver_srp (r : Receiver) : (s.setReceiver r).srp = s.srp := rfl
@[simp] theorem setReceiver_mke (r : Receiver) : (s.setReceiver r).mke = s.mke := rfl
@[simp] theorem setReceiver_pending (r : Receiver) : (s.setReceiver r).pending = s.pending := rfl
@[simp] theorem setReceiver_cli_flags (r : Receiver) : (s.setReceiver r).cli.flags = s.cli.flags := rfl
@[simp] theorem setReceiver_cli_notices (r : Receiver) : (s.setReceiver r).cli.notices = s.cli.notices := rfl
@[simp] theorem setReceiver_cli_replies (r : Receiver) : (s.setReceiver r).cli.replies = s.cli.replies := rfl
@[simp] theorem setReceiver_cli_overruns (r : Receiver) : (s.setReceiver r).cli.overruns = s.cli.overruns := rfl
@[simp] theorem setReceiver_cli_discarded (r : Receiver) : (s.setReceiver r).cli.discarded = s.cli.discarded := rfl
@[simp] theorem setReceiver_cli_lineHeld (r : Receiver) : (s.setReceiver r).cli.lineHeld = s.cli.lineHeld := rfl
@[simp] theorem setReceiver_cli_sending (r : Receiver) : (s.setReceiver r).cli.sending = s.cli.sending := rfl
@[simp] theorem setReceiver_cli_resetTaken (r : Receiver) : (s.setReceiver r).cli.resetTaken = s.cli.resetTaken := rfl
@[simp] theorem setReceiver_cli_resetDue (r : Receiver) : (s.setReceiver r).cli.resetDue = s.cli.resetDue := rfl
@[simp] theorem setReceiver_cli_hrdy (r : Receiver) : (s.setReceiver r).cli.hrdy = s.cli.hrdy := rfl
@[simp] theorem setReceiver_cli_rate1 (r : Receiver) : (s.setReceiver r).cli.rate1 = s.cli.rate1 := rfl
@[simp] theorem setReceiver_cli_rate0 (r : Receiver) : (s.setReceiver r).cli.rate0 = s.cli.rate0 := rfl
@[simp] theorem setReceiver_cli_params (r : Receiver) : (s.setReceiver r).cli.params = s.cli.params := rfl
@[simp] theorem setReceiver_cli_resets (r : Receiver) : (s.setReceiver r).cli.resets = s.cli.resets := rfl
@[simp] theorem setReceiver_seat? (r : Receiver) (j : Nat) : (s.setReceiver r).seat? j = s.seat? j := rfl
@[simp] theorem setReceiver_cand? (r : Receiver) (j : Nat) : (s.setReceiver r).cand? j = s.cand? j := rfl
@[simp] theorem setReceiver_sitting (r : Receiver) (j : Nat) : (s.setReceiver r).sitting j = s.sitting j := rfl
@[simp] theorem setReceiver_link (r : Receiver) (j : LinkName) : (s.setReceiver r).link j = s.link j := rfl
@[simp] theorem setReceiver_call? (r : Receiver) (j : Nat) : (s.setReceiver r).call? j = s.call? j := rfl
@[simp] theorem setReceiver_handset (r : Receiver) (j : Nat) : (s.setReceiver r).handset j = s.handset j := rfl
@[simp] theorem setReceiver_channel (r : Receiver) (j : Nat) : (s.setReceiver r).channel j = s.channel j := rfl
@[simp] theorem setReceiver_key (r : Receiver) (j : Nat) : (s.setReceiver r).key j = s.key j := rfl
@[simp] theorem setReceiver_stored? (r : Receiver) (j : Nat) : (s.setReceiver r).stored? j = s.stored? j := rfl

/-! ### pushReply -/

@[simp] theorem pushReply_htu (kind : Byte) (a : Answer) : (s.pushReply kind a).htu = s.htu := rfl
@[simp] theorem pushReply_sal (kind : Byte) (a : Answer) : (s.pushReply kind a).sal = s.sal := rfl
@[simp] theorem pushReply_tme (kind : Byte) (a : Answer) : (s.pushReply kind a).tme = s.tme := rfl
@[simp] theorem pushReply_ulc (kind : Byte) (a : Answer) : (s.pushReply kind a).ulc = s.ulc := rfl
@[simp] theorem pushReply_cdp (kind : Byte) (a : Answer) : (s.pushReply kind a).cdp = s.cdp := rfl
@[simp] theorem pushReply_scu (kind : Byte) (a : Answer) : (s.pushReply kind a).scu = s.scu := rfl
@[simp] theorem pushReply_srp (kind : Byte) (a : Answer) : (s.pushReply kind a).srp = s.srp := rfl
@[simp] theorem pushReply_mke (kind : Byte) (a : Answer) : (s.pushReply kind a).mke = s.mke := rfl
@[simp] theorem pushReply_pending (kind : Byte) (a : Answer) : (s.pushReply kind a).pending = s.pending := rfl
@[simp] theorem pushReply_cli_flags (kind : Byte) (a : Answer) : (s.pushReply kind a).cli.flags = s.cli.flags := rfl
@[simp] theorem pushReply_cli_notices (kind : Byte) (a : Answer) : (s.pushReply kind a).cli.notices = s.cli.notices := rfl
@[simp] theorem pushReply_cli_overruns (kind : Byte) (a : Answer) : (s.pushReply kind a).cli.overruns = s.cli.overruns := rfl
@[simp] theorem pushReply_cli_discarded (kind : Byte) (a : Answer) : (s.pushReply kind a).cli.discarded = s.cli.discarded := rfl
@[simp] theorem pushReply_cli_receiver (kind : Byte) (a : Answer) : (s.pushReply kind a).cli.receiver = s.cli.receiver := rfl
@[simp] theorem pushReply_cli_lineHeld (kind : Byte) (a : Answer) : (s.pushReply kind a).cli.lineHeld = s.cli.lineHeld := rfl
@[simp] theorem pushReply_cli_sending (kind : Byte) (a : Answer) : (s.pushReply kind a).cli.sending = s.cli.sending := rfl
@[simp] theorem pushReply_cli_resetTaken (kind : Byte) (a : Answer) : (s.pushReply kind a).cli.resetTaken = s.cli.resetTaken := rfl
@[simp] theorem pushReply_cli_resetDue (kind : Byte) (a : Answer) : (s.pushReply kind a).cli.resetDue = s.cli.resetDue := rfl
@[simp] theorem pushReply_cli_hrdy (kind : Byte) (a : Answer) : (s.pushReply kind a).cli.hrdy = s.cli.hrdy := rfl
@[simp] theorem pushReply_cli_rate1 (kind : Byte) (a : Answer) : (s.pushReply kind a).cli.rate1 = s.cli.rate1 := rfl
@[simp] theorem pushReply_cli_rate0 (kind : Byte) (a : Answer) : (s.pushReply kind a).cli.rate0 = s.cli.rate0 := rfl
@[simp] theorem pushReply_cli_params (kind : Byte) (a : Answer) : (s.pushReply kind a).cli.params = s.cli.params := rfl
@[simp] theorem pushReply_cli_resets (kind : Byte) (a : Answer) : (s.pushReply kind a).cli.resets = s.cli.resets := rfl
@[simp] theorem pushReply_seat? (kind : Byte) (a : Answer) (j : Nat) : (s.pushReply kind a).seat? j = s.seat? j := rfl
@[simp] theorem pushReply_cand? (kind : Byte) (a : Answer) (j : Nat) : (s.pushReply kind a).cand? j = s.cand? j := rfl
@[simp] theorem pushReply_sitting (kind : Byte) (a : Answer) (j : Nat) : (s.pushReply kind a).sitting j = s.sitting j := rfl
@[simp] theorem pushReply_link (kind : Byte) (a : Answer) (j : LinkName) : (s.pushReply kind a).link j = s.link j := rfl
@[simp] theorem pushReply_call? (kind : Byte) (a : Answer) (j : Nat) : (s.pushReply kind a).call? j = s.call? j := rfl
@[simp] theorem pushReply_handset (kind : Byte) (a : Answer) (j : Nat) : (s.pushReply kind a).handset j = s.handset j := rfl
@[simp] theorem pushReply_channel (kind : Byte) (a : Answer) (j : Nat) : (s.pushReply kind a).channel j = s.channel j := rfl
@[simp] theorem pushReply_key (kind : Byte) (a : Answer) (j : Nat) : (s.pushReply kind a).key j = s.key j := rfl
@[simp] theorem pushReply_stored? (kind : Byte) (a : Answer) (j : Nat) : (s.pushReply kind a).stored? j = s.stored? j := rfl

/-! ### toHunt -/

@[simp] theorem toHunt_htu : s.toHunt.htu = s.htu := rfl
@[simp] theorem toHunt_sal : s.toHunt.sal = s.sal := rfl
@[simp] theorem toHunt_tme : s.toHunt.tme = s.tme := rfl
@[simp] theorem toHunt_ulc : s.toHunt.ulc = s.ulc := rfl
@[simp] theorem toHunt_cdp : s.toHunt.cdp = s.cdp := rfl
@[simp] theorem toHunt_scu : s.toHunt.scu = s.scu := rfl
@[simp] theorem toHunt_srp : s.toHunt.srp = s.srp := rfl
@[simp] theorem toHunt_mke : s.toHunt.mke = s.mke := rfl
@[simp] theorem toHunt_pending : s.toHunt.pending = s.pending := rfl
@[simp] theorem toHunt_cli_flags : s.toHunt.cli.flags = s.cli.flags := rfl
@[simp] theorem toHunt_cli_notices : s.toHunt.cli.notices = s.cli.notices := rfl
@[simp] theorem toHunt_cli_replies : s.toHunt.cli.replies = s.cli.replies := rfl
@[simp] theorem toHunt_cli_overruns : s.toHunt.cli.overruns = s.cli.overruns := rfl
@[simp] theorem toHunt_cli_discarded : s.toHunt.cli.discarded = s.cli.discarded := rfl
@[simp] theorem toHunt_cli_lineHeld : s.toHunt.cli.lineHeld = s.cli.lineHeld := rfl
@[simp] theorem toHunt_cli_sending : s.toHunt.cli.sending = s.cli.sending := rfl
@[simp] theorem toHunt_cli_resetTaken : s.toHunt.cli.resetTaken = s.cli.resetTaken := rfl
@[simp] theorem toHunt_cli_resetDue : s.toHunt.cli.resetDue = s.cli.resetDue := rfl
@[simp] theorem toHunt_cli_hrdy : s.toHunt.cli.hrdy = s.cli.hrdy := rfl
@[simp] theorem toHunt_cli_rate1 : s.toHunt.cli.rate1 = s.cli.rate1 := rfl
@[simp] theorem toHunt_cli_rate0 : s.toHunt.cli.rate0 = s.cli.rate0 := rfl
@[simp] theorem toHunt_cli_params : s.toHunt.cli.params = s.cli.params := rfl
@[simp] theorem toHunt_cli_resets : s.toHunt.cli.resets = s.cli.resets := rfl
@[simp] theorem toHunt_seat? (j : Nat) : s.toHunt.seat? j = s.seat? j := rfl
@[simp] theorem toHunt_cand? (j : Nat) : s.toHunt.cand? j = s.cand? j := rfl
@[simp] theorem toHunt_sitting (j : Nat) : s.toHunt.sitting j = s.sitting j := rfl
@[simp] theorem toHunt_link (j : LinkName) : s.toHunt.link j = s.link j := rfl
@[simp] theorem toHunt_call? (j : Nat) : s.toHunt.call? j = s.call? j := rfl
@[simp] theorem toHunt_handset (j : Nat) : s.toHunt.handset j = s.handset j := rfl
@[simp] theorem toHunt_channel (j : Nat) : s.toHunt.channel j = s.channel j := rfl
@[simp] theorem toHunt_key (j : Nat) : s.toHunt.key j = s.key j := rfl
@[simp] theorem toHunt_stored? (j : Nat) : s.toHunt.stored? j = s.stored? j := rfl
@[simp] theorem toHunt_receiver : s.toHunt.cli.receiver = .hunt := rfl
@[simp] theorem toHunt_route? (p : Paper) : s.toHunt.route? p = s.route? p := rfl
@[simp] theorem toHunt_unit (l : LinkName) (a : Nat) : s.toHunt.unit l a = s.unit l a := rfl
@[simp] theorem toHunt_boundTo (i : Nat) : s.toHunt.boundTo i = s.boundTo i := rfl
@[simp] theorem toHunt_activeSlot (n : Nat) : s.toHunt.activeSlot n = s.activeSlot n := rfl
@[simp] theorem toHunt_lookup (n : Nat) (k : Option Nat) : s.toHunt.lookup n k = s.lookup n k := rfl
@[simp] theorem toHunt_searchZones (k : Nat) (needs : Attrs) (c : Option Nat) (zones : List Nat) :
    s.toHunt.searchZones k needs c zones = s.searchZones k needs c zones := rfl
@[simp] theorem toHunt_callOfSeat (i : Nat) : s.toHunt.callOfSeat i = s.callOfSeat i := rfl

@[simp] theorem toHunt_queueEntries : s.toHunt.queueEntries = s.queueEntries := rfl
@[simp] theorem toHunt_lacksNeeds (needs : Attrs) (i : Nat) : s.toHunt.lacksNeeds needs i = s.lacksNeeds needs i := rfl
@[simp] theorem toHunt_kindAllows (kind : CallKind) (c : Candidate) :
    s.toHunt.kindAllows kind c = s.kindAllows kind c := rfl
@[simp] theorem toHunt_raiseOutcome (seat : Nat) (kind : CallKind) :
    s.toHunt.raiseOutcome seat kind = s.raiseOutcome seat kind := rfl
@[simp] theorem toHunt_newCall (seat slot : Nat) (kind : CallKind) :
    s.toHunt.newCall seat slot kind = s.newCall seat slot kind := rfl
@[simp] theorem toHunt_pendingCalls : s.toHunt.pendingCalls = s.pendingCalls := rfl
@[simp] theorem toHunt_dispatchable (c : Call) : s.toHunt.dispatchable c = s.dispatchable c := rfl
@[simp] theorem toHunt_callSeat (c : Call) : s.toHunt.callSeat c = s.callSeat c := rfl
@[simp] theorem toHunt_zoneCovers (h : Handset) (c : Call) : s.toHunt.zoneCovers h c = s.zoneCovers h c := rfl
@[simp] theorem toHunt_belowTop (h : Handset) (c : Call) : s.toHunt.belowTop h c = s.belowTop h c := rfl
@[simp] theorem toHunt_eligible (h : Handset) (c : Call) : s.toHunt.eligible h c = s.eligible h c := rfl
@[simp] theorem toHunt_eligibleCalls (h : Nat) : s.toHunt.eligibleCalls h = s.eligibleCalls h := rfl
@[simp] theorem toHunt_waitingCount (h : Nat) : s.toHunt.waitingCount h = s.waitingCount h := rfl
@[simp] theorem toHunt_handsetDisplay (h : Nat) : s.toHunt.handsetDisplay h = s.handsetDisplay h := rfl
@[simp] theorem toHunt_alertDetail (i : Nat) : s.toHunt.alertDetail i = s.alertDetail i := rfl
@[simp] theorem toHunt_alertAnswer (i : Nat) (o : RaiseOutcome) : s.toHunt.alertAnswer i o = s.alertAnswer i o := rfl
@[simp] theorem toHunt_callView (i : Nat) (c : Call) : s.toHunt.callView i c = s.callView i c := rfl
@[simp] theorem toHunt_serviceViews : s.toHunt.serviceViews = s.serviceViews := rfl
@[simp] theorem toHunt_markView (x : Sitting) (position : Nat) (e : MarkEntry) :
    s.toHunt.markView x position e = s.markView x position e := rfl
@[simp] theorem toHunt_markViews (x : Sitting) (first count : Nat) :
    s.toHunt.markViews x first count = s.markViews x first count := rfl
@[simp] theorem toHunt_firstSeat (stride : Stride) (start finish : Nat) :
    s.toHunt.firstSeat stride start finish = s.firstSeat stride start finish := rfl
@[simp] theorem toHunt_scriptView (c : Nat) : s.toHunt.scriptView c = s.scriptView c := rfl
@[simp] theorem toHunt_leavesOutBusy (units : FloorSet) : s.toHunt.leavesOutBusy units = s.leavesOutBusy units := rfl
@[simp] theorem toHunt_paramBusy (id : Nat) (p : Params) : s.toHunt.paramBusy id p = s.paramBusy id p := rfl
@[simp] theorem toHunt_identity : s.toHunt.identity = s.identity := rfl
@[simp] theorem toHunt_hold : s.toHunt.hold = s.hold := rfl
@[simp] theorem toHunt_isMember (l : LinkName) (a : Nat) : s.toHunt.isMember l a = s.isMember l a := rfl
@[simp] theorem toHunt_linkMembers (l : LinkName) : s.toHunt.linkMembers l = s.linkMembers l := rfl
@[simp] theorem toHunt_displayState (x : Seat) : s.toHunt.displayState x = s.displayState x := rfl
@[simp] theorem toHunt_seatMode (x : Seat) : s.toHunt.seatMode x = s.seatMode x := rfl
@[simp] theorem toHunt_seatWarning (x : Seat) : s.toHunt.seatWarning x = s.seatWarning x := rfl
@[simp] theorem toHunt_callMark (i : Nat) : s.toHunt.callMark i = s.callMark i := rfl
@[simp] theorem toHunt_heldMark (x : Seat) : s.toHunt.heldMark x = s.heldMark x := rfl
@[simp] theorem toHunt_derivedDisplay (i : Nat) : s.toHunt.derivedDisplay i = s.derivedDisplay i := rfl
@[simp] theorem toHunt_seatDisplay (l : LinkName) (i : Nat) : s.toHunt.seatDisplay l i = s.seatDisplay l i := rfl
@[simp] theorem toHunt_formPoll (l : LinkName) (a : Nat) : s.toHunt.formPoll l a = s.formPoll l a := rfl
@[simp] theorem toHunt_cardOutcome (i number : Nat) : s.toHunt.cardOutcome i number = s.cardOutcome i number := rfl
@[simp] theorem toHunt_takesContents (i : Nat) : s.toHunt.takesContents i = s.takesContents i := rfl
@[simp] theorem toHunt_linksFor (b : Byte) (p : Link → Bool) : s.toHunt.linksFor b p = s.linksFor b p := rfl
@[simp] theorem toHunt_unitView (l : LinkName) (a : Nat) : s.toHunt.unitView l a = s.unitView l a := rfl
@[simp] theorem toHunt_judge (x : Sheet) : s.toHunt.judge x = s.judge x := rfl
@[simp] theorem toHunt_storingKind (slot : Nat) : s.toHunt.storingKind slot = s.storingKind slot := rfl
@[simp] theorem toHunt_emptySlots : s.toHunt.emptySlots = s.emptySlots := rfl
@[simp] theorem toHunt_resultSlot (slot : Nat) : s.toHunt.resultSlot slot = s.resultSlot slot := rfl
@[simp] theorem toHunt_keyInUse (k : Nat) : s.toHunt.keyInUse k = s.keyInUse k := rfl
@[simp] theorem toHunt_keyBusy : s.toHunt.keyBusy = s.keyBusy := rfl
@[simp] theorem toHunt_parkedFor (slot : Nat) : s.toHunt.parkedFor slot = s.parkedFor slot := rfl
@[simp] theorem toHunt_storedOf (k : Nat) : s.toHunt.storedOf k = s.storedOf k := rfl
@[simp] theorem toHunt_slotsWhere (p : Candidate → Bool) : s.toHunt.slotsWhere p = s.slotsWhere p := rfl
@[simp] theorem toHunt_countCands (p : Candidate → Bool) : s.toHunt.countCands p = s.countCands p := rfl
@[simp] theorem toHunt_callsWhere (p : Call → Bool) : s.toHunt.callsWhere p = s.callsWhere p := rfl
@[simp] theorem toHunt_callsOfSitting (k : Nat) : s.toHunt.callsOfSitting k = s.callsOfSitting k := rfl
@[simp] theorem toHunt_blocksSpacing (k : Nat) (c : Option Nat) (i : Nat) :
    s.toHunt.blocksSpacing k c i = s.blocksSpacing k c i := rfl
@[simp] theorem toHunt_qualifies (k : Nat) (needs : Attrs) (c : Option Nat) (i : Nat) :
    s.toHunt.qualifies k needs c i = s.qualifies k needs c i := rfl
@[simp] theorem toHunt_examined (needs : Attrs) (z : Nat) (second : Bool) (i : Nat) :
    s.toHunt.examined needs z second i = s.examined needs z second i := rfl
@[simp] theorem toHunt_allocationZones (k : Nat) : s.toHunt.allocationZones k = s.allocationZones k := rfl
@[simp] theorem toHunt_relocationZones (k i : Nat) : s.toHunt.relocationZones k i = s.relocationZones k i := rfl
@[simp] theorem toHunt_searchSeat (k : Nat) (needs : Attrs) (c : Option Nat) :
    s.toHunt.searchSeat k needs c = s.searchSeat k needs c := rfl
@[simp] theorem toHunt_seatState (i : Nat) : s.toHunt.seatState i = s.seatState i := rfl
@[simp] theorem toHunt_seatWithState (i : Option Nat) : s.toHunt.seatWithState i = s.seatWithState i := rfl
@[simp] theorem toHunt_seatRecords (ids : List Nat) : s.toHunt.seatRecords ids = s.seatRecords ids := rfl
@[simp] theorem toHunt_candidateNamed (slot : Half) (number : Word) (sitting : Byte) :
    s.toHunt.candidateNamed slot number sitting = s.candidateNamed slot number sitting := rfl
@[simp] theorem toHunt_startsNow (hour minute second : Byte) :
    s.toHunt.startsNow hour minute second = s.startsNow hour minute second := rfl
@[simp] theorem toHunt_sittingsFor (b : Byte) (p : Sitting → Bool) : s.toHunt.sittingsFor b p = s.sittingsFor b p := rfl
@[simp] theorem toHunt_holdDetail (b : Byte) : s.toHunt.holdDetail b = s.holdDetail b := rfl
@[simp] theorem toHunt_owing (k : Nat) : s.toHunt.owing k = s.owing k := rfl
@[simp] theorem toHunt_batchOf (k : Nat) : s.toHunt.batchOf k = s.batchOf k := rfl
@[simp] theorem toHunt_closeCounts (k : Nat) : s.toHunt.closeCounts k = s.closeCounts k := rfl
@[simp] theorem toHunt_candidatesOf (k : Nat) : s.toHunt.candidatesOf k = s.candidatesOf k := rfl
@[simp] theorem toHunt_clearable (k : Nat) : s.toHunt.clearable k = s.clearable k := rfl
@[simp] theorem toHunt_countByState (k : Nat) : s.toHunt.countByState k = s.countByState k := rfl
@[simp] theorem toHunt_needsCollection (i : Nat) : s.toHunt.needsCollection i = s.needsCollection i := rfl
@[simp] theorem toHunt_nextSeat (stride : Stride) (i finish : Nat) :
    s.toHunt.nextSeat stride i finish = s.nextSeat stride i finish := rfl
@[simp] theorem toHunt_currentDone (k : Nat) : s.toHunt.currentDone k = s.currentDone k := rfl
@[simp] theorem toHunt_boundNumber (i : Nat) : s.toHunt.boundNumber i = s.boundNumber i := rfl
@[simp] theorem toHunt_freesOnUnbind (i : Nat) : s.toHunt.freesOnUnbind i = s.freesOnUnbind i := rfl
@[simp] theorem toHunt_bindingState (x : Seat) : s.toHunt.bindingState x = s.bindingState x := rfl
@[simp] theorem toHunt_liveRest (slot : Nat) : s.toHunt.liveRest slot = s.liveRest slot := rfl
@[simp] theorem toHunt_armedWhere (p : HallTime → Bool) : s.toHunt.armedWhere p = s.armedWhere p := rfl
@[simp] theorem toHunt_startedByJump (t0 t1 : HallTime) (carried : Bool) :
    s.toHunt.startedByJump t0 t1 carried = s.startedByJump t0 t1 carried := rfl

end Sys2Proof.Machine
end

