-- ==== Sys2Proof/Laws/Tables.lean ====
section
/-!
SUPPORT. What reading a table gives after one of its entries is changed, and what the searches of a table find.
-/

namespace Sys2Proof.Machine

/-! ### One entry of a table -/

/-- The entry changed reads as changed; every other reads as before. -/
theorem modAt_getElem? {α : Type} {n : Nat} (v : Vector α n) (i j : Nat) (f : α → α) :
    (modAt v i f)[j]? = if j = i then v[i]?.map f else v[j]? := by
  unfold modAt
  by_cases hij : j = i
  · subst hij
    cases hv : v[j]? with
    | none => simp [hv]
    | some x =>
      obtain ⟨h, -⟩ := Vector.getElem?_eq_some_iff.mp hv
      simp [h]
  · cases hv : v[i]? with
    | none => simp [hij]
    | some x => simp [hij, Ne.symm hij]

/-- Every entry of a table changed alike. -/
theorem mapAll_getElem? {α : Type} {n : Nat} (v : Vector α n) (f : α → α) (j : Nat) : (mapAll f v)[j]? = v[j]?.map f := by
  simp [mapAll]

/-- A seat after a seat was changed. -/
theorem seat?_modSeat (s : State) (i j : Nat) (f : Seat → Seat) :
    (s.modSeat i f).seat? j = if j = i then (s.seat? i).map f else s.seat? j := by
  simp [State.seat?, State.modSeat, modAt_getElem?]

/-- A candidate after a candidate was changed. -/
theorem cand?_modCand (s : State) (c d : Nat) (f : Candidate → Candidate) :
    (s.modCand c f).cand? d = if d = c then (s.cand? c).map f else s.cand? d := by
  simp only [State.cand?, State.modCand, modAt_getElem?]
  by_cases h : d = c
  · subst h
    cases s.htu.cands[d]? with
    | none => simp
    | some o => cases o <;> simp
  · simp [h]

/-- A candidate slot after a slot was filled or freed. -/
theorem cand?_putCand (s : State) (c d : Nat) (x : Option Candidate) (hc : c < 512) :
    (s.putCand c x).cand? d = if d = c then x else s.cand? d := by
  simp only [State.cand?, State.putCand, Vector.getElem?_setIfInBounds]
  by_cases h : c = d
  · subst h; simp [hc]
  · simp [h, Ne.symm h]

/-- A sitting after a sitting was changed. -/
theorem sitting_modSitting (s : State) (k j : Nat) (f : Sitting → Sitting) (hk : k < 8) :
    (s.modSitting k f).sitting j = if j = k then f (s.sitting k) else s.sitting j := by
  simp only [State.sitting, State.modSitting, modAt_getElem?]
  by_cases h : j = k
  · subst h; simp [hk]
  · simp [h]

/-- The places of the five links are distinct. -/
theorem linkIndex_inj {l m : LinkName} (h : linkIndex l = linkIndex m) : l = m := by
  cases l <;> cases m <;> simp_all [linkIndex]

/-- A link after a link was changed. -/
theorem link_modLink (s : State) (l m : LinkName) (f : Link → Link) :
    (s.modLink l f).link m = if m = l then f (s.link l) else s.link m := by
  simp only [State.link, State.modLink, modAt_getElem?]
  by_cases h : m = l
  · subst h; cases m <;> simp [linkIndex]
  · have hne : linkIndex m ≠ linkIndex l := fun e => h (linkIndex_inj e)
    simp [h, hne]

/-- A call after a call was changed. -/
theorem call?_modCall (s : State) (i j : Nat) (f : Call → Call) :
    (s.modCall i f).call? j = if j = i then (s.call? i).map f else s.call? j := by
  simp only [State.call?, State.modCall, modAt_getElem?]
  by_cases h : j = i
  · subst h
    cases s.cdp.calls[j]? with
    | none => simp
    | some o => cases o <;> simp
  · simp [h]

/-- A call id after an id was given or freed. -/
theorem call?_putCall (s : State) (i j : Nat) (x : Option Call) (hi : i < 48) :
    (s.putCall i x).call? j = if j = i then x else s.call? j := by
  simp only [State.call?, State.putCall, Vector.getElem?_setIfInBounds]
  by_cases h : i = j
  · subst h; simp [hi]
  · simp [h, Ne.symm h]

/-- A handset after a handset was changed. -/
theorem handset_modHandset (s : State) (h j : Nat) (f : Handset → Handset) (hh : h < 8) :
    (s.modHandset h f).handset j = if j = h then f (s.handset h) else s.handset j := by
  simp only [State.handset, State.modHandset, modAt_getElem?]
  by_cases e : j = h
  · subst e; simp [hh]
  · simp [e]

/-- A channel after a channel was changed. -/
theorem channel_modChannel (s : State) (k j : Nat) (f : Channel → Channel) (hk : k < 4) :
    (s.modChannel k f).channel j = if j = k then f (s.channel k) else s.channel j := by
  simp only [State.channel, State.modChannel, modAt_getElem?]
  by_cases h : j = k
  · subst h; simp [hk]
  · simp [h]

/-- A key after a key was changed. -/
theorem key_modKey (s : State) (k j : Nat) (f : Key → Key) (hk : k < 8) :
    (s.modKey k f).key j = if j = k then f (s.key k) else s.key j := by
  simp only [State.key, State.modKey, modAt_getElem?]
  by_cases h : j = k
  · subst h; simp [hk]
  · simp [h]

/-- A store slot after a slot was filled, changed or emptied. -/
theorem stored?_putStore (s : State) (i j : Nat) (x : Option Stored) (hi : i < 64) :
    (s.putStore i x).stored? j = if j = i then x else s.stored? j := by
  simp only [State.stored?, State.putStore, Vector.getElem?_setIfInBounds]
  by_cases h : i = j
  · subst h; simp [hi]
  · simp [h, Ne.symm h]

/-! ### Searches of a table -/

/-- An index listed is that of an entry for which the test holds, and conversely. -/
theorem mem_indexesWhere {α : Type} {n : Nat} (p : α → Bool) (v : Vector α n) (i : Nat) :
    i ∈ indexesWhere p v ↔ ∃ x, v[i]? = some x ∧ p x = true := by
  simp only [indexesWhere, List.mem_map, List.mem_filter, List.mem_zipIdx_iff_getElem?, Prod.exists]
  constructor
  · rintro ⟨a, b, ⟨h1, h2⟩, rfl⟩
    exact ⟨a, by simpa using h1, h2⟩
  · rintro ⟨x, h1, h2⟩
    exact ⟨x, i, ⟨by simpa using h1, h2⟩, rfl⟩

/-- The entry found satisfies the test, and no lower one does. -/
theorem lowestWhere_eq_some {α : Type} {n : Nat} (p : α → Bool) (v : Vector α n) (i : Nat) :
    lowestWhere p v = some i ↔
      ∃ x, v[i]? = some x ∧ p x = true ∧ ∀ j < i, ∀ y, v[j]? = some y → p y = false := by
  unfold lowestWhere
  rw [List.findIdx?_eq_some_iff_getElem]
  constructor
  · rintro ⟨h, hp, hl⟩
    have hi : i < n := by simpa using h
    refine ⟨v[i], by simp [hi], by simpa using hp, ?_⟩
    intro j hj y hy
    have := hl j hj
    have hjn : j < n := by omega
    simp [Vector.getElem?_eq_getElem hjn] at hy
    subst hy
    simpa using this
  · rintro ⟨x, hx, hp, hl⟩
    obtain ⟨hi, rfl⟩ := Vector.getElem?_eq_some_iff.mp hx
    refine ⟨by simpa using hi, by simpa using hp, ?_⟩
    intro j hj
    have := hl j hj v[j] (by simp)
    simpa using this

/-- None is found exactly when no entry satisfies the test. -/
theorem lowestWhere_eq_none {α : Type} {n : Nat} (p : α → Bool) (v : Vector α n) :
    lowestWhere p v = none ↔ ∀ x ∈ v.toList, p x = false := by
  simp [lowestWhere, List.findIdx?_eq_none_iff]

/-- An index found lies within the table. -/
theorem lowestWhere_lt {α : Type} {n : Nat} {p : α → Bool} {v : Vector α n} {i : Nat} (h : lowestWhere p v = some i) :
    i < n := by
  obtain ⟨x, hx, -⟩ := (lowestWhere_eq_some p v i).mp h
  exact (Vector.getElem?_eq_some_iff.mp hx).1

end Sys2Proof.Machine
end

