-- ==== Sys2Proof/Laws/Answer.lean ====
section
/-!
SUPPORT. How a request is answered, once for all requests: what the argument checks come to, and what the outcome of a
request row is in each of the three states its frame may find (line held, request waiting, listening).
-/

namespace Sys2Proof.Machine

/-! ### Argument checks -/

@[simp] theorem firstBad_nil : firstBad [] = none := rfl

/-- A first check that fails is the first that fails. -/
@[simp] theorem firstBad_cons_false (l : List Bool) : firstBad (false :: l) = some 1 := rfl

/-- A first check that holds leaves the question to the others. -/
@[simp] theorem firstBad_cons_true (l : List Bool) : firstBad (true :: l) = (firstBad l).map (· + 1) := by
  cases h : l.findIdx? (fun ok => !ok) <;> simp [firstBad, List.findIdx?_cons, h]

/-- No check fails exactly when all hold. -/
theorem firstBad_eq_none {l : List Bool} : firstBad l = none ↔ ∀ b ∈ l, b = true := by
  simp [firstBad, List.findIdx?_eq_none_iff]

/-- With every argument in range the request is taken. -/
theorem withArgs_of_all {checks : List Bool} {take : State → State × Answer} {s : State} (h : ∀ b ∈ checks, b = true) :
    withArgs checks take s = take s := by
  simp [withArgs, firstBad_eq_none.mpr h]

/-- With an argument out of range the request is refused, and nothing changes. -/
theorem withArgs_of_bad {checks : List Bool} {take : State → State × Answer} {s : State} {p : Nat}
    (h : firstBad checks = some p) : withArgs checks take s = (s, badArgument p) := by
  simp [withArgs, h]

/-! ### The first condition that fails -/

@[simp] theorem firstFails_nil (answer : Nat → Prop) (n : Nat) : firstFails answer n [] = True := rfl

@[simp] theorem firstFails_cons (answer : Nat → Prop) (n : Nat) (p : Prop) (l : List Prop) :
    firstFails answer n (p :: l) = ((¬p → answer n) ∧ (p → firstFails answer (n + 1) l)) := rfl

/-- What the argument checks of a request come to: when the check at a place answers it, the first condition that fails is
answered by its place. -/
theorem firstFails_of_firstBad {answer : Nat → Prop} (checks : List Bool) (n : Nat)
    (h : ∀ p, firstBad checks = some p → answer (n + p)) : firstFails answer (n + 1) (checks.map (· = true)) := by
  induction checks generalizing n with
  | nil => exact trivial
  | cons b l ih =>
    refine ⟨fun hb => h 1 ?_, fun hb => ih (n + 1) fun p hp => ?_⟩
    · cases b
      · rfl
      · exact absurd rfl hb
    · subst hb
      rw [Nat.add_assoc, Nat.add_comm 1 p]
      exact h (p + 1) (by simp [hp])

/-! ### The transmitters -/

/-- The transmitters begin what they may once: with nothing in between they begin nothing more. -/
@[simp] theorem settle_settle (s : State) : s.settle.settle = s.settle := by
  have verdict : ∀ t : State, t.beginFrame.beginVerdict = t.beginVerdict.beginFrame := by
    intro t
    unfold State.beginVerdict State.beginFrame
    split <;> split <;> simp_all [State.nextFrame]
  have once : ∀ t : State, t.beginVerdict.beginVerdict = t.beginVerdict := by
    intro t
    unfold State.beginVerdict
    split <;> simp_all
  have frame : ∀ t : State, t.beginFrame.beginFrame = t.beginFrame := by
    intro t
    unfold State.beginFrame
    by_cases h : (t.cli.hrdy && t.cli.sending.isNone && t.cli.resetDue.isNone) = true
    · simp [h, State.nextFrame]
    · simp [h]
  unfold State.settle
  rw [verdict, once, frame]

@[simp] theorem takeRun_nil {α : Type} (take : α → State → State) (s : State) : s.takeRun take [] = s := rfl

/-- The first byte of a run is taken and the transmitters begin what they may, then the rest. -/
@[simp] theorem takeRun_cons {α : Type} (take : α → State → State) (s : State) (b : α) (run : List α) :
    s.takeRun take (b :: run) = (take b s).settle.takeRun take run := rfl

/-- The event of a run of bytes is over when its last byte's is. -/
theorem done_takeRun {α : Type} (take : α → State → State) (s : State) (b : α) (run : List α) :
    done (s.takeRun take (b :: run)) = .next (s.takeRun take (b :: run)) := by
  have fixed : ∀ (l : List α) (t : State), t.settle = t → (t.takeRun take l).settle = t.takeRun take l := by
    intro l
    induction l with
    | nil => exact fun t h => h
    | cons c l ih => exact fun t _ => ih _ (settle_settle _)
  exact congrArg _ (fixed run _ (settle_settle _))

/-! ### The outcome of a request row -/

/-- The receiver listens exactly when the line is not held and no request is waiting. -/
theorem listening_iff {s : State} : s.listening = true ↔ s.cli.lineHeld = false ∧ s.waiting = false := by
  simp [State.listening]

/-- Taken: the block answers, and the reply joins the list. -/
theorem answerTo_listening {kind : Byte} {handle : State → State × Answer} {s : State} (hl : s.listening = true) :
    answerTo kind handle s = ((handle s.toHunt).1).replied kind (handle s.toHunt).2 := by
  obtain ⟨h1, h2⟩ := listening_iff.mp hl
  simp [answerTo, State.request, State.requestThen, State.onFrame, h1, h2, Machine.done, State.replied, State.toHunt]

/-- Taken with an argument out of range: the first check that fails is named, and nothing changes. -/
theorem answerTo_firstFails {kind : Byte} {checks : List Bool} {take : State → State × Answer} {s : State}
    (hl : s.listening = true) :
    firstFails (fun n => answerTo kind (withArgs checks take) s = s.toHunt.replied kind (badArgument n)) 1
      (checks.map (· = true)) :=
  firstFails_of_firstBad checks 0 fun p hp => by
    rw [answerTo_listening hl, withArgs_of_bad hp, Nat.zero_add]

/-- Line held: the frame is not received. -/
theorem answerTo_held {kind : Byte} {handle : State → State × Answer} {s : State} (h : s.cli.lineHeld = true) :
    answerTo kind handle s = .next s.settle := by
  simp [answerTo, State.request, State.requestThen, State.onFrame, h, Machine.done]

/-- A request waiting: the frame is discarded and counted. -/
theorem answerTo_waiting {kind : Byte} {handle : State → State × Answer} {s : State} (h : s.cli.lineHeld = false)
    (hw : s.waiting = true) : answerTo kind handle s = .next s.discardFrame.settle := by
  simp [answerTo, State.request, State.requestThen, State.onFrame, h, hw, Machine.done]

end Sys2Proof.Machine
end

