-- ==== Sys2Proof/Laws/PerInstr.lean ====
section
/-!
SUPPORT. One property of every command as syntax, a lemma for each constructor: a command that has a request encoding and
is well formed has a kind among the request kinds and a body no longer than a control frame's body may be (11.2).
-/

namespace Sys2Proof.Laws.Encoding

/-- The kind of an encoding is 0x01 to 0x3D, and its body has at most 1024 bytes. -/
def Statement (i : Instr) : Prop :=
  ∀ (kind : Byte) (body : List Byte), i.wellFormed = true → encodeRequest i = some (kind, body) →
    1 ≤ kind.toNat ∧ kind.toNat ≤ 0x3D ∧ body.length ≤ maxBody

@[simp] theorem length_halfBytes (v : Half) : (halfBytes v).length = 2 := rfl

@[simp] theorem length_wordBytes (v : Word) : (wordBytes v).length = 4 := rfl

@[simp] theorem length_entryBytes (l : List KeyEntry) : (entryBytes l).length = l.length * 3 := by
  simp [entryBytes, List.length_flatMap]

/-! ### Requests -/

theorem defineSeats (first last : Half) (kind zone attrs : Byte) :
    Statement (.defineSeats first last kind zone attrs) := by
  intro kind body _ h
  cases h
  exact ⟨by decide, by decide, by simp [maxBody]⟩

theorem holdSeat (seat : Half) : Statement (.holdSeat seat) := by
  intro kind body _ h
  cases h
  exact ⟨by decide, by decide, by simp [maxBody]⟩

theorem freeSeat (seat : Half) : Statement (.freeSeat seat) := by
  intro kind body _ h
  cases h
  exact ⟨by decide, by decide, by simp [maxBody]⟩

theorem repairSeat (seat : Half) : Statement (.repairSeat seat) := by
  intro kind body _ h
  cases h
  exact ⟨by decide, by decide, by simp [maxBody]⟩

theorem readSeat (first : Half) (count : Byte) : Statement (.readSeat first count) := by
  intro kind body _ h
  cases h
  exact ⟨by decide, by decide, by simp [maxBody]⟩

theorem withdraw (slot : Half) : Statement (.withdraw slot) := by
  intro kind body _ h
  cases h
  exact ⟨by decide, by decide, by simp [maxBody]⟩

theorem readCandidate (slot : Half) (number : Word) (sitting : Byte) :
    Statement (.readCandidate slot number sitting) := by
  intro kind body _ h
  cases h
  exact ⟨by decide, by decide, by simp [maxBody]⟩

theorem setRoute (paper : Paper) (home : Byte) (overflow : List Byte) : Statement (.setRoute paper home overflow) := by
  intro kind body hw h
  cases h
  simp [Instr.wellFormed, maxBody] at hw ⊢
  omega

theorem clearRoute (paper : Paper) : Statement (.clearRoute paper) := by
  intro kind body _ h
  cases h
  exact ⟨by decide, by decide, by simp [maxBody]⟩

theorem readRoutes : Statement .readRoutes := by
  intro kind body _ h
  cases h
  exact ⟨by decide, by decide, by simp [maxBody]⟩

theorem allocate (number : Word) (sitting needs allowance rest : Byte) :
    Statement (.allocate number sitting needs allowance rest) := by
  intro kind body _ h
  cases h
  exact ⟨by decide, by decide, by simp [maxBody]⟩

theorem allocateRun (base : Word) (count sitting needs allowance rest : Byte) :
    Statement (.allocateRun base count sitting needs allowance rest) := by
  intro kind body _ h
  cases h
  exact ⟨by decide, by decide, by simp [maxBody]⟩

theorem readQueue : Statement .readQueue := by
  intro kind body _ h
  cases h
  exact ⟨by decide, by decide, by simp [maxBody]⟩

theorem move (slot seat : Half) : Statement (.move slot seat) := by
  intro kind body _ h
  cases h
  exact ⟨by decide, by decide, by simp [maxBody]⟩

theorem setTimebase (source : Byte) (frequency : Half) (prescale syncMode : Byte) :
    Statement (.setTimebase source frequency prescale syncMode) := by
  intro kind body _ h
  cases h
  exact ⟨by decide, by decide, by simp [maxBody]⟩

theorem setHallTime (hour minute second : Byte) : Statement (.setHallTime hour minute second) := by
  intro kind body _ h
  cases h
  exact ⟨by decide, by decide, by simp [maxBody]⟩

theorem readClock : Statement .readClock := by
  intro kind body _ h
  cases h
  exact ⟨by decide, by decide, by simp [maxBody]⟩

theorem defineSitting (sitting : Byte) (paper : Paper) (reading : Byte)
    (writing cutoff opening closing : Half) (warnings : List Byte) (quiet threshold scriptKind keyId : Byte) :
    Statement (.defineSitting sitting paper reading writing cutoff opening closing warnings quiet threshold scriptKind keyId) := by
  intro kind body hw h
  cases h
  simp [Instr.wellFormed, maxBody] at hw ⊢
  omega

theorem startSitting (sitting hour minute second : Byte) : Statement (.startSitting sitting hour minute second) := by
  intro kind body _ h
  cases h
  exact ⟨by decide, by decide, by simp [maxBody]⟩

theorem cancelStart (sitting : Byte) : Statement (.cancelStart sitting) := by
  intro kind body _ h
  cases h
  exact ⟨by decide, by decide, by simp [maxBody]⟩

theorem holdSitting (sitting : Byte) : Statement (.holdSitting sitting) := by
  intro kind body _ h
  cases h
  exact ⟨by decide, by decide, by simp [maxBody]⟩

theorem resumeSitting (sitting : Byte) : Statement (.resumeSitting sitting) := by
  intro kind body _ h
  cases h
  exact ⟨by decide, by decide, by simp [maxBody]⟩

theorem closeSitting (sitting : Byte) : Statement (.closeSitting sitting) := by
  intro kind body _ h
  cases h
  exact ⟨by decide, by decide, by simp [maxBody]⟩

theorem forceClose (sitting : Byte) : Statement (.forceClose sitting) := by
  intro kind body _ h
  cases h
  exact ⟨by decide, by decide, by simp [maxBody]⟩

theorem clearSitting (sitting : Byte) : Statement (.clearSitting sitting) := by
  intro kind body _ h
  cases h
  exact ⟨by decide, by decide, by simp [maxBody]⟩

theorem readSitting (sitting : Byte) : Statement (.readSitting sitting) := by
  intro kind body _ h
  cases h
  exact ⟨by decide, by decide, by simp [maxBody]⟩

theorem leave (slot : Half) : Statement (.leave slot) := by
  intro kind body _ h
  cases h
  exact ⟨by decide, by decide, by simp [maxBody]⟩

theorem readMarks (sitting : Byte) (first : Half) (count : Byte) : Statement (.readMarks sitting first count) := by
  intro kind body _ h
  cases h
  exact ⟨by decide, by decide, by simp [maxBody]⟩

theorem startLink (link : Byte) : Statement (.startLink link) := by
  intro kind body _ h
  cases h
  exact ⟨by decide, by decide, by simp [maxBody]⟩

theorem stopLink (link : Byte) : Statement (.stopLink link) := by
  intro kind body _ h
  cases h
  exact ⟨by decide, by decide, by simp [maxBody]⟩

theorem readLink (link : Byte) (first : Half) (count : Byte) : Statement (.readLink link first count) := by
  intro kind body _ h
  cases h
  exact ⟨by decide, by decide, by simp [maxBody]⟩

theorem raiseAlert (seat : Half) : Statement (.raiseAlert seat) := by
  intro kind body _ h
  cases h
  exact ⟨by decide, by decide, by simp [maxBody]⟩

theorem setHandsetZones (handset zones : Byte) : Statement (.setHandsetZones handset zones) := by
  intro kind body _ h
  cases h
  exact ⟨by decide, by decide, by simp [maxBody]⟩

theorem cancelCall (call : Byte) : Statement (.cancelCall call) := by
  intro kind body _ h
  cases h
  exact ⟨by decide, by decide, by simp [maxBody]⟩

theorem readCalls : Statement .readCalls := by
  intro kind body _ h
  cases h
  exact ⟨by decide, by decide, by simp [maxBody]⟩

theorem issueBooklet (slot : Half) : Statement (.issueBooklet slot) := by
  intro kind body _ h
  cases h
  exact ⟨by decide, by decide, by simp [maxBody]⟩

theorem takeExceptions (count : Byte) : Statement (.takeExceptions count) := by
  intro kind body _ h
  cases h
  exact ⟨by decide, by decide, by simp [maxBody]⟩

theorem startSweep (channel mode : Byte) (start finish : Half) (stride : Byte) :
    Statement (.startSweep channel mode start finish stride) := by
  intro kind body _ h
  cases h
  exact ⟨by decide, by decide, by simp [maxBody]⟩

theorem stopSweep (channel : Byte) : Statement (.stopSweep channel) := by
  intro kind body _ h
  cases h
  exact ⟨by decide, by decide, by simp [maxBody]⟩

theorem readScripts (first : Half) (count : Byte) : Statement (.readScripts first count) := by
  intro kind body _ h
  cases h
  exact ⟨by decide, by decide, by simp [maxBody]⟩

theorem readSweep (channel : Byte) : Statement (.readSweep channel) := by
  intro kind body _ h
  cases h
  exact ⟨by decide, by decide, by simp [maxBody]⟩

theorem readReader : Statement .readReader := by
  intro kind body _ h
  cases h
  exact ⟨by decide, by decide, by simp [maxBody]⟩

theorem keyBegin (key form questions penalty : Byte) : Statement (.keyBegin key form questions penalty) := by
  intro kind body _ h
  cases h
  exact ⟨by decide, by decide, by simp [maxBody]⟩

theorem keyPart (key first : Byte) (entries : List KeyEntry) : Statement (.keyPart key first entries) := by
  intro kind body hw h
  cases h
  simp [Instr.wellFormed, maxBody] at hw ⊢
  omega

theorem keyEnd (key : Byte) : Statement (.keyEnd key) := by
  intro kind body _ h
  cases h
  exact ⟨by decide, by decide, by simp [maxBody]⟩

theorem withdrawQuestion (key question : Byte) : Statement (.withdrawQuestion key question) := by
  intro kind body _ h
  cases h
  exact ⟨by decide, by decide, by simp [maxBody]⟩

theorem readKey (key first count : Byte) : Statement (.readKey key first count) := by
  intro kind body _ h
  cases h
  exact ⟨by decide, by decide, by simp [maxBody]⟩

theorem readSheet (store : Byte) : Statement (.readSheet store) := by
  intro kind body _ h
  cases h
  exact ⟨by decide, by decide, by simp [maxBody]⟩

theorem readBatch : Statement .readBatch := by
  intro kind body _ h
  cases h
  exact ⟨by decide, by decide, by simp [maxBody]⟩

theorem startBatch (sitting count segStart segEnd : Byte) : Statement (.startBatch sitting count segStart segEnd) := by
  intro kind body _ h
  cases h
  exact ⟨by decide, by decide, by simp [maxBody]⟩

theorem continueBatch : Statement .continueBatch := by
  intro kind body _ h
  cases h
  exact ⟨by decide, by decide, by simp [maxBody]⟩

theorem extendSegment (segEnd : Byte) : Statement (.extendSegment segEnd) := by
  intro kind body _ h
  cases h
  exact ⟨by decide, by decide, by simp [maxBody]⟩

theorem releaseSlots (stores : List Byte) : Statement (.releaseSlots stores) := by
  intro kind body hw h
  cases h
  simp [Instr.wellFormed, maxBody] at hw ⊢
  omega

theorem abortBatch : Statement .abortBatch := by
  intro kind body _ h
  cases h
  exact ⟨by decide, by decide, by simp [maxBody]⟩

theorem resolveDuplicate (store action : Byte) : Statement (.resolveDuplicate store action) := by
  intro kind body _ h
  cases h
  exact ⟨by decide, by decide, by simp [maxBody]⟩

theorem remark (sitting : Byte) : Statement (.remark sitting) := by
  intro kind body _ h
  cases h
  exact ⟨by decide, by decide, by simp [maxBody]⟩

theorem setParam (param : Byte) (value : Word) : Statement (.setParam param value) := by
  intro kind body _ h
  cases h
  exact ⟨by decide, by decide, by simp [maxBody]⟩

theorem getParam (param : Byte) : Statement (.getParam param) := by
  intro kind body _ h
  cases h
  exact ⟨by decide, by decide, by simp [maxBody]⟩

theorem identify : Statement .identify := by
  intro kind body _ h
  cases h
  exact ⟨by decide, by decide, by simp [maxBody]⟩

theorem readStatus : Statement .readStatus := by
  intro kind body _ h
  cases h
  exact ⟨by decide, by decide, by simp [maxBody]⟩

theorem reset (scope : Byte) : Statement (.reset scope) := by
  intro kind body _ h
  cases h
  exact ⟨by decide, by decide, by simp [maxBody]⟩

/-! ### Events -/

theorem resetPorts : Statement .resetPorts := fun _ _ _ h => nomatch h

theorem resetHall : Statement .resetHall := fun _ _ _ h => nomatch h

theorem powerOn (rate1 rate0 : Bool) : Statement (.powerOn rate1 rate0) := fun _ _ _ h => nomatch h

theorem linkReset : Statement .linkReset := fun _ _ _ h => nomatch h

theorem badFrame (run : List RxByte) : Statement (.badFrame run) := fun _ _ _ h => nomatch h

theorem receiveGapTimeout : Statement .receiveGapTimeout := fun _ _ _ h => nomatch h

theorem unknownKind (kind : Byte) (body : List Byte) : Statement (.unknownKind kind body) := fun _ _ _ h => nomatch h

theorem overrun (kind : Byte) (body : List Byte) : Statement (.overrun kind body) := fun _ _ _ h => nomatch h

theorem hrdyChange (level : Bool) : Statement (.hrdyChange level) := fun _ _ _ h => nomatch h

theorem frameSent : Statement .frameSent := fun _ _ _ h => nomatch h

theorem timebaseSecond : Statement .timebaseSecond := fun _ _ _ h => nomatch h

theorem syncEdge : Statement .syncEdge := fun _ _ _ h => nomatch h

theorem syncLost : Statement .syncLost := fun _ _ _ h => nomatch h

theorem scheduledStart (sitting : Fin 8) : Statement (.scheduledStart sitting) := fun _ _ _ h => nomatch h

theorem sittingSecond (sitting : Fin 8) : Statement (.sittingSecond sitting) := fun _ _ _ h => nomatch h

theorem readingCompare (sitting : Fin 8) : Statement (.readingCompare sitting) := fun _ _ _ h => nomatch h

theorem sittingWarning (sitting : Fin 8) : Statement (.sittingWarning sitting) := fun _ _ _ h => nomatch h

theorem lateCutoff (sitting : Fin 8) : Statement (.lateCutoff sitting) := fun _ _ _ h => nomatch h

theorem writingCompare (sitting : Fin 8) : Statement (.writingCompare sitting) := fun _ _ _ h => nomatch h

theorem warnFiring (slot : Fin 512) : Statement (.warnFiring slot) := fun _ _ _ h => nomatch h

theorem endFiring (slot : Fin 512) : Statement (.endFiring slot) := fun _ _ _ h => nomatch h

theorem restExpiry (slot : Fin 512) : Statement (.restExpiry slot) := fun _ _ _ h => nomatch h

theorem escalation (call : Fin 48) : Statement (.escalation call) := fun _ _ _ h => nomatch h

theorem handsetAway (handset : Fin 8) : Statement (.handsetAway handset) := fun _ _ _ h => nomatch h

theorem retryPass : Statement .retryPass := fun _ _ _ h => nomatch h

theorem relocation : Statement .relocation := fun _ _ _ h => nomatch h

theorem pollCycleStart (link : LinkName) : Statement (.pollCycleStart link) := fun _ _ _ h => nomatch h

theorem pollFrame (link : LinkName) : Statement (.pollFrame link) := fun _ _ _ h => nomatch h

theorem pollTimeout (link : LinkName) : Statement (.pollTimeout link) := fun _ _ _ h => nomatch h

theorem seatReply (link : SeatLink) (frame : List Byte) : Statement (.seatReply link frame) := fun _ _ _ h => nomatch h

theorem handsetReply (frame : List Byte) : Statement (.handsetReply frame) := fun _ _ _ h => nomatch h

theorem stationReply (frame : List Byte) : Statement (.stationReply frame) := fun _ _ _ h => nomatch h

theorem wallClockReply (frame : List Byte) : Statement (.wallClockReply frame) := fun _ _ _ h => nomatch h

theorem lateUnitReply (link : LinkName) (frame : List Byte) : Statement (.lateUnitReply link frame) := fun _ _ _ h => nomatch h

theorem pollCycleEnd (link : LinkName) : Statement (.pollCycleEnd link) := fun _ _ _ h => nomatch h

theorem timeCodeBroadcast (link : LinkName) : Statement (.timeCodeBroadcast link) := fun _ _ _ h => nomatch h

theorem timeCodeRepeat (link : LinkName) : Statement (.timeCodeRepeat link) := fun _ _ _ h => nomatch h

theorem sheetFrameEnd (run : List Byte) : Statement (.sheetFrameEnd run) := fun _ _ _ h => nomatch h

theorem frameGapTimeout : Statement .frameGapTimeout := fun _ _ _ h => nomatch h

theorem rrdyChange (level : Bool) : Statement (.rrdyChange level) := fun _ _ _ h => nomatch h

theorem verdictSent : Statement .verdictSent := fun _ _ _ h => nomatch h

theorem lineIdleReturn : Statement .lineIdleReturn := fun _ _ _ h => nomatch h

end Sys2Proof.Laws.Encoding
end

