-- ==== Sys2Proof/Laws/Touch.lean ====
section
/-!
SUPPORT. What each shared operation may change. The state is cut into parts; `Only l s t` says that `t` is `s` but for
the parts in `l`. Each operation has one lemma `only_<operation>`: over a list that holds the parts it may change, a
state it is applied to may be replaced by the state before it. A proof that an event leaves a part alone is then one call
of `simp`, ending in `Only.same`.
-/

namespace Sys2Proof.Machine

/-- The parts of the state. -/
inductive Part where
  | replies | overruns | discarded | receiver | lineHeld | sending | resetTaken | resetDue | hrdy | rate1 | rate0 | params
  | resets | notices | noticesLost | exceptionsLost | syncLost | resetSeen | seats | cands | routes | queue
  | retryDue | relocations | timebase | secondCount | hall | syncTimer | sinceEdge | lastEdge | syncLostDue
  | sittings | links | seatUnits | floorUnits | calls | handsets | channels | exceptions | rrdy | assembler
  | parked | verdicts | verdictSending | lastFault | counts | keys | store | batch | pending
  deriving DecidableEq, Repr

/-- Two states agree on a part. -/
def Part.same (s t : State) : Part → Prop
  | .replies => t.cli.replies = s.cli.replies
  | .overruns => t.cli.overruns = s.cli.overruns
  | .discarded => t.cli.discarded = s.cli.discarded
  | .receiver => t.cli.receiver = s.cli.receiver
  | .lineHeld => t.cli.lineHeld = s.cli.lineHeld
  | .sending => t.cli.sending = s.cli.sending
  | .resetTaken => t.cli.resetTaken = s.cli.resetTaken
  | .resetDue => t.cli.resetDue = s.cli.resetDue
  | .hrdy => t.cli.hrdy = s.cli.hrdy
  | .rate1 => t.cli.rate1 = s.cli.rate1
  | .rate0 => t.cli.rate0 = s.cli.rate0
  | .params => t.cli.params = s.cli.params
  | .resets => t.cli.resets = s.cli.resets
  | .notices => t.cli.notices = s.cli.notices
  | .noticesLost => t.cli.flags.noticesLost = s.cli.flags.noticesLost
  | .exceptionsLost => t.cli.flags.exceptionsLost = s.cli.flags.exceptionsLost
  | .syncLost => t.cli.flags.syncLost = s.cli.flags.syncLost
  | .resetSeen => t.cli.flags.resetSeen = s.cli.flags.resetSeen
  | .seats => t.htu.seats = s.htu.seats
  | .cands => t.htu.cands = s.htu.cands
  | .routes => t.sal.routes = s.sal.routes
  | .queue => t.sal.queue = s.sal.queue
  | .retryDue => t.sal.retryDue = s.sal.retryDue
  | .relocations => t.sal.relocations = s.sal.relocations
  | .timebase => t.tme.timebase = s.tme.timebase
  | .secondCount => t.tme.secondCount = s.tme.secondCount
  | .hall => t.tme.hall = s.tme.hall
  | .syncTimer => t.tme.syncTimer = s.tme.syncTimer
  | .sinceEdge => t.tme.sinceEdge = s.tme.sinceEdge
  | .lastEdge => t.tme.lastEdge = s.tme.lastEdge
  | .syncLostDue => t.tme.syncLostDue = s.tme.syncLostDue
  | .sittings => t.tme.sittings = s.tme.sittings
  | .links => t.ulc.links = s.ulc.links
  | .seatUnits => t.ulc.seatUnits = s.ulc.seatUnits
  | .floorUnits => t.ulc.floorUnits = s.ulc.floorUnits
  | .calls => t.cdp.calls = s.cdp.calls
  | .handsets => t.cdp.handsets = s.cdp.handsets
  | .channels => t.scu.channels = s.scu.channels
  | .exceptions => t.scu.exceptions = s.scu.exceptions
  | .rrdy => t.srp.rrdy = s.srp.rrdy
  | .assembler => t.srp.assembler = s.srp.assembler
  | .parked => t.srp.parked = s.srp.parked
  | .verdicts => t.srp.verdicts = s.srp.verdicts
  | .verdictSending => t.srp.verdictSending = s.srp.verdictSending
  | .lastFault => t.srp.lastFault = s.srp.lastFault
  | .counts => t.srp.counts = s.srp.counts
  | .keys => t.mke.keys = s.mke.keys
  | .store => t.mke.store = s.mke.store
  | .batch => t.mke.batch = s.mke.batch
  | .pending => t.pending = s.pending

/-- The states agree on every part outside the list. -/
def Only (l : List Part) (s t : State) : Prop := ∀ p, p ∉ l → p.same s t

/-- What `Only` says of one part. -/
theorem Only.same {l : List Part} {s t : State} (h : Only l s t) (p : Part) (hp : p ∉ l := by decide) : p.same s t :=
  h p hp

/-- A state agrees with itself. -/
@[simp] theorem Only.refl (l : List Part) (s : State) : Only l s s := fun p _ => by cases p <;> rfl

/-- Agreement outside a list is transitive. -/
theorem Only.trans {l : List Part} {s t u : State} (h : Only l s t) (k : Only l t u) : Only l s u := fun p hp => by
  have a := h p hp
  have b := k p hp
  cases p <;> exact b.trans a

/-- Agreement is symmetric. -/
theorem Only.symm {l : List Part} {s t : State} (h : Only l s t) : Only l t s := fun p hp => by
  have a := h p hp
  cases p <;> exact a.symm

/-- A longer list says less. -/
theorem Only.mono {l m : List Part} {s t : State} (h : Only l s t) (hl : l ⊆ m) : Only m s t :=
  fun p hp => h p (fun q => hp (hl q))

/-- An operation that changes parts of `m` only may be taken off, over a list that holds them. -/
theorem Only.drop {l m : List Part} {s t u : State} (h : Only m t u) (hm : m ⊆ l) : Only l s u ↔ Only l s t :=
  ⟨fun k => k.trans (h.mono hm).symm, fun k => k.trans (h.mono hm)⟩

/-- The same over the members of a list, in order. -/
theorem only_forEach {α : Type} {l : List Part} {f : α → State → State} (h : ∀ x t, Only l t (f x t)) (xs : List α)
    (s t : State) : Only l s (t.forEach xs f) ↔ Only l s t := by
  refine Only.drop ?_ (List.Subset.refl l)
  unfold State.forEach
  induction xs generalizing t with
  | nil => exact Only.refl l t
  | cons x xs ih => exact (h x t).trans (ih (f x t))

/-- The same over a fold that carries an answer beside the state. -/
theorem only_foldl {α β : Type} {l : List Part} {f : State × β → α → State × β} (h : ∀ r x, Only l r.1 (f r x).1)
    (xs : List α) (r : State × β) : Only l r.1 (xs.foldl f r).1 := by
  induction xs generalizing r with
  | nil => exact Only.refl l r.1
  | cons x xs ih => exact (h r x).trans (ih (f r x))

/-! ### The updates of one entry -/

theorem modSeat_only (t : State) (i : Nat) (f : Seat → Seat) : Only [.seats] t (t.modSeat i f) := by
  intro p hp; cases p <;> first | rfl | exact absurd (by decide) hp

@[simp] theorem only_modSeat {l : List Part} (h0 : .seats ∈ l) (s t : State) (i : Nat) (f : Seat → Seat) :
    Only l s (t.modSeat i f) ↔ Only l s t :=
  (modSeat_only t i f).drop (fun p hp => by
    simp only [List.mem_cons, List.not_mem_nil, or_false] at hp
    exact hp ▸ h0)

theorem modCand_only (t : State) (c : Nat) (f : Candidate → Candidate) : Only [.cands] t (t.modCand c f) := by
  intro p hp; cases p <;> first | rfl | exact absurd (by decide) hp

@[simp] theorem only_modCand {l : List Part} (h0 : .cands ∈ l) (s t : State) (c : Nat) (f : Candidate → Candidate) :
    Only l s (t.modCand c f) ↔ Only l s t :=
  (modCand_only t c f).drop (fun p hp => by
    simp only [List.mem_cons, List.not_mem_nil, or_false] at hp
    exact hp ▸ h0)

theorem putCand_only (t : State) (c : Nat) (x : Option Candidate) : Only [.cands] t (t.putCand c x) := by
  intro p hp; cases p <;> first | rfl | exact absurd (by decide) hp

@[simp] theorem only_putCand {l : List Part} (h0 : .cands ∈ l) (s t : State) (c : Nat) (x : Option Candidate) :
    Only l s (t.putCand c x) ↔ Only l s t :=
  (putCand_only t c x).drop (fun p hp => by
    simp only [List.mem_cons, List.not_mem_nil, or_false] at hp
    exact hp ▸ h0)

theorem modSitting_only (t : State) (k : Nat) (f : Sitting → Sitting) : Only [.sittings] t (t.modSitting k f) := by
  intro p hp; cases p <;> first | rfl | exact absurd (by decide) hp

@[simp] theorem only_modSitting {l : List Part} (h0 : .sittings ∈ l) (s t : State) (k : Nat) (f : Sitting → Sitting) :
    Only l s (t.modSitting k f) ↔ Only l s t :=
  (modSitting_only t k f).drop (fun p hp => by
    simp only [List.mem_cons, List.not_mem_nil, or_false] at hp
    exact hp ▸ h0)

theorem modLink_only (t : State) (n : LinkName) (f : Link → Link) : Only [.links] t (t.modLink n f) := by
  intro p hp; cases p <;> first | rfl | exact absurd (by decide) hp

@[simp] theorem only_modLink {l : List Part} (h0 : .links ∈ l) (s t : State) (n : LinkName) (f : Link → Link) :
    Only l s (t.modLink n f) ↔ Only l s t :=
  (modLink_only t n f).drop (fun p hp => by
    simp only [List.mem_cons, List.not_mem_nil, or_false] at hp
    exact hp ▸ h0)

theorem modCall_only (t : State) (i : Nat) (f : Call → Call) : Only [.calls] t (t.modCall i f) := by
  intro p hp; cases p <;> first | rfl | exact absurd (by decide) hp

@[simp] theorem only_modCall {l : List Part} (h0 : .calls ∈ l) (s t : State) (i : Nat) (f : Call → Call) :
    Only l s (t.modCall i f) ↔ Only l s t :=
  (modCall_only t i f).drop (fun p hp => by
    simp only [List.mem_cons, List.not_mem_nil, or_false] at hp
    exact hp ▸ h0)

theorem putCall_only (t : State) (i : Nat) (x : Option Call) : Only [.calls] t (t.putCall i x) := by
  intro p hp; cases p <;> first | rfl | exact absurd (by decide) hp

@[simp] theorem only_putCall {l : List Part} (h0 : .calls ∈ l) (s t : State) (i : Nat) (x : Option Call) :
    Only l s (t.putCall i x) ↔ Only l s t :=
  (putCall_only t i x).drop (fun p hp => by
    simp only [List.mem_cons, List.not_mem_nil, or_false] at hp
    exact hp ▸ h0)

theorem modHandset_only (t : State) (h : Nat) (f : Handset → Handset) : Only [.handsets] t (t.modHandset h f) := by
  intro p hp; cases p <;> first | rfl | exact absurd (by decide) hp

@[simp] theorem only_modHandset {l : List Part} (h0 : .handsets ∈ l) (s t : State) (h : Nat) (f : Handset → Handset) :
    Only l s (t.modHandset h f) ↔ Only l s t :=
  (modHandset_only t h f).drop (fun p hp => by
    simp only [List.mem_cons, List.not_mem_nil, or_false] at hp
    exact hp ▸ h0)

theorem modChannel_only (t : State) (k : Nat) (f : Channel → Channel) : Only [.channels] t (t.modChannel k f) := by
  intro p hp; cases p <;> first | rfl | exact absurd (by decide) hp

@[simp] theorem only_modChannel {l : List Part} (h0 : .channels ∈ l) (s t : State) (k : Nat) (f : Channel → Channel) :
    Only l s (t.modChannel k f) ↔ Only l s t :=
  (modChannel_only t k f).drop (fun p hp => by
    simp only [List.mem_cons, List.not_mem_nil, or_false] at hp
    exact hp ▸ h0)

theorem modKey_only (t : State) (k : Nat) (f : Key → Key) : Only [.keys] t (t.modKey k f) := by
  intro p hp; cases p <;> first | rfl | exact absurd (by decide) hp

@[simp] theorem only_modKey {l : List Part} (h0 : .keys ∈ l) (s t : State) (k : Nat) (f : Key → Key) :
    Only l s (t.modKey k f) ↔ Only l s t :=
  (modKey_only t k f).drop (fun p hp => by
    simp only [List.mem_cons, List.not_mem_nil, or_false] at hp
    exact hp ▸ h0)

theorem putStore_only (t : State) (i : Nat) (x : Option Stored) : Only [.store] t (t.putStore i x) := by
  intro p hp; cases p <;> first | rfl | exact absurd (by decide) hp

@[simp] theorem only_putStore {l : List Part} (h0 : .store ∈ l) (s t : State) (i : Nat) (x : Option Stored) :
    Only l s (t.putStore i x) ↔ Only l s t :=
  (putStore_only t i x).drop (fun p hp => by
    simp only [List.mem_cons, List.not_mem_nil, or_false] at hp
    exact hp ▸ h0)

theorem modBatch_only (t : State) (f : Batch → Batch) : Only [.batch] t (t.modBatch f) := by
  intro p hp; cases p <;> first | rfl | exact absurd (by decide) hp

@[simp] theorem only_modBatch {l : List Part} (h0 : .batch ∈ l) (s t : State) (f : Batch → Batch) :
    Only l s (t.modBatch f) ↔ Only l s t :=
  (modBatch_only t f).drop (fun p hp => by
    simp only [List.mem_cons, List.not_mem_nil, or_false] at hp
    exact hp ▸ h0)

theorem askRetry_only (t : State) : Only [.retryDue] t (t.askRetry) := by
  intro p hp; cases p <;> first | rfl | exact absurd (by decide) hp

@[simp] theorem only_askRetry {l : List Part} (h0 : .retryDue ∈ l) (s t : State) :
    Only l s (t.askRetry) ↔ Only l s t :=
  (askRetry_only t).drop (fun p hp => by
    simp only [List.mem_cons, List.not_mem_nil, or_false] at hp
    exact hp ▸ h0)

theorem askBroadcast_only (t : State) : Only [.links] t (t.askBroadcast) := by
  intro p hp; cases p <;> first | rfl | exact absurd (by decide) hp

@[simp] theorem only_askBroadcast {l : List Part} (h0 : .links ∈ l) (s t : State) :
    Only l s (t.askBroadcast) ↔ Only l s t :=
  (askBroadcast_only t).drop (fun p hp => by
    simp only [List.mem_cons, List.not_mem_nil, or_false] at hp
    exact hp ▸ h0)

theorem leaveQueue_only (t : State) (c : Nat) : Only [.queue] t (t.leaveQueue c) := by
  intro p hp; cases p <;> first | rfl | exact absurd (by decide) hp

@[simp] theorem only_leaveQueue {l : List Part} (h0 : .queue ∈ l) (s t : State) (c : Nat) :
    Only l s (t.leaveQueue c) ↔ Only l s t :=
  (leaveQueue_only t c).drop (fun p hp => by
    simp only [List.mem_cons, List.not_mem_nil, or_false] at hp
    exact hp ▸ h0)

theorem detachCalls_only (t : State) (c : Nat) : Only [.calls] t (t.detachCalls c) := by
  intro p hp; cases p <;> first | rfl | exact absurd (by decide) hp

@[simp] theorem only_detachCalls {l : List Part} (h0 : .calls ∈ l) (s t : State) (c : Nat) :
    Only l s (t.detachCalls c) ↔ Only l s t :=
  (detachCalls_only t c).drop (fun p hp => by
    simp only [List.mem_cons, List.not_mem_nil, or_false] at hp
    exact hp ▸ h0)

theorem repointCalls_only (t : State) (c i : Nat) : Only [.calls] t (t.repointCalls c i) := by
  intro p hp; cases p <;> first | rfl | exact absurd (by decide) hp

@[simp] theorem only_repointCalls {l : List Part} (h0 : .calls ∈ l) (s t : State) (c i : Nat) :
    Only l s (t.repointCalls c i) ↔ Only l s t :=
  (repointCalls_only t c i).drop (fun p hp => by
    simp only [List.mem_cons, List.not_mem_nil, or_false] at hp
    exact hp ▸ h0)

theorem cancelPending_only (t : State) (c : Nat) : Only [.calls] t (t.cancelPending c) := by
  intro p hp; cases p <;> first | rfl | exact absurd (by decide) hp

@[simp] theorem only_cancelPending {l : List Part} (h0 : .calls ∈ l) (s t : State) (c : Nat) :
    Only l s (t.cancelPending c) ↔ Only l s t :=
  (cancelPending_only t c).drop (fun p hp => by
    simp only [List.mem_cons, List.not_mem_nil, or_false] at hp
    exact hp ▸ h0)

theorem setAssembler_only (t : State) (a : Assembler) : Only [.assembler] t (t.setAssembler a) := by
  intro p hp; cases p <;> first | rfl | exact absurd (by decide) hp

@[simp] theorem only_setAssembler {l : List Part} (h0 : .assembler ∈ l) (s t : State) (a : Assembler) :
    Only l s (t.setAssembler a) ↔ Only l s t :=
  (setAssembler_only t a).drop (fun p hp => by
    simp only [List.mem_cons, List.not_mem_nil, or_false] at hp
    exact hp ▸ h0)

theorem setReceiver_only (t : State) (r : Receiver) : Only [.receiver] t (t.setReceiver r) := by
  intro p hp; cases p <;> first | rfl | exact absurd (by decide) hp

@[simp] theorem only_setReceiver {l : List Part} (h0 : .receiver ∈ l) (s t : State) (r : Receiver) :
    Only l s (t.setReceiver r) ↔ Only l s t :=
  (setReceiver_only t r).drop (fun p hp => by
    simp only [List.mem_cons, List.not_mem_nil, or_false] at hp
    exact hp ▸ h0)

theorem pushReply_only (t : State) (kind : Byte) (a : Answer) : Only [.replies] t (t.pushReply kind a) := by
  intro p hp; cases p <;> first | rfl | exact absurd (by decide) hp

@[simp] theorem only_pushReply {l : List Part} (h0 : .replies ∈ l) (s t : State) (kind : Byte) (a : Answer) :
    Only l s (t.pushReply kind a) ↔ Only l s t :=
  (pushReply_only t kind a).drop (fun p hp => by
    simp only [List.mem_cons, List.not_mem_nil, or_false] at hp
    exact hp ▸ h0)

theorem discardFrame_only (t : State) : Only [.receiver, .overruns, .discarded] t (t.discardFrame) := by
  intro p hp; cases p <;> first | rfl | exact absurd (by decide) hp

@[simp] theorem only_discardFrame {l : List Part} (h0 : .receiver ∈ l) (h1 : .overruns ∈ l) (h2 : .discarded ∈ l)
    (s t : State) :
    Only l s (t.discardFrame) ↔ Only l s t :=
  (discardFrame_only t).drop (fun p hp => by
    simp only [List.mem_cons, List.not_mem_nil, or_false] at hp
    rcases hp with rfl | rfl | rfl <;> assumption)

theorem clearStatus_only (t : State) : Only [.noticesLost, .exceptionsLost, .resetSeen, .resets] t
    (t.clearStatus) := by
  intro p hp; cases p <;> first | rfl | exact absurd (by decide) hp

@[simp] theorem only_clearStatus {l : List Part} (h0 : .noticesLost ∈ l) (h1 : .exceptionsLost ∈ l)
    (h2 : .resetSeen ∈ l) (h3 : .resets ∈ l) (s t : State) :
    Only l s (t.clearStatus) ↔ Only l s t :=
  (clearStatus_only t).drop (fun p hp => by
    simp only [List.mem_cons, List.not_mem_nil, or_false] at hp
    rcases hp with rfl | rfl | rfl | rfl <;> assumption)

theorem recordReset_only (t : State) (c : ResetCause) : Only [.resetSeen, .resets] t (t.recordReset c) := by
  intro p hp; cases p <;> first | rfl | exact absurd (by decide) hp

@[simp] theorem only_recordReset {l : List Part} (h0 : .resetSeen ∈ l) (h1 : .resets ∈ l) (s t : State)
    (c : ResetCause) :
    Only l s (t.recordReset c) ↔ Only l s t :=
  (recordReset_only t c).drop (fun p hp => by
    simp only [List.mem_cons, List.not_mem_nil, or_false] at hp
    rcases hp with rfl | rfl <;> assumption)

theorem modUnit_only (t : State) (n : LinkName) (a : Nat) (f : UnitRec → UnitRec) : Only [.seatUnits,
    .floorUnits] t (t.modUnit n a f) := by
  cases n <;>
  (intro p hp; cases p <;> first | rfl | exact absurd (by decide) hp)

@[simp] theorem only_modUnit {l : List Part} (h0 : .seatUnits ∈ l) (h1 : .floorUnits ∈ l) (s t : State)
    (n : LinkName) (a : Nat) (f : UnitRec → UnitRec) :
    Only l s (t.modUnit n a f) ↔ Only l s t :=
  (modUnit_only t n a f).drop (fun p hp => by
    simp only [List.mem_cons, List.not_mem_nil, or_false] at hp
    rcases hp with rfl | rfl <;> assumption)

/-! ### Notices, exceptions, verdicts, the transmitters -/

theorem notify_only (t : State) (b : NoticeBody) : Only [.notices, .noticesLost] t (t.notify b) := by
  unfold State.notify
  split <;> (intro p hp; cases p <;> first | rfl | exact absurd (by decide) hp)

@[simp] theorem only_notify {l : List Part} (h0 : .notices ∈ l) (h1 : .noticesLost ∈ l) (s t : State)
    (b : NoticeBody) :
    Only l s (t.notify b) ↔ Only l s t :=
  (notify_only t b).drop (fun p hp => by
    simp only [List.mem_cons, List.not_mem_nil, or_false] at hp
    rcases hp with rfl | rfl <;> assumption)

theorem addException_only (t : State) (e : ExceptionKind) (k : Nat) (g : Option Tag) (i : Option Nat) :
    Only [.exceptions, .exceptionsLost] t (t.addException e k g i) := by
  unfold State.addException
  split <;> (intro p hp; cases p <;> first | rfl | exact absurd (by decide) hp)

@[simp] theorem only_addException {l : List Part} (h0 : .exceptions ∈ l) (h1 : .exceptionsLost ∈ l) (s t : State)
    (e : ExceptionKind) (k : Nat) (g : Option Tag) (i : Option Nat) :
    Only l s (t.addException e k g i) ↔ Only l s t :=
  (addException_only t e k g i).drop (fun p hp => by
    simp only [List.mem_cons, List.not_mem_nil, or_false] at hp
    rcases hp with rfl | rfl <;> assumption)

theorem formVerdict_only (t : State) (f : Byte) (b : Bin) : Only [.verdicts, .counts] t (t.formVerdict f b) := by
  unfold State.formVerdict
  split <;> (intro p hp; cases p <;> first | rfl | exact absurd (by decide) hp)

@[simp] theorem only_formVerdict {l : List Part} (h0 : .verdicts ∈ l) (h1 : .counts ∈ l) (s t : State) (f : Byte)
    (b : Bin) :
    Only l s (t.formVerdict f b) ↔ Only l s t :=
  (formVerdict_only t f b).drop (fun p hp => by
    simp only [List.mem_cons, List.not_mem_nil, or_false] at hp
    rcases hp with rfl | rfl <;> assumption)

theorem askRetryIf_only (t : State) (b : Bool) : Only [.retryDue] t (t.askRetryIf b) := by
  unfold State.askRetryIf
  split <;> simp

@[simp] theorem only_askRetryIf {l : List Part} (h0 : .retryDue ∈ l) (s t : State) (b : Bool) :
    Only l s (t.askRetryIf b) ↔ Only l s t :=
  (askRetryIf_only t b).drop (fun p hp => by
    simp only [List.mem_cons, List.not_mem_nil, or_false] at hp
    exact hp ▸ h0)

theorem beginFrame_only (t : State) : Only [.sending] t (t.beginFrame) := by
  unfold State.beginFrame
  split <;> (intro p hp; cases p <;> first | rfl | exact absurd (by decide) hp)

@[simp] theorem only_beginFrame {l : List Part} (h0 : .sending ∈ l) (s t : State) :
    Only l s (t.beginFrame) ↔ Only l s t :=
  (beginFrame_only t).drop (fun p hp => by
    simp only [List.mem_cons, List.not_mem_nil, or_false] at hp
    exact hp ▸ h0)

theorem beginVerdict_only (t : State) : Only [.verdictSending] t (t.beginVerdict) := by
  unfold State.beginVerdict
  split <;> (intro p hp; cases p <;> first | rfl | exact absurd (by decide) hp)

@[simp] theorem only_beginVerdict {l : List Part} (h0 : .verdictSending ∈ l) (s t : State) :
    Only l s (t.beginVerdict) ↔ Only l s t :=
  (beginVerdict_only t).drop (fun p hp => by
    simp only [List.mem_cons, List.not_mem_nil, or_false] at hp
    exact hp ▸ h0)

theorem settle_only (t : State) : Only [.sending, .verdictSending] t (t.settle) := by
  unfold State.settle
  simp

@[simp] theorem only_settle {l : List Part} (h0 : .sending ∈ l) (h1 : .verdictSending ∈ l) (s t : State) :
    Only l s (t.settle) ↔ Only l s t :=
  (settle_only t).drop (fun p hp => by
    simp only [List.mem_cons, List.not_mem_nil, or_false] at hp
    rcases hp with rfl | rfl <;> assumption)

/-- A run of bytes writes what its bytes write, and what the transmitters begin. -/
theorem only_takeRun {α : Type} {l : List Part} {take : α → State → State} (h0 : .sending ∈ l) (h1 : .verdictSending ∈ l)
    (h : ∀ x t, Only l t (take x t)) (xs : List α) (s t : State) : Only l s (t.takeRun take xs) ↔ Only l s t :=
  only_forEach (fun x u => (only_settle h0 h1 u _).mpr (h x u)) xs s t

/-! ### The hall tables (chapter 1) -/

theorem bindSeat_only (t : State) (c i : Nat) : Only [.seats, .cands] t (t.bindSeat c i) := by
  unfold State.bindSeat
  simp

@[simp] theorem only_bindSeat {l : List Part} (h0 : .seats ∈ l) (h1 : .cands ∈ l) (s t : State) (c i : Nat) :
    Only l s (t.bindSeat c i) ↔ Only l s t :=
  (bindSeat_only t c i).drop (fun p hp => by
    simp only [List.mem_cons, List.not_mem_nil, or_false] at hp
    rcases hp with rfl | rfl <;> assumption)

theorem clearBinding_only (t : State) (c : Nat) : Only [.seats, .cands, .calls] t ((t.clearBinding c).1) := by
  unfold State.clearBinding
  repeat' split
  all_goals simp

@[simp] theorem only_clearBinding {l : List Part} (h0 : .seats ∈ l) (h1 : .cands ∈ l) (h2 : .calls ∈ l)
    (s t : State) (c : Nat) :
    Only l s ((t.clearBinding c).1) ↔ Only l s t :=
  (clearBinding_only t c).drop (fun p hp => by
    simp only [List.mem_cons, List.not_mem_nil, or_false] at hp
    rcases hp with rfl | rfl | rfl <;> assumption)

theorem clearBindings_only (t : State) (cs : List Nat) : Only [.seats, .cands, .calls] t
    ((t.clearBindings cs).1) := by
  exact only_foldl (fun r c => by simp) cs (t, false)

@[simp] theorem only_clearBindings {l : List Part} (h0 : .seats ∈ l) (h1 : .cands ∈ l) (h2 : .calls ∈ l)
    (s t : State) (cs : List Nat) :
    Only l s ((t.clearBindings cs).1) ↔ Only l s t :=
  (clearBindings_only t cs).drop (fun p hp => by
    simp only [List.mem_cons, List.not_mem_nil, or_false] at hp
    rcases hp with rfl | rfl | rfl <;> assumption)

theorem moveBinding_only (t : State) (c i : Nat) : Only [.seats, .cands, .calls, .retryDue] t
    (t.moveBinding c i) := by
  unfold State.moveBinding
  split
  · simp
  · simp only [only_askRetryIf, only_repointCalls, only_modCand, only_bindSeat, List.mem_cons, true_or, or_true]
    split <;> simp

@[simp] theorem only_moveBinding {l : List Part} (h0 : .seats ∈ l) (h1 : .cands ∈ l) (h2 : .calls ∈ l)
    (h3 : .retryDue ∈ l) (s t : State) (c i : Nat) :
    Only l s (t.moveBinding c i) ↔ Only l s t :=
  (moveBinding_only t c i).drop (fun p hp => by
    simp only [List.mem_cons, List.not_mem_nil, or_false] at hp
    rcases hp with rfl | rfl | rfl | rfl <;> assumption)

theorem retire_only (t : State) (c : Nat) (st : CandState) : Only [.seats, .cands, .calls] t ((t.retire c st).1) := by
  unfold State.retire
  split
  · simp
  · simp only [only_cancelPending, List.mem_cons, true_or, or_true]
    split
    · split <;> simp
    · simp

@[simp] theorem only_retire {l : List Part} (h0 : .seats ∈ l) (h1 : .cands ∈ l) (h2 : .calls ∈ l) (s t : State)
    (c : Nat) (st : CandState) :
    Only l s ((t.retire c st).1) ↔ Only l s t :=
  (retire_only t c st).drop (fun p hp => by
    simp only [List.mem_cons, List.not_mem_nil, or_false] at hp
    rcases hp with rfl | rfl | rfl <;> assumption)

theorem finishClaim_only (t : State) (c : Nat) : Only [.seats, .cands, .calls, .retryDue] t (t.finishClaim c) := by
  unfold State.finishClaim
  repeat' split
  all_goals simp

@[simp] theorem only_finishClaim {l : List Part} (h0 : .seats ∈ l) (h1 : .cands ∈ l) (h2 : .calls ∈ l)
    (h3 : .retryDue ∈ l) (s t : State) (c : Nat) :
    Only l s (t.finishClaim c) ↔ Only l s t :=
  (finishClaim_only t c).drop (fun p hp => by
    simp only [List.mem_cons, List.not_mem_nil, or_false] at hp
    rcases hp with rfl | rfl | rfl | rfl <;> assumption)

theorem absenceClaim_only (t : State) (k : Nat) : Only [.seats, .cands, .calls, .queue, .retryDue] t
    ((t.absenceClaim k).1) := by
  unfold State.absenceClaim
  simp [only_forEach]

@[simp] theorem only_absenceClaim {l : List Part} (h0 : .seats ∈ l) (h1 : .cands ∈ l) (h2 : .calls ∈ l)
    (h3 : .queue ∈ l) (h4 : .retryDue ∈ l) (s t : State) (k : Nat) :
    Only l s ((t.absenceClaim k).1) ↔ Only l s t :=
  (absenceClaim_only t k).drop (fun p hp => by
    simp only [List.mem_cons, List.not_mem_nil, or_false] at hp
    rcases hp with rfl | rfl | rfl | rfl | rfl <;> assumption)

theorem closingClaim_only (t : State) (k : Nat) : Only [.seats, .cands, .calls, .retryDue] t
    ((t.closingClaim k).1) := by
  unfold State.closingClaim
  simp

@[simp] theorem only_closingClaim {l : List Part} (h0 : .seats ∈ l) (h1 : .cands ∈ l) (h2 : .calls ∈ l)
    (h3 : .retryDue ∈ l) (s t : State) (k : Nat) :
    Only l s ((t.closingClaim k).1) ↔ Only l s t :=
  (closingClaim_only t k).drop (fun p hp => by
    simp only [List.mem_cons, List.not_mem_nil, or_false] at hp
    rcases hp with rfl | rfl | rfl | rfl <;> assumption)

theorem freeSlotsOf_only (t : State) (k : Nat) : Only [.cands, .store] t ((t.freeSlotsOf k).1) := by
  unfold State.freeSlotsOf
  refine Only.trans (t := t.forEach (t.slotsWhere (fun c => c.sitting == k)) (fun c u => u.putCand c none)) ?_ ?_
  · simp [only_forEach]
  · intro p hp; cases p <;> first | rfl | exact absurd (by decide) hp

@[simp] theorem only_freeSlotsOf {l : List Part} (h0 : .cands ∈ l) (h1 : .store ∈ l) (s t : State) (k : Nat) :
    Only l s ((t.freeSlotsOf k).1) ↔ Only l s t :=
  (freeSlotsOf_only t k).drop (fun p hp => by
    simp only [List.mem_cons, List.not_mem_nil, or_false] at hp
    rcases hp with rfl | rfl <;> assumption)

/-! ### The seat search and relocation (chapter 2) -/

theorem noteRouteMiss_only (t : State) (k c : Nat) : Only [.notices, .noticesLost] t (t.noteRouteMiss k c) := by
  unfold State.noteRouteMiss
  repeat' split
  all_goals simp

@[simp] theorem only_noteRouteMiss {l : List Part} (h0 : .notices ∈ l) (h1 : .noticesLost ∈ l) (s t : State)
    (k c : Nat) :
    Only l s (t.noteRouteMiss k c) ↔ Only l s t :=
  (noteRouteMiss_only t k c).drop (fun p hp => by
    simp only [List.mem_cons, List.not_mem_nil, or_false] at hp
    rcases hp with rfl | rfl <;> assumption)

theorem noteRunMiss_only (t : State) (k : Nat) (ps : List (Nat × Placement)) : Only [.notices, .noticesLost] t
    (t.noteRunMiss k ps) := by
  unfold State.noteRunMiss
  repeat' split
  all_goals simp

@[simp] theorem only_noteRunMiss {l : List Part} (h0 : .notices ∈ l) (h1 : .noticesLost ∈ l) (s t : State)
    (k : Nat) (ps : List (Nat × Placement)) :
    Only l s (t.noteRunMiss k ps) ↔ Only l s t :=
  (noteRunMiss_only t k ps).drop (fun p hp => by
    simp only [List.mem_cons, List.not_mem_nil, or_false] at hp
    rcases hp with rfl | rfl <;> assumption)

theorem retryOne_only (t : State) (c : Nat) : Only [.seats, .cands, .queue, .notices, .noticesLost] t
    (State.retryOne c t) := by
  unfold State.retryOne
  repeat' split
  all_goals simp

@[simp] theorem only_retryOne {l : List Part} (h0 : .seats ∈ l) (h1 : .cands ∈ l) (h2 : .queue ∈ l)
    (h3 : .notices ∈ l) (h4 : .noticesLost ∈ l) (s t : State) (c : Nat) :
    Only l s (State.retryOne c t) ↔ Only l s t :=
  (retryOne_only t c).drop (fun p hp => by
    simp only [List.mem_cons, List.not_mem_nil, or_false] at hp
    rcases hp with rfl | rfl | rfl | rfl | rfl <;> assumption)

theorem retryWalk_only (t : State) : Only [.seats, .cands, .queue, .notices, .noticesLost] t (t.retryWalk) := by
  unfold State.retryWalk
  simp [only_forEach]

@[simp] theorem only_retryWalk {l : List Part} (h0 : .seats ∈ l) (h1 : .cands ∈ l) (h2 : .queue ∈ l)
    (h3 : .notices ∈ l) (h4 : .noticesLost ∈ l) (s t : State) :
    Only l s (t.retryWalk) ↔ Only l s t :=
  (retryWalk_only t).drop (fun p hp => by
    simp only [List.mem_cons, List.not_mem_nil, or_false] at hp
    rcases hp with rfl | rfl | rfl | rfl | rfl <;> assumption)

theorem relocate_only (t : State) (c i : Nat) : Only [.seats, .cands, .calls, .retryDue, .notices, .noticesLost] t
    (t.relocate c i) := by
  unfold State.relocate
  repeat' split
  all_goals simp

@[simp] theorem only_relocate {l : List Part} (h0 : .seats ∈ l) (h1 : .cands ∈ l) (h2 : .calls ∈ l)
    (h3 : .retryDue ∈ l) (h4 : .notices ∈ l) (h5 : .noticesLost ∈ l) (s t : State) (c i : Nat) :
    Only l s (t.relocate c i) ↔ Only l s t :=
  (relocate_only t c i).drop (fun p hp => by
    simp only [List.mem_cons, List.not_mem_nil, or_false] at hp
    rcases hp with rfl | rfl | rfl | rfl | rfl | rfl <;> assumption)

theorem answeringClaim_only (t : State) (i : Nat) (v : Bool) : Only [.seats] t (t.answeringClaim i v) := by
  unfold State.answeringClaim
  simp

@[simp] theorem only_answeringClaim {l : List Part} (h0 : .seats ∈ l) (s t : State) (i : Nat) (v : Bool) :
    Only l s (t.answeringClaim i v) ↔ Only l s t :=
  (answeringClaim_only t i v).drop (fun p hp => by
    simp only [List.mem_cons, List.not_mem_nil, or_false] at hp
    exact hp ▸ h0)

/-! ### Personal time and the sittings (chapters 3 and 4) -/

theorem notePhase_only (t : State) (k : Nat) (c : PhaseCause) : Only [.notices, .noticesLost] t
    (t.notePhase k c) := by
  unfold State.notePhase
  simp

@[simp] theorem only_notePhase {l : List Part} (h0 : .notices ∈ l) (h1 : .noticesLost ∈ l) (s t : State) (k : Nat)
    (c : PhaseCause) :
    Only l s (t.notePhase k c) ↔ Only l s t :=
  (notePhase_only t k c).drop (fun p hp => by
    simp only [List.mem_cons, List.not_mem_nil, or_false] at hp
    rcases hp with rfl | rfl <;> assumption)

theorem addMark_only (t : State) (k : Nat) (e : MarkEntry) : Only [.sittings] t (t.addMark k e) := by
  unfold State.addMark
  simp

@[simp] theorem only_addMark {l : List Part} (h0 : .sittings ∈ l) (s t : State) (k : Nat) (e : MarkEntry) :
    Only l s (t.addMark k e) ↔ Only l s t :=
  (addMark_only t k e).drop (fun p hp => by
    simp only [List.mem_cons, List.not_mem_nil, or_false] at hp
    exact hp ▸ h0)

theorem dropMark_only (t : State) (k c : Nat) : Only [.sittings] t (t.dropMark k c) := by
  unfold State.dropMark
  simp

@[simp] theorem only_dropMark {l : List Part} (h0 : .sittings ∈ l) (s t : State) (k c : Nat) :
    Only l s (t.dropMark k c) ↔ Only l s t :=
  (dropMark_only t k c).drop (fun p hp => by
    simp only [List.mem_cons, List.not_mem_nil, or_false] at hp
    exact hp ▸ h0)

theorem addWritingEntry_only (t : State) (c : Nat) : Only [.sittings] t (t.addWritingEntry c) := by
  unfold State.addWritingEntry
  repeat' split
  all_goals simp

@[simp] theorem only_addWritingEntry {l : List Part} (h0 : .sittings ∈ l) (s t : State) (c : Nat) :
    Only l s (t.addWritingEntry c) ↔ Only l s t :=
  (addWritingEntry_only t c).drop (fun p hp => by
    simp only [List.mem_cons, List.not_mem_nil, or_false] at hp
    exact hp ▸ h0)

theorem collectIfEmpty_only (t : State) (k : Nat) : Only [.sittings, .notices, .noticesLost] t
    (t.collectIfEmpty k) := by
  unfold State.collectIfEmpty
  repeat' split
  all_goals simp

@[simp] theorem only_collectIfEmpty {l : List Part} (h0 : .sittings ∈ l) (h1 : .notices ∈ l)
    (h2 : .noticesLost ∈ l) (s t : State) (k : Nat) :
    Only l s (t.collectIfEmpty k) ↔ Only l s t :=
  (collectIfEmpty_only t k).drop (fun p hp => by
    simp only [List.mem_cons, List.not_mem_nil, or_false] at hp
    rcases hp with rfl | rfl | rfl <;> assumption)

theorem resumeFor_only (t : State) (c d : Nat) : Only [.cands, .sittings] t (t.resumeFor c d) := by
  unfold State.resumeFor
  simp

@[simp] theorem only_resumeFor {l : List Part} (h0 : .cands ∈ l) (h1 : .sittings ∈ l) (s t : State) (c d : Nat) :
    Only l s (t.resumeFor c d) ↔ Only l s t :=
  (resumeFor_only t c d).drop (fun p hp => by
    simp only [List.mem_cons, List.not_mem_nil, or_false] at hp
    rcases hp with rfl | rfl <;> assumption)

theorem fireWarn_only (t : State) (c : Nat) : Only [.sittings] t (t.fireWarn c) := by
  unfold State.fireWarn
  simp

@[simp] theorem only_fireWarn {l : List Part} (h0 : .sittings ∈ l) (s t : State) (c : Nat) :
    Only l s (t.fireWarn c) ↔ Only l s t :=
  (fireWarn_only t c).drop (fun p hp => by
    simp only [List.mem_cons, List.not_mem_nil, or_false] at hp
    exact hp ▸ h0)

theorem noteCandEnd_only (t : State) (c : Nat) : Only [.notices, .noticesLost] t (t.noteCandEnd c) := by
  unfold State.noteCandEnd
  split
  · simp
  · dsimp only
    split <;> simp

@[simp] theorem only_noteCandEnd {l : List Part} (h0 : .notices ∈ l) (h1 : .noticesLost ∈ l) (s t : State) (c : Nat) :
    Only l s (t.noteCandEnd c) ↔ Only l s t :=
  (noteCandEnd_only t c).drop (fun p hp => by
    simp only [List.mem_cons, List.not_mem_nil, or_false] at hp
    rcases hp with rfl | rfl <;> assumption)

theorem fireEnd_only (t : State) (c : Nat) : Only [.seats, .cands, .calls, .retryDue, .notices, .noticesLost] t
    (t.fireEnd c) := by
  unfold State.fireEnd
  repeat' split
  all_goals simp

@[simp] theorem only_fireEnd {l : List Part} (h0 : .seats ∈ l) (h1 : .cands ∈ l) (h2 : .calls ∈ l)
    (h3 : .retryDue ∈ l) (h4 : .notices ∈ l) (h5 : .noticesLost ∈ l) (s t : State) (c : Nat) :
    Only l s (t.fireEnd c) ↔ Only l s t :=
  (fireEnd_only t c).drop (fun p hp => by
    simp only [List.mem_cons, List.not_mem_nil, or_false] at hp
    rcases hp with rfl | rfl | rfl | rfl | rfl | rfl <;> assumption)

theorem fireRest_only (t : State) (c : Nat) : Only [.cands, .calls, .sittings, .notices, .noticesLost] t
    (t.fireRest c) := by
  unfold State.fireRest
  split
  · simp
  · split
    · simp only [only_notify, List.mem_cons, true_or, or_true]
      split <;> simp
    · simp

@[simp] theorem only_fireRest {l : List Part} (h0 : .cands ∈ l) (h1 : .calls ∈ l) (h2 : .sittings ∈ l)
    (h3 : .notices ∈ l) (h4 : .noticesLost ∈ l) (s t : State) (c : Nat) :
    Only l s (t.fireRest c) ↔ Only l s t :=
  (fireRest_only t c).drop (fun p hp => by
    simp only [List.mem_cons, List.not_mem_nil, or_false] at hp
    rcases hp with rfl | rfl | rfl | rfl | rfl <;> assumption)

theorem fireEntry_only (t : State) (e : MarkEntry) : Only [.seats, .cands, .calls, .retryDue, .sittings, .notices,
    .noticesLost] t (t.fireEntry e) := by
  unfold State.fireEntry
  repeat' split
  all_goals simp

@[simp] theorem only_fireEntry {l : List Part} (h0 : .seats ∈ l) (h1 : .cands ∈ l) (h2 : .calls ∈ l)
    (h3 : .retryDue ∈ l) (h4 : .sittings ∈ l) (h5 : .notices ∈ l) (h6 : .noticesLost ∈ l) (s t : State)
    (e : MarkEntry) :
    Only l s (t.fireEntry e) ↔ Only l s t :=
  (fireEntry_only t e).drop (fun p hp => by
    simp only [List.mem_cons, List.not_mem_nil, or_false] at hp
    rcases hp with rfl | rfl | rfl | rfl | rfl | rfl | rfl <;> assumption)

theorem fireHead_only (t : State) (k : Nat) : Only [.seats, .cands, .calls, .retryDue, .sittings, .notices,
    .noticesLost] t (t.fireHead k) := by
  unfold State.fireHead
  repeat' split
  all_goals simp

@[simp] theorem only_fireHead {l : List Part} (h0 : .seats ∈ l) (h1 : .cands ∈ l) (h2 : .calls ∈ l)
    (h3 : .retryDue ∈ l) (h4 : .sittings ∈ l) (h5 : .notices ∈ l) (h6 : .noticesLost ∈ l) (s t : State) (k : Nat) :
    Only l s (t.fireHead k) ↔ Only l s t :=
  (fireHead_only t k).drop (fun p hp => by
    simp only [List.mem_cons, List.not_mem_nil, or_false] at hp
    rcases hp with rfl | rfl | rfl | rfl | rfl | rfl | rfl <;> assumption)

theorem fireUpTo_only (t : State) (k n : Nat) : Only [.seats, .cands, .calls, .retryDue, .sittings, .notices,
    .noticesLost] t (State.fireUpTo k n t) := by
  induction n generalizing t with
  | zero => exact Only.refl _ t
  | succ n ih =>
    unfold State.fireUpTo
    split
    · exact (fireHead_only t k).trans (ih _)
    · exact Only.refl _ t

@[simp] theorem only_fireUpTo {l : List Part} (h0 : .seats ∈ l) (h1 : .cands ∈ l) (h2 : .calls ∈ l)
    (h3 : .retryDue ∈ l) (h4 : .sittings ∈ l) (h5 : .notices ∈ l) (h6 : .noticesLost ∈ l) (s t : State) (k n : Nat) :
    Only l s (State.fireUpTo k n t) ↔ Only l s t :=
  (fireUpTo_only t k n).drop (fun p hp => by
    simp only [List.mem_cons, List.not_mem_nil, or_false] at hp
    rcases hp with rfl | rfl | rfl | rfl | rfl | rfl | rfl <;> assumption)

theorem fireDue_only (t : State) (k : Nat) : Only [.seats, .cands, .calls, .retryDue, .sittings, .notices,
    .noticesLost] t (t.fireDue k) := by
  unfold State.fireDue
  simp

@[simp] theorem only_fireDue {l : List Part} (h0 : .seats ∈ l) (h1 : .cands ∈ l) (h2 : .calls ∈ l)
    (h3 : .retryDue ∈ l) (h4 : .sittings ∈ l) (h5 : .notices ∈ l) (h6 : .noticesLost ∈ l) (s t : State) (k : Nat) :
    Only l s (t.fireDue k) ↔ Only l s t :=
  (fireDue_only t k).drop (fun p hp => by
    simp only [List.mem_cons, List.not_mem_nil, or_false] at hp
    rcases hp with rfl | rfl | rfl | rfl | rfl | rfl | rfl <;> assumption)

theorem fireInserted_only (t : State) (k : Nat) : Only [.seats, .cands, .calls, .retryDue, .sittings, .notices,
    .noticesLost] t (t.fireInserted k) := by
  unfold State.fireInserted
  repeat' split
  all_goals simp

@[simp] theorem only_fireInserted {l : List Part} (h0 : .seats ∈ l) (h1 : .cands ∈ l) (h2 : .calls ∈ l)
    (h3 : .retryDue ∈ l) (h4 : .sittings ∈ l) (h5 : .notices ∈ l) (h6 : .noticesLost ∈ l) (s t : State) (k : Nat) :
    Only l s (t.fireInserted k) ↔ Only l s t :=
  (fireInserted_only t k).drop (fun p hp => by
    simp only [List.mem_cons, List.not_mem_nil, or_false] at hp
    rcases hp with rfl | rfl | rfl | rfl | rfl | rfl | rfl <;> assumption)

theorem resumeClaim_only (t : State) (c : Nat) : Only [.seats, .cands, .calls, .retryDue, .sittings, .notices,
    .noticesLost] t (t.resumeClaim c) := by
  unfold State.resumeClaim
  repeat' split
  all_goals simp

@[simp] theorem only_resumeClaim {l : List Part} (h0 : .seats ∈ l) (h1 : .cands ∈ l) (h2 : .calls ∈ l)
    (h3 : .retryDue ∈ l) (h4 : .sittings ∈ l) (h5 : .notices ∈ l) (h6 : .noticesLost ∈ l) (s t : State) (c : Nat) :
    Only l s (t.resumeClaim c) ↔ Only l s t :=
  (resumeClaim_only t c).drop (fun p hp => by
    simp only [List.mem_cons, List.not_mem_nil, or_false] at hp
    rcases hp with rfl | rfl | rfl | rfl | rfl | rfl | rfl <;> assumption)

theorem pauseClaim_only (t : State) (c : Nat) : Only [.seats, .cands, .calls, .retryDue, .sittings, .notices,
    .noticesLost] t (t.pauseClaim c) := by
  unfold State.pauseClaim
  repeat' split
  all_goals simp

@[simp] theorem only_pauseClaim {l : List Part} (h0 : .seats ∈ l) (h1 : .cands ∈ l) (h2 : .calls ∈ l)
    (h3 : .retryDue ∈ l) (h4 : .sittings ∈ l) (h5 : .notices ∈ l) (h6 : .noticesLost ∈ l) (s t : State) (c : Nat) :
    Only l s (t.pauseClaim c) ↔ Only l s t :=
  (pauseClaim_only t c).drop (fun p hp => by
    simp only [List.mem_cons, List.not_mem_nil, or_false] at hp
    rcases hp with rfl | rfl | rfl | rfl | rfl | rfl | rfl <;> assumption)

theorem beginWriting_only (t : State) (c : Nat) : Only [.cands, .sittings] t (State.beginWriting c t) := by
  unfold State.beginWriting
  repeat' split
  all_goals simp

@[simp] theorem only_beginWriting {l : List Part} (h0 : .cands ∈ l) (h1 : .sittings ∈ l) (s t : State) (c : Nat) :
    Only l s (State.beginWriting c t) ↔ Only l s t :=
  (beginWriting_only t c).drop (fun p hp => by
    simp only [List.mem_cons, List.not_mem_nil, or_false] at hp
    rcases hp with rfl | rfl <;> assumption)

theorem giveWarning_only (t : State) (k : Nat) : Only [.sittings, .notices, .noticesLost] t (t.giveWarning k) := by
  unfold State.giveWarning
  dsimp only
  split <;> simp

@[simp] theorem only_giveWarning {l : List Part} (h0 : .sittings ∈ l) (h1 : .notices ∈ l) (h2 : .noticesLost ∈ l)
    (s t : State) (k : Nat) :
    Only l s (t.giveWarning k) ↔ Only l s t :=
  (giveWarning_only t k).drop (fun p hp => by
    simp only [List.mem_cons, List.not_mem_nil, or_false] at hp
    rcases hp with rfl | rfl | rfl <;> assumption)

theorem takeCutoff_only (t : State) (k : Nat) : Only [.seats, .cands, .queue, .calls, .retryDue, .sittings,
    .notices, .noticesLost] t (t.takeCutoff k) := by
  unfold State.takeCutoff
  simp

@[simp] theorem only_takeCutoff {l : List Part} (h0 : .seats ∈ l) (h1 : .cands ∈ l) (h2 : .queue ∈ l)
    (h3 : .calls ∈ l) (h4 : .retryDue ∈ l) (h5 : .sittings ∈ l) (h6 : .notices ∈ l) (h7 : .noticesLost ∈ l)
    (s t : State) (k : Nat) :
    Only l s (t.takeCutoff k) ↔ Only l s t :=
  (takeCutoff_only t k).drop (fun p hp => by
    simp only [List.mem_cons, List.not_mem_nil, or_false] at hp
    rcases hp with rfl | rfl | rfl | rfl | rfl | rfl | rfl | rfl <;> assumption)

theorem cutoffIfReached_only (t : State) (k : Nat) : Only [.seats, .cands, .queue, .calls, .retryDue, .sittings,
    .notices, .noticesLost] t (t.cutoffIfReached k) := by
  unfold State.cutoffIfReached
  repeat' split
  all_goals simp

@[simp] theorem only_cutoffIfReached {l : List Part} (h0 : .seats ∈ l) (h1 : .cands ∈ l) (h2 : .queue ∈ l)
    (h3 : .calls ∈ l) (h4 : .retryDue ∈ l) (h5 : .sittings ∈ l) (h6 : .notices ∈ l) (h7 : .noticesLost ∈ l)
    (s t : State) (k : Nat) :
    Only l s (t.cutoffIfReached k) ↔ Only l s t :=
  (cutoffIfReached_only t k).drop (fun p hp => by
    simp only [List.mem_cons, List.not_mem_nil, or_false] at hp
    rcases hp with rfl | rfl | rfl | rfl | rfl | rfl | rfl | rfl <;> assumption)

theorem takeCompare_only (t : State) (k : Nat) : Only [.sittings, .notices, .noticesLost] t (t.takeCompare k) := by
  unfold State.takeCompare
  repeat' split
  all_goals simp

@[simp] theorem only_takeCompare {l : List Part} (h0 : .sittings ∈ l) (h1 : .notices ∈ l) (h2 : .noticesLost ∈ l)
    (s t : State) (k : Nat) :
    Only l s (t.takeCompare k) ↔ Only l s t :=
  (takeCompare_only t k).drop (fun p hp => by
    simp only [List.mem_cons, List.not_mem_nil, or_false] at hp
    rcases hp with rfl | rfl | rfl <;> assumption)

theorem compareIfReached_only (t : State) (k : Nat) : Only [.sittings, .notices, .noticesLost] t
    (t.compareIfReached k) := by
  unfold State.compareIfReached
  repeat' split
  all_goals simp

@[simp] theorem only_compareIfReached {l : List Part} (h0 : .sittings ∈ l) (h1 : .notices ∈ l)
    (h2 : .noticesLost ∈ l) (s t : State) (k : Nat) :
    Only l s (t.compareIfReached k) ↔ Only l s t :=
  (compareIfReached_only t k).drop (fun p hp => by
    simp only [List.mem_cons, List.not_mem_nil, or_false] at hp
    rcases hp with rfl | rfl | rfl <;> assumption)

theorem startWriting_only (t : State) (k : Nat) (c : PhaseCause) : Only [.seats, .cands, .queue, .calls, .retryDue,
    .sittings, .notices, .noticesLost] t (t.startWriting k c) := by
  unfold State.startWriting
  simp [only_forEach]

@[simp] theorem only_startWriting {l : List Part} (h0 : .seats ∈ l) (h1 : .cands ∈ l) (h2 : .queue ∈ l)
    (h3 : .calls ∈ l) (h4 : .retryDue ∈ l) (h5 : .sittings ∈ l) (h6 : .notices ∈ l) (h7 : .noticesLost ∈ l)
    (s t : State) (k : Nat) (c : PhaseCause) :
    Only l s (t.startWriting k c) ↔ Only l s t :=
  (startWriting_only t k c).drop (fun p hp => by
    simp only [List.mem_cons, List.not_mem_nil, or_false] at hp
    rcases hp with rfl | rfl | rfl | rfl | rfl | rfl | rfl | rfl <;> assumption)

theorem secondWork_only (t : State) (k : Nat) : Only [.seats, .cands, .queue, .calls, .retryDue, .sittings,
    .notices, .noticesLost] t (t.secondWork k) := by
  unfold State.secondWork
  simp

@[simp] theorem only_secondWork {l : List Part} (h0 : .seats ∈ l) (h1 : .cands ∈ l) (h2 : .queue ∈ l)
    (h3 : .calls ∈ l) (h4 : .retryDue ∈ l) (h5 : .sittings ∈ l) (h6 : .notices ∈ l) (h7 : .noticesLost ∈ l)
    (s t : State) (k : Nat) :
    Only l s (t.secondWork k) ↔ Only l s t :=
  (secondWork_only t k).drop (fun p hp => by
    simp only [List.mem_cons, List.not_mem_nil, or_false] at hp
    rcases hp with rfl | rfl | rfl | rfl | rfl | rfl | rfl | rfl <;> assumption)

theorem advanceClock_only (t : State) (k : Nat) : Only [.sittings] t (t.advanceClock k) := by
  unfold State.advanceClock
  simp

@[simp] theorem only_advanceClock {l : List Part} (h0 : .sittings ∈ l) (s t : State) (k : Nat) :
    Only l s (t.advanceClock k) ↔ Only l s t :=
  (advanceClock_only t k).drop (fun p hp => by
    simp only [List.mem_cons, List.not_mem_nil, or_false] at hp
    exact hp ▸ h0)

theorem takeSecond_only (t : State) (k : Nat) : Only [.seats, .cands, .queue, .calls, .retryDue, .sittings,
    .notices, .noticesLost] t (t.takeSecond k) := by
  unfold State.takeSecond
  dsimp only
  repeat' split
  all_goals simp

@[simp] theorem only_takeSecond {l : List Part} (h0 : .seats ∈ l) (h1 : .cands ∈ l) (h2 : .queue ∈ l)
    (h3 : .calls ∈ l) (h4 : .retryDue ∈ l) (h5 : .sittings ∈ l) (h6 : .notices ∈ l) (h7 : .noticesLost ∈ l)
    (s t : State) (k : Nat) :
    Only l s (t.takeSecond k) ↔ Only l s t :=
  (takeSecond_only t k).drop (fun p hp => by
    simp only [List.mem_cons, List.not_mem_nil, or_false] at hp
    rcases hp with rfl | rfl | rfl | rfl | rfl | rfl | rfl | rfl <;> assumption)

theorem startSittingNow_only (t : State) (k : Nat) : Only [.seats, .cands, .queue, .calls, .retryDue, .sittings,
    .notices, .noticesLost] t (t.startSittingNow k) := by
  unfold State.startSittingNow
  dsimp only
  split <;> simp

@[simp] theorem only_startSittingNow {l : List Part} (h0 : .seats ∈ l) (h1 : .cands ∈ l) (h2 : .queue ∈ l)
    (h3 : .calls ∈ l) (h4 : .retryDue ∈ l) (h5 : .sittings ∈ l) (h6 : .notices ∈ l) (h7 : .noticesLost ∈ l)
    (s t : State) (k : Nat) :
    Only l s (t.startSittingNow k) ↔ Only l s t :=
  (startSittingNow_only t k).drop (fun p hp => by
    simp only [List.mem_cons, List.not_mem_nil, or_false] at hp
    rcases hp with rfl | rfl | rfl | rfl | rfl | rfl | rfl | rfl <;> assumption)

theorem clockJump_only (t : State) (h : HallTime) (b : Bool) : Only [.hall, .secondCount, .seats, .cands, .queue,
    .calls, .retryDue, .sittings, .notices, .noticesLost] t ((t.clockJump h b).1) := by
  unfold State.clockJump
  refine (only_forEach (fun k u => by simp) _ t _).mpr ?_
  intro p hp; cases p <;> first | rfl | exact absurd (by decide) hp

@[simp] theorem only_clockJump {l : List Part} (h0 : .hall ∈ l) (h1 : .secondCount ∈ l) (h2 : .seats ∈ l)
    (h3 : .cands ∈ l) (h4 : .queue ∈ l) (h5 : .calls ∈ l) (h6 : .retryDue ∈ l) (h7 : .sittings ∈ l)
    (h8 : .notices ∈ l) (h9 : .noticesLost ∈ l) (s t : State) (h : HallTime) (b : Bool) :
    Only l s ((t.clockJump h b).1) ↔ Only l s t :=
  (clockJump_only t h b).drop (fun p hp => by
    simp only [List.mem_cons, List.not_mem_nil, or_false] at hp
    rcases hp with rfl | rfl | rfl | rfl | rfl | rfl | rfl | rfl | rfl | rfl <;> assumption)

/-! ### Calls and handsets (chapter 6) -/

theorem raise_only (t : State) (i : Nat) (q : CallKind) (o : Option Nat) : Only [.calls, .notices, .noticesLost] t
    ((t.raise i q o).1) := by
  unfold State.raise
  split
  · split
    · simp
    · dsimp only
      split <;> simp
  · simp

@[simp] theorem only_raise {l : List Part} (h0 : .calls ∈ l) (h1 : .notices ∈ l) (h2 : .noticesLost ∈ l)
    (s t : State) (i : Nat) (q : CallKind) (o : Option Nat) :
    Only l s ((t.raise i q o).1) ↔ Only l s t :=
  (raise_only t i q o).drop (fun p hp => by
    simp only [List.mem_cons, List.not_mem_nil, or_false] at hp
    rcases hp with rfl | rfl | rfl <;> assumption)

theorem setNote_only (t : State) (h : Nat) (n : Note) : Only [.handsets] t (t.setNote h n) := by
  unfold State.setNote
  simp

@[simp] theorem only_setNote {l : List Part} (h0 : .handsets ∈ l) (s t : State) (h : Nat) (n : Note) :
    Only l s (t.setNote h n) ↔ Only l s t :=
  (setNote_only t h n).drop (fun p hp => by
    simp only [List.mem_cons, List.not_mem_nil, or_false] at hp
    exact hp ▸ h0)

theorem take_only (t : State) (h : Nat) : Only [.seats, .cands, .calls, .retryDue, .sittings, .notices,
    .noticesLost, .handsets] t (t.take h) := by
  unfold State.take
  dsimp only
  repeat' split
  all_goals simp

@[simp] theorem only_take {l : List Part} (h0 : .seats ∈ l) (h1 : .cands ∈ l) (h2 : .calls ∈ l)
    (h3 : .retryDue ∈ l) (h4 : .sittings ∈ l) (h5 : .notices ∈ l) (h6 : .noticesLost ∈ l) (h7 : .handsets ∈ l)
    (s t : State) (h : Nat) :
    Only l s (t.take h) ↔ Only l s t :=
  (take_only t h).drop (fun p hp => by
    simp only [List.mem_cons, List.not_mem_nil, or_false] at hp
    rcases hp with rfl | rfl | rfl | rfl | rfl | rfl | rfl | rfl <;> assumption)

theorem issueClaim_only (t : State) (c : Nat) : Only [.cands] t ((t.issueClaim c).1) := by
  unfold State.issueClaim
  repeat' split
  all_goals simp

@[simp] theorem only_issueClaim {l : List Part} (h0 : .cands ∈ l) (s t : State) (c : Nat) :
    Only l s ((t.issueClaim c).1) ↔ Only l s t :=
  (issueClaim_only t c).drop (fun p hp => by
    simp only [List.mem_cons, List.not_mem_nil, or_false] at hp
    exact hp ▸ h0)

theorem unstack_only (t : State) (h i : Nat) : Only [.handsets] t (t.unstack h i) := by
  unfold State.unstack
  simp

@[simp] theorem only_unstack {l : List Part} (h0 : .handsets ∈ l) (s t : State) (h i : Nat) :
    Only l s (t.unstack h i) ↔ Only l s t :=
  (unstack_only t h i).drop (fun p hp => by
    simp only [List.mem_cons, List.not_mem_nil, or_false] at hp
    exact hp ▸ h0)

theorem doneEffect_only (t : State) (i : Nat) (c : Call) : Only [.seats, .cands, .calls, .retryDue, .sittings,
    .notices, .noticesLost] t (t.doneEffect i c) := by
  unfold State.doneEffect
  dsimp only
  repeat' split
  all_goals simp

@[simp] theorem only_doneEffect {l : List Part} (h0 : .seats ∈ l) (h1 : .cands ∈ l) (h2 : .calls ∈ l)
    (h3 : .retryDue ∈ l) (h4 : .sittings ∈ l) (h5 : .notices ∈ l) (h6 : .noticesLost ∈ l) (s t : State) (i : Nat)
    (c : Call) :
    Only l s (t.doneEffect i c) ↔ Only l s t :=
  (doneEffect_only t i c).drop (fun p hp => by
    simp only [List.mem_cons, List.not_mem_nil, or_false] at hp
    rcases hp with rfl | rfl | rfl | rfl | rfl | rfl | rfl <;> assumption)

theorem finishCall_only (t : State) (h i : Nat) : Only [.seats, .cands, .calls, .retryDue, .sittings, .notices,
    .noticesLost, .handsets] t (t.finishCall h i) := by
  unfold State.finishCall
  repeat' split
  all_goals simp

@[simp] theorem only_finishCall {l : List Part} (h0 : .seats ∈ l) (h1 : .cands ∈ l) (h2 : .calls ∈ l)
    (h3 : .retryDue ∈ l) (h4 : .sittings ∈ l) (h5 : .notices ∈ l) (h6 : .noticesLost ∈ l) (h7 : .handsets ∈ l)
    (s t : State) (h i : Nat) :
    Only l s (t.finishCall h i) ↔ Only l s t :=
  (finishCall_only t h i).drop (fun p hp => by
    simp only [List.mem_cons, List.not_mem_nil, or_false] at hp
    rcases hp with rfl | rfl | rfl | rfl | rfl | rfl | rfl | rfl <;> assumption)

theorem doneCall_only (t : State) (h : Nat) (i : Option Nat) : Only [.seats, .cands, .calls, .retryDue, .sittings,
    .notices, .noticesLost, .handsets] t (t.doneCall h i) := by
  unfold State.doneCall
  repeat' split
  all_goals simp

@[simp] theorem only_doneCall {l : List Part} (h0 : .seats ∈ l) (h1 : .cands ∈ l) (h2 : .calls ∈ l)
    (h3 : .retryDue ∈ l) (h4 : .sittings ∈ l) (h5 : .notices ∈ l) (h6 : .noticesLost ∈ l) (h7 : .handsets ∈ l)
    (s t : State) (h : Nat) (i : Option Nat) :
    Only l s (t.doneCall h i) ↔ Only l s t :=
  (doneCall_only t h i).drop (fun p hp => by
    simp only [List.mem_cons, List.not_mem_nil, or_false] at hp
    rcases hp with rfl | rfl | rfl | rfl | rfl | rfl | rfl | rfl <;> assumption)

theorem cancelCall_only (t : State) (i : Nat) (c : Call) : Only [.seats, .cands, .calls, .retryDue, .sittings,
    .notices, .noticesLost, .handsets] t (t.cancelCall i c) := by
  unfold State.cancelCall
  dsimp only
  split
  · simp
  · simp only [only_putCall, List.mem_cons, true_or, or_true]
    split <;> simp

@[simp] theorem only_cancelCall {l : List Part} (h0 : .seats ∈ l) (h1 : .cands ∈ l) (h2 : .calls ∈ l)
    (h3 : .retryDue ∈ l) (h4 : .sittings ∈ l) (h5 : .notices ∈ l) (h6 : .noticesLost ∈ l) (h7 : .handsets ∈ l)
    (s t : State) (i : Nat) (c : Call) :
    Only l s (t.cancelCall i c) ↔ Only l s t :=
  (cancelCall_only t i c).drop (fun p hp => by
    simp only [List.mem_cons, List.not_mem_nil, or_false] at hp
    rcases hp with rfl | rfl | rfl | rfl | rfl | rfl | rfl | rfl <;> assumption)

theorem cancelSittingCalls_only (t : State) (k : Nat) : Only [.calls, .handsets] t ((t.cancelSittingCalls k).1) := by
  unfold State.cancelSittingCalls
  refine (only_forEach (fun i u => ?_) _ t t).mpr (Only.refl _ t)
  split <;> simp

@[simp] theorem only_cancelSittingCalls {l : List Part} (h0 : .calls ∈ l) (h1 : .handsets ∈ l) (s t : State)
    (k : Nat) :
    Only l s ((t.cancelSittingCalls k).1) ↔ Only l s t :=
  (cancelSittingCalls_only t k).drop (fun p hp => by
    simp only [List.mem_cons, List.not_mem_nil, or_false] at hp
    rcases hp with rfl | rfl <;> assumption)

theorem returnCall_only (t : State) (i : Nat) : Only [.seats, .cands, .calls, .retryDue, .sittings, .notices,
    .noticesLost] t (State.returnCall i t) := by
  unfold State.returnCall
  split
  · simp
  · simp only [only_modCall, List.mem_cons, true_or, or_true]
    split <;> simp

@[simp] theorem only_returnCall {l : List Part} (h0 : .seats ∈ l) (h1 : .cands ∈ l) (h2 : .calls ∈ l)
    (h3 : .retryDue ∈ l) (h4 : .sittings ∈ l) (h5 : .notices ∈ l) (h6 : .noticesLost ∈ l) (s t : State) (i : Nat) :
    Only l s (State.returnCall i t) ↔ Only l s t :=
  (returnCall_only t i).drop (fun p hp => by
    simp only [List.mem_cons, List.not_mem_nil, or_false] at hp
    rcases hp with rfl | rfl | rfl | rfl | rfl | rfl | rfl <;> assumption)

theorem handsetGoesAway_only (t : State) (h : Nat) : Only [.seats, .cands, .calls, .retryDue, .sittings, .notices,
    .noticesLost, .handsets] t (t.handsetGoesAway h) := by
  unfold State.handsetGoesAway
  simp [only_forEach]

@[simp] theorem only_handsetGoesAway {l : List Part} (h0 : .seats ∈ l) (h1 : .cands ∈ l) (h2 : .calls ∈ l)
    (h3 : .retryDue ∈ l) (h4 : .sittings ∈ l) (h5 : .notices ∈ l) (h6 : .noticesLost ∈ l) (h7 : .handsets ∈ l)
    (s t : State) (h : Nat) :
    Only l s (t.handsetGoesAway h) ↔ Only l s t :=
  (handsetGoesAway_only t h).drop (fun p hp => by
    simp only [List.mem_cons, List.not_mem_nil, or_false] at hp
    rcases hp with rfl | rfl | rfl | rfl | rfl | rfl | rfl | rfl <;> assumption)

theorem handsetHeard_only (t : State) (h : Nat) : Only [.handsets] t (t.handsetHeard h) := by
  unfold State.handsetHeard
  simp

@[simp] theorem only_handsetHeard {l : List Part} (h0 : .handsets ∈ l) (s t : State) (h : Nat) :
    Only l s (t.handsetHeard h) ↔ Only l s t :=
  (handsetHeard_only t h).drop (fun p hp => by
    simp only [List.mem_cons, List.not_mem_nil, or_false] at hp
    exact hp ▸ h0)

theorem spendNote_only (t : State) (h : Nat) : Only [.handsets] t (t.spendNote h) := by
  unfold State.spendNote
  simp

@[simp] theorem only_spendNote {l : List Part} (h0 : .handsets ∈ l) (s t : State) (h : Nat) :
    Only l s (t.spendNote h) ↔ Only l s t :=
  (spendNote_only t h).drop (fun p hp => by
    simp only [List.mem_cons, List.not_mem_nil, or_false] at hp
    exact hp ▸ h0)

theorem resumeAll_only (t : State) : Only [.seats, .cands, .calls, .retryDue, .sittings, .notices, .noticesLost] t
    (t.resumeAll) := by
  unfold State.resumeAll
  simp [only_forEach]

@[simp] theorem only_resumeAll {l : List Part} (h0 : .seats ∈ l) (h1 : .cands ∈ l) (h2 : .calls ∈ l)
    (h3 : .retryDue ∈ l) (h4 : .sittings ∈ l) (h5 : .notices ∈ l) (h6 : .noticesLost ∈ l) (s t : State) :
    Only l s (t.resumeAll) ↔ Only l s t :=
  (resumeAll_only t).drop (fun p hp => by
    simp only [List.mem_cons, List.not_mem_nil, or_false] at hp
    rcases hp with rfl | rfl | rfl | rfl | rfl | rfl | rfl <;> assumption)

theorem clearCalls_only (t : State) : Only [.calls, .handsets] t (t.clearCalls) := by
  intro p hp; cases p <;> first | rfl | exact absurd (by decide) hp

@[simp] theorem only_clearCalls {l : List Part} (h0 : .calls ∈ l) (h1 : .handsets ∈ l) (s t : State) :
    Only l s (t.clearCalls) ↔ Only l s t :=
  (clearCalls_only t).drop (fun p hp => by
    simp only [List.mem_cons, List.not_mem_nil, or_false] at hp
    rcases hp with rfl | rfl <;> assumption)

/-! ### Sweeps and tags (chapter 7) -/

theorem endChannel_only (t : State) (k : Nat) (b : Bool) : Only [.channels, .notices, .noticesLost] t
    (t.endChannel k b) := by
  unfold State.endChannel
  simp

@[simp] theorem only_endChannel {l : List Part} (h0 : .channels ∈ l) (h1 : .notices ∈ l) (h2 : .noticesLost ∈ l)
    (s t : State) (k : Nat) (b : Bool) :
    Only l s (t.endChannel k b) ↔ Only l s t :=
  (endChannel_only t k b).drop (fun p hp => by
    simp only [List.mem_cons, List.not_mem_nil, or_false] at hp
    rcases hp with rfl | rfl | rfl <;> assumption)

theorem advance_only (t : State) (k : Nat) : Only [.channels, .notices, .noticesLost] t (t.advance k) := by
  unfold State.advance
  dsimp only
  repeat' split
  all_goals simp

@[simp] theorem only_advance {l : List Part} (h0 : .channels ∈ l) (h1 : .notices ∈ l) (h2 : .noticesLost ∈ l)
    (s t : State) (k : Nat) :
    Only l s (t.advance k) ↔ Only l s t :=
  (advance_only t k).drop (fun p hp => by
    simp only [List.mem_cons, List.not_mem_nil, or_false] at hp
    rcases hp with rfl | rfl | rfl <;> assumption)

theorem advanceIfDone_only (t : State) (k : Nat) : Only [.channels, .notices, .noticesLost] t
    (t.advanceIfDone k) := by
  unfold State.advanceIfDone
  repeat' split
  all_goals simp

@[simp] theorem only_advanceIfDone {l : List Part} (h0 : .channels ∈ l) (h1 : .notices ∈ l)
    (h2 : .noticesLost ∈ l) (s t : State) (k : Nat) :
    Only l s (t.advanceIfDone k) ↔ Only l s t :=
  (advanceIfDone_only t k).drop (fun p hp => by
    simp only [List.mem_cons, List.not_mem_nil, or_false] at hp
    rcases hp with rfl | rfl | rfl <;> assumption)

theorem advanceAll_only (t : State) : Only [.channels, .notices, .noticesLost] t (t.advanceAll) := by
  unfold State.advanceAll
  simp [only_forEach]

@[simp] theorem only_advanceAll {l : List Part} (h0 : .channels ∈ l) (h1 : .notices ∈ l) (h2 : .noticesLost ∈ l)
    (s t : State) :
    Only l s (t.advanceAll) ↔ Only l s t :=
  (advanceAll_only t).drop (fun p hp => by
    simp only [List.mem_cons, List.not_mem_nil, or_false] at hp
    rcases hp with rfl | rfl | rfl <;> assumption)

theorem completeCollection_only (t : State) (c : Nat) : Only [.seats, .cands, .calls, .retryDue, .channels,
    .notices, .noticesLost] t (t.completeCollection c) := by
  unfold State.completeCollection
  simp

@[simp] theorem only_completeCollection {l : List Part} (h0 : .seats ∈ l) (h1 : .cands ∈ l) (h2 : .calls ∈ l)
    (h3 : .retryDue ∈ l) (h4 : .channels ∈ l) (h5 : .notices ∈ l) (h6 : .noticesLost ∈ l) (s t : State) (c : Nat) :
    Only l s (t.completeCollection c) ↔ Only l s t :=
  (completeCollection_only t c).drop (fun p hp => by
    simp only [List.mem_cons, List.not_mem_nil, or_false] at hp
    rcases hp with rfl | rfl | rfl | rfl | rfl | rfl | rfl <;> assumption)

theorem orderCheck_only (t : State) (k c : Nat) (g : Tag) : Only [.channels, .exceptions, .exceptionsLost] t
    (t.orderCheck k c g) := by
  unfold State.orderCheck
  repeat' split
  all_goals simp

@[simp] theorem only_orderCheck {l : List Part} (h0 : .channels ∈ l) (h1 : .exceptions ∈ l)
    (h2 : .exceptionsLost ∈ l) (s t : State) (k c : Nat) (g : Tag) :
    Only l s (t.orderCheck k c g) ↔ Only l s t :=
  (orderCheck_only t k c g).drop (fun p hp => by
    simp only [List.mem_cons, List.not_mem_nil, or_false] at hp
    rcases hp with rfl | rfl | rfl <;> assumption)

theorem recordBooklet_only (t : State) (k c : Nat) (x : Candidate) (g : Tag) : Only [.seats, .cands, .calls,
    .retryDue, .channels, .notices, .noticesLost, .exceptions, .exceptionsLost] t (t.recordBooklet k c x g) := by
  unfold State.recordBooklet
  dsimp only
  repeat' split
  all_goals simp

@[simp] theorem only_recordBooklet {l : List Part} (h0 : .seats ∈ l) (h1 : .cands ∈ l) (h2 : .calls ∈ l)
    (h3 : .retryDue ∈ l) (h4 : .channels ∈ l) (h5 : .notices ∈ l) (h6 : .noticesLost ∈ l) (h7 : .exceptions ∈ l)
    (h8 : .exceptionsLost ∈ l) (s t : State) (k c : Nat) (x : Candidate) (g : Tag) :
    Only l s (t.recordBooklet k c x g) ↔ Only l s t :=
  (recordBooklet_only t k c x g).drop (fun p hp => by
    simp only [List.mem_cons, List.not_mem_nil, or_false] at hp
    rcases hp with rfl | rfl | rfl | rfl | rfl | rfl | rfl | rfl | rfl <;> assumption)

theorem processTag_only (t : State) (k : Nat) (g : Tag) : Only [.seats, .cands, .calls, .retryDue, .channels,
    .notices, .noticesLost, .exceptions, .exceptionsLost] t (t.processTag k g) := by
  unfold State.processTag
  repeat' split
  all_goals simp

@[simp] theorem only_processTag {l : List Part} (h0 : .seats ∈ l) (h1 : .cands ∈ l) (h2 : .calls ∈ l)
    (h3 : .retryDue ∈ l) (h4 : .channels ∈ l) (h5 : .notices ∈ l) (h6 : .noticesLost ∈ l) (h7 : .exceptions ∈ l)
    (h8 : .exceptionsLost ∈ l) (s t : State) (k : Nat) (g : Tag) :
    Only l s (t.processTag k g) ↔ Only l s t :=
  (processTag_only t k g).drop (fun p hp => by
    simp only [List.mem_cons, List.not_mem_nil, or_false] at hp
    rcases hp with rfl | rfl | rfl | rfl | rfl | rfl | rfl | rfl | rfl <;> assumption)

theorem tagRead_only (t : State) (k : Nat) (r : Option Tag) : Only [.seats, .cands, .calls, .retryDue, .channels,
    .notices, .noticesLost, .exceptions, .exceptionsLost] t (State.tagRead k r t) := by
  unfold State.tagRead
  dsimp only
  repeat' split
  all_goals simp

@[simp] theorem only_tagRead {l : List Part} (h0 : .seats ∈ l) (h1 : .cands ∈ l) (h2 : .calls ∈ l)
    (h3 : .retryDue ∈ l) (h4 : .channels ∈ l) (h5 : .notices ∈ l) (h6 : .noticesLost ∈ l) (h7 : .exceptions ∈ l)
    (h8 : .exceptionsLost ∈ l) (s t : State) (k : Nat) (r : Option Tag) :
    Only l s (State.tagRead k r t) ↔ Only l s t :=
  (tagRead_only t k r).drop (fun p hp => by
    simp only [List.mem_cons, List.not_mem_nil, or_false] at hp
    rcases hp with rfl | rfl | rfl | rfl | rfl | rfl | rfl | rfl | rfl <;> assumption)

theorem skip_only (t : State) (k : Nat) : Only [.channels, .notices, .noticesLost, .exceptions, .exceptionsLost] t
    (t.skip k) := by
  unfold State.skip
  dsimp only
  split <;> simp

@[simp] theorem only_skip {l : List Part} (h0 : .channels ∈ l) (h1 : .notices ∈ l) (h2 : .noticesLost ∈ l)
    (h3 : .exceptions ∈ l) (h4 : .exceptionsLost ∈ l) (s t : State) (k : Nat) :
    Only l s (t.skip k) ↔ Only l s t :=
  (skip_only t k).drop (fun p hp => by
    simp only [List.mem_cons, List.not_mem_nil, or_false] at hp
    rcases hp with rfl | rfl | rfl | rfl | rfl <;> assumption)

/-! ### Marking (chapter 9) -/

theorem storeSheet_only (t : State) (i : Nat) (x : Parked) : Only [.store, .cands, .notices, .noticesLost] t
    (t.storeSheet i x) := by
  unfold State.storeSheet
  dsimp only
  split <;> simp

@[simp] theorem only_storeSheet {l : List Part} (h0 : .store ∈ l) (h1 : .cands ∈ l) (h2 : .notices ∈ l)
    (h3 : .noticesLost ∈ l) (s t : State) (i : Nat) (x : Parked) :
    Only l s (t.storeSheet i x) ↔ Only l s t :=
  (storeSheet_only t i x).drop (fun p hp => by
    simp only [List.mem_cons, List.not_mem_nil, or_false] at hp
    rcases hp with rfl | rfl | rfl | rfl <;> assumption)

theorem park_only (t : State) (x : Parked) : Only [.parked, .batch, .notices, .noticesLost] t (t.park x) := by
  unfold State.park
  simp only [only_notify, only_modBatch, List.mem_cons, true_or, or_true]
  intro p hp; cases p <;> first | rfl | exact absurd (by decide) hp

@[simp] theorem only_park {l : List Part} (h0 : .parked ∈ l) (h1 : .batch ∈ l) (h2 : .notices ∈ l)
    (h3 : .noticesLost ∈ l) (s t : State) (x : Parked) :
    Only l s (t.park x) ↔ Only l s t :=
  (park_only t x).drop (fun p hp => by
    simp only [List.mem_cons, List.not_mem_nil, or_false] at hp
    rcases hp with rfl | rfl | rfl | rfl <;> assumption)

theorem blockSteps_only (t : State) : Only [.batch, .notices, .noticesLost] t (t.blockSteps) := by
  unfold State.blockSteps
  dsimp only
  repeat' split
  all_goals simp

@[simp] theorem only_blockSteps {l : List Part} (h0 : .batch ∈ l) (h1 : .notices ∈ l) (h2 : .noticesLost ∈ l)
    (s t : State) :
    Only l s (t.blockSteps) ↔ Only l s t :=
  (blockSteps_only t).drop (fun p hp => by
    simp only [List.mem_cons, List.not_mem_nil, or_false] at hp
    rcases hp with rfl | rfl | rfl <;> assumption)

theorem countSheet_only (t : State) : Only [.batch] t (t.countSheet) := by
  unfold State.countSheet
  simp

@[simp] theorem only_countSheet {l : List Part} (h0 : .batch ∈ l) (s t : State) :
    Only l s (t.countSheet) ↔ Only l s t :=
  (countSheet_only t).drop (fun p hp => by
    simp only [List.mem_cons, List.not_mem_nil, or_false] at hp
    exact hp ▸ h0)

theorem takeFaultReport_only (t : State) : Only [.batch, .notices, .noticesLost] t (t.takeFaultReport) := by
  unfold State.takeFaultReport
  simp

@[simp] theorem only_takeFaultReport {l : List Part} (h0 : .batch ∈ l) (h1 : .notices ∈ l) (h2 : .noticesLost ∈ l)
    (s t : State) :
    Only l s (t.takeFaultReport) ↔ Only l s t :=
  (takeFaultReport_only t).drop (fun p hp => by
    simp only [List.mem_cons, List.not_mem_nil, or_false] at hp
    rcases hp with rfl | rfl | rfl <;> assumption)

theorem takeSheet_only (t : State) (x : Sheet) : Only [.store, .cands, .batch, .notices, .noticesLost, .parked] t
    ((t.takeSheet x).1) := by
  unfold State.takeSheet
  dsimp only
  repeat' split
  all_goals simp

@[simp] theorem only_takeSheet {l : List Part} (h0 : .store ∈ l) (h1 : .cands ∈ l) (h2 : .batch ∈ l)
    (h3 : .notices ∈ l) (h4 : .noticesLost ∈ l) (h5 : .parked ∈ l) (s t : State) (x : Sheet) :
    Only l s ((t.takeSheet x).1) ↔ Only l s t :=
  (takeSheet_only t x).drop (fun p hp => by
    simp only [List.mem_cons, List.not_mem_nil, or_false] at hp
    rcases hp with rfl | rfl | rfl | rfl | rfl | rfl <;> assumption)

theorem resumeBatch_only (t : State) : Only [.store, .cands, .batch, .notices, .noticesLost, .parked, .verdicts,
    .counts] t (t.resumeBatch) := by
  unfold State.resumeBatch
  split
  · split
    · rename_i p i _ _ _
      simp only [only_blockSteps, only_modBatch, only_formVerdict, List.mem_cons, true_or, or_true]
      refine Only.trans (t := t.storeSheet i p) (by simp) ?_
      intro p hp; cases p <;> first | rfl | exact absurd (by decide) hp
    · simp
  · simp

@[simp] theorem only_resumeBatch {l : List Part} (h0 : .store ∈ l) (h1 : .cands ∈ l) (h2 : .batch ∈ l)
    (h3 : .notices ∈ l) (h4 : .noticesLost ∈ l) (h5 : .parked ∈ l) (h6 : .verdicts ∈ l) (h7 : .counts ∈ l)
    (s t : State) :
    Only l s (t.resumeBatch) ↔ Only l s t :=
  (resumeBatch_only t).drop (fun p hp => by
    simp only [List.mem_cons, List.not_mem_nil, or_false] at hp
    rcases hp with rfl | rfl | rfl | rfl | rfl | rfl | rfl | rfl <;> assumption)

theorem emptyStore_only (t : State) (i : Nat) : Only [.store, .cands] t (t.emptyStore i) := by
  intro p hp; cases p <;> first | rfl | exact absurd (by decide) hp

@[simp] theorem only_emptyStore {l : List Part} (h0 : .store ∈ l) (h1 : .cands ∈ l) (s t : State) (i : Nat) :
    Only l s (t.emptyStore i) ↔ Only l s t :=
  (emptyStore_only t i).drop (fun p hp => by
    simp only [List.mem_cons, List.not_mem_nil, or_false] at hp
    rcases hp with rfl | rfl <;> assumption)

theorem releaseSlots_only (t : State) (is : List Nat) : Only [.store, .cands] t ((t.releaseSlots is).1) := by
  exact only_foldl (fun r i => by split <;> simp) is (t, 0)

@[simp] theorem only_releaseSlots {l : List Part} (h0 : .store ∈ l) (h1 : .cands ∈ l) (s t : State) (is : List Nat) :
    Only l s ((t.releaseSlots is).1) ↔ Only l s t :=
  (releaseSlots_only t is).drop (fun p hp => by
    simp only [List.mem_cons, List.not_mem_nil, or_false] at hp
    rcases hp with rfl | rfl <;> assumption)

theorem adopt_only (t : State) (i c : Nat) (x : Stored) : Only [.store, .cands] t (t.adopt i c x) := by
  unfold State.adopt
  dsimp only
  split <;> simp

@[simp] theorem only_adopt {l : List Part} (h0 : .store ∈ l) (h1 : .cands ∈ l) (s t : State) (i c : Nat)
    (x : Stored) :
    Only l s (t.adopt i c x) ↔ Only l s t :=
  (adopt_only t i c x).drop (fun p hp => by
    simp only [List.mem_cons, List.not_mem_nil, or_false] at hp
    rcases hp with rfl | rfl <;> assumption)

/-! ### Unit links (chapter 5) -/

theorem resetUnits_only (t : State) (n : LinkName) (q : Nat → Bool) : Only [.seatUnits, .floorUnits] t
    (t.resetUnits n q) := by
  unfold State.resetUnits
  simp [only_forEach]

@[simp] theorem only_resetUnits {l : List Part} (h0 : .seatUnits ∈ l) (h1 : .floorUnits ∈ l) (s t : State)
    (n : LinkName) (q : Nat → Bool) :
    Only l s (t.resetUnits n q) ↔ Only l s t :=
  (resetUnits_only t n q).drop (fun p hp => by
    simp only [List.mem_cons, List.not_mem_nil, or_false] at hp
    rcases hp with rfl | rfl <;> assumption)

theorem beginCycle_only (t : State) (n : LinkName) : Only [.links, .seatUnits, .floorUnits] t (t.beginCycle n) := by
  unfold State.beginCycle
  simp

@[simp] theorem only_beginCycle {l : List Part} (h0 : .links ∈ l) (h1 : .seatUnits ∈ l) (h2 : .floorUnits ∈ l)
    (s t : State) (n : LinkName) :
    Only l s (t.beginCycle n) ↔ Only l s t :=
  (beginCycle_only t n).drop (fun p hp => by
    simp only [List.mem_cons, List.not_mem_nil, or_false] at hp
    rcases hp with rfl | rfl | rfl <;> assumption)

theorem spendOneShot_only (t : State) (n : LinkName) (i : Nat) : Only [.seatUnits, .floorUnits] t
    (t.spendOneShot n i) := by
  unfold State.spendOneShot
  simp

@[simp] theorem only_spendOneShot {l : List Part} (h0 : .seatUnits ∈ l) (h1 : .floorUnits ∈ l) (s t : State)
    (n : LinkName) (i : Nat) :
    Only l s (t.spendOneShot n i) ↔ Only l s t :=
  (spendOneShot_only t n i).drop (fun p hp => by
    simp only [List.mem_cons, List.not_mem_nil, or_false] at hp
    rcases hp with rfl | rfl <;> assumption)

theorem setOneShot_only (t : State) (n : LinkName) (i : Nat) (o : OneShot) : Only [.seatUnits, .floorUnits] t
    (t.setOneShot n i o) := by
  unfold State.setOneShot
  simp

@[simp] theorem only_setOneShot {l : List Part} (h0 : .seatUnits ∈ l) (h1 : .floorUnits ∈ l) (s t : State)
    (n : LinkName) (i : Nat) (o : OneShot) :
    Only l s (t.setOneShot n i o) ↔ Only l s t :=
  (setOneShot_only t n i o).drop (fun p hp => by
    simp only [List.mem_cons, List.not_mem_nil, or_false] at hp
    rcases hp with rfl | rfl <;> assumption)

theorem spendPoll_only (t : State) (n : LinkName) (a : Nat) : Only [.seatUnits, .floorUnits, .handsets] t
    (t.spendPoll n a) := by
  unfold State.spendPoll
  repeat' split
  all_goals simp

@[simp] theorem only_spendPoll {l : List Part} (h0 : .seatUnits ∈ l) (h1 : .floorUnits ∈ l) (h2 : .handsets ∈ l)
    (s t : State) (n : LinkName) (a : Nat) :
    Only l s (t.spendPoll n a) ↔ Only l s t :=
  (spendPoll_only t n a).drop (fun p hp => by
    simp only [List.mem_cons, List.not_mem_nil, or_false] at hp
    rcases hp with rfl | rfl | rfl <;> assumption)

theorem pollNext_only (t : State) (n : LinkName) : Only [.links, .seatUnits, .floorUnits, .handsets] t
    (t.pollNext n) := by
  unfold State.pollNext
  repeat' split
  all_goals simp

@[simp] theorem only_pollNext {l : List Part} (h0 : .links ∈ l) (h1 : .seatUnits ∈ l) (h2 : .floorUnits ∈ l)
    (h3 : .handsets ∈ l) (s t : State) (n : LinkName) :
    Only l s (t.pollNext n) ↔ Only l s t :=
  (pollNext_only t n).drop (fun p hp => by
    simp only [List.mem_cons, List.not_mem_nil, or_false] at hp
    rcases hp with rfl | rfl | rfl | rfl <;> assumption)

theorem faultClaim_only (t : State) (i : Nat) (q : FaultKind) : Only [.seats, .relocations, .notices,
    .noticesLost] t (t.faultClaim i q) := by
  unfold State.faultClaim
  split
  · simp
  · rename_i x _
    split
    · simp
    · dsimp only
      split
      · split
        · intro p hp
          have h : Only [.notices, .noticesLost, .seats, .relocations] t
            ((t.modSeat i (fun y =>
              { y with state := .faulted, fault := some q, answering := false, heldOrigin := decide (x.state = .held) }
              )).notify (.seatFault i q (t.boundNumber i))) := by simp
          have := h p (by revert hp; cases p <;> decide)
          cases p <;> first | exact this | exact absurd (by decide) hp
        · simp
      · simp

@[simp] theorem only_faultClaim {l : List Part} (h0 : .seats ∈ l) (h1 : .relocations ∈ l) (h2 : .notices ∈ l)
    (h3 : .noticesLost ∈ l) (s t : State) (i : Nat) (q : FaultKind) :
    Only l s (t.faultClaim i q) ↔ Only l s t :=
  (faultClaim_only t i q).drop (fun p hp => by
    simp only [List.mem_cons, List.not_mem_nil, or_false] at hp
    rcases hp with rfl | rfl | rfl | rfl <;> assumption)

theorem countSeat_only (t : State) (n : LinkName) (i : Nat) (o : PollOutcome) : Only [.seatUnits, .floorUnits,
    .seats, .relocations, .notices, .noticesLost] t (t.countSeat n i o) := by
  unfold State.countSeat
  dsimp only
  repeat' split
  all_goals simp

@[simp] theorem only_countSeat {l : List Part} (h0 : .seatUnits ∈ l) (h1 : .floorUnits ∈ l) (h2 : .seats ∈ l)
    (h3 : .relocations ∈ l) (h4 : .notices ∈ l) (h5 : .noticesLost ∈ l) (s t : State) (n : LinkName) (i : Nat)
    (o : PollOutcome) :
    Only l s (t.countSeat n i o) ↔ Only l s t :=
  (countSeat_only t n i o).drop (fun p hp => by
    simp only [List.mem_cons, List.not_mem_nil, or_false] at hp
    rcases hp with rfl | rfl | rfl | rfl | rfl | rfl <;> assumption)

theorem countFloor_only (t : State) (a : Nat) (o : PollOutcome) : Only [.seatUnits, .floorUnits, .notices,
    .noticesLost] t (t.countFloor a o) := by
  unfold State.countFloor
  dsimp only
  repeat' split
  all_goals simp

@[simp] theorem only_countFloor {l : List Part} (h0 : .seatUnits ∈ l) (h1 : .floorUnits ∈ l) (h2 : .notices ∈ l)
    (h3 : .noticesLost ∈ l) (s t : State) (a : Nat) (o : PollOutcome) :
    Only l s (t.countFloor a o) ↔ Only l s t :=
  (countFloor_only t a o).drop (fun p hp => by
    simp only [List.mem_cons, List.not_mem_nil, or_false] at hp
    rcases hp with rfl | rfl | rfl | rfl <;> assumption)

theorem countUnit_only (t : State) (n : LinkName) (a : Nat) (o : PollOutcome) : Only [.seatUnits, .floorUnits,
    .seats, .relocations, .notices, .noticesLost] t (t.countUnit n a o) := by
  unfold State.countUnit
  repeat' split
  all_goals simp

@[simp] theorem only_countUnit {l : List Part} (h0 : .seatUnits ∈ l) (h1 : .floorUnits ∈ l) (h2 : .seats ∈ l)
    (h3 : .relocations ∈ l) (h4 : .notices ∈ l) (h5 : .noticesLost ∈ l) (s t : State) (n : LinkName) (a : Nat)
    (o : PollOutcome) :
    Only l s (t.countUnit n a o) ↔ Only l s t :=
  (countUnit_only t n a o).drop (fun p hp => by
    simp only [List.mem_cons, List.not_mem_nil, or_false] at hp
    rcases hp with rfl | rfl | rfl | rfl | rfl | rfl <;> assumption)

theorem endPoll_only (t : State) (n : LinkName) (a : Nat) (o : PollOutcome) : Only [.links, .seatUnits,
    .floorUnits, .seats, .relocations, .notices, .noticesLost] t (t.endPoll n a o) := by
  unfold State.endPoll
  simp

@[simp] theorem only_endPoll {l : List Part} (h0 : .links ∈ l) (h1 : .seatUnits ∈ l) (h2 : .floorUnits ∈ l)
    (h3 : .seats ∈ l) (h4 : .relocations ∈ l) (h5 : .notices ∈ l) (h6 : .noticesLost ∈ l) (s t : State)
    (n : LinkName) (a : Nat) (o : PollOutcome) :
    Only l s (t.endPoll n a o) ↔ Only l s t :=
  (endPoll_only t n a o).drop (fun p hp => by
    simp only [List.mem_cons, List.not_mem_nil, or_false] at hp
    rcases hp with rfl | rfl | rfl | rfl | rfl | rfl | rfl <;> assumption)

theorem occupy_only (t : State) (i : Nat) : Only [.seats] t (t.occupy i) := by
  unfold State.occupy
  simp

@[simp] theorem only_occupy {l : List Part} (h0 : .seats ∈ l) (s t : State) (i : Nat) :
    Only l s (t.occupy i) ↔ Only l s t :=
  (occupy_only t i).drop (fun p hp => by
    simp only [List.mem_cons, List.not_mem_nil, or_false] at hp
    exact hp ▸ h0)

theorem refuseCheckIn_only (t : State) (n : LinkName) (i m : Nat) (c : RefusedCode) : Only [.seatUnits,
    .floorUnits, .notices, .noticesLost] t (t.refuseCheckIn n i m c) := by
  unfold State.refuseCheckIn
  simp

@[simp] theorem only_refuseCheckIn {l : List Part} (h0 : .seatUnits ∈ l) (h1 : .floorUnits ∈ l)
    (h2 : .notices ∈ l) (h3 : .noticesLost ∈ l) (s t : State) (n : LinkName) (i m : Nat) (c : RefusedCode) :
    Only l s (t.refuseCheckIn n i m c) ↔ Only l s t :=
  (refuseCheckIn_only t n i m c).drop (fun p hp => by
    simp only [List.mem_cons, List.not_mem_nil, or_false] at hp
    rcases hp with rfl | rfl | rfl | rfl <;> assumption)

theorem checkInOnTime_only (t : State) (i c : Nat) : Only [.seats, .cands, .notices, .noticesLost] t
    (t.checkInOnTime i c) := by
  unfold State.checkInOnTime
  dsimp only
  split <;> simp

@[simp] theorem only_checkInOnTime {l : List Part} (h0 : .seats ∈ l) (h1 : .cands ∈ l) (h2 : .notices ∈ l)
    (h3 : .noticesLost ∈ l) (s t : State) (i c : Nat) :
    Only l s (t.checkInOnTime i c) ↔ Only l s t :=
  (checkInOnTime_only t i c).drop (fun p hp => by
    simp only [List.mem_cons, List.not_mem_nil, or_false] at hp
    rcases hp with rfl | rfl | rfl | rfl <;> assumption)

theorem checkInLate_only (t : State) (i c : Nat) : Only [.seats, .cands, .calls, .retryDue, .sittings, .notices,
    .noticesLost] t (t.checkInLate i c) := by
  unfold State.checkInLate
  dsimp only
  split <;> simp

@[simp] theorem only_checkInLate {l : List Part} (h0 : .seats ∈ l) (h1 : .cands ∈ l) (h2 : .calls ∈ l)
    (h3 : .retryDue ∈ l) (h4 : .sittings ∈ l) (h5 : .notices ∈ l) (h6 : .noticesLost ∈ l) (s t : State) (i c : Nat) :
    Only l s (t.checkInLate i c) ↔ Only l s t :=
  (checkInLate_only t i c).drop (fun p hp => by
    simp only [List.mem_cons, List.not_mem_nil, or_false] at hp
    rcases hp with rfl | rfl | rfl | rfl | rfl | rfl | rfl <;> assumption)

theorem checkInRelocated_only (t : State) (i c : Nat) : Only [.seats, .cands, .notices, .noticesLost] t
    (t.checkInRelocated i c) := by
  unfold State.checkInRelocated
  repeat' split
  all_goals simp

@[simp] theorem only_checkInRelocated {l : List Part} (h0 : .seats ∈ l) (h1 : .cands ∈ l) (h2 : .notices ∈ l)
    (h3 : .noticesLost ∈ l) (s t : State) (i c : Nat) :
    Only l s (t.checkInRelocated i c) ↔ Only l s t :=
  (checkInRelocated_only t i c).drop (fun p hp => by
    simp only [List.mem_cons, List.not_mem_nil, or_false] at hp
    rcases hp with rfl | rfl | rfl | rfl <;> assumption)

theorem checkIn_only (t : State) (n : LinkName) (i m : Nat) : Only [.seatUnits, .floorUnits, .seats, .cands,
    .calls, .retryDue, .sittings, .notices, .noticesLost] t (t.checkIn n i m) := by
  unfold State.checkIn
  repeat' split
  all_goals simp

@[simp] theorem only_checkIn {l : List Part} (h0 : .seatUnits ∈ l) (h1 : .floorUnits ∈ l) (h2 : .seats ∈ l)
    (h3 : .cands ∈ l) (h4 : .calls ∈ l) (h5 : .retryDue ∈ l) (h6 : .sittings ∈ l) (h7 : .notices ∈ l)
    (h8 : .noticesLost ∈ l) (s t : State) (n : LinkName) (i m : Nat) :
    Only l s (t.checkIn n i m) ↔ Only l s t :=
  (checkIn_only t n i m).drop (fun p hp => by
    simp only [List.mem_cons, List.not_mem_nil, or_false] at hp
    rcases hp with rfl | rfl | rfl | rfl | rfl | rfl | rfl | rfl | rfl <;> assumption)

theorem pressKey_only (t : State) (n : LinkName) (i : Nat) (q : CallKind) (b : Bool) : Only [.seatUnits,
    .floorUnits, .calls, .notices, .noticesLost] t (t.pressKey n i q b) := by
  unfold State.pressKey
  dsimp only
  repeat' split
  all_goals simp

@[simp] theorem only_pressKey {l : List Part} (h0 : .seatUnits ∈ l) (h1 : .floorUnits ∈ l) (h2 : .calls ∈ l)
    (h3 : .notices ∈ l) (h4 : .noticesLost ∈ l) (s t : State) (n : LinkName) (i : Nat) (q : CallKind) (b : Bool) :
    Only l s (t.pressKey n i q b) ↔ Only l s t :=
  (pressKey_only t n i q b).drop (fun p hp => by
    simp only [List.mem_cons, List.not_mem_nil, or_false] at hp
    rcases hp with rfl | rfl | rfl | rfl | rfl <;> assumption)

theorem takeSeatReply_only (t : State) (n : LinkName) (i : Nat) (r : SeatReply) : Only [.seatUnits, .floorUnits,
    .seats, .cands, .calls, .retryDue, .sittings, .notices, .noticesLost] t (State.takeSeatReply n i r t) := by
  unfold State.takeSeatReply
  dsimp only
  repeat' split
  all_goals simp

@[simp] theorem only_takeSeatReply {l : List Part} (h0 : .seatUnits ∈ l) (h1 : .floorUnits ∈ l) (h2 : .seats ∈ l)
    (h3 : .cands ∈ l) (h4 : .calls ∈ l) (h5 : .retryDue ∈ l) (h6 : .sittings ∈ l) (h7 : .notices ∈ l)
    (h8 : .noticesLost ∈ l) (s t : State) (n : LinkName) (i : Nat) (r : SeatReply) :
    Only l s (State.takeSeatReply n i r t) ↔ Only l s t :=
  (takeSeatReply_only t n i r).drop (fun p hp => by
    simp only [List.mem_cons, List.not_mem_nil, or_false] at hp
    rcases hp with rfl | rfl | rfl | rfl | rfl | rfl | rfl | rfl | rfl <;> assumption)

theorem handsetKey_only (t : State) (h : Nat) (q : HandsetKey) : Only [.seats, .cands, .calls, .retryDue,
    .sittings, .notices, .noticesLost, .handsets] t (t.handsetKey h q) := by
  unfold State.handsetKey
  repeat' split
  all_goals simp

@[simp] theorem only_handsetKey {l : List Part} (h0 : .seats ∈ l) (h1 : .cands ∈ l) (h2 : .calls ∈ l)
    (h3 : .retryDue ∈ l) (h4 : .sittings ∈ l) (h5 : .notices ∈ l) (h6 : .noticesLost ∈ l) (h7 : .handsets ∈ l)
    (s t : State) (h : Nat) (q : HandsetKey) :
    Only l s (t.handsetKey h q) ↔ Only l s t :=
  (handsetKey_only t h q).drop (fun p hp => by
    simp only [List.mem_cons, List.not_mem_nil, or_false] at hp
    rcases hp with rfl | rfl | rfl | rfl | rfl | rfl | rfl | rfl <;> assumption)

theorem takeHandsetReply_only (t : State) (a : Nat) (r : HandsetKey × Byte) : Only [.seats, .cands, .calls,
    .retryDue, .sittings, .notices, .noticesLost, .handsets] t (State.takeHandsetReply a r t) := by
  unfold State.takeHandsetReply
  repeat' split
  all_goals simp

@[simp] theorem only_takeHandsetReply {l : List Part} (h0 : .seats ∈ l) (h1 : .cands ∈ l) (h2 : .calls ∈ l)
    (h3 : .retryDue ∈ l) (h4 : .sittings ∈ l) (h5 : .notices ∈ l) (h6 : .noticesLost ∈ l) (h7 : .handsets ∈ l)
    (s t : State) (a : Nat) (r : HandsetKey × Byte) :
    Only l s (State.takeHandsetReply a r t) ↔ Only l s t :=
  (takeHandsetReply_only t a r).drop (fun p hp => by
    simp only [List.mem_cons, List.not_mem_nil, or_false] at hp
    rcases hp with rfl | rfl | rfl | rfl | rfl | rfl | rfl | rfl <;> assumption)

theorem takeStationReply_only (t : State) (a : Nat) (r : StationReply) : Only [.seats, .cands, .calls, .retryDue,
    .channels, .notices, .noticesLost, .exceptions, .exceptionsLost] t (State.takeStationReply a r t) := by
  unfold State.takeStationReply
  dsimp only
  repeat' split
  all_goals simp [only_forEach]

@[simp] theorem only_takeStationReply {l : List Part} (h0 : .seats ∈ l) (h1 : .cands ∈ l) (h2 : .calls ∈ l)
    (h3 : .retryDue ∈ l) (h4 : .channels ∈ l) (h5 : .notices ∈ l) (h6 : .noticesLost ∈ l) (h7 : .exceptions ∈ l)
    (h8 : .exceptionsLost ∈ l) (s t : State) (a : Nat) (r : StationReply) :
    Only l s (State.takeStationReply a r t) ↔ Only l s t :=
  (takeStationReply_only t a r).drop (fun p hp => by
    simp only [List.mem_cons, List.not_mem_nil, or_false] at hp
    rcases hp with rfl | rfl | rfl | rfl | rfl | rfl | rfl | rfl | rfl <;> assumption)

theorem broadcast_only (t : State) (n : LinkName) : Only [.links] t (t.broadcast n) := by
  unfold State.broadcast
  simp

@[simp] theorem only_broadcast {l : List Part} (h0 : .links ∈ l) (s t : State) (n : LinkName) :
    Only l s (t.broadcast n) ↔ Only l s t :=
  (broadcast_only t n).drop (fun p hp => by
    simp only [List.mem_cons, List.not_mem_nil, or_false] at hp
    exact hp ▸ h0)

theorem sendBroadcast_only (t : State) (n : LinkName) : Only [.links] t (t.sendBroadcast n) := by
  unfold State.sendBroadcast
  repeat' split
  all_goals simp

@[simp] theorem only_sendBroadcast {l : List Part} (h0 : .links ∈ l) (s t : State) (n : LinkName) :
    Only l s (t.sendBroadcast n) ↔ Only l s t :=
  (sendBroadcast_only t n).drop (fun p hp => by
    simp only [List.mem_cons, List.not_mem_nil, or_false] at hp
    exact hp ▸ h0)

theorem sendRepeat_only (t : State) (n : LinkName) : Only [.links] t (t.sendRepeat n) := by
  unfold State.sendRepeat
  repeat' split
  all_goals simp

@[simp] theorem only_sendRepeat {l : List Part} (h0 : .links ∈ l) (s t : State) (n : LinkName) :
    Only l s (t.sendRepeat n) ↔ Only l s t :=
  (sendRepeat_only t n).drop (fun p hp => by
    simp only [List.mem_cons, List.not_mem_nil, or_false] at hp
    exact hp ▸ h0)

theorem endCycle_only (t : State) (n : LinkName) : Only [.links, .notices, .noticesLost] t (t.endCycle n) := by
  unfold State.endCycle
  simp only [only_modLink, only_sendRepeat, List.mem_cons, true_or]
  split <;> simp

@[simp] theorem only_endCycle {l : List Part} (h0 : .links ∈ l) (h1 : .notices ∈ l) (h2 : .noticesLost ∈ l)
    (s t : State) (n : LinkName) :
    Only l s (t.endCycle n) ↔ Only l s t :=
  (endCycle_only t n).drop (fun p hp => by
    simp only [List.mem_cons, List.not_mem_nil, or_false] at hp
    rcases hp with rfl | rfl | rfl <;> assumption)

theorem startLink_only (t : State) (n : LinkName) : Only [.links, .seatUnits, .floorUnits] t (t.startLink n) := by
  unfold State.startLink
  simp

@[simp] theorem only_startLink {l : List Part} (h0 : .links ∈ l) (h1 : .seatUnits ∈ l) (h2 : .floorUnits ∈ l)
    (s t : State) (n : LinkName) :
    Only l s (t.startLink n) ↔ Only l s t :=
  (startLink_only t n).drop (fun p hp => by
    simp only [List.mem_cons, List.not_mem_nil, or_false] at hp
    rcases hp with rfl | rfl | rfl <;> assumption)

theorem stopLink_only (t : State) (n : LinkName) : Only [.links, .seatUnits, .floorUnits] t (t.stopLink n) := by
  unfold State.stopLink
  simp

@[simp] theorem only_stopLink {l : List Part} (h0 : .links ∈ l) (h1 : .seatUnits ∈ l) (h2 : .floorUnits ∈ l)
    (s t : State) (n : LinkName) :
    Only l s (t.stopLink n) ↔ Only l s t :=
  (stopLink_only t n).drop (fun p hp => by
    simp only [List.mem_cons, List.not_mem_nil, or_false] at hp
    rcases hp with rfl | rfl | rfl <;> assumption)

theorem restartLink_only (t : State) (n : LinkName) : Only [.links, .seatUnits, .floorUnits] t
    (State.restartLink n t) := by
  unfold State.restartLink
  repeat' split
  all_goals simp

@[simp] theorem only_restartLink {l : List Part} (h0 : .links ∈ l) (h1 : .seatUnits ∈ l) (h2 : .floorUnits ∈ l)
    (s t : State) (n : LinkName) :
    Only l s (State.restartLink n t) ↔ Only l s t :=
  (restartLink_only t n).drop (fun p hp => by
    simp only [List.mem_cons, List.not_mem_nil, or_false] at hp
    rcases hp with rfl | rfl | rfl <;> assumption)

theorem restartLinks_only (t : State) : Only [.links, .seatUnits, .floorUnits] t (t.restartLinks) := by
  unfold State.restartLinks
  simp [only_forEach]

@[simp] theorem only_restartLinks {l : List Part} (h0 : .links ∈ l) (h1 : .seatUnits ∈ l) (h2 : .floorUnits ∈ l)
    (s t : State) :
    Only l s (t.restartLinks) ↔ Only l s t :=
  (restartLinks_only t).drop (fun p hp => by
    simp only [List.mem_cons, List.not_mem_nil, or_false] at hp
    rcases hp with rfl | rfl | rfl <;> assumption)

/-! ### The reader port (chapter 8) -/

theorem recordEnd_only (t : State) (b : List Byte) (f : Option FrameFault) : Only [.counts, .lastFault] t
    (t.recordEnd b f) := by
  intro p hp; cases p <;> first | rfl | exact absurd (by decide) hp

@[simp] theorem only_recordEnd {l : List Part} (h0 : .counts ∈ l) (h1 : .lastFault ∈ l) (s t : State)
    (b : List Byte) (f : Option FrameFault) :
    Only l s (t.recordEnd b f) ↔ Only l s t :=
  (recordEnd_only t b f).drop (fun p hp => by
    simp only [List.mem_cons, List.not_mem_nil, or_false] at hp
    rcases hp with rfl | rfl <;> assumption)

theorem takeStray_only (t : State) (b : List Byte) (x : Byte) (f : Option FrameFault) : Only [.verdicts, .counts,
    .notices, .noticesLost] t (t.takeStray b x f) := by
  unfold State.takeStray
  simp only [only_notify, only_formVerdict, List.mem_cons, true_or, or_true]
  intro p hp; cases p <;> first | rfl | exact absurd (by decide) hp

@[simp] theorem only_takeStray {l : List Part} (h0 : .verdicts ∈ l) (h1 : .counts ∈ l) (h2 : .notices ∈ l)
    (h3 : .noticesLost ∈ l) (s t : State) (b : List Byte) (x : Byte) (f : Option FrameFault) :
    Only l s (t.takeStray b x f) ↔ Only l s t :=
  (takeStray_only t b x f).drop (fun p hp => by
    simp only [List.mem_cons, List.not_mem_nil, or_false] at hp
    rcases hp with rfl | rfl | rfl | rfl <;> assumption)

theorem handFrame_only (t : State) (b : List Byte) (x : Byte) (f : Option FrameFault) : Only [.store, .cands,
    .batch, .notices, .noticesLost, .parked, .verdicts, .counts] t (t.handFrame b x f) := by
  unfold State.handFrame
  dsimp only
  repeat' split
  all_goals simp

@[simp] theorem only_handFrame {l : List Part} (h0 : .store ∈ l) (h1 : .cands ∈ l) (h2 : .batch ∈ l)
    (h3 : .notices ∈ l) (h4 : .noticesLost ∈ l) (h5 : .parked ∈ l) (h6 : .verdicts ∈ l) (h7 : .counts ∈ l)
    (s t : State) (b : List Byte) (x : Byte) (f : Option FrameFault) :
    Only l s (t.handFrame b x f) ↔ Only l s t :=
  (handFrame_only t b x f).drop (fun p hp => by
    simp only [List.mem_cons, List.not_mem_nil, or_false] at hp
    rcases hp with rfl | rfl | rfl | rfl | rfl | rfl | rfl | rfl <;> assumption)

theorem endSheetFrame_only (t : State) (b : List Byte) (f : Option FrameFault) : Only [.store, .cands, .batch,
    .notices, .noticesLost, .parked, .verdicts, .counts, .lastFault] t (t.endSheetFrame b f) := by
  unfold State.endSheetFrame
  dsimp only
  repeat' split
  all_goals simp

@[simp] theorem only_endSheetFrame {l : List Part} (h0 : .store ∈ l) (h1 : .cands ∈ l) (h2 : .batch ∈ l)
    (h3 : .notices ∈ l) (h4 : .noticesLost ∈ l) (h5 : .parked ∈ l) (h6 : .verdicts ∈ l) (h7 : .counts ∈ l)
    (h8 : .lastFault ∈ l) (s t : State) (b : List Byte) (f : Option FrameFault) :
    Only l s (t.endSheetFrame b f) ↔ Only l s t :=
  (endSheetFrame_only t b f).drop (fun p hp => by
    simp only [List.mem_cons, List.not_mem_nil, or_false] at hp
    rcases hp with rfl | rfl | rfl | rfl | rfl | rfl | rfl | rfl | rfl <;> assumption)

theorem takeSheetByte_only (t : State) (b : Byte) : Only [.store, .cands, .batch, .notices, .noticesLost, .parked,
    .verdicts, .counts, .lastFault, .assembler] t (State.takeSheetByte b t) := by
  unfold State.takeSheetByte
  repeat' split
  all_goals simp

@[simp] theorem only_takeSheetByte {l : List Part} (h0 : .store ∈ l) (h1 : .cands ∈ l) (h2 : .batch ∈ l)
    (h3 : .notices ∈ l) (h4 : .noticesLost ∈ l) (h5 : .parked ∈ l) (h6 : .verdicts ∈ l) (h7 : .counts ∈ l)
    (h8 : .lastFault ∈ l) (h9 : .assembler ∈ l) (s t : State) (b : Byte) :
    Only l s (State.takeSheetByte b t) ↔ Only l s t :=
  (takeSheetByte_only t b).drop (fun p hp => by
    simp only [List.mem_cons, List.not_mem_nil, or_false] at hp
    rcases hp with rfl | rfl | rfl | rfl | rfl | rfl | rfl | rfl | rfl | rfl <;> assumption)

theorem takeSheetBytes_only (t : State) (b : List Byte) : Only [.store, .cands, .batch, .notices, .noticesLost,
    .parked, .verdicts, .counts, .lastFault, .assembler, .sending, .verdictSending] t (t.takeSheetBytes b) := by
  unfold State.takeSheetBytes
  exact (only_takeRun (by simp) (by simp) (fun x u => by simp) b t t).mpr (Only.refl _ t)

@[simp] theorem only_takeSheetBytes {l : List Part} (h0 : .store ∈ l) (h1 : .cands ∈ l) (h2 : .batch ∈ l)
    (h3 : .notices ∈ l) (h4 : .noticesLost ∈ l) (h5 : .parked ∈ l) (h6 : .verdicts ∈ l) (h7 : .counts ∈ l)
    (h8 : .lastFault ∈ l) (h9 : .assembler ∈ l) (h10 : .sending ∈ l) (h11 : .verdictSending ∈ l) (s t : State)
    (b : List Byte) : Only l s (t.takeSheetBytes b) ↔ Only l s t :=
  (takeSheetBytes_only t b).drop (fun p hp => by
    simp only [List.mem_cons, List.not_mem_nil, or_false] at hp
    rcases hp with rfl | rfl | rfl | rfl | rfl | rfl | rfl | rfl | rfl | rfl | rfl | rfl <;> assumption)

theorem cutFrame_only (t : State) (f : FrameFault) : Only [.store, .cands, .batch, .notices, .noticesLost, .parked,
    .verdicts, .counts, .lastFault, .assembler] t (t.cutFrame f) := by
  unfold State.cutFrame
  repeat' split
  all_goals simp

@[simp] theorem only_cutFrame {l : List Part} (h0 : .store ∈ l) (h1 : .cands ∈ l) (h2 : .batch ∈ l)
    (h3 : .notices ∈ l) (h4 : .noticesLost ∈ l) (h5 : .parked ∈ l) (h6 : .verdicts ∈ l) (h7 : .counts ∈ l)
    (h8 : .lastFault ∈ l) (h9 : .assembler ∈ l) (s t : State) (f : FrameFault) :
    Only l s (t.cutFrame f) ↔ Only l s t :=
  (cutFrame_only t f).drop (fun p hp => by
    simp only [List.mem_cons, List.not_mem_nil, or_false] at hp
    rcases hp with rfl | rfl | rfl | rfl | rfl | rfl | rfl | rfl | rfl | rfl <;> assumption)

theorem setRrdy_only (t : State) (b : Bool) : Only [.rrdy, .store, .cands, .batch, .notices, .noticesLost, .parked,
    .verdicts, .counts, .lastFault, .assembler] t (t.setRrdy b) := by
  unfold State.setRrdy
  dsimp only
  split
  · simp only [only_cutFrame, List.mem_cons, true_or, or_true]
    intro p hp; cases p <;> first | rfl | exact absurd (by decide) hp
  · intro p hp; cases p <;> first | rfl | exact absurd (by decide) hp

@[simp] theorem only_setRrdy {l : List Part} (h0 : .rrdy ∈ l) (h1 : .store ∈ l) (h2 : .cands ∈ l)
    (h3 : .batch ∈ l) (h4 : .notices ∈ l) (h5 : .noticesLost ∈ l) (h6 : .parked ∈ l) (h7 : .verdicts ∈ l)
    (h8 : .counts ∈ l) (h9 : .lastFault ∈ l) (h10 : .assembler ∈ l) (s t : State) (b : Bool) :
    Only l s (t.setRrdy b) ↔ Only l s t :=
  (setRrdy_only t b).drop (fun p hp => by
    simp only [List.mem_cons, List.not_mem_nil, or_false] at hp
    rcases hp with rfl | rfl | rfl | rfl | rfl | rfl | rfl | rfl | rfl | rfl | rfl <;> assumption)

theorem verdictSent_only (t : State) : Only [.verdicts, .verdictSending, .counts] t (t.verdictSent) := by
  unfold State.verdictSent
  split <;> (intro p hp; cases p <;> first | rfl | exact absurd (by decide) hp)

@[simp] theorem only_verdictSent {l : List Part} (h0 : .verdicts ∈ l) (h1 : .verdictSending ∈ l)
    (h2 : .counts ∈ l) (s t : State) :
    Only l s (t.verdictSent) ↔ Only l s t :=
  (verdictSent_only t).drop (fun p hp => by
    simp only [List.mem_cons, List.not_mem_nil, or_false] at hp
    rcases hp with rfl | rfl | rfl <;> assumption)

theorem abandonFrame_only (t : State) : Only [.verdicts, .counts] t (t.abandonFrame) := by
  unfold State.abandonFrame
  repeat' split
  all_goals simp

@[simp] theorem only_abandonFrame {l : List Part} (h0 : .verdicts ∈ l) (h1 : .counts ∈ l) (s t : State) :
    Only l s (t.abandonFrame) ↔ Only l s t :=
  (abandonFrame_only t).drop (fun p hp => by
    simp only [List.mem_cons, List.not_mem_nil, or_false] at hp
    rcases hp with rfl | rfl <;> assumption)

theorem rejectParked_only (t : State) : Only [.parked, .verdicts, .counts] t (t.rejectParked) := by
  unfold State.rejectParked
  split
  · simp only [only_formVerdict, List.mem_cons, true_or, or_true]
    intro p hp; cases p <;> first | rfl | exact absurd (by decide) hp
  · simp

@[simp] theorem only_rejectParked {l : List Part} (h0 : .parked ∈ l) (h1 : .verdicts ∈ l) (h2 : .counts ∈ l)
    (s t : State) :
    Only l s (t.rejectParked) ↔ Only l s t :=
  (rejectParked_only t).drop (fun p hp => by
    simp only [List.mem_cons, List.not_mem_nil, or_false] at hp
    rcases hp with rfl | rfl | rfl <;> assumption)

theorem resyncReader_only (t : State) : Only [.assembler, .parked, .verdicts, .lastFault, .counts] t
    (t.resyncReader) := by
  unfold State.resyncReader
  refine Only.trans (t := t.abandonFrame.rejectParked) (by simp) ?_
  intro p hp; cases p <;> first | rfl | exact absurd (by decide) hp

@[simp] theorem only_resyncReader {l : List Part} (h0 : .assembler ∈ l) (h1 : .parked ∈ l) (h2 : .verdicts ∈ l)
    (h3 : .lastFault ∈ l) (h4 : .counts ∈ l) (s t : State) :
    Only l s (t.resyncReader) ↔ Only l s t :=
  (resyncReader_only t).drop (fun p hp => by
    simp only [List.mem_cons, List.not_mem_nil, or_false] at hp
    rcases hp with rfl | rfl | rfl | rfl | rfl <;> assumption)

end Sys2Proof.Machine
end

