-- ==== Sys2Proof/Tests/Slice0.lean ====
section
/-!
SUPPORT. Tests: the well-formedness check refuses ill-formed terms, a few values of the spec come out as it gives them,
and for every statement with hypotheses a state and operands that meet them (`test_witness_<statement>`), clause by clause, at
the ends of their ranges.
-/

namespace Sys2Proof.Tests

open Sys2Proof.Machine

set_option Elab.async false

/-! ### Well-formedness refuses what the line cannot spell -/

theorem test_wf_setRoute_long_list : (Instr.setRoute Paper.blank 0 (List.replicate 256 0)).wellFormed = false := by
  decide +kernel

theorem test_wf_defineSitting_long_list : (Instr.defineSitting 0 Paper.blank 0 90 0 0 0 (List.replicate 256 1) 0 0 0
    0xFF).wellFormed = false := by decide +kernel

theorem test_wf_keyPart_long_list : (Instr.keyPart 0 1 (List.replicate 256 ⟨1, 0, 1⟩)).wellFormed = false := by
  decide +kernel

theorem test_wf_releaseSlots_long_list : (Instr.releaseSlots (List.replicate 256 0)).wellFormed = false := by
  decide +kernel

theorem test_wf_unknownKind_long_body : (Instr.unknownKind 0x60 (List.replicate 1025 0)).wellFormed = false := by
  decide +kernel

theorem test_wf_overrun_long_body : (Instr.overrun 0x01 (List.replicate 1025 0)).wellFormed = false := by decide +kernel

theorem test_wf_longest : (Instr.releaseSlots (List.replicate 255 0)).wellFormed = true ∧
    (Instr.overrun 0x01 (List.replicate 1024 0)).wellFormed = true := by decide +kernel

/-! ### Values the spec gives -/

/-- No row of the table gives bits. -/
theorem test_decode_no_bits : decodeTableWord 8 0x3D = none ∧
    State.reset.withFetchWord 8 0x3D = State.reset := ⟨rfl, rfl⟩

/-- Kind 0x3D with one body byte 1 is RESET(HALL); 0x02 with 01 7F is HOLD_SEAT of seat 383 (11.2). -/
theorem test_decode_request : decodeRequest 0x3D [1] = some (.reset 1) ∧
    decodeRequest 0x02 [0x01, 0x7F] = some (.holdSeat 383) ∧ decodeRequest 0x0A [] = some .readRoutes ∧
    decodeRequest 0x39 [0x0D, 0, 0, 0, 8] = some (.setParam 0x0D 8) ∧ decodeRequest 0x02 [0x01] = none := by
  decide +kernel

/-- The CRC of 11.2 over the nine characters 1 to 9. -/
theorem test_crc : crc [0x31, 0x32, 0x33, 0x34, 0x35, 0x36, 0x37, 0x38, 0x39] = 0x29B1#16 := by decide +kernel

/-- The heads of a refusal and of a notice (11.2). -/
theorem test_heads : (OutFrame.reply ⟨0xB2, .refusedState, ⟨true, false, true, false⟩,
      .refusal .noKey .none⟩).head = [0x15, 0x05, 0x05] ∧
    (OutFrame.notice ⟨false, false, false, true⟩ ⟨⟨9, 30, 0⟩, .wrongSeat 1 2 3 none⟩).head = [0x08, 9, 30, 0, 2] := by
  decide +kernel

/-- The worked record of 11.7. -/
theorem test_candidate_record :
    let c : Candidate := { freshCandidate 41000102 ⟨0, 0, 0, 0⟩ false with
      state := .writing, bound := some 103, relocating := true }
    (c.record 1).take 14 = [0x00, 0x01, 0x02, 0x71, 0x9C, 0xA6, 0x00, 0x00, 0x03, 0x00, 0x67, 0xFF, 0xFF, 0x02] ∧
      (c.record 1)[31]? = some 0 ∧ (c.record 1).length = 43 := by decide +kernel

/-- A tag and a VERDICT message with their check bytes (11.5, 11.6). -/
theorem test_check_bytes : tagCheck 41000102 3 1 = 0x46 ∧
    (Verdict.mk 41 .reject).bytes = [0x56, 0x29, 0x02, 0x7E] := by decide +kernel

/-- The neighbours at the grid's edges and the serpentine order (R24, R26). -/
theorem test_grid : neighbours .row 0 = [1] ∧ neighbours .cross 383 = [382, 367] ∧ neighbours .none 100 = [] ∧
    (gridOrder .serpentine).take 18 = (List.range 16) ++ [31, 30] ∧
    State.reset.searchSeat 0 0 none = some 0 := by decide +kernel

/-- The sheet of 9.7: B, A, E, B and an unreadable row score 1 of 6. -/
theorem test_score_example :
    let key : Key := ⟨.ready, 0, 1, [⟨true, 0b00010#5, .single, 1, false⟩, ⟨true, 0b00101#5, .single, 2, false⟩,
      ⟨true, 0b11000#5, .any, 1, false⟩, ⟨true, 0b00001#5, .single, 1, true⟩, ⟨true, 0b00100#5, .single, 2, false⟩]⟩
    scoreSheet key ([0x02, 0x01, 0x10, 0x02, 0x40].map rowOf) = ⟨1, 6, 2, 1, 0, 1, .accept, false, false, false⟩ := by
  decide +kernel

/-! ### Small states -/

/-- The part after reset, with every desk in zone 0. -/
def plain : State := { State.reset with htu.seats := Vector.replicate 384 (Seat.atReset 0) }

/-- A candidate of sitting 7, in a state, bound to a seat. -/
def person (st : CandState) (seat : Option Nat) : Candidate :=
  { freshCandidate 99999999 ⟨7, 0, 25, 60⟩ false with state := st, bound := seat, issued := 1 }

/-- Slot 511 holds a candidate. -/
def put (x : Candidate) (s : State) : State := s.putCand 511 (some x)

/-- Sitting 7 in a state, of 90 minutes, with a cutoff at 30, a window from 30 to 75 and warnings at 15 and 5. -/
def sit (k : SittingState) (clock : Nat) (s : State) : State :=
  s.modSitting 7 (fun x => { x with
    state := k
    clock := clock
    writing := 90
    cutoff := 30
    opening := 30
    closing := 15
    warnings := [15, 5] })

/-- Seat 383 in a state, bound to a slot. -/
def chair (st : SeatState) (c : Option Nat) (s : State) : State :=
  s.modSeat 383 (fun x => { x with state := st, bound := c })

/-- The candidate of slot 511 bound to seat 383, with sitting 7 in a state. -/
def hall (st : CandState) (seat : SeatState) (k : SittingState) (clock : Nat := 0) : State :=
  sit k clock (chair seat (some 511) (put (person st (some 383)) plain))

/-- A call of the candidate in slot 511. -/
def ring (kind : CallKind) (level : Nat) (st : CallState) (seat : Option Nat) : Call :=
  ⟨seat, 511, kind, level, 0, 0, st, false, false⟩

/-- The last call id and the last handset, which has it on its stack. -/
def served (kind : CallKind) (expired : Bool) (s : State) : State :=
  (s.putCall 47 (some { ring kind 4 (.inService 7) (some 383) with expired := expired })).modHandset 7 (fun h =>
    { h with stack := [47] })

/-- A frame waits: the reply to a request stands in the list. -/
def waitingState : State := { State.reset with cli.replies := [.reply ⟨0xBB#8, .ok, ⟨false, false, false, true⟩, .none⟩] }

/-- The line is held at break. -/
def heldLine : State := { State.reset with cli.lineHeld := true }

/-- The batch in a state, marking sitting 7 with key 7, with store slots 62 and 63 as its segment. -/
def marking (b : BatchState) (s : State) : State := { s with mke.batch := { Batch.atReset with
  state := b, sitting := 7, key := 7, count := 256, remaining := 256, blockSize := 16, segStart := 62, segEnd := 63 } }

/-- Key 7 with two questions, the second not defined when `half` is set. -/
def keyed (k : KeyState) (half : Bool) (s : State) : State := s.modKey 7 (fun _ =>
  ⟨k, 0, 2, [⟨true, 0b00001#5, .single, 4, false⟩, ⟨!half, 0b10001#5, .any, 1, false⟩]⟩)

/-- A sheet of the candidate in slot 511 with every row blank, and its result. -/
def sheet : Sheet := ⟨99999999, 7, 0, List.replicate 40 ⟨0, .clean, false⟩, 0xFF, []⟩

/-- The result of a blank sheet. -/
def blankResult : Result := ⟨0, 5, 0, 0, 2, 0, .accept, false, false, false⟩

/-- Store slot 63 holds a sheet. -/
def stored (kind : StoreKind) (ref : Option Nat) (s : State) : State :=
  s.putStore 63 (some ⟨kind, ref, sheet, blankResult, 0⟩)

/-- A parked sheet. -/
def parked : Parked := ⟨sheet, 511, blankResult, 0, .filled, .accept⟩

/-- Link D or FLOOR running, in a cycle, with a transaction in progress or not. -/
def linkUp (l : LinkName) (cycle : Bool) (poll : List Nat) (current : Option Nat) (s : State) : State :=
  s.modLink l (fun x => { x with running := true, cycleOpen := cycle, toPoll := poll, current := current })

/-! ### The step, the queue, and what every step keeps -/

theorem test_step_takes_front : step { State.reset with pending := [.hrdyChange true, .readBatch] } =
    exec (.hrdyChange true) { State.reset with pending := [.readBatch] } := rfl

theorem test_witness_StepsNeverStop : State.reset.pending = [] ∧ step State.reset = .next State.reset := ⟨rfl, rfl⟩

/-- Every list of the part at its capacity. -/
def brim : State := { State.reset with
  cli.notices := List.replicate 64 ⟨HallTime.zero, .syncLost none⟩
  scu.exceptions := List.replicate 64 ⟨.misread, 3, none, none, HallTime.zero⟩
  srp.verdicts := List.replicate 4 ⟨0, .reject⟩
  sal.routes := List.replicate 16 ⟨Paper.blank, 0, []⟩
  sal.queue := List.range 32
  pending := [.readBatch] }

theorem test_witness_StepKeepsCapacities : brim.withinCapacity ∧ ∃ t, step brim = .next t := by
  refine ⟨?_, _, rfl⟩
  unfold State.withinCapacity
  decide +kernel

/-- The three kinds of reply, the first on the line. -/
def replying : State := { State.reset with
  cli.replies := [.badFrame 255 .gap, .reply ⟨0xBB#8, .ok, ⟨false, false, false, true⟩, .none⟩, .overrun]
  cli.overruns := 1
  cli.discarded := true
  cli.sending := some (.badFrame ⟨false, false, false, true⟩ 255 .gap)
  pending := [.frameSent] }

theorem test_witness_StepKeepsReplyListInOrder : replying.oneReplyOfEach ∧ replying.lineInOrder ∧
    ∃ t, step replying = .next t := by
  refine ⟨?_, ⟨?_, ?_⟩, _, rfl⟩
  · unfold State.oneReplyOfEach
    decide +kernel
  · intro f hf
    cases hf
    exact rfl
  · decide

/-- Sitting 7 in EXTENDED, HELD, with two entries due at one second. -/
def listed : State := { State.reset.modSitting 7 (fun x => { x with
    state := .extended, held := true, marks := [⟨5400, 0, .finish⟩, ⟨5400, 511, .restExpiry⟩] }) with
  pending := [.timebaseSecond] }

theorem test_witness_StepKeepsMarkListsOrdered : listed.marksOrdered ∧ ∃ t, step listed = .next t := by
  refine ⟨?_, _, rfl⟩
  unfold State.marksOrdered Sitting.marksOrdered
  decide +kernel

theorem test_witness_StepKeepsClocksAndHolds : listed.hallValid ∧ listed.heldOnlyRunning ∧
    ∃ t, step listed = .next t := by
  refine ⟨?_, ?_, _, rfl⟩
  · unfold State.hallValid
    decide +kernel
  · unfold State.heldOnlyRunning
    decide +kernel

/-! ### The control link -/

theorem test_witness_RequestEncodingRoundTrip : (Instr.releaseSlots (List.replicate 255 63)).wellFormed = true ∧
    encodeRequest (.releaseSlots (List.replicate 255 63)) = some (0x35, 0xFF :: List.replicate 255 63) := by
  decide +kernel

theorem test_witness_EveryRequestGetsOneReply : encodeRequest (.readSheet 64) = some (0x30, [64]) ∧
    State.reset.listening = true ∧ exec (.readSheet 64) State.reset = State.reset.replied 0x30 (badArgument 1) :=
  ⟨by decide +kernel, by decide +kernel, rfl⟩

theorem test_witness_CompleteFrameIsTakenOrDiscarded : State.reset.listening = true ∧ (0x00#8).toNat = 0 ∧
    0x5F < (0x60#8).toNat ∧ 0x3D < (0x3E#8).toNat ∧ (0x5F#8).toNat ≤ 0x5F ∧ decodeRequest 0x01 [] = none ∧
    decodeRequest 0x3D [] = none ∧ decodeRequest 0x3D [1] = some (.reset 1) ∧
    encodeRequest .readStatus = some (0x3C, []) ∧ heldLine.cli.lineHeld = true ∧ waitingState.cli.lineHeld = false ∧
    waitingState.waiting = true := by decide +kernel

/-- The receiver in a state. -/
def rx (r : Receiver) : State := { State.reset with cli.receiver := r }

theorem test_witness_ReceiverTakesBytes : (rx .hunt).cli.receiver = .hunt ∧ (rx (.kind 0)).cli.receiver ≠ .hunt ∧
    heldLine.cli.lineHeld = true ∧ (rx .hunt).cli.lineHeld = false ∧ (RxByte.mk 0xA5 true).framingError = true ∧
    (RxByte.mk 0xA5 false).framingError = false ∧ (rx (.length none)).cli.receiver = .length none ∧
    (rx (.length (some 4))).cli.receiver = .length (some 4) ∧ (rx (.kind 1024)).cli.receiver = .kind 1024 ∧
    (rx (.body 2 0x02 [1])).cli.receiver = .body 2 0x02 [1] ∧
    (rx (.check 0 0x0A [] none)).cli.receiver = .check 0 0x0A [] none ∧
    (rx (.check 0 0x0A [] (some 0))).cli.receiver = .check 0 0x0A [] (some 0) := by decide +kernel

/-- A whole frame, SOF to CRC, is READ_ROUTES taken and answered. -/
theorem test_frame_of_bytes :
    let s := State.reset.forEach ((controlFrame 0x0A []).map (fun b => ⟨b, false⟩)) State.receiveByte
    s.cli.receiver = .hunt ∧ s.cli.replies = [.reply ⟨0x8A#8, .ok, ⟨false, false, false, true⟩, .routes []⟩] := by
  decide +kernel

/-- Two bad frames in one run with HRDY asserted and the line free: the reply to the first goes out with a count of 1, and the
second adds to the entry that stands in the list (R175, log 10). -/
theorem test_bad_frames_of_one_run :
    let bad : List RxByte := [⟨0xA5, false⟩, ⟨0xFF, false⟩, ⟨0xFF, false⟩]
    let s := State.takeRun State.receiveByte { State.reset with cli.hrdy := true } (bad ++ bad)
    s.cli.sending = some (.badFrame ⟨false, false, false, true⟩ 1 .length) ∧ s.cli.replies = [.badFrame 2 .length] ∧
      s.cli.receiver = .hunt := by decide +kernel

/-- A frame on the line. -/
def sends (f : OutFrame) : State := { replying with cli.sending := some f }

theorem test_witness_TransmittersBeginAndEndFrames : State.reset.cli.sending = none ∧
    (sends (.reply ⟨0xBB#8, .ok, ⟨false, false, false, true⟩, .none⟩)).cli.sending =
      some (.reply ⟨0xBB#8, .ok, ⟨false, false, false, true⟩, .none⟩) ∧
    (sends (.badFrame ⟨false, false, false, true⟩ 255 .gap)).cli.sending =
      some (.badFrame ⟨false, false, false, true⟩ 255 .gap) ∧
    (sends (.overrun ⟨false, false, false, true⟩ 1)).cli.sending = some (.overrun ⟨false, false, false, true⟩ 1) ∧
    (sends (.notice ⟨false, false, false, true⟩ ⟨HallTime.zero, .syncLost none⟩)).cli.sending =
      some (.notice ⟨false, false, false, true⟩ ⟨HallTime.zero, .syncLost none⟩) := by decide +kernel

theorem test_overrun_after_a_later_wait :
    (let r : Reply := ⟨0xBB#8, .ok, ⟨false, false, false, true⟩, .none⟩;
      let s : State := { State.reset with cli.replies := [.reply r], cli.discarded := true, cli.sending := some (.reply r) };
      (s.frameSent (.reply r)).cli.replies = [.overrun] ∧ (s.frameSent (.reply r)).cli.discarded = false) ∧
    replying.cli.discarded = true := by decide +kernel

/-! ### Requests that read -/

theorem test_witness_ReadsReportState : State.reset.listening = true ∧ (7#8).toNat < 8 ∧ (3#8).toNat < 4 ∧
    (hall .writing .occupied .writing).listening = true ∧ (511#16).toNat < 512 ∧
    (hall .writing .occupied .writing).cand? 511 = some (person .writing (some 383)) ∧ State.reset.cand? 511 = none ∧
    1 ≤ (99999999#32).toNat ∧ (99999999#32).toNat ≤ 99999999 ∧
    (hall .writing .occupied .writing).lookup 99999999 (some 7) = some 511 ∧
    (hall .writing .occupied .writing).lookup 99999999 none = some 511 ∧
    State.reset.lookup 99999999 none = none ∧ (¬(0xFFFF#16 = 0#16)) := by decide +kernel

theorem test_witness_RunReadsReportRecords : State.reset.listening = true ∧ (32#8).toNat ≤ 32 ∧
    (352#16).toNat + (32#8).toNat ≤ 384 ∧ (480#16).toNat + (32#8).toNat ≤ 512 ∧ linkOf 3 = some .d ∧
    linkBase .d ≤ (383#16).toNat ∧ (383#16).toNat + (1#8).toNat ≤ linkBase .d + linkSize .d ∧ linkOf 4 = some .floor ∧
    linkBase .floor ≤ (0#16).toNat ∧ (0#16).toNat + (20#8).toNat ≤ linkBase .floor + linkSize .floor ∧
    (40#8).toNat ≤ 40 ∧ (State.reset.key 7).questions = [] ∧
    (1#8).toNat + (2#8).toNat - 1 ≤ ((keyed .ready false State.reset).key 7).questions.length ∧ (63#8).toNat < 64 := by
  decide +kernel

theorem test_witness_CallAndMarkViews :
    (let s := served .query false (put { person .withdrawn none with finish := some 383 } plain);
      s.serviceViews = [⟨47, ring .query 4 (.inService 7) (some 383), none, 99999999, 7, false⟩] ∧
        s.callView 0 (ring .query 4 .pending none) = ⟨0, ring .query 4 .pending none, some 383, 99999999, 7, true⟩) ∧
    (let y := { person .paused (some 383) with pauseStart := some 4500, restUsed := 600 }
      let s := put y (sit .writing 4600 plain);
      s.cand? 511 = some y ∧ s.markView (s.sitting 7) 1 ⟨7500, 511, .restExpiry⟩ =
        some ⟨1, ⟨7500, 511, .restExpiry⟩, 99999999, .paused, 5400, 900, 1, some (4500, 3000)⟩) ∧
    plain.markView (plain.sitting 7) 1 ⟨0, 511, .finish⟩ = none := by decide +kernel

theorem test_witness_ReadQueueListsWaiting :
    let s : State := { put (person .waiting none) State.reset with sal.queue := [511] }
    s.listening = true ∧ (∀ c ∈ s.sal.queue, (s.cand? c).isSome = true) ∧ s.sal.queue[0]? = some 511 ∧
      s.cand? 511 = some (person .waiting none) := by decide +kernel

theorem test_witness_ReadStatusReportsThenClears : State.reset.listening = true ∧ waitingState.cli.lineHeld = false ∧
    waitingState.waiting = true := by decide +kernel

/-- Two records of one number: a closed one in slot 0 and an active one in slot 511. -/
def twice : State := (hall .writing .occupied .writing).putCand 0 (some { person .finished none with sitting := 0 })

theorem test_witness_LookupPrefersActiveRecord : twice.lookup 99999999 none = some 511 ∧
    twice.lookup 99999999 (some 0) = some 0 ∧ (person .finished none).state.active = false ∧
    twice.lookup 99999999 (some 6) = none ∧ twice.cand? 0 = some { person .finished none with sitting := 0 } ∧
    twice.activeSlot 99999999 = some 511 ∧ twice.activeSlot 1 = none := by decide +kernel

theorem test_witness_FirstArgumentOutOfRange : State.reset.listening = true ∧ 384 ≤ (384#16).toNat ∧
    512 ≤ (512#16).toNat ∧ 8 ≤ (8#8).toNat ∧ 8#8 ≠ 0xFF#8 ∧ 5 ≤ (5#8).toNat ∧ 5#8 ≠ 0xFF#8 ∧ 48 ≤ (48#8).toNat ∧
    4 ≤ (4#8).toNat ∧ 64 ≤ (64#8).toNat ∧ 2 ≤ (2#8).toNat ∧ (0#8).toNat = 0 ∧ 32 < (33#8).toNat := by decide +kernel

theorem test_witness_FirstFailingArgument : State.reset.listening = true ∧ (383#16).toNat < 384 ∧ 384 ≤ (384#16).toNat ∧
    (1#8).toNat < 2 ∧ 2 ≤ (2#8).toNat ∧ (99999999#32).toNat ≤ 99999999 ∧ 99999999 < (100000000#32).toNat ∧
    (100#8).toNat ≤ 100 ∧ (100#8).toNat % 5 = 0 ∧ (99#8).toNat % 5 ≠ 0 ∧ (60#8).toNat ≤ 60 ∧ 60 < (61#8).toNat ∧
    (360#16).toNat ≤ 360 ∧ 360 < (361#16).toNat ∧ (40000#16).toNat / 16 = 2500 ∧ (40000#16).toNat % 16 = 0 ∧
    strideOf 0 = some .right ∧ stepLeads .right 368 383 = true ∧ strideOf 4 = none ∧
    ((keyed .loading true State.reset).key 7).questions.length = 2 ∧ ((State.reset).key 7).questions = [] := by
  decide +kernel

theorem test_witness_ReadCandidateAndReadLinkArguments : (512#16).toNat ≥ 512 ∧ 512#16 ≠ 0xFFFF#16 ∧ 0xFFFE#16 ≠ 0xFFFF#16 ∧
    exec (.readCandidate 512 0 0xFF) State.reset = State.reset.replied 0x07 (badArgument 1) ∧
    exec (.readCandidate 0xFFFF 100000000 0xFF) State.reset = State.reset.replied 0x07 (badArgument 2) ∧
    exec (.readCandidate 0xFFFF 99999999 8) State.reset = State.reset.replied 0x07 (badArgument 3) ∧
    exec (.readLink 3 287 1) State.reset = State.reset.replied 0x1F (badArgument 2) ∧
    exec (.readLink 4 19 2) State.reset = State.reset.replied 0x1F (badArgument 3) :=
  ⟨by decide, by decide, by decide, rfl, rfl, rfl, rfl, rfl⟩

theorem test_codes_at_their_ends : isPaper #v[0x41, 0x5A, 0x30, 0x39, 0x41, 0x41] = true ∧
    isPaper #v[0x40, 0x5A, 0x30, 0x39, 0x41, 0x41] = false ∧ isPaper #v[0x41, 0x5B, 0x30, 0x39, 0x41, 0x41] = false ∧
    isPaper #v[0x41, 0x5A, 0x2F, 0x3A, 0x41, 0x41] = false ∧ linkOf 5 = none ∧ strideOf 3 = some .up ∧
    stepLeads .left 368 367 = false ∧ stepLeads .up 383 15 = true := by decide +kernel

/-! ### The hall tables -/

/-- Seat 383 FAULTED with its flags. -/
def broken (answering heldOrigin : Bool) (s : State) : State := s.modSeat 383 (fun x => { x with
  state := .faulted, fault := some .silent, answering := answering, heldOrigin := heldOrigin })

theorem test_witness_SeatsAreHeldAndFreed : plain.listening = true ∧
    plain.seat? 383 = some (Seat.atReset 0) ∧ (Seat.atReset 0).state = .free ∧
    (chair .held none plain).seat? 383 = some { Seat.atReset 0 with state := .held } ∧
    (let s := chair .held none (put (person .paused (some 0)) plain);
      s.cand? 511 = some (person .paused (some 0)) ∧ (person .paused (some 0)).state.relocatable = true) ∧
    ((broken false true plain).seat? 383).map (fun x => (x.state, x.bound, x.heldOrigin)) =
      some (.faulted, none, true) ∧ 384 ≤ (384#16).toNat := by decide +kernel

theorem test_witness_SeatsAreDefinedAndRepaired : plain.listening = true ∧ (382#16).toNat ≤ (383#16).toNat ∧
    (383#16).toNat < 384 ∧ (7#8).toNat < 8 ∧ plain.seat? 382 = some (Seat.atReset 0) ∧
    plain.seat? 383 = some (Seat.atReset 0) ∧
    (let s := hall .writing .occupied .writing;
      (s.seat? 383).map (·.bound) = some (some 511) ∧ s.seat? 382 = some (Seat.atReset 0)) ∧
    (∀ p ∈ [(true, SeatState.held), (false, .free)],
      ((broken true p.1 plain).seat? 383).map (fun x => (x.state, x.answering, x.bound, x.heldOrigin)) =
        some (.faulted, true, none, p.1)) ∧
    (∀ st ∈ [CandState.expected, .present, .writing, .paused, .finished, .withdrawn],
      (let s := broken true false (hall st .assigned .writing);
        (s.seat? 383).map (fun x => (x.state, x.answering, x.bound)) = some (.faulted, true, some 511) ∧
          s.cand? 511 = some (person st (some 383)))) := by decide +kernel

theorem test_witness_FinishAndWithdrawal : (hall .writing .occupied .writing).listening = true ∧
    (∀ st ∈ [CandState.waiting, .expected, .present, .writing, .paused, .finished, .absent, .withdrawn],
      (hall st .occupied .writing).cand? 511 = some (person st (some 383))) ∧
    (hall .writing .occupied .writing).seat? 383 = some { Seat.atReset 0 with state := .occupied, bound := some 511 } ∧
    (person .writing (some 383)).owes = true ∧ ({ person .writing (some 383) with issued := 0 } : Candidate).owes = false ∧
    plain.cand? 511 = none ∧ ((hall .writing .occupied .writing).putCall 47 (some (ring .query 4 .pending
      (some 383)))).call? 47 = some (ring .query 4 .pending (some 383)) := by decide +kernel

theorem test_witness_ClearBindingOfUnbound : plain.cand? 511 = none ∧
    (put (person .finished none) plain).cand? 511 = some (person .finished none) ∧ (person .finished none).bound = none := by
  decide +kernel

theorem test_witness_RetiringSettlesSeat : let s := hall .writing .occupied .writing
    s.cand? 511 = some (person .writing (some 383)) ∧
    (s.retire 511 .withdrawn).1.seat? 383 = some { Seat.atReset 0 with state := .vacated, bound := some 511 } ∧
    (let u := s.modCand 511 (fun x => { x with issued := 0 });
      (u.retire 511 .finished).2 = true ∧ (u.retire 511 .finished).1.seat? 383 = some (Seat.atReset 0)) := by decide +kernel

/-- A paper code. -/
def paper : Paper := #v[0x5A, 0x39, 0x41, 0x30, 0x4D, 0x31]

theorem test_witness_RoutesAreSetAndCleared : plain.listening = true ∧ isPaper paper = true ∧ (7#8).toNat < 8 ∧
    (∀ z ∈ [0#8, 1#8, 2#8], z.toNat < 8) ∧ [7#8, 0#8, 1#8, 2#8].Nodup ∧ 3 < [0#8, 1#8, 2#8, 3#8].length ∧
    8 ≤ (8#8).toNat ∧ ¬[7#8, 7#8].Nodup ∧ plain.sal.routes = [] ∧ brim.sal.routes.length = 16 ∧
    (∀ r ∈ brim.sal.routes, r.paper ≠ paper) ∧ Paper.blank ∈ brim.sal.routes.map (·.paper) := by decide +kernel

/-- Every desk accessible. -/
def accessible : State := { plain with htu.seats := Vector.replicate 384 { Seat.atReset 0 with attrs := 1 } }

/-- With no FREE desk a search finds none. -/
theorem searchZones_none (s : State) (k : Nat) (needs : Attrs) (c : Option Nat) (zones : List Nat) (x : Seat)
    (h : s.htu.seats = Vector.replicate 384 x) (hx : x.state ≠ .free) : s.searchZones k needs c zones = none := by
  have seat : ∀ i y, s.seat? i = some y → y = x := by
    intro i y hy
    simp only [State.seat?, h, Vector.getElem?_replicate] at hy
    split at hy <;> simp_all
  have no : ∀ i, s.qualifies k needs c i = false := by
    intro i
    unfold State.qualifies
    cases hy : s.seat? i with
    | none => rfl
    | some y => simp [seat i y hy, hx]
  simp [State.searchZones, no]

/-- Every desk HELD. -/
def allHeld : State := { plain with htu.seats := Vector.replicate 384 { Seat.atReset 0 with state := .held } }

/-- A pass examines no desk when every desk is like one it does not examine. -/
theorem examined_none (s : State) (needs : Attrs) (z : Nat) (second : Bool) (x : Seat)
    (h : s.htu.seats = Vector.replicate 384 x)
    (hx : (x.kind == .seat && x.zone == z && (second || !x.attrs.getLsbD 0 || needs.getLsbD 0)) = false) (i : Nat) :
    s.examined needs z second i = false := by
  simp only [State.examined, State.seat?, h, Vector.getElem?_replicate]
  split
  · exact hx
  · rfl

/-- A zone in which no desk is examined is passed over. -/
theorem searchZones_skip (s : State) (k : Nat) (needs : Attrs) (c : Option Nat) (z : Nat) (zs : List Nat)
    (h : ∀ second i, s.examined needs z second i = false) :
    s.searchZones k needs c (z :: zs) = s.searchZones k needs c zs := by
  simp [State.searchZones, h]

/-- The first position of the grid is found, when it will do. -/
theorem searchZones_first (s : State) (k : Nat) (needs : Attrs) (c : Option Nat) (z : Nat) (second : Bool)
    (fill : s.cli.params.fillOrder = .ascending)
    (pass : second = true → ∀ i, s.examined needs z false i = false)
    (h : (s.examined needs z second 0 && s.qualifies k needs c 0) = true) : s.searchZones k needs c [z] = some 0 := by
  obtain ⟨rest, head⟩ : ∃ l, gridOrder .ascending = 0 :: l := ⟨(gridOrder .ascending).tail, by decide +kernel⟩
  have take : ∀ l, List.find? (fun i => s.examined needs z second i && s.qualifies k needs c i) (0 :: l) = some 0 :=
    fun l => List.find?_cons_of_pos (p := fun i => s.examined needs z second i && s.qualifies k needs c i) h
  cases second with
  | false => simp only [State.searchZones, fill, List.flatMap_cons, List.cons_append, List.findSome?_cons, head, take]
  | true =>
    have skip := pass rfl
    simp [State.searchZones, fill, skip, head, take]

theorem test_witness_SearchFindsQualifyingSeat : plain.searchZones 7 0 none [8, 0] = some 0 ∧
    plain.seat? 0 = some (Seat.atReset 0) ∧ (∀ j ∈ neighbours .row 0, plain.boundTo j = none) ∧
    accessible.searchZones 7 0 none [0] = some 0 ∧ accessible.seat? 0 = some { Seat.atReset 0 with attrs := 1 } ∧
    allHeld.searchZones 7 0 none [0] = none := by
  refine ⟨?_, by decide +kernel, by decide +kernel, ?_, by decide +kernel, searchZones_none _ _ _ _ _ _ rfl (by decide)⟩
  · rw [searchZones_skip _ _ _ _ _ _ (fun second => examined_none plain 0 8 second (Seat.atReset 0) rfl
      (by cases second <;> decide))]
    exact searchZones_first _ _ _ _ _ false rfl (fun h => nomatch h) (by decide +kernel)
  · exact searchZones_first _ _ _ _ _ true rfl
      (fun _ => examined_none accessible 0 0 false { Seat.atReset 0 with attrs := 1 } rfl (by decide)) (by decide +kernel)

theorem test_witness_SearchFollowsFillOrder : let s := plain.modSeat 0 (fun x => { x with attrs := 1 })
    s.searchZones 7 0 none [0] = some 1 ∧ s.seat? 1 = some (Seat.atReset 0) ∧
    s.seat? 0 = some { Seat.atReset 0 with attrs := 1 } ∧ s.qualifies 7 0 none 0 = true ∧
    (gridOrder .serpentine)[16]? = some 31 ∧ (gridOrder .serpentine)[32]? = some 32 := by decide +kernel

theorem test_witness_AllocateCreatesCandidates : ((sit .defined 0 plain).listening = true ∧
    (99999999#32).toNat ≤ 99999999 ∧ (7#8).toNat < 8 ∧ (100#8).toNat % 5 = 0 ∧ (60#8).toNat ≤ 60 ∧
    (plain.sitting 7).state = .empty ∧ ((sit .writing 1799 plain).sitting 7).clock < 30 * 60 ∧
    (hall .writing .occupied .defined).activeSlot 99999999 = some 511 ∧ plain.activeSlot 99999999 = none ∧
    plain.cand? 0 = none ∧ plain.searchZones 7 0 none [0] = some 0 ∧ brim.sal.queue.length = 32 ∧
    (99999936#32).toNat + (64#8).toNat - 1 ≤ 99999999) ∧
    (∀ c, c < 512 → ({ plain with htu.cands := Vector.replicate 512 (some (person .finished none)) } : State).cand? c
      ≠ none) ∧
    allHeld.searchZones 7 0 none [0] = none := by
  refine ⟨by decide +kernel, ?_, searchZones_none _ _ _ _ _ _ rfl (by decide)⟩
  intro c hc
  simp [State.cand?, hc]

theorem test_witness_CreationByCases : (sit .writing 1800 plain).cand? 511 = none ∧ (1800 < 30 * 60) = False ∧
    ((sit .writing 1799 plain).sitting 7).state = .writing ∧ plain.route? paper = none ∧
    ({ plain with sal.routes := [⟨paper, 7, [0]⟩] } : State).route? paper = some ⟨paper, 7, [0]⟩ ∧
    (plain.noteRunMiss 7 [(511, .queued 1)]).cli.notices = [⟨HallTime.zero, .routeMiss 7 Paper.blank 511⟩] := by
  refine ⟨?_, ?_, ?_⟩ <;> decide +kernel

theorem test_witness_MoveRebindsCandidates : (hall .writing .occupied .writing).listening = true ∧
    (hall .writing .occupied .writing).cand? 511 = some (person .writing (some 383)) ∧
    (person .writing (some 383)).bound = some 383 ∧ (hall .writing .occupied .writing).seat? 383 =
      some { Seat.atReset 0 with state := .occupied, bound := some 511 } ∧
    (hall .writing .occupied .writing).seat? 0 = some (Seat.atReset 0) ∧ (383 : Nat) ≠ 0 ∧ 384 ≤ (384#16).toNat ∧
    plain.cand? 511 = none ∧ (person .finished none).state = .finished ∧
    ((2#3 &&& (Seat.atReset 0).attrs) ≠ (2#3 : Attrs)) ∧ ((0#3 &&& (Seat.atReset 0).attrs) = (0#3 : Attrs)) ∧
    (chair .held none plain).seatState 383 = .held := by decide +kernel

/-- A waiting candidate, and a pass asked for. -/
def queued (zone : Nat) : State := { put (person .waiting none) plain with
  sal.queue := [511], sal.retryDue := 1, cli.params.defaultZone := zone }

/-- The relocation of the candidate in slot 511 off seat 383. -/
def leaving (st : CandState) (seat : Nat) : State :=
  { hall st .faulted .writing with sal.relocations := [(511, seat)] }

/-- The same with every desk FAULTED. -/
def allBroken : State := { leaving .writing 383 with
  htu.seats := Vector.replicate 384 { Seat.atReset 0 with state := .faulted, bound := some 511 } }

theorem test_witness_RetryAndRelocation : (plain.sal.retryDue = 0 ∧ (queued 0).sal.retryDue = 0 + 1 ∧
    (queued 0).cand? 511 = some (person .waiting none) ∧ (queued 0).searchZones 7 0 (some 511) [0] = some 0 ∧
    (queued 0).sal.queue = [511] ∧ plain.sal.relocations = [] ∧
    (leaving .writing 383).sal.relocations = (511, 383) :: [] ∧
    (leaving .writing 383).cand? 511 = some (person .writing (some 383)) ∧
    (leaving .writing 383).searchZones 7 0 (some 511) [0] = some 0 ∧
    (leaving .finished 383).cand? 511 = some (person .finished (some 383)) ∧
    ({ plain with sal.relocations := [(511, 383)] } : State).cand? 511 = none ∧
    allBroken.cand? 511 = some (person .writing (some 383))) ∧ allBroken.searchZones 7 0 (some 511) [0] = none ∧
    ({ queued 0 with htu.seats := Vector.replicate 384 { Seat.atReset 0 with state := .held } } : State).searchZones 7 0
      (some 511) [0] = none :=
  ⟨by decide +kernel, searchZones_none _ _ _ _ _ _ rfl (by decide), searchZones_none _ _ _ _ _ _ rfl (by decide)⟩

/-! ### The timebase and the sittings -/

theorem test_witness_SetTimebaseReplacesSettings : plain.listening = true ∧ sourceOf 0 = some .internal ∧
    sourceOf 1 = some .external ∧ syncModeOf 1 = some .minute ∧ (16#8).toNat ≤ 16 ∧ (40000#16).toNat ≤ 40000 ∧
    (40000#16).toNat % (16#8).toNat = 0 ∧ (40000#16).toNat / (16#8).toNat ≤ 2500 ∧ 10000 % (4#8).toNat = 0 ∧
    10000 / (4#8).toNat = 2500 ∧ (∀ k ∈ [SittingState.armed, .reading, .writing, .extended],
      ((sit k 0 plain).sitting 7).state = k ∧ ∀ j, j < 7 → ((sit k 0 plain).sitting j).state = .empty) ∧
    (∀ k, k < 8 → (plain.sitting k).state = .empty) := by decide +kernel

/-- In MINUTE mode, at a time of day, with sitting 7 ARMED for 00:00:00. -/
def edge (second : Nat) : State :=
  let s := plain.modSitting 7 (fun x => { x with state := .armed, scheduled := some HallTime.zero })
  { s with
    tme.timebase := ⟨.internal, 10000, 4, .minute⟩
    tme.hall := ⟨23, 59, second⟩
    tme.syncLostDue := true }

theorem test_witness_ClockJumpsAndSync : plain.listening = true ∧ (23#8).toNat < 24 ∧ (59#8).toNat < 60 ∧
    plain.tme.timebase.syncMode = .off ∧ (edge 30).tme.timebase.syncMode = .minute ∧ (edge 30).tme.hall.valid = true ∧
    30 ≤ (edge 30).tme.hall.second ∧ (edge 29).tme.hall.second < 30 ∧ (edge 0).tme.hall.second = 0 ∧
    ((edge 30).sitting 7).state = .armed ∧ ((edge 30).sitting 7).scheduled = some HallTime.zero ∧
    (edge 30).tme.syncLostDue = true ∧ plain.tme.syncLostDue = false := by decide +kernel

theorem test_witness_TimebaseSecondStepsClocks : (edge 59).tme.hall.valid = true ∧
    (edge 59).tme.timebase.syncMode = .minute ∧ plain.tme.timebase.syncMode = .off ∧ 7 < 8 ∧
    (plain.handset 7).state = .active ∧ (edge 59).tme.hall.next = HallTime.zero := by decide +kernel

theorem test_witness_DefineSittingReplacesFields : plain.listening = true ∧ (7#8).toNat < 8 ∧ isPaper paper = true ∧
    (60#8).toNat ≤ 60 ∧ (360#16).toNat ≤ 360 ∧ (180#16).toNat + (180#16).toNat ≤ (360#16).toNat ∧
    (∀ w ∈ [120#8, 60#8, 5#8, 1#8], 1 ≤ w.toNat ∧ w.toNat ≤ 120 ∧ w.toNat ≤ (360#16).toNat) ∧
    ([120#8, 60#8, 5#8, 1#8].map (·.toNat)).Pairwise (· > ·) ∧ (30#8).toNat ≤ 30 ∧ scriptKindOf 1 = some .sheet ∧
    (plain.sitting 7).state = .empty ∧ ((sit .defined 0 plain).sitting 7).state = .defined ∧
    ((sit .closed 0 plain).sitting 7).state ≠ .empty ∧ ((sit .closed 0 plain).sitting 7).state ≠ .defined := by
  decide +kernel

/-- Sitting 7 of SHEETS in a state, with a key or none. -/
def sheets (k : SittingState) (key : Option Nat) (s : State) : State :=
  s.modSitting 7 (fun x => { x with state := k, scriptKind := .sheet, keyId := key, startDue := true })

theorem test_witness_SittingStarts : plain.listening = true ∧ (7#8).toNat < 8 ∧
    (HallTime.mk 23 59 59).valid = true ∧ (plain.sitting 7).state ≠ .defined ∧
    ((sheets .defined none plain).sitting 7).state = .defined ∧
    ((sheets .defined none plain).sitting 7).keyId = none ∧ ((sheets .defined (some 7) plain).sitting 7).keyId ≠ none ∧
    ((sit .defined 0 plain).sitting 7).scriptKind = .booklet ∧ plain.tme.hall = ⟨0, 0, 0⟩ ∧
    ((sheets .armed (some 7) plain).sitting 7).state = .armed ∧
    ((sheets .armed (some 7) plain).sitting 7).startDue = true ∧ (plain.sitting 7).reading = 0 ∧
    ((plain.modSitting 7 (fun x => { x with reading := 60 })).sitting 7).reading ≠ 0 ∧
    (hall .present .occupied .reading).cand? 511 = some (person .present (some 383)) := by decide +kernel

/-- Sitting 7 running, held or not, with one second owed. -/
def running (k : SittingState) (held : Bool) (clock due : Nat) (marks : List MarkEntry) (s : State) : State :=
  (sit k clock s).modSitting 7 (fun x => { x with held := held, secondsDue := due, marks := marks })

theorem test_witness_HoldAndResumeSittings : plain.listening = true ∧ (7#8).toNat < 8 ∧
    (let x := (running .extended false 0 0 [] plain).sitting 7; x.state.running = true ∧ x.held = false) ∧
    (let x := (running .reading true 0 0 [] plain).sitting 7; x.state.running = true ∧ x.held = true) ∧
    (plain.sitting 7).state.running = false ∧ ([0, 7] : List Nat).Pairwise (· < ·) := by decide +kernel

theorem test_witness_SittingIsClosedOrCleared : plain.listening = true ∧ (7#8).toNat < 8 ∧
    (plain.sitting 7).state ≠ .collecting ∧
    (let s := hall .finished .vacated .collecting;
      (s.sitting 7).state = .collecting ∧ (s.slotsWhere (fun c => c.sitting == 7 && c.owes)).length = 1 ∧
      s.callsOfSitting 7 = [] ∧ s.mke.batch.state = .idle) ∧
    (let s := sit .collecting 0 plain;
      s.slotsWhere (fun c => c.sitting == 7 && c.owes) = [] ∧ s.callsOfSitting 7 = []) ∧
    (let s := marking .halted (sit .collecting 0 plain); s.mke.batch.state ≠ .idle ∧ s.mke.batch.sitting = 7) ∧
    ((sit .closed 0 plain).sitting 7).state = .closed ∧ ((sit .armed 0 plain).sitting 7).state = .armed ∧
    (sit .armed 0 plain).slotsWhere (fun c => c.sitting == 7) = [] ∧
    (marking .active (sit .closed 0 plain)).mke.batch.sitting = 7 := by decide +kernel

theorem test_witness_ClosingUnbindsAndCancels :
    (let s := hall .finished .vacated .collecting;
      s.cand? 511 = some (person .finished (some 383)) ∧ (s.closingClaim 7).1.seat? 383 = some (Seat.atReset 0) ∧
        (s.closingClaim 7).2 = 1) ∧
    (let s := served .query false (hall .finished .vacated .collecting);
      s.call? 47 = some (ring .query 4 (.inService 7) (some 383)) ∧ (s.cancelSittingCalls 7).1.call? 47 = none ∧
        (s.cancelSittingCalls 7).1.handset 7 = { s.handset 7 with stack := [], note := some ⟨.cancelled, 5⟩ }) := by
  decide +kernel

theorem test_witness_SittingSecondTakesWork : (plain.sitting 7).state.running = false ∧
    (let x := (running .reading false 0 1 [] plain).sitting 7;
      x.state.running = true ∧ x.held = false ∧ 0 < x.secondsDue ∧ x.reading * 60 ≤ x.clock + 1) ∧
    (let x := ((running .reading false 3598 1 [] plain).modSitting 7 (fun y => { y with reading := 60 })).sitting 7;
      x.clock + 1 < x.reading * 60) ∧
    (let x := (running .writing false 5399 1 [] plain).sitting 7;
      x.state ≠ .reading ∧ x.clock < x.writing * 60 ∧ x.writing * 60 ≤ x.clock + 1) ∧
    (let x := (running .writing false 1800 0 [] plain).sitting 7;
      x.cutoffTaken = false ∧ x.cutoff * 60 ≤ x.clock ∧ x.secondsDue = 0 ∧ x.warningReached = false) := by decide +kernel

theorem test_witness_PointsTakeTheirEffect :
    (let x := ((sit .writing 4500 plain).modSitting 7 (fun y => { y with nextWarning := 1 })).sitting 7;
      x.nextWarning = 0 + 1 ∧ x.warnings[0]? = some 15 ∧ (x.writing - 15) * 60 ≤ x.clock) ∧
    (let x := ((sit .writing 4499 plain).modSitting 7 (fun y => { y with nextWarning := 1 })).sitting 7;
      x.warnings[x.nextWarning - 1]? = some 15 ∧ x.clock < (x.writing - 15) * 60) ∧
    (hall .expected .assigned .writing 1800).cand? 511 = some (person .expected (some 383)) ∧
    (hall .expected .assigned .writing 1800).cli.notices.length < 64 ∧
    ((running .writing false 5400 0 [⟨6000, 511, .finish⟩] plain).sitting 7).marks ≠ [] ∧
    ((running .extended false 5400 0 [] plain).sitting 7).state = .extended ∧
    ((running .extended false 5400 0 [] plain).sitting 7).marks = [] := by decide +kernel

theorem test_witness_CutoffFreesSeats : let s := hall .expected .assigned .writing 1800
    s.seat? 383 = some { Seat.atReset 0 with state := .assigned, bound := some 511 } ∧
    (s.takeCutoff 7).seat? 383 = some (Seat.atReset 0) ∧ (s.takeCutoff 7).sal.retryDue = s.sal.retryDue + 1 := by
  decide +kernel

theorem test_witness_PersonalTime : (120 ∈ [120, 60, 5, 1]) ∧
    ([⟨5, 0, .finish⟩, ⟨5, 511, .finish⟩] : List MarkEntry).Pairwise (fun a b => b.before a = false) ∧
    (writingEntry ((sit .writing 0 plain).sitting 7) 511 { person .writing (some 383) with extension := 1380 } 0) =
      ⟨5880, 511, .warn 1⟩ := by decide +kernel

theorem test_witness_MarkListsTakeEntries : let s := hall .writing .occupied .writing
    s.cand? 511 = some (person .writing (some 383)) ∧ (person .writing (some 383)).sitting = 7 ∧ plain.cand? 511 = none ∧
    ((((s.addWritingEntry 511).addMark 7 ⟨4500, 0, .finish⟩).sitting 7).marks) =
      [⟨4500, 0, .finish⟩, ⟨4500, 511, .warn 1⟩] ∧
    (((s.addWritingEntry 511).dropMark 7 511).sitting 7).marks = [] ∧
    (⟨4500, 0, .finish⟩ : MarkEntry).before ⟨4500, 511, .finish⟩ = true ∧
    (⟨4501, 0, .finish⟩ : MarkEntry).before ⟨4500, 511, .finish⟩ = false := by decide +kernel

theorem test_witness_CandEndIsSent :
    let late (s : State) : State := s.modCand 511 (fun y => { y with extension := 60 })
    let s := hall .finished .vacated .extended 5400
    (s.noteCandEnd 511).cli.notices = s.cli.notices ∧
      ((late s).noteCandEnd 511).cli.notices = [⟨HallTime.zero, .candEnd 511 99999999 7 none 5460 60 0⟩] := by
  decide +kernel

/-- The candidate of slot 511 with one entry due in sitting 7. -/
def firing (st : CandState) (kind : MarkKind) : State :=
  (hall st .occupied .writing 5400).modSitting 7 (fun x => { x with marks := [⟨5400, 511, kind⟩] })

theorem test_witness_MarkEntriesFire :
    (∀ p ∈ [(CandState.writing, MarkKind.warn 1), (.writing, .finish), (.paused, .restExpiry)],
      let s := firing p.1 p.2
      s.cand? 511 = some (person p.1 (some 383)) ∧ (s.sitting 7).state.running = true ∧ (s.sitting 7).held = false ∧
        (s.sitting 7).marks = ⟨5400, 511, p.2⟩ :: [] ∧ 5400 ≤ (s.sitting 7).clock) ∧
    (let s1 := (firing .writing .finish).modSitting 7 (fun z => { z with marks := [] })
      let ext (s : State) := s.modCand 511 (fun y => { y with extension := 600 })
      ((((ext s1).addWritingEntry 511).collectIfEmpty 7).sitting 7).marks.all (fun m => decide (5400 < m.due)) = true ∧
      ((((s1.finishClaim 511).noteCandEnd 511).collectIfEmpty 7).sitting 7).marks = []) ∧
    plain.cand? 511 = none ∧ (hall .writing .occupied .writing).cand? 511 = some (person .writing (some 383)) ∧
    ((hall .writing .occupied .writing).sitting 7).marks = [] := by decide +kernel

/-- The END row with a WARN entry due, and with an END entry that comes due at a next second that is not owed. -/
theorem test_witness_NoEntryDueNoFiring :
    (firing .writing (.warn 1)).cand? 511 = some (person .writing (some 383)) ∧
    (let x := (firing .writing (.warn 1)).sitting 7;
      x.state.running = true ∧ x.held = false ∧ x.marks = [⟨5400, 511, .warn 1⟩] ∧ 5400 ≤ x.clock) ∧
    (let x := ((firing .writing .finish).modSitting 7 (fun x => { x with clock := 5399 })).sitting 7;
      x.state.running = true ∧ x.held = false ∧ x.marks = [⟨5400, 511, .finish⟩] ∧ x.clock < 5400 ∧ x.clock + 1 = 5400 ∧
        x.secondsDue = 0) := by decide +kernel

theorem test_witness_MarkEntriesFireTogether :
    (let s := (firing .paused .restExpiry).modSitting 7 (fun x => { x with
        marks := [⟨5400, 511, .restExpiry⟩, ⟨5400, 511, .finish⟩] });
      (∃ e rest, (s.sitting 7).marks = e :: rest ∧ e.due ≤ (s.sitting 7).clock) ∧
        (s.fireDue 7).cand? 511 ≠ s.cand? 511) ∧
    (let x := ((firing .writing .finish).modSitting 7 (fun x => { x with clock := 5399, secondsDue := 1 })).sitting 7;
      x.state.running = true ∧ x.held = false ∧ x.marks = [⟨5400, 511, .finish⟩] ∧ x.clock + 1 = 5400 ∧
        0 < x.secondsDue) ∧
    (served .rest false plain).liveRest 511 = some 47 ∧ (served .rest true plain).liveRest 511 = none ∧
    plain.cand? 511 = none := by
  refine ⟨⟨⟨⟨5400, 511, .restExpiry⟩, [⟨5400, 511, .finish⟩], ?_⟩, ?_⟩, ?_⟩ <;> decide +kernel

theorem test_witness_PausesAndEarlyLeave : (hall .writing .occupied .writing).listening = true ∧ (511#16).toNat < 512 ∧
    (let y : Candidate := { person .paused (some 383) with pauseStart := some 0 };
      (put y plain).cand? 511 = some y ∧ y.pauseStart = some 0) ∧ plain.cand? 511 = none ∧
    (∀ clock ∈ [1799, 1800, 4499, 4500], let s := hall .writing .occupied .writing clock
      s.cand? 511 = some (person .writing (some 383)) ∧ (s.sitting 7).clock = clock) ∧
    (let x := (hall .writing .occupied .writing).sitting 7;
      x.opening * 60 = 1800 ∧ (x.writing - x.closing) * 60 = 4500 ∧ x.held = false) ∧
    ((hall .writing .occupied .extended).sitting 7).state ≠ .writing ∧
    ((running .writing true 0 0 [] plain).sitting 7).held = true := by decide +kernel

/-! ### Calls and handsets -/

theorem test_witness_EscalationAndHandsetAway :
    (let c := { ring .query 7 .pending (some 383) with timer := 600, escalationDue := true }
      let s : State := { plain.putCall 47 (some c) with cli.params.escalateTime := 600 };
      s.call? 47 = some c ∧ c.state = .pending ∧ 0 < c.level ∧ c.escalationDue = true ∧
        s.cli.params.escalateTime ≤ c.timer) ∧ plain.call? 47 = none ∧
    (let s := (served .rest false plain).modHandset 7 (fun h => { h with timer := 30, awayDue := true });
      (s.handset 7).state = .active ∧ (s.handset 7).awayDue = true ∧ 0 < s.cli.params.handsetAway ∧
        s.cli.params.handsetAway ≤ (s.handset 7).timer ∧ s.call? 47 = some (ring .rest 4 (.inService 7) (some 383))) ∧
    (plain.handset 7).awayDue = false ∧ (served .rest true plain).call? 47 =
      some { ring .rest 4 (.inService 7) (some 383) with expired := true } := by decide +kernel

/-- A parameter raised above a timer, or set to 0, drops what was due by it, and lowering it again does not bring it back
(log 40). -/
theorem test_due_is_dropped_for_good :
    let c := { ring .query 7 .pending (some 383) with timer := 30, escalationDue := true }
    let h (t : Nat) : Handset := { plain.handset 7 with timer := t, awayDue := true }
    c.underLimit 30 = c ∧ c.underLimit 31 = { c with escalationDue := false } ∧
      c.underLimit 0 = { c with timer := 0, escalationDue := false } ∧
      (h 30).underLimit 30 = h 30 ∧ (h 30).underLimit 31 = { h 30 with awayDue := false } ∧
      (h 30).underLimit 0 = { h 30 with awayDue := false } ∧
      ((h 30).underLimit 31).underLimit 30 = { h 30 with awayDue := false } := by decide +kernel

/-- A call taken with its escalation due and returned to PENDING escalates at the next timebase second (log 44). -/
theorem test_escalation_after_return :
    let c := { ring .query 7 (.inService 7) (some 383) with timer := 30 }
    c.tick 30 = c ∧ ({ c with state := .pending } : Call).escalates 30 = false ∧
      (({ c with state := .pending } : Call).tick 30).escalates 30 = true := by decide +kernel

/-- Every call id taken, by calls that are detached. -/
def busyLine : State := { plain with cdp.calls := Vector.replicate 48 (some (ring .query 4 .pending none)) }

theorem test_witness_CallsAreRaisedAndCancelled : plain.listening = true ∧ (383#16).toNat < 384 ∧
    (let s := plain.putCall 47 (some (ring .query 4 .pending (some 383)));
      s.call? 47 = some (ring .query 4 .pending (some 383)) ∧ ∀ m, m < 47 → s.call? m = none) ∧
    (∀ n, n < 48 → busyLine.call? n = some (ring .query 4 .pending none)) ∧
    (hall .writing .occupied .writing).boundTo 383 = some (511, person .writing (some 383)) ∧
    (hall .finished .vacated .writing).boundTo 383 = some (511, person .finished (some 383)) ∧
    plain.boundTo 383 = none ∧ plain.call? 0 = none ∧ (47#8).toNat < 48 ∧
    (served .rest false plain).call? 47 = some (ring .rest 4 (.inService 7) (some 383)) := by decide +kernel

theorem test_witness_RaisesAndPendingOrder :
    (∀ p ∈ [(CandState.writing, CallKind.rest), (.present, .query), (.paused, .alert)],
      ((hall p.1 .occupied .extended).raise 383 p.2 none).2 = .accepted 0) ∧
    ((hall .paused .occupied .writing).raise 383 .supply none).2 = .kindRefused ∧
    ((hall .finished .vacated .writing).raise 383 .escort none).2 = .noCandidate ∧
    ((hall .writing .occupied .extended).sitting 7).threshold = 0 ∧
    (hall .writing .occupied .extended).dispatchable (ring .query 0 .pending (some 383)) = true ∧
    (hall .writing .occupied .extended).dispatchable (ring .query 1 .pending (some 383)) = false ∧
    pendingBefore (47, ring .query 4 .pending none) (0, ring .query 5 .pending none) = true := by decide +kernel

theorem test_witness_SetHandsetZonesReplacesSet : plain.listening = true ∧ (7#8).toNat < 8 ∧ 8 ≤ (8#8).toNat := by
  decide +kernel

/-- The candidate of slot 511 at seat 383, with call 47 pending. -/
def calling (kind : CallKind) : State :=
  (hall .writing .occupied .writing).putCall 47 (some (ring kind 0 .pending (some 383)))

theorem test_witness_TakeAndDone : ((plain.modHandset 7 (fun h => { h with state := .off })).handset 7).state = .off ∧
    (plain.handset 7).state ≠ .off ∧ 3 ≤ ((plain.modHandset 7 (fun h => { h with stack := [1, 2, 3] })).handset 7).stack.length ∧
    plain.eligibleCalls 7 = [] ∧ (calling .rest).eligibleCalls 7 = 47 :: [] ∧
    (calling .rest).call? 47 = some (ring .rest 0 .pending (some 383)) ∧
    ((served .rest false plain).handset 7).stack.getLast? = some 47 ∧ (plain.handset 7).stack = [] ∧
    (∀ k ∈ [CallKind.query, .supply, .escort, .rest, .alert], ∀ e ∈ [true, false],
      (served k e plain).call? 47 = some { ring k 4 (.inService 7) (some 383) with expired := e }) ∧
    ({ person .writing (some 383) with issued := 8 } : Candidate).state.seated = true ∧
    (person .finished none).state.seated = false := by decide +kernel

/-! ### Unit links -/

theorem test_witness_LinksAreStartedAndStopped : plain.listening = true ∧ linkOf 3 = some .d ∧ linkOf 4 = some .floor ∧
    (plain.link .d).running = false ∧ ((linkUp .floor true [19] none plain).link .floor).running = true ∧
    383 ∈ linkAddresses .d ∧ 19 ∈ linkAddresses .floor := by decide +kernel

theorem test_witness_PollCycles : ((linkUp .d false [] none plain).link .d).running = true ∧
    ((linkUp .d true [383] none plain).link .d).toPoll = 383 :: [] ∧ (plain.link .d).running = false ∧
    ((linkUp .floor true [] (some 19) plain).link .floor).current = some 19 ∧
    (let x := ((linkUp .d true [] none plain).modLink .d (fun y => { y with members := [383] })).link .d;
      x.toPoll = [] ∧ x.current = none ∧ x.members ≠ [] ∧ x.heardInCycle = false ∧ x.silentReported = false) ∧
    (let x := ((linkUp .d false [] none plain).modLink .d (fun y => { y with
        broadcastPending := true, repeatPending := true, history := [⟨59, 3⟩] })).link .d;
      x.broadcastPending = true ∧ x.repeatPending = true ∧ x.history = ⟨59, 3⟩ :: []) := by decide +kernel

theorem test_witness_CycleMembersAndRepeat :
    (let s := (linkUp .d true [] none plain).modLink .d (fun y => { y with repeatPending := true })
      let x := s.link .d;
      x.running = true ∧ x.repeatPending = true ∧ x.broadcastPending = false ∧ x.current = none ∧ x.toPoll = [] ∧
        x.history = [] ∧ (((s.modLink .d (fun y => { y with history := [⟨59, 3⟩] })).sendRepeat .d).link .d).sent =
          some (.broadcast ⟨59, 3⟩) ∧ (s.sendRepeat .d).link .d = { x with repeatPending := false }) ∧
    plain.isMember .d 383 = true ∧ plain.isMember .d 384 = false ∧
    (plain.modSeat 383 (fun x => { x with kind := .aisle })).isMember .d 383 = false ∧
    plain.isMember .floor 19 = true ∧ plain.isMember .floor 20 = false := by decide +kernel

theorem test_witness_DisplaysAreDerivedAndSpent :
    (∀ p ∈ [(CandState.expected, SeatState.assigned), (.present, .occupied), (.writing, .occupied), (.paused, .occupied),
        (.finished, .vacated)],
      (hall p.1 p.2 .writing).cand? 511 = some (person p.1 (some 383)) ∧
        ((hall p.1 p.2 .writing).seat? 383).map (fun x => (x.state, x.bound)) = some (p.2, some 511)) ∧
    (broken false false (hall .writing .occupied .writing)).derivedDisplay 383 = ⟨.writing 90, 0, .none, false⟩ ∧
    ((hall .present .occupied .reading).sitting 7).state = .reading ∧
    ((plain.modUnit .d 383 (fun u => { u with oneShot := some ⟨.refused .unknown, 5⟩ })).unit .d 383).oneShot =
      some ⟨.refused .unknown, 5⟩ ∧
    (plain.handset 7).state ≠ .off ∧ (plain.handset 7).note = none ∧ (plain.handset 7).stack = [] ∧
    ((served .query false plain).handset 7).stack.getLast? = some 47 ∧
    (∀ n ∈ [Note.none, .cancelled], ((plain.modHandset 7 (fun h => { h with note := some ⟨n, 5⟩ })).handset 7).note =
      some ⟨n, 5⟩) := by decide +kernel

/-- Replies as a seat unit (the last of link D), a handset, a station and a wall clock send them. -/
theorem test_unit_replies :
    (checkedPayload 95 (linkFrame 95 0x81 [0, 0, 0, 7, 4, 0xFF])).bind seatReplyOf = some ⟨7, some .rest, 0xFF⟩ ∧
    (checkedPayload 95 (linkFrame 95 0x81 [0, 0, 0, 7, 5, 0xFF])).bind seatReplyOf = none ∧
    (checkedPayload 7 (linkFrame 7 0x81 [2, 0xFF, 0xFF, 0x3B])).bind handsetReplyOf = some (.done none, 0x3B) ∧
    (checkedPayload 11 (linkFrame 11 0x81 [1, 0, 0x02, 0x71, 0x9C, 0xA6, 3, 1, 0x46, 1, 0xFF])).bind stationReplyOf =
      some ⟨[some ⟨41000102, 3, 1, 0x46⟩], true, 0xFF⟩ ∧
    (checkedPayload 19 (linkFrame 19 0x81 [0xFF])).bind clockReplyOf = some 0xFF ∧
    checkedPayload 19 (linkFrame 18 0x81 [0xFF]) = none := by decide +kernel

theorem test_witness_UnitRepliesAreTaken : ((linkUp .d true [] (some 383) plain).link .d).running = true ∧
    ((linkUp .d true [] (some 383) plain).link .d).current = some 383 ∧ 383 % 96 = 95 ∧
    (∀ a ∈ [0, 7, 8, 11, 12, 19], ((linkUp .floor true [] (some a) plain).link .floor).current = some a) ∧
    (plain.link .floor).running = false ∧ plain.seat? 383 = some (Seat.atReset 0) ∧
    ((broken false false plain).seat? 383).map (fun x => (x.state, x.answering)) = some (.faulted, false) ∧
    ((hall .writing .occupied .writing).raise 383 .query none).2 = .accepted 0 ∧
    (∀ n, (plain.raise 383 .query none).2 ≠ .accepted n) ∧ plain.cli.params.floorUnits.getLsbD 19 = true ∧
    ({ plain with cli.params.floorUnits := 0 } : State).cli.params.floorUnits.getLsbD 7 = false := by
  refine ⟨by decide +kernel, by decide +kernel, rfl, by decide +kernel, by decide +kernel, by decide +kernel,
    by decide +kernel, by decide +kernel, ?_, by decide +kernel, by decide +kernel⟩
  intro n
  have h : ∀ r, (plain.raise 383 .query none).2 = r → (match r with | .accepted _ => false | _ => true) = true := by
    rintro r rfl
    decide +kernel
  intro e
  exact absurd (h _ e) (by simp)

theorem test_witness_OutcomesCountAndFault : (⟨59, 3⟩ : TimeCode) ∈ [(⟨59, 3⟩ : TimeCode)] ∧ 0xFB#8 ≠ 0xFF#8 ∧
    (0xFB#8).toNat % 64 = 59 ∧ (0xFB#8).toNat / 64 = 3 ∧ plain.seat? 383 = some (Seat.atReset 0) ∧
    ((broken false false plain).seat? 383).map (·.state) = some .faulted ∧
    (hall .writing .occupied .writing).boundTo 383 = some (511, person .writing (some 383)) ∧
    plain.boundTo 383 = none := by decide +kernel

/-- Floor unit 19 with its runs and its floor fault. -/
def floorUnit (miss good : Nat) (fault : Option FaultKind) : State :=
  plain.modUnit .floor 19 (fun _ => ⟨miss, 0, good, none, fault⟩)

theorem test_witness_FloorUnitsFault : ((floorUnit 2 0 none).unit .floor 19).count .miss = ⟨3, 0, 0, none, none⟩ ∧
    ((floorUnit 0 2 (some .silent)).unit .floor 19).count .good = ⟨0, 0, 3, none, some .silent⟩ ∧
    ((floorUnit 2 0 (some .clock)).unit .floor 19).floorFault ≠ none ∧
    ((floorUnit 0 1 (some .clock)).unit .floor 19).count .good = ⟨0, 0, 2, none, some .clock⟩ := by decide +kernel

theorem test_witness_CardReadByTable : plain.activeSlot 99999999 = none ∧
    (∀ st ∈ [CandState.waiting, .expected, .present, .writing, .paused], let s := hall st .assigned .writing 1799
      s.activeSlot 99999999 = some 511 ∧ s.cand? 511 = some (person st (some 383))) ∧ (383 : Nat) ≠ 0 ∧
    ((hall .expected .assigned .writing 1799).sitting 7).clock < 30 * 60 ∧
    30 * 60 ≤ ((hall .expected .assigned .writing 1800).sitting 7).clock ∧
    ((hall .expected .assigned .collecting).sitting 7).state = .collecting ∧
    (let y := { person .writing (some 383) with relocating := true }; (put y plain).cand? 511 = some y) ∧
    (let s := put (person .expected none) plain;
      s.activeSlot 99999999 = some 511 ∧ s.cand? 511 = some (person .expected none)) := by decide +kernel

/-! ### Script collection -/

theorem test_witness_IssueBookletCountsOne : plain.listening = true ∧ 512 ≤ (512#16).toNat ∧ plain.cand? 511 = none ∧
    (∀ n ∈ [7, 8], let y := { person .present none with issued := n }; (put y plain).cand? 511 = some y) ∧
    (put (person .finished none) plain).cand? 511 = some (person .finished none) := by decide +kernel

theorem test_witness_TakeExceptionsRemovesOldest : brim.listening = true ∧ 1 ≤ (32#8).toNat ∧ (32#8).toNat ≤ 32 ∧
    32 < (33#8).toNat ∧ (0#8).toNat = 0 := by decide +kernel

/-- Channel 3 in SWEEP at seat 383. -/
def sweeping (s : State) : State := s.modChannel 3 (fun _ => ⟨.sweep, some 367, some 383, some .down, some 383, 0, 0, 0⟩)

/-- A booklet tag of the candidate in slot 511. -/
def tag (sequence : Byte) : Tag :=
  ⟨99999999, 7, sequence, BitVec.ofNat 8 (tagCheck 99999999 7 sequence)⟩

theorem test_witness_SweepsTagsAndSkips : plain.listening = true ∧ (3#8).toNat < 4 ∧ (plain.channel 3).state = .idle ∧
    ((sweeping plain).channel 3).state = .sweep ∧ strideOf 2 = some .down ∧ stepLeads .down 367 383 = true ∧
    ((367 :: seatsAfter .down 367 383).find? (hall .finished .vacated .collecting).needsCollection) = some 383 ∧
    ((367 :: seatsAfter .down 367 383).find? plain.needsCollection) = none ∧ (tag 8).valid = true ∧
    (tag 9).valid = false ∧ plain.lookup 99999999 (some 7) = none ∧
    (let s := hall .finished .vacated .collecting;
      s.lookup 99999999 (some 7) = some 511 ∧ s.cand? 511 = some (person .finished (some 383)) ∧
        1 < (tag 2).sequence.toNat ∧ (tag 1).sequence.toNat ≤ 1) ∧
    (person .finished (some 383)).collected.getLsbD 0 = false ∧
    ({ person .finished (some 383) with collected := 1 } : Candidate).collected.getLsbD 0 = true := by decide +kernel

theorem test_witness_TagsAreRecordedAndChannelsAdvance :
    (∀ st ∈ [CandState.writing, .finished], let s := sweeping (hall st .occupied .collecting)
      s.lookup 99999999 (some 7) = some 511 ∧ s.cand? 511 = some (person st (some 383)) ∧ (tag 1).valid = true ∧
        (tag 1).sequence.toNat ≤ 1 ∧ (person st (some 383)).collected.getLsbD 0 = false) ∧
    countBits ((person .finished (some 383)).collected ||| 1#8 <<< 0) = 1 ∧
    (State.tagRead 3 (some (tag 1)) (sweeping (hall .finished .vacated .collecting))).seat? 383 =
      some (Seat.atReset 0) ∧
    (sweeping (hall .finished .vacated .collecting)).needsCollection 383 = true ∧
    (sweeping plain).needsCollection 383 = false ∧
    seatsAfter .down 367 383 = [383] ∧ seatsAfter .up 383 367 = [367] ∧ seatsAfter .right 383 383 = [] ∧
    seatsAfter .left 2 0 = [1, 0] := by decide +kernel

/-- The number 41 000 102 is 02 71 9C A6; a tag fails with another check byte, a number, a sitting or a sequence out of range. -/
theorem test_witness_TagsAreChecked : (41000102#32).toNat = ((2 * 256 + 0x71) * 256 + 0x9C) * 256 + 0xA6 ∧
    (0x46#8).toNat = 255 - (2 + 0x71 + 0x9C + 0xA6 + 3 + 1) % 256 ∧ (Tag.mk 41000102 3 1 0x46).valid = true ∧
    (Tag.mk 41000102 3 1 0x47).valid = false ∧ (Tag.mk 0 0 1 0xFE).valid = false ∧ (Tag.mk 1 0 1 0xFD).valid = true ∧
    (Tag.mk 1 8 1 0xF5).valid = false ∧ (Tag.mk 1 0 0 0xFE).valid = false ∧ (Tag.mk 1 0 9 0xF5).valid = false ∧
    (Tag.mk 100000000 0 1 (BitVec.ofNat 8 (tagCheck 100000000 0 1))).valid = false := by decide +kernel

/-! ### The sheet reader port -/

/-- RRDY asserted, with the assembler in a state. -/
def reading (a : Assembler) (s : State) : State := { s with srp.rrdy := true, srp.assembler := a }

theorem test_witness_SheetFramesAreAssembled : plain.srp.rrdy = false ∧ (reading .hunt plain).srp.rrdy = true ∧
    (reading (.drain [1]) plain).srp.assembler = .drain [1] ∧ progress ([] ++ [0x00]) = .more ∧
    progress ([0x00] ++ [0x2A]) = .ended (some .header) ∧ ([0x00] : List Byte).length < 2 ∧
    ([0x00, 0x2A] : List Byte)[1]? = some 0x2A ∧ plain.mke.batch.state ≠ .active ∧
    (marking .active plain).mke.batch.state = .active := by decide +kernel

/-- The bytes of a frame after its start marker: a count of 1, feed sequence 42, the ID block with a form byte, 40 blank rows,
two bytes of checksum and a last byte. -/
def frameBytes (form last : Byte) (check : List Byte) : List Byte :=
  [1#8, 42#8, 0#8, 0#8] ++ ([5#8, 0xF5#8, 0xE0#8, 0xFF#8, 7#8, form] ++ List.replicate 40 0#8) ++ check ++ [last]

theorem test_witness_SheetFrameEndsAtByte :
    (let right := crcBytes ([5#8, 0xF5#8, 0xE0#8, 0xFF#8, 7#8, 0#8] ++ List.replicate 40 0#8);
      progress (frameBytes 0 0x5D#8 right) = .ended none ∧ (frameBytes 0 0x5D#8 right)[52]? = some 0x5D#8 ∧
        progress ((frameBytes 0 0x5D#8 right).take 52) = .more ∧
        progress (frameBytes 0 0#8 right) = .ended (some .length)) ∧
    progress (frameBytes 0 0x5D#8 [0, 0]) = .ended (some .check) ∧
    progress ((frameBytes 4 0 []).take 10) = .ended (some .length) ∧ progress ((frameBytes 4 0 []).take 9) = .more ∧
    progress [16#8, 0#8] = .ended (some .header) := by decide +kernel

theorem test_witness_SheetFramesSpellSheets :
    (let taken := frameBytes 0 0x5D#8 [0, 0]
      let id := [5#8, 0xF5#8, 0xE0#8, 0xFF#8, 7#8, 0#8];
      taken = [1, 42, 0, 0] ++ id ++ (List.replicate 40 0#8 ++ [0, 0, 0x5D]) ∧
        ([1, 42, 0, 0] : List Byte).length = 4 * ((1 + 4) / 4) ∧ idBytes taken = some id ∧
        idBlockOf taken = some (99999999, 7) ∧ sheetOf 1 id taken = { sheet with feed := 42 }) ∧
    idBytes (0#8 :: List.replicate 20 0) = none ∧ idBytes (16#8 :: List.replicate 40 0) = none ∧
    idBytes (1#8 :: List.replicate 8 0) = none ∧ (idBytes (1#8 :: List.replicate 9 0)).isSome = true := by decide +kernel

theorem test_witness_VerdictsNoticesAndExceptionsQueue : plain.srp.verdicts.length < 4 ∧ 4 ≤ brim.srp.verdicts.length ∧
    plain.srp.verdictSending = false ∧ ({ brim with srp.verdictSending := true } : State).srp.verdictSending = true ∧
    plain.cli.notices.length < 64 ∧ 64 ≤ brim.cli.notices.length ∧ plain.scu.exceptions.length < 64 ∧
    64 ≤ brim.scu.exceptions.length := by decide +kernel

/-! ### Marking -/

theorem test_witness_KeyEditsAreTaken : plain.listening = true ∧ (7#8).toNat < 8 ∧ (3#8).toNat < 4 ∧
    (160#8).toNat ≤ 40 * ((3#8).toNat + 1) ∧ (2#8).toNat ≤ 2 ∧
    (let s := marking .active plain; s.mke.batch.state ≠ .idle ∧ s.mke.batch.key = 7) ∧ plain.mke.batch.state = .idle ∧
    (let x := (keyed .loading true plain).key 7;
      x.state = .loading ∧ (2#8).toNat + [KeyEntry.mk 31 1 4].length - 1 ≤ x.questions.length ∧
        x.questions[1]?.map (·.defined) = some false ∧ x.questions[0]?.map (·.defined) = some true) ∧
    (∀ e ∈ [KeyEntry.mk 31 1 4], 1 ≤ e.answers.toNat ∧ e.answers.toNat < 32 ∧ e.mode.toNat < 2 ∧ 1 ≤ e.weight.toNat ∧
      e.weight.toNat ≤ 4) ∧
    (∀ q ∈ ((keyed .loading false plain).key 7).questions, q.defined = true) ∧
    ((keyed .ready false plain).key 7).state = .ready := by decide +kernel

theorem test_witness_BatchesAreStartedContinuedAborted : plain.listening = true ∧ (7#8).toNat < 8 ∧ (63#8).toNat < 64 ∧
    (marking .waitSpace plain).mke.batch.state ≠ .idle ∧ plain.mke.batch.state = .idle ∧
    (plain.sitting 7).state ≠ .collecting ∧ ((sheets .collecting none plain).sitting 7).keyId = none ∧
    ((sheets .closed (some 7) plain).sitting 7).keyId = some 7 ∧
    ((sheets .closed (some 7) plain).sitting 7).state = .closed ∧ (plain.key 7).state ≠ .ready ∧
    ((keyed .ready false (sheets .closed (some 7) plain)).key 7).state = .ready ∧
    (marking .halted plain).mke.batch.state = .halted ∧
    ({ marking .waitSpace plain with srp.parked := some parked } : State).srp.parked = some parked := by decide +kernel

/-- An ACTIVE batch of sitting 7 whose candidate in slot 511 has finished. -/
def judging : State := marking .active (keyed .ready false (sheets .closed (some 7) (hall .finished .vacated .closed)))

theorem test_witness_SheetsAreJudgedAndStored : (∃ reason, (marking .active plain).judge sheet = .reject reason) ∧
    (∃ r, judging.judge sheet = .store 511 r) ∧ judging.emptySlots = 62 :: [63] ∧
    (let s := stored .filled none (judging.putStore 62 (some ⟨.filled, none, sheet, blankResult, 0⟩)); s.emptySlots = []) ∧
    plain.listening = true ∧ (63#8).toNat < 64 ∧ judging.mke.batch.segEnd ≤ (63#8).toNat ∧
    (62#8).toNat < judging.mke.batch.segEnd ∧ (∀ i ∈ [0#8, 63#8], i.toNat < 64) ∧ 64 < (List.replicate 65 0#8).length ∧
    plain.stored? 63 = none ∧ (stored .duplicate none plain).stored? 63 = some ⟨.duplicate, none, sheet, blankResult, 0⟩ ∧
    (stored .duplicate (some 511) plain).stored? 63 = some ⟨.duplicate, some 511, sheet, blankResult, 0⟩ ∧
    (let s : State := { marking .waitSpace plain with srp.parked := some parked };
      s.srp.parked = some parked ∧ parked.slot = 511 ∧ s.mke.batch.state = .waitSpace ∧ s.emptySlots = 62 :: [63]) := by
  refine ⟨⟨.idNotFound, by decide +kernel⟩, ⟨⟨0, 5, 0, 0, 2, 0, .accept, false, true, false⟩, by decide +kernel⟩, ?_⟩
  decide +kernel

theorem test_witness_VerdictsStoringAndBlockEnds :
    (let s := marking .active (keyed .ready false (sheets .closed (some 7) (hall .absent .vacated .closed)));
      s.judge sheet = .reject .notSat ∧ s.judge { sheet with form := 1 } = .reject .formMismatch ∧
        s.judge { sheet with number := 1 } = .reject .idNotFound ∧
        s.judge { sheet with sitting := 0 } = .reject .wrongSitting ∧
        s.judge { sheet with number := 0 } = .reject .idNotFound) ∧
    judging.judge { sheet with rows := List.replicate 40 ⟨0, .unreadable, false⟩ } = .reject .tooUnreadable ∧
    judging.storingKind 511 = .filled ∧
    (put { person .finished none with summary := some ⟨blankResult, some 63⟩ } plain).storingKind 511 = .duplicate ∧
    (let b : Batch := { (marking .active plain).mke.batch with block := ⟨16, 0, 0, 0⟩, haltPending := true };
      b.block.accepted + b.block.review + b.block.rejected + b.block.duplicate = b.blockSize ∧ b.remaining ≠ 0) ∧
    plain.mke.batch.remaining = 0 := by decide +kernel

theorem test_witness_ScoringAndRemark : (⟨0, .unreadable, false⟩ : MarkRow).quality = .unreadable ∧
    (⟨0b10000#5, .clean, false⟩ : MarkRow).options = 1#5 <<< 4 ∧ (0b10001#5).getLsbD 4 = true ∧
    ((keyed .ready false plain).key 7).questions.length ≤ sheet.rows.length ∧ plain.listening = true ∧ (7#8).toNat < 8 ∧
    (marking .active plain).mke.batch.state ≠ .idle ∧ plain.mke.batch.state = .idle ∧ (plain.sitting 7).keyId = none ∧
    ((sheets .closed (some 7) plain).sitting 7).keyId = some 7 ∧ (plain.key 7).state ≠ .ready ∧
    (let s := stored .filled (some 511) (keyed .ready false (sheets .closed (some 7) (hall .finished .vacated .closed)));
      (s.key 7).state = .ready ∧ s.stored? 63 = some ⟨.filled, some 511, sheet, blankResult, 0⟩ ∧
        s.cand? 511 = some (person .finished (some 383)) ∧ sheet.form = (s.key 7).form) := by decide +kernel

theorem test_witness_RemarkReplacesSummaries :
    (let s := stored .filled (some 511) (keyed .ready false (sheets .closed (some 7) (put { person .finished none with
        summary := some ⟨blankResult, some 63⟩ } (sit .closed 0 plain))));
      s.stored? 63 = some ⟨.filled, some 511, sheet, blankResult, 0⟩ ∧ sheet.form = (s.key 7).form ∧
        (s.cand? 511).bind (·.summary) = some ⟨blankResult, some 63⟩ ∧ s.cand? 0 = none) ∧
    (let r := scoreSheet ((keyed .ready false plain).key 7) (List.replicate 40 ⟨0b00010#5, .clean, false⟩);
      r.wrong = 2 ∧ r.score = 0) ∧
    (scoreSheet ⟨.ready, 0, 1, [⟨true, 1, .single, 4, false⟩, ⟨true, 1, .single, 4, false⟩]⟩
      [⟨1, .clean, false⟩, ⟨2, .clean, false⟩]).score = 3 := by decide +kernel

/-! ### Parameters and resets -/

theorem test_witness_ParametersAreSetAndRead : plain.listening = true ∧ (13#8).toNat ≤ 13 ∧ 13 < (14#8).toNat ∧
    plain.cli.params.change 13 9 = none ∧
    plain.cli.params.change 13 8 = some { Params.atReset with tolerance := 8 } ∧
    plain.cli.params.change 13 2 = some plain.cli.params ∧
    plain.cli.params.change 11 0 = some { Params.atReset with floorUnits := 0 } ∧
    plain.cli.params.change 12 16 = some { Params.atReset with blockSize := 16 } ∧
    plain.cli.params.change 12 17 = none ∧ plain.cli.params.change 9 600 = some { Params.atReset with escalateTime := 600 } ∧
    (marking .active plain).mke.batch.state ≠ .idle ∧ ((served .query false plain).handset 7).stack ≠ [] ∧
    plain.cli.params.values[12]? = some 2 ∧ (0#8).toNat = 0 := by decide +kernel

/-- The least and the greatest value of each parameter are taken, and the next beyond is not (11.3). -/
theorem test_parameter_ranges :
    (∀ r ∈ [(1, 0, 2), (2, 0, 1), (3, 0, 7), (8, 0, 7), (9, 0, 600), (10, 0, 300), (11, 0, 0xFFFFF), (12, 1, 16), (13, 0, 8)],
      (plain.cli.params.change r.1 r.2.1).isSome = true ∧ (plain.cli.params.change r.1 r.2.2).isSome = true ∧
        plain.cli.params.change r.1 (r.2.2 + 1) = none) ∧ plain.cli.params.change 12 0 = none := by decide +kernel

theorem test_witness_ResetsActAsTheirScope : plain.listening = true ∧ scopeOf 0 = some .ports ∧ scopeOf 1 = some .hall ∧
    ({ plain with cli.resetDue := some .ports } : State).cli.resetDue = some .ports ∧
    ({ plain with cli.resetDue := some .hall } : State).cli.resetDue = some .hall ∧ plain.cli.resetDue ≠ some .ports ∧
    plain.cli.resetDue ≠ some .hall ∧ heldLine.cli.lineHeld = true ∧ plain.cli.lineHeld = false := by decide +kernel

/-- A RESET(HALL) whose reply is on the line. -/
def resetting : State :=
  let r : Reply := ⟨0xBD#8, .ok, ⟨false, false, false, true⟩, .none⟩
  { State.reset with cli.hrdy := true, cli.replies := [.reply r], cli.sending := some (.reply r), cli.resetTaken := some .hall }

theorem test_witness_ResetWaitsForItsReply :
    resetting.cli.sending = some (.reply ⟨0xBD#8, .ok, ⟨false, false, false, true⟩, .none⟩) ∧
    resetting.cli.resetTaken = some .hall ∧
    (resetting.frameSent (.reply ⟨0xBD#8, .ok, ⟨false, false, false, true⟩, .none⟩)).cli.resetDue = some .hall := by
  decide +kernel

theorem test_witness_ResetsClearTheHall :
    (let s := firing .paused .restExpiry;
      s.slotsWhere (fun c => c.state == .paused) = [511] ∧ (s.resumeAll.cand? 511).map (·.state) ≠ some .paused) ∧
    (plain.link .d).running = false ∧ ((linkUp .d true [] none plain).link .d).running = true ∧
    (let s : State := { reading (.assemble [1, 42]) plain with srp.parked := some parked };
      s.resyncReader.srp.verdicts = [⟨42, .reject⟩, ⟨0xFF, .reject⟩]) ∧ brim.resyncReader.srp.verdicts.length = 4 ∧
    ((served .rest false plain).clearCalls.handset 7).stack = [] := by decide +kernel

/-! ### Seats and candidates -/

/-- A pairing that only the two records of slot 511 and seat 383 may make or break. -/
theorem paired_of_one (s : State) (hs : ∀ i, i ≠ 383 → (s.seat? i).bind (·.bound) = none)
    (hc : ∀ c, c ≠ 511 → (s.cand? c).bind (·.bound) = none) (h1 : (s.seat? 383).bind (·.bound) = some 511)
    (h2 : (s.cand? 511).bind (·.bound) = some 383) : s.paired := by
  intro i c
  by_cases hi : i = 383
  · by_cases hc' : c = 511
    · simp [hi, hc', h1, h2]
    · simp [hi, hc c hc', h1, Ne.symm hc']
  · by_cases hc' : c = 511
    · simp [hs i hi, hc', h2, Ne.symm hi]
    · simp [hs i hi, hc c hc']

/-- A candidate WRITING at seat 383, with a command to take. -/
def seated : State := { hall .writing .occupied .writing with pending := [.timebaseSecond] }

theorem test_witness_StepKeepsSeatsPaired : seated.seatsInOrder ∧ seated.sittingsSettled ∧
    ∃ t, step seated = .next t := by
  have tables : seated.htu = (chair .occupied (some 511) (put (person .writing (some 383)) plain)).htu := by
    unfold seated hall sit State.modSitting
    rfl
  have desk : ∀ i x, seated.seat? i = some x → i ≠ 383 → x = Seat.atReset 0 := by
    intro i x hx hi
    rw [State.seat?, tables, ← State.seat?, Tests.chair, seat?_modSeat, if_neg hi, put, putCand_seat?, State.seat?,
      show plain.htu.seats = Vector.replicate 384 (Seat.atReset 0) from rfl, Vector.getElem?_replicate] at hx
    split at hx
    · exact (Option.some.inj hx).symm
    · exact nomatch hx
  have seat : ∀ i x, seated.seat? i = some x → i ≠ 383 → x.bound = none := fun i x hx hi => by rw [desk i x hx hi]; rfl
  have free : ∀ i x, seated.seat? i = some x → i ≠ 383 → x.state = .free := fun i x hx hi => by rw [desk i x hx hi]; rfl
  have cand : ∀ c x, seated.cand? c = some x → c = 511 := by
    intro c x hx
    refine Decidable.byContradiction fun hc => ?_
    rw [State.cand?, tables, ← State.cand?, Tests.chair, modSeat_cand?, put, cand?_putCand _ _ _ _ (by decide), if_neg hc,
      State.cand?, show plain.htu.cands = Vector.replicate 512 none from rfl, Vector.getElem?_replicate] at hx
    split at hx <;> simp_all
  have one : seated.cand? 511 = some (person .writing (some 383)) := by decide +kernel
  have chair : seated.seat? 383 = some { Seat.atReset 0 with state := .occupied, bound := some 511 } := by decide +kernel
  have only : ∀ c x, seated.cand? c = some x → x = person .writing (some 383) := by
    intro c x hx
    rw [cand c x hx, one] at hx
    exact (Option.some.inj hx).symm
  refine ⟨⟨paired_of_one _ ?_ ?_ (by rw [chair]; rfl) (by rw [one]; rfl), ?_, ?_, ?_, by decide +kernel, ?_⟩,
    ⟨by decide +kernel, ?_⟩, _, rfl⟩
  · intro i hi
    cases h : seated.seat? i with
    | none => rfl
    | some x => exact seat i x h hi
  · intro c hc
    cases h : seated.cand? c with
    | none => rfl
    | some x => exact absurd (cand c x h) hc
  · intro i x hx hb
    by_cases hi : i = 383
    · subst hi
      rw [chair] at hx
      exact Option.some.inj hx ▸ .inr (.inl rfl)
    · exact absurd (seat i x hx hi) hb
  · intro i x hx hs
    by_cases hi : i = 383
    · subst hi
      rw [chair] at hx
      exact Option.some.inj hx ▸ nofun
    · exact absurd hs (free i x hx hi ▸ by decide)
  · intro c x hx hs
    rw [only c x hx] at hs
    exact absurd hs (by decide)
  · intro c
    refine ⟨fun h => absurd h (show c ∉ [] from List.not_mem_nil), fun ⟨x, hx, hs⟩ => ?_⟩
    rw [only c x hx] at hs
    exact absurd hs (by decide)
  · intro c y hy
    rw [only c y hy]
    decide +kernel

end Sys2Proof.Tests
end

