-- ==== Sys2Proof/Proofs/Bindings.lean ====
section
/-!
PROOFS. What the shared operations of the hall tables do, one rule for each part of the state an operation reads or
writes: the answer to a request, a candidate's calls, the clearing and the move of a binding (R15 to R18, R113, R114),
and the end of a candidate's paper (R16, R19).
-/

namespace Sys2Proof.Machine

/-! ### The answer to a request -/

/-- A request whose arguments are in range is answered as its block answers. -/
theorem answerTo_withArgs {kind : Byte} {checks : List Bool} {take : State → State × Answer} {s u : State} {a : Answer}
    (hl : s.listening = true) (hc : ∀ b ∈ checks, b = true) (ht : take s.toHunt = (u, a)) :
    answerTo kind (withArgs checks take) s = u.replied kind a := by
  rw [answerTo_listening hl, withArgs_of_all hc, ht]

/-- A request with an argument out of range is refused by the place of the first one, and nothing changes. -/
theorem answerTo_badArgument {kind : Byte} {checks : List Bool} {take : State → State × Answer} {s : State} {p : Nat}
    (hl : s.listening = true) (hp : firstBad checks = some p) :
    answerTo kind (withArgs checks take) s = s.toHunt.replied kind (badArgument p) := by
  rw [answerTo_listening hl, withArgs_of_bad hp]

/-- A request with no arguments is answered as its block answers. -/
theorem answerTo_eq {kind : Byte} {handle : State → State × Answer} {s u : State} {a : Answer}
    (hl : s.listening = true) (ht : handle s.toHunt = (u, a)) : answerTo kind handle s = u.replied kind a := by
  rw [answerTo_listening hl, ht]

/-! ### Seats and candidates of the state -/

/-- A position read lies on the grid. -/
theorem seat?_lt {s : State} {i : Nat} {x : Seat} (h : s.seat? i = some x) : i < 384 :=
  (Vector.getElem?_eq_some_iff.mp h).1

/-- Every position of the grid has a record. -/
theorem exists_seat? (s : State) {i : Nat} (h : i < 384) : ∃ x, s.seat? i = some x :=
  ⟨s.htu.seats[i], Vector.getElem?_eq_getElem h⟩

/-- A record of the table is that of an entry which holds it. -/
theorem join_getElem?_eq_some {α : Type} {n : Nat} {v : Vector (Option α) n} {i : Nat} {x : α} :
    (v[i]?).join = some x ↔ v[i]? = some (some x) := by
  cases v[i]? <;> simp

/-- A slot with a record lies within the table. -/
theorem cand?_lt {s : State} {c : Nat} {x : Candidate} (h : s.cand? c = some x) : c < 512 :=
  (Vector.getElem?_eq_some_iff.mp (join_getElem?_eq_some.mp h)).1

/-- The slots listed are those whose record passes the test. -/
theorem mem_slotsWhere {s : State} {p : Candidate → Bool} {c : Nat} :
    c ∈ s.slotsWhere p ↔ ∃ x, s.cand? c = some x ∧ p x = true := by
  unfold State.slotsWhere State.cand?
  rw [mem_indexesWhere]
  constructor
  · rintro ⟨_ | x, ho, hp⟩
    · exact absurd hp (by simp)
    · exact ⟨x, join_getElem?_eq_some.mpr ho, by simpa using hp⟩
  · rintro ⟨x, hx, hp⟩
    exact ⟨some x, join_getElem?_eq_some.mp hx, by simpa using hp⟩

/-- The state of a position as the replies give it. -/
theorem seatState_of_seat? {s : State} {i : Nat} {x : Seat} (h : s.seat? i = some x) : s.seatState i = x.state := by
  simp [State.seatState, h]

/-- The records after every record was changed alike. -/
theorem join_mapAll {α : Type} {n : Nat} (v : Vector (Option α) n) (f : Option α → Option α) (hf : f none = none)
    (i : Nat) : ((mapAll f v)[i]?).join = ((v[i]?).join).bind (fun x => f (some x)) := by
  rw [mapAll_getElem?]
  rcases v[i]? with _ | _ | x <;> simp [hf]

/-- Two changes of one entry are one change. -/
theorem modAt_modAt {α : Type} {n : Nat} (v : Vector α n) (i : Nat) (f g : α → α) :
    modAt (modAt v i f) i g = modAt v i (fun x => g (f x)) := by
  refine Vector.ext fun j hj => Option.some.inj ?_
  rw [← Vector.getElem?_eq_getElem hj, ← Vector.getElem?_eq_getElem hj]
  by_cases h : j = i
  · subst h
    simp [modAt_getElem?, Function.comp_def]
  · simp [modAt_getElem?, h]

/-! ### A notice changes the notice queue alone (R178) -/

@[simp] theorem notify_htu (s : State) (b : NoticeBody) : (s.notify b).htu = s.htu := by
  unfold State.notify; split <;> rfl
@[simp] theorem notify_sal (s : State) (b : NoticeBody) : (s.notify b).sal = s.sal := by
  unfold State.notify; split <;> rfl
@[simp] theorem notify_tme (s : State) (b : NoticeBody) : (s.notify b).tme = s.tme := by
  unfold State.notify; split <;> rfl
@[simp] theorem notify_cdp (s : State) (b : NoticeBody) : (s.notify b).cdp = s.cdp := by
  unfold State.notify; split <;> rfl

/-! ### A candidate's calls (R113, R114) -/

theorem call?_detachCalls (s : State) (c n : Nat) :
    (s.detachCalls c).call? n = (s.call? n).map (fun y => if y.slot = c then { y with seat := none } else y) := by
  unfold State.detachCalls State.call?
  rw [join_mapAll _ _ rfl]
  cases (s.cdp.calls[n]?).join <;> simp

theorem call?_repointCalls (s : State) (c t n : Nat) :
    (s.repointCalls c t).call? n = (s.call? n).map (fun y => if y.slot = c then { y with seat := some t } else y) := by
  unfold State.repointCalls State.call?
  rw [join_mapAll _ _ rfl]
  cases (s.cdp.calls[n]?).join <;> simp

theorem call?_cancelPending (s : State) (c n : Nat) :
    (s.cancelPending c).call? n = (s.call? n).bind (fun y => if y.slot = c ∧ y.state = .pending then none else some y) := by
  unfold State.cancelPending State.call?
  rw [join_mapAll _ _ rfl]
  cases (s.cdp.calls[n]?).join <;> simp

/-! ### Retry passes asked for (R6) -/

/-- A pass asked for is one more. -/
theorem askRetryIf_eq (s : State) (b : Bool) :
    s.askRetryIf b = { s with sal.retryDue := if b then s.sal.retryDue + 1 else s.sal.retryDue } := by
  cases b <;> rfl

@[simp] theorem askRetryIf_htu (s : State) (b : Bool) : (s.askRetryIf b).htu = s.htu := by rw [askRetryIf_eq]
@[simp] theorem askRetryIf_seat? (s : State) (b : Bool) (i : Nat) : (s.askRetryIf b).seat? i = s.seat? i := by
  rw [askRetryIf_eq]; rfl
@[simp] theorem askRetryIf_cand? (s : State) (b : Bool) (c : Nat) : (s.askRetryIf b).cand? c = s.cand? c := by
  rw [askRetryIf_eq]; rfl
@[simp] theorem askRetryIf_call? (s : State) (b : Bool) (n : Nat) : (s.askRetryIf b).call? n = s.call? n := by
  rw [askRetryIf_eq]; rfl
@[simp] theorem askRetryIf_retryDue (s : State) (b : Bool) :
    (s.askRetryIf b).sal.retryDue = if b then s.sal.retryDue + 1 else s.sal.retryDue := by rw [askRetryIf_eq]

/-! ### The clearing of a binding (R16 to R19) -/

/-- The seat a candidate's record names. -/
def State.seatOf (s : State) (c : Nat) : Option Nat := (s.cand? c).bind (·.bound)

theorem seatOf_eq {s : State} {c : Nat} {x : Candidate} (hx : s.cand? c = some x) : s.seatOf c = x.bound := by
  simp [State.seatOf, hx]

theorem clearBinding_of_none {s : State} {c : Nat} (h : s.seatOf c = none) : s.clearBinding c = (s, false) := by
  unfold State.seatOf at h
  simp [State.clearBinding, h]

theorem clearBinding_of_some {s : State} {c i : Nat} (h : s.seatOf c = some i) :
    s.clearBinding c = (((s.modSeat i Seat.unbind).modCand c (fun x => { x with bound := none })).detachCalls c,
      s.freesOnUnbind i) := by
  unfold State.seatOf at h
  simp [State.clearBinding, h]

/-- The candidate has no seat; every other record is as before. -/
theorem cand?_clearBinding (s : State) (c d : Nat) : (s.clearBinding c).1.cand? d =
    if d = c then (s.cand? c).map (fun x => { x with bound := none }) else s.cand? d := by
  cases h : s.seatOf c with
  | some i => simp [clearBinding_of_some h, cand?_modCand]
  | none =>
    rw [clearBinding_of_none h]
    by_cases hd : d = c
    · subst hd
      cases hx : s.cand? d with
      | none => simp
      | some x => simp [← (seatOf_eq hx).symm.trans h]
    · simp [hd]

/-- Unbinding a seat twice is unbinding it once. -/
@[simp] theorem unbind_unbind (z : Seat) : z.unbind.unbind = z.unbind := by
  unfold Seat.unbind
  by_cases h : z.state = .faulted <;> simp [h]

/-- A seat unbound is FREE unless it is FAULTED. -/
@[simp] theorem unbind_state_eq_faulted (z : Seat) : z.unbind.state = .faulted ↔ z.state = .faulted := by
  unfold Seat.unbind
  by_cases h : z.state = .faulted <;> simp [h]

/-- The seat the candidate names is unbound; every other is as before. -/
theorem seat?_clearBinding (s : State) (c j : Nat) : (s.clearBinding c).1.seat? j =
    if s.seatOf c = some j then (s.seat? j).map Seat.unbind else s.seat? j := by
  cases h : s.seatOf c with
  | none => simp [clearBinding_of_none h]
  | some i =>
    by_cases hj : j = i
    · subst hj; simp [clearBinding_of_some h, seat?_modSeat]
    · simp [clearBinding_of_some h, seat?_modSeat, hj, Ne.symm hj]

/-- The calls of a candidate that had a seat are detached. -/
theorem call?_clearBinding (s : State) (c n : Nat) : (s.clearBinding c).1.call? n =
    (s.call? n).map (fun y => if y.slot = c ∧ (s.seatOf c).isSome then { y with seat := none } else y) := by
  cases h : s.seatOf c with
  | none => simp [clearBinding_of_none h]
  | some i => simp [clearBinding_of_some h, call?_detachCalls]

/-- The answer says whether the seat named became FREE. -/
theorem clearBinding_snd (s : State) (c : Nat) : (s.clearBinding c).2 = (s.seatOf c).any s.freesOnUnbind := by
  cases h : s.seatOf c with
  | none => simp [clearBinding_of_none h]
  | some i => simp [clearBinding_of_some h]

/-- A seat frees on unbinding exactly when it stands in a state other than FAULTED. -/
theorem freesOnUnbind_iff {s : State} {i : Nat} : s.freesOnUnbind i = true ↔ ∃ z, s.seat? i = some z ∧ z.state ≠ .faulted := by
  unfold State.freesOnUnbind
  cases s.seat? i <;> simp

/-- Beyond the two tables and the calls a clearing changes nothing. -/
theorem clearBinding_frame (s : State) (c : Nat) : (s.clearBinding c).1 =
    { s with htu := (s.clearBinding c).1.htu, cdp.calls := (s.clearBinding c).1.cdp.calls } := by
  cases h : s.seatOf c with
  | none => rw [clearBinding_of_none h]
  | some i => rw [clearBinding_of_some h]; rfl

/-! ### The move of a binding (R15, R114) -/

/-- The seat a record names, if it names one, changed by `f`. -/
def State.atSeat (s : State) (named : Option Nat) (f : Seat → Seat) : State :=
  match named with
  | some i => s.modSeat i f
  | none => s

theorem seat?_atSeat (s : State) (named : Option Nat) (f : Seat → Seat) (j : Nat) : (s.atSeat named f).seat? j =
    if named = some j then (s.seat? j).map f else s.seat? j := by
  cases named with
  | none => simp [State.atSeat]
  | some i =>
    by_cases hj : j = i
    · subst hj; simp [State.atSeat, seat?_modSeat]
    · simp [State.atSeat, seat?_modSeat, hj, Ne.symm hj]

@[simp] theorem atSeat_cand? (s : State) (named : Option Nat) (f : Seat → Seat) (c : Nat) :
    (s.atSeat named f).cand? c = s.cand? c := by
  cases named <;> rfl

@[simp] theorem atSeat_call? (s : State) (named : Option Nat) (f : Seat → Seat) (n : Nat) :
    (s.atSeat named f).call? n = s.call? n := by
  cases named <;> rfl

@[simp] theorem atSeat_sal (s : State) (named : Option Nat) (f : Seat → Seat) : (s.atSeat named f).sal = s.sal := by
  cases named <;> rfl

theorem moveBinding_eq {s : State} {c : Nat} {x : Candidate} (t : Nat) (hx : s.cand? c = some x) : s.moveBinding c t =
    (((((s.atSeat x.bound Seat.unbind).bindSeat c t).modCand c
      (fun y => if y.state.seated then { y with relocating := true } else y)).repointCalls c t).askRetryIf
        (x.bound.any s.freesOnUnbind)) := by
  cases hb : x.bound <;> simp [State.moveBinding, State.atSeat, hx, hb]

theorem seat?_bindSeat (s : State) (c i j : Nat) : (s.bindSeat c i).seat? j =
    if j = i then (s.seat? i).map (fun z => { z with state := .assigned, bound := some c }) else s.seat? j := by
  simp [State.bindSeat, seat?_modSeat]

theorem cand?_bindSeat (s : State) (c i d : Nat) : (s.bindSeat c i).cand? d =
    if d = c then (s.cand? c).map (fun y => { y with bound := some i }) else s.cand? d := by
  simp [State.bindSeat, cand?_modCand]

@[simp] theorem bindSeat_call? (s : State) (c i n : Nat) : (s.bindSeat c i).call? n = s.call? n := rfl

@[simp] theorem bindSeat_sal (s : State) (c i : Nat) : (s.bindSeat c i).sal = s.sal := rfl

/-- The candidate names the new seat, and relocates when it has checked in. -/
theorem cand?_moveBinding {s : State} {c : Nat} {x : Candidate} (t d : Nat) (hx : s.cand? c = some x) :
    (s.moveBinding c t).cand? d =
      if d = c then some { x with bound := some t, relocating := x.relocating || x.state.seated } else s.cand? d := by
  rw [moveBinding_eq t hx]
  by_cases hd : d = c
  · subst hd
    cases hs : x.state.seated <;> simp [cand?_modCand, cand?_bindSeat, hx, hs]
  · simp [cand?_modCand, cand?_bindSeat, hd]

/-- The new seat is bound, and the old one unbound. -/
theorem seat?_moveBinding {s : State} {c : Nat} {x : Candidate} (t j : Nat) (hx : s.cand? c = some x) :
    (s.moveBinding c t).seat? j =
      if j = t then (s.seat? t).map (fun z => { z with state := .assigned, bound := some c })
      else if x.bound = some j then (s.seat? j).map Seat.unbind else s.seat? j := by
  rw [moveBinding_eq t hx]
  by_cases hj : j = t
  · subst hj
    by_cases hb : x.bound = some j <;> simp [seat?_bindSeat, seat?_atSeat, hb, Seat.unbind, Function.comp_def]
  · simp [seat?_bindSeat, seat?_atSeat, hj]

/-- The candidate's calls name the new seat. -/
theorem call?_moveBinding {s : State} {c : Nat} {x : Candidate} (t n : Nat) (hx : s.cand? c = some x) :
    (s.moveBinding c t).call? n =
      (s.call? n).map (fun y => if y.slot = c then { y with seat := some t } else y) := by
  rw [moveBinding_eq t hx]
  simp [call?_repointCalls]

/-- A pass is asked for when the old seat became FREE. -/
theorem retryDue_moveBinding {s : State} {c : Nat} {x : Candidate} (t : Nat) (hx : s.cand? c = some x) :
    (s.moveBinding c t).sal.retryDue =
      if x.bound.any s.freesOnUnbind then s.sal.retryDue + 1 else s.sal.retryDue := by
  rw [moveBinding_eq t hx]
  simp

/-- Beyond the two tables, the calls and the passes asked for a move changes nothing. -/
theorem moveBinding_frame {s : State} {c : Nat} {x : Candidate} (t : Nat) (hx : s.cand? c = some x) :
    s.moveBinding c t = { s with
      htu := (s.moveBinding c t).htu
      cdp.calls := (s.moveBinding c t).cdp.calls
      sal.retryDue := (s.moveBinding c t).sal.retryDue } := by
  rw [moveBinding_eq t hx, askRetryIf_eq]
  cases x.bound <;> rfl

/-! ### The end of a candidate's paper (R16, R19) -/

/-- A seat kept for the booklets still outstanding: VACATED, or FAULTED as it was. -/
def Seat.vacate (z : Seat) : Seat :=
  if z.state = .assigned ∨ z.state = .occupied then { z with state := .vacated } else z

/-- The candidate's own record at the end of its paper. -/
def Candidate.retired (x : Candidate) (target : CandState) : Candidate :=
  { x with state := target, finish := x.bound, relocating := false }

theorem retire_of_owes {s : State} {c : Nat} {x : Candidate} (target : CandState) (hx : s.cand? c = some x)
    (ho : x.owes = true) : s.retire c target =
      (((s.modCand c (·.retired target)).atSeat x.bound Seat.vacate).cancelPending c, false) := by
  cases hb : x.bound with
  | none => simp [State.retire, State.atSeat, Candidate.retired, hx, ho, hb]
  | some i =>
    simp only [State.retire, State.atSeat, hx, ho, hb, if_true]
    rfl

theorem retire_of_settled {s : State} {c : Nat} {x : Candidate} (target : CandState) (hx : s.cand? c = some x)
    (ho : x.owes = false) : s.retire c target =
      (((s.modCand c (·.retired target)).clearBinding c).1.cancelPending c,
        ((s.modCand c (·.retired target)).clearBinding c).2) := by
  simp [State.retire, Candidate.retired, hx, ho]

theorem seatOf_retired {s : State} {c : Nat} {x : Candidate} (target : CandState) (hx : s.cand? c = some x) :
    (s.modCand c (·.retired target)).seatOf c = x.bound := by
  simp [State.seatOf, cand?_modCand, hx, Candidate.retired]

/-- The candidate's state, finish seat and RELOCATING; its seat stays while it owes booklets. -/
theorem cand?_retire {s : State} {c : Nat} {x : Candidate} (target : CandState) (d : Nat) (hx : s.cand? c = some x) :
    (s.retire c target).1.cand? d = if d = c then some { x with
      state := target, finish := x.bound, relocating := false, bound := if x.owes then x.bound else none }
      else s.cand? d := by
  cases ho : x.owes with
  | true =>
    rw [retire_of_owes target hx ho]
    by_cases hd : d = c
    · subst hd
      simp [cand?_modCand, hx, Candidate.retired]
    · simp [cand?_modCand, hd]
  | false =>
    rw [retire_of_settled target hx ho]
    by_cases hd : d = c
    · subst hd
      simp [cand?_clearBinding, cand?_modCand, hx, Candidate.retired]
    · simp [cand?_clearBinding, cand?_modCand, hd]

/-- The seat is VACATED or FAULTED while booklets are outstanding, and unbound otherwise. -/
theorem seat?_retire {s : State} {c : Nat} {x : Candidate} (target : CandState) (j : Nat) (hx : s.cand? c = some x) :
    (s.retire c target).1.seat? j =
      if x.bound = some j then (s.seat? j).map (if x.owes then Seat.vacate else Seat.unbind) else s.seat? j := by
  cases ho : x.owes with
  | true =>
    rw [retire_of_owes target hx ho]
    simp [seat?_atSeat]
  | false =>
    rw [retire_of_settled target hx ho]
    simp [seat?_clearBinding, seatOf_retired target hx]

/-- The candidate's PENDING call goes; its call in service is detached when the binding is cleared. -/
theorem call?_retire {s : State} {c : Nat} {x : Candidate} (target : CandState) (n : Nat) (hx : s.cand? c = some x) :
    (s.retire c target).1.call? n = match s.call? n with
      | none => none
      | some y => if y.slot ≠ c then some y else if y.state = .pending then none
        else some (if x.owes = true ∨ x.bound = none then y else { y with seat := none }) := by
  cases ho : x.owes with
  | true =>
    rw [retire_of_owes target hx ho]
    cases hy : s.call? n with
    | none => simp [call?_cancelPending, hy]
    | some y => by_cases hs : y.slot = c <;> simp [call?_cancelPending, hy, hs]
  | false =>
    rw [retire_of_settled target hx ho]
    cases hy : s.call? n with
    | none => simp [call?_cancelPending, call?_clearBinding, hy]
    | some y =>
      by_cases hs : y.slot = c
      · cases hb : x.bound <;>
          simp [call?_cancelPending, call?_clearBinding, seatOf_retired target hx, hy, hs, hb]
      · simp [call?_cancelPending, call?_clearBinding, hy, hs]

/-- The answer says whether the seat became FREE. -/
theorem retire_snd {s : State} {c : Nat} {x : Candidate} (target : CandState) (hx : s.cand? c = some x) :
    (s.retire c target).2 = (!x.owes && x.bound.any s.freesOnUnbind) := by
  cases ho : x.owes with
  | true => simp [retire_of_owes target hx ho]
  | false =>
    rw [retire_of_settled target hx ho]
    simp only [clearBinding_snd, seatOf_retired target hx]
    rfl

/-- Beyond the two tables and the calls the end of a paper changes nothing. -/
theorem retire_frame {s : State} {c : Nat} {x : Candidate} (target : CandState) (hx : s.cand? c = some x) :
    (s.retire c target).1 =
      { s with htu := (s.retire c target).1.htu, cdp.calls := (s.retire c target).1.cdp.calls } := by
  cases ho : x.owes with
  | true =>
    rw [retire_of_owes target hx ho]
    cases x.bound <;> rfl
  | false =>
    rw [retire_of_settled target hx ho, clearBinding_frame]
    rfl

end Sys2Proof.Machine
end

