-- ==== Sys2Proof/Proofs/Move.lean ====
section
/-!
PROOFS. MOVE (R35) by the first of its checks that refuses, and the binding move it makes (R15, R114).
-/

namespace Sys2Proof.Machine

/-! ### MOVE (R35) -/

/-- The states MOVE takes a candidate in. -/
theorem relocatable_iff (st : CandState) :
    st.relocatable = true ↔ st = .expected ∨ st = .present ∨ st = .writing ∨ st = .paused := by
  cases st <;> simp [CandState.relocatable]

/-- The states of a candidate that has checked in and not finished. -/
theorem seated_eq (st : CandState) : st.seated = (st == .present || st == .writing || st == .paused) := by
  cases st <;> rfl

/-- The target lacks a need exactly when some needed attribute is not among its own. -/
theorem lacksNeeds_iff {s : State} {i : Nat} {z : Seat} (needs : Attrs) (h : s.seat? i = some z) :
    s.lacksNeeds needs i = true ↔ needs &&& z.attrs ≠ needs := by
  simp [State.lacksNeeds, h]

/-- A slot and a position of the grid pass the argument checks. -/
theorem move_inRange {slot seat : Half} {s : State} {target : Seat} (hslot : slot.toNat < 512)
    (ht : s.seat? seat.toNat = some target) : ∀ b ∈ [isSlot slot, isSeat seat], b = true := by
  simp [isSlot, isSeat, hslot, seat?_lt ht]

section
variable {slot seat : Half} {s : State} {x : Candidate} {target : Seat} (hl : s.listening = true)
  (hslot : slot.toNat < 512) (ht : s.seat? seat.toNat = some target)
include hl hslot ht

theorem exec_move_freeSlot (hx : s.cand? slot.toNat = none) :
    exec (.move slot seat) s = s.toHunt.replied 0x0E notFound :=
  answerTo_withArgs hl (move_inRange hslot ht) (by simp [hx])

theorem exec_move_wrongState (hx : s.cand? slot.toNat = some x) (hs : x.state.relocatable = false) :
    exec (.move slot seat) s = s.toHunt.replied 0x0E (refuse .refusedState .candidateState) :=
  answerTo_withArgs hl (move_inRange hslot ht) (by simp [hx, hs])

theorem exec_move_targetNotFree (hx : s.cand? slot.toNat = some x) (hs : x.state.relocatable = true)
    (hf : target.state ≠ .free) : exec (.move slot seat) s =
      s.toHunt.replied 0x0E (refuse .refusedState .targetState (.seatState target.state)) :=
  answerTo_withArgs hl (move_inRange hslot ht) (by simp [hx, hs, seatState_of_seat? ht, hf])

theorem exec_move_targetLacks (hx : s.cand? slot.toNat = some x) (hs : x.state.relocatable = true)
    (hf : target.state = .free) (hn : x.needs &&& target.attrs ≠ x.needs) :
    exec (.move slot seat) s = s.toHunt.replied 0x0E (refuse .refusedState .targetNeeds) :=
  answerTo_withArgs hl (move_inRange hslot ht) (by
    simp [hx, hs, seatState_of_seat? ht, hf, (lacksNeeds_iff x.needs ht).mpr hn])

theorem exec_move_taken (hx : s.cand? slot.toNat = some x) (hs : x.state.relocatable = true)
    (hf : target.state = .free) (hn : x.needs &&& target.attrs = x.needs) :
    exec (.move slot seat) s = (s.toHunt.moveBinding slot.toNat seat.toNat).replied 0x0E
      (ok (.moved slot.toNat ((s.toHunt.moveBinding slot.toNat seat.toNat).seatWithState x.bound) seat.toNat)) := by
  have hlack : s.lacksNeeds x.needs seat.toNat = false := by
    simpa [hn] using (lacksNeeds_iff (s := s) x.needs ht).not
  exact answerTo_withArgs hl (move_inRange hslot ht) (by simp [hx, hs, seatState_of_seat? ht, hf, hlack])

end

/-- Settles O26: the move's rules part by part, and MOVE by the first of its checks that refuses. -/
theorem moveRebindsCandidates : Obligations.MoveRebindsCandidates := by
  unfold Obligations.MoveRebindsCandidates
  refine ⟨fun s c i t x old target hx hb hold htarget hit => ?_, fun slot seat s hl hslot => ⟨fun hseat => ?_,
    fun target ht => ⟨exec_move_freeSlot hl hslot ht, fun x hx => ⟨fun hs => ?_, fun hs hf => ?_, fun hs hf hn => ?_,
      fun hs hf hn => ?_⟩⟩⟩⟩
  · have hframe := moveBinding_frame t hx
    refine ⟨hframe, ?_, ?_, fun j hji hjt => ?_, ?_, fun d hd => ?_, fun n => call?_moveBinding t n hx, ?_⟩
    · simp [seat?_moveBinding t t hx, htarget]
    · simp [seat?_moveBinding t i hx, hit, hb, hold, Seat.unbind]
    · simp [seat?_moveBinding t j hx, hjt, hb, Ne.symm hji]
    · simp [cand?_moveBinding t c hx, seated_eq]
    · simp [cand?_moveBinding t d hx, hd]
    · have hfree : s.freesOnUnbind i = true ↔ old.state ≠ .faulted := by simp [freesOnUnbind_iff, hold]
      by_cases hf : old.state = .faulted <;> simp [retryDue_moveBinding t hx, hb, hfree, hf]
  · refine answerTo_badArgument hl ?_
    simp [isSlot, isSeat, hslot, Nat.not_lt.mpr hseat]
  · exact exec_move_wrongState hl hslot ht hx (by simpa [← relocatable_iff] using hs)
  · exact exec_move_targetNotFree hl hslot ht hx ((relocatable_iff _).mpr hs) hf
  · exact exec_move_targetLacks hl hslot ht hx ((relocatable_iff _).mpr hs) hf hn
  · exact exec_move_taken hl hslot ht hx ((relocatable_iff _).mpr hs) hf hn

end Sys2Proof.Machine
end

