-- ==== Sys2Proof/Proofs/Pairing.lean ====
section
/-!
PROOFS. The tables after power-up, and a state in which a step breaks the pairing of seats and candidates with what goes
with it (R3, R18, R35).
-/

namespace Sys2Proof.Machine

/-! ### After power-up -/

/-- Every position after power-up. -/
theorem seat?_reset (i : Nat) : State.reset.seat? i = if i < 384 then some (Seat.atReset i) else none := by
  unfold State.seat? State.reset Htu.atReset
  split <;> simp_all

/-- No slot holds a candidate after power-up. -/
theorem cand?_reset (c : Nat) : State.reset.cand? c = none := by
  unfold State.cand? State.reset Htu.atReset
  by_cases h : c < 512 <;> simp [h]

/-- Every sitting after power-up is EMPTY. -/
theorem sitting_reset (k : Nat) : State.reset.sitting k = Sitting.atReset := by
  unfold State.sitting State.reset Tme.atReset
  by_cases h : k < 8 <;> simp [h]

/-- The records of the sittings are those read by their eight numbers. -/
theorem mem_sittings {s : State} {x : Sitting} : x ∈ s.tme.sittings.toList ↔ ∃ k < 8, s.sitting k = x := by
  rw [Vector.mem_toList_iff, Vector.mem_iff_getElem]
  constructor
  · rintro ⟨k, hk, rfl⟩
    exact ⟨k, hk, by simp [State.sitting, hk]⟩
  · rintro ⟨k, hk, rfl⟩
    exact ⟨k, hk, by simp [State.sitting, hk]⟩

/-! ### The pairing is not kept by every step -/

/-- A candidate PRESENT with no seat, of sitting 0. -/
def presentUnseated : Candidate := { freshCandidate 1 ⟨0, 0, 0, 0⟩ false with state := .present }

/-- The part after power-up, but for a CLOSED sitting 0 whose one candidate is PRESENT with no seat, and a MOVE of that
candidate to the FREE seat 0. -/
def presentInClosed : State :=
  { (State.reset.putCand 0 (some presentUnseated)).modSitting 0 (fun x => { x with state := .closed }) with
    pending := [.move 0 0] }

theorem presentInClosed_htu : presentInClosed.htu = (State.reset.putCand 0 (some presentUnseated)).htu := rfl

theorem presentInClosed_tme :
    presentInClosed.tme = (State.reset.modSitting 0 (fun x => { x with state := .closed })).tme := rfl

theorem cand?_presentInClosed (c : Nat) :
    presentInClosed.cand? c = if c = 0 then some presentUnseated else none := by
  rw [State.cand?, presentInClosed_htu, ← State.cand?, cand?_putCand _ _ _ _ (by decide), cand?_reset]

theorem seat?_presentInClosed (i : Nat) :
    presentInClosed.seat? i = if i < 384 then some (Seat.atReset i) else none := by
  rw [State.seat?, presentInClosed_htu, ← State.seat?, putCand_seat?, seat?_reset]

theorem seat_presentInClosed {i : Nat} {x : Seat} (h : presentInClosed.seat? i = some x) : x = Seat.atReset i := by
  rw [seat?_presentInClosed] at h
  split at h
  · exact (Option.some.inj h).symm
  · exact nomatch h

theorem sitting_presentInClosed (k : Nat) : presentInClosed.sitting k =
    if k = 0 then { Sitting.atReset with state := .closed } else Sitting.atReset := by
  rw [State.sitting, presentInClosed_tme, ← State.sitting, sitting_modSitting _ _ _ _ (by decide), sitting_reset,
    sitting_reset]

/-- Every clause of the pairing holds: no seat and no candidate is bound, and no candidate waits. -/
theorem presentInClosed_seatsInOrder : presentInClosed.seatsInOrder := by
  have hseat : ∀ i, (presentInClosed.seat? i).bind (·.bound) = none := fun i => by
    cases h : presentInClosed.seat? i with
    | none => rfl
    | some x => rw [seat_presentInClosed h]; rfl
  have hcand : ∀ c x, presentInClosed.cand? c = some x → x = presentUnseated := fun c x h => by
    rw [cand?_presentInClosed] at h
    split at h
    · exact (Option.some.inj h).symm
    · exact nomatch h
  refine ⟨fun i c => ?_, fun i x hx hb => ?_, fun i x hx hs => ?_, fun c x hx hs => ?_, List.nodup_nil, fun c => ?_⟩
  · rw [hseat]
    cases h : presentInClosed.cand? c with
    | none => simp
    | some x => rw [hcand c x h]; simp [presentUnseated, freshCandidate]
  · rw [seat_presentInClosed hx] at hb
    exact absurd rfl hb
  · rw [seat_presentInClosed hx] at hs
    simp [Seat.atReset] at hs
  · rw [hcand c x hx]
    rfl
  · refine ⟨fun h => absurd h List.not_mem_nil, fun ⟨x, hx, hs⟩ => ?_⟩
    rw [hcand c x hx] at hs
    exact absurd hs (by decide)

/-- Every clause on the sittings holds: the CLOSED one's candidate has no seat. -/
theorem presentInClosed_sittingsSettled : presentInClosed.sittingsSettled := by
  refine ⟨fun x hx => ?_, fun c y hy => ?_⟩
  · obtain ⟨k, -, rfl⟩ := mem_sittings.mp hx
    rw [sitting_presentInClosed]
    split <;> simp [Sitting.atReset]
  · rw [cand?_presentInClosed] at hy
    split at hy
    · obtain rfl := Option.some.inj hy
      exact ⟨fun hs => absurd hs (by decide), fun _ => rfl⟩
    · exact nomatch hy

/-- A reply leaves the candidates and the sittings as its event left them. -/
theorem replied_tables (u : State) (kind : Byte) (a : Answer) : ∃ t, u.replied kind a = .next t ∧
    (∀ c, t.cand? c = u.cand? c) ∧ ∀ k, t.sitting k = u.sitting k := by
  have hs := settle_only (u.pushReply (kind + 0x80#8) a)
  exact ⟨_, rfl, fun c => by rw [State.cand?, hs.same .cands]; rfl,
    fun k => by rw [State.sitting, hs.same .sittings]; rfl⟩

/-- A move leaves the sittings alone. -/
theorem sitting_moveBinding (s : State) (c t k : Nat) : (s.moveBinding c t).sitting k = s.sitting k := by
  rw [State.sitting, (moveBinding_only s c t).same .sittings]
  rfl

/-- The state the MOVE leaves. -/
def presentMoved : State := ({ presentInClosed with pending := [] } : State).toHunt.moveBinding 0 0

theorem step_presentInClosed : ∃ a, step presentInClosed = presentMoved.replied 0x0E a :=
  ⟨_, exec_move_taken (slot := 0) (seat := 0) (s := { presentInClosed with pending := [] }) (x := presentUnseated)
    (target := Seat.atReset 0) (listening_iff.mpr ⟨rfl, rfl⟩) (by decide) (seat?_presentInClosed 0)
    (cand?_presentInClosed 0) rfl rfl rfl⟩

/-- Refutes O60. Nothing in the invariant keeps a candidate of a CLOSED sitting from being PRESENT with no seat, and MOVE
asks for the candidate's state and not for its sitting's (R35): it gives that candidate a seat. -/
theorem not_stepKeepsSeatsPaired : ¬ Obligations.StepKeepsSeatsPaired := by
  unfold Obligations.StepKeepsSeatsPaired
  rintro ⟨-, -, hkept⟩
  obtain ⟨a, hstep⟩ := step_presentInClosed
  obtain ⟨t, hnext, hcand, hsitting⟩ := replied_tables presentMoved 0x0E a
  obtain ⟨-, -, hclosed⟩ := hkept _ t presentInClosed_seatsInOrder presentInClosed_sittingsSettled (hstep.trans hnext)
  have hx : t.cand? 0 = some { presentUnseated with bound := some 0, relocating := true } :=
    (hcand 0).trans (cand?_moveBinding 0 0 (cand?_presentInClosed 0))
  have hk : (t.sitting 0).state = .closed := by
    rw [hsitting, presentMoved, sitting_moveBinding]
    exact congrArg Sitting.state (sitting_presentInClosed 0)
  exact nomatch (hclosed 0 _ hx).2 hk

end Sys2Proof.Machine
end

