-- ==== Sys2Proof/Proofs/Finish.lean ====
section
/-!
PROOFS. The finish claim of the Timing Engine (R16) and WITHDRAW (R19, R75).
-/

namespace Sys2Proof.Machine

/-! ### The finish claim (R16) -/

theorem finishClaim_of_writing {s : State} {c : Nat} {x : Candidate} (hx : s.cand? c = some x) (hw : x.state = .writing) :
    s.finishClaim c = (s.retire c .finished).1.askRetryIf (s.retire c .finished).2 := by
  simp [State.finishClaim, hx, hw]

theorem finishClaim_of_not_writing {s : State} {c : Nat} {x : Candidate} (hx : s.cand? c = some x)
    (hw : x.state ≠ .writing) : s.finishClaim c = s := by
  simp [State.finishClaim, hx, hw]

/-- Beyond the two tables, the calls and the passes asked for a finish changes nothing. -/
theorem finishClaim_frame {s : State} {c : Nat} {x : Candidate} (hx : s.cand? c = some x) (hw : x.state = .writing) :
    s.finishClaim c = { s with
      htu := (s.finishClaim c).htu
      cdp.calls := (s.finishClaim c).cdp.calls
      sal.retryDue := (s.finishClaim c).sal.retryDue } := by
  rw [finishClaim_of_writing hx hw, askRetryIf_eq, retire_frame .finished hx]

/-- A pass is asked for when the seat became FREE. -/
theorem retryDue_finishClaim {s : State} {c : Nat} {x : Candidate} (hx : s.cand? c = some x) (hw : x.state = .writing) :
    (s.finishClaim c).sal.retryDue =
      if (!x.owes && x.bound.any s.freesOnUnbind) = true then s.sal.retryDue + 1 else s.sal.retryDue := by
  have hsal : (s.retire c .finished).1.sal.retryDue = s.sal.retryDue := by rw [retire_frame .finished hx]
  rw [finishClaim_of_writing hx hw, askRetryIf_retryDue, retire_snd .finished hx, hsal]

/-! ### WITHDRAW (R19) -/

/-- The states WITHDRAW refuses. -/
theorem withdrawable_eq_false_iff (st : CandState) :
    st.withdrawable = false ↔ st = .paused ∨ st = .finished ∨ st = .absent ∨ st = .withdrawn := by
  cases st <;> simp [CandState.withdrawable]

section
variable {slot : Half} {s : State} {x : Candidate} (hl : s.listening = true) (hslot : slot.toNat < 512)
include hl hslot

theorem exec_withdraw_freeSlot (hx : s.cand? slot.toNat = none) :
    exec (.withdraw slot) s = s.toHunt.replied 0x06 notFound :=
  answerTo_withArgs hl (by simp [isSlot, hslot]) (by simp [hx])

theorem exec_withdraw_refused (hx : s.cand? slot.toNat = some x) (hs : x.state.withdrawable = false) :
    exec (.withdraw slot) s = s.toHunt.replied 0x06 (refuse .refusedState) :=
  answerTo_withArgs hl (by simp [isSlot, hslot]) (by simp [hx, hs])

/-- The state WITHDRAW leaves, and the seat with its resulting state in the reply. -/
theorem exec_withdraw_taken {r : State × Bool} (hx : s.cand? slot.toNat = some x) (hs : x.state.withdrawable = true)
    (hr : s.toHunt.withdrawAs slot.toNat x = r) :
    exec (.withdraw slot) s = ((r.1.askRetryIf r.2).collectIfEmpty x.sitting).replied 0x06
      (ok (.withdrawn slot.toNat x.state
        (x.bound.map (fun i => (i, ((r.1.askRetryIf r.2).collectIfEmpty x.sitting).seatState i))))) := by
  subst hr
  exact answerTo_withArgs hl (by simp [isSlot, hslot]) (by simp [hx, hs, State.seatWithState])

/-- A WAITING candidate leaves the queue; it had no seat to free. -/
theorem exec_withdraw_waiting (hx : s.cand? slot.toNat = some x) (hs : x.state = .waiting) :
    exec (.withdraw slot) s =
      (((s.toHunt.leaveQueue slot.toNat).modCand slot.toNat
        (fun y => { y with state := .withdrawn })).collectIfEmpty x.sitting).replied 0x06
      (ok (.withdrawn slot.toNat x.state (x.bound.map (fun i => (i,
        (((s.toHunt.leaveQueue slot.toNat).modCand slot.toNat
          (fun y => { y with state := .withdrawn })).collectIfEmpty x.sitting).seatState i))))) :=
  exec_withdraw_taken (r := ((s.toHunt.leaveQueue slot.toNat).modCand slot.toNat (fun y => { y with state := .withdrawn }),
    false)) hl hslot hx (by simp [hs, CandState.withdrawable]) (by simp [State.withdrawAs, hs])

end

/-- Settles O22: the rules of the cleared binding and of the end of a paper, part by part; the finish claim is that end for
a WRITING candidate, and WITHDRAW takes it by the candidate's state. -/
theorem finishAndWithdrawal : Obligations.FinishAndWithdrawal := by
  unfold Obligations.FinishAndWithdrawal
  refine ⟨⟨fun s c i x z hx hb hz => ?_, fun s c hnone => ?_⟩, fun s c x hx => ⟨finishClaim_of_not_writing hx, fun hw => ?_⟩,
    fun slot s hl hslot => ⟨exec_withdraw_freeSlot hl hslot, fun x hx => ⟨fun hs => ?_, fun hs => ?_, fun hs => ?_,
      fun hs => ?_, fun hs => ?_⟩⟩, fun s c x target hx => ?_⟩
  · have hseat : s.seatOf c = some i := (seatOf_eq hx).trans hb
    refine ⟨clearBinding_frame s c, ?_, fun j hj => ?_, ?_, fun d hd => ?_, fun n => ?_, ?_, fun t => ⟨rfl, rfl⟩⟩
    · simp [seat?_clearBinding, hseat, hz, Seat.unbind]
    · simp [seat?_clearBinding, hseat, Ne.symm hj]
    · simp [cand?_clearBinding, hx]
    · simp [cand?_clearBinding, hd]
    · simp [call?_clearBinding, hseat]
    · simp [clearBinding_snd, hseat, freesOnUnbind_iff, hz]
  · refine clearBinding_of_none ?_
    cases hx : s.cand? c with
    | none => simp [State.seatOf, hx]
    | some x => rw [seatOf_eq hx, hnone x hx]
  · refine ⟨finishClaim_frame hx hw, ?_, fun d hd => ?_, fun i z hb hz => ⟨fun ho => ⟨?_, ?_⟩, fun ho => ⟨?_, ?_⟩⟩,
      fun j hj => ?_, fun n y hy hc hp => ?_, fun n y hy hc => ?_⟩
    · simp [finishClaim_of_writing hx hw, cand?_retire .finished c hx]
    · simp [finishClaim_of_writing hx hw, cand?_retire .finished d hx, hd]
    · simp [finishClaim_of_writing hx hw, seat?_retire .finished i hx, hb, hz, ho, Seat.vacate]
      split <;> rfl
    · simp [retryDue_finishClaim hx hw, ho]
    · simp [finishClaim_of_writing hx hw, seat?_retire .finished i hx, hb, hz, ho, Seat.unbind]
    · have hfree : s.freesOnUnbind i = true ↔ z.state ≠ .faulted := by simp [freesOnUnbind_iff, hz]
      by_cases hf : z.state = .faulted <;> simp [retryDue_finishClaim hx hw, ho, hb, hfree, hf]
    · simp [finishClaim_of_writing hx hw, seat?_retire .finished j hx, hj]
    · simp [finishClaim_of_writing hx hw, call?_retire .finished n hx, hy, hc, hp]
    · simp [finishClaim_of_writing hx hw, call?_retire .finished n hx, hy, hc]
  · exact exec_withdraw_refused hl hslot hx ((withdrawable_eq_false_iff _).mpr hs)
  · exact exec_withdraw_waiting hl hslot hx hs
  · exact exec_withdraw_taken hl hslot hx (by simp [hs, CandState.withdrawable]) (by simp only [State.withdrawAs, hs])
  · exact exec_withdraw_taken hl hslot hx (by simp [hs, CandState.withdrawable]) (by simp only [State.withdrawAs, hs])
  · exact exec_withdraw_taken hl hslot hx (by simp [hs, CandState.withdrawable]) (by simp only [State.withdrawAs, hs])
  · refine ⟨retire_frame target hx, ?_, fun d hd => ?_, fun i z hb hz => ?_, fun j hj => ?_, fun n => ?_, ?_⟩
    · simp [cand?_retire target c hx]
    · simp [cand?_retire target d hx, hd]
    · cases ho : x.owes
      · simp [seat?_retire target i hx, hb, hz, ho, Seat.unbind]
      · simp [seat?_retire target i hx, hb, hz, ho, Seat.vacate]
        split <;> rfl
    · simp [seat?_retire target j hx, hj]
    · exact call?_retire target n hx
    · rw [retire_snd target hx]
      cases x.owes <;> cases x.bound <;> simp [freesOnUnbind_iff]

end Sys2Proof.Machine
end

