-- ==== Sys2Proof/Proofs/Seats.lean ====
section
/-!
PROOFS. HOLD_SEAT and FREE_SEAT (R4, R5), DEFINE_SEATS (R2) and REPAIR_SEAT (R9).
-/

namespace Sys2Proof.Machine

/-! ### The search and the state of a seat (R27) -/

/-- The search offers FREE seats alone. -/
theorem free_of_searchZones {s : State} {k : Nat} {needs : Attrs} {c : Option Nat} {zones : List Nat} {i : Nat}
    (h : s.searchZones k needs c zones = some i) : ∃ x, s.seat? i = some x ∧ x.state = .free := by
  obtain ⟨p, -, hp⟩ := List.exists_of_findSome?_eq_some h
  have hfound := List.find?_some hp
  simp only [State.qualifies, Bool.and_eq_true] at hfound
  obtain ⟨-, hfree, -⟩ := hfound
  cases hx : s.seat? i with
  | none => simp [hx] at hfree
  | some x => exact ⟨x, rfl, by simp [hx] at hfree; exact hfree.1⟩

/-! ### HOLD_SEAT and FREE_SEAT (R4, R5) -/

/-- A seat id above the grid fails the one argument check. -/
theorem firstBad_isSeat {seat : Half} (h : 384 ≤ seat.toNat) : firstBad [isSeat seat] = some 1 := by
  simp [isSeat, Nat.not_lt.mpr h]

/-- A seat with a record passes it. -/
theorem isSeat_of_seat? {seat : Half} {s : State} {x : Seat} (hx : s.seat? seat.toNat = some x) :
    ∀ b ∈ [isSeat seat], b = true := by
  simp [isSeat, seat?_lt hx]

/-- A hold of FREE_SEAT's second kind: FAULTED, unbound and held before the fault. -/
theorem faultedHold_iff (x : Seat) :
    x.faultedHold = true ↔ x.state = .faulted ∧ x.bound = none ∧ x.heldOrigin = true := by
  simp [Seat.faultedHold, and_assoc]

/-- Settles O20: each request by the seat's state; a HELD seat is not FREE, so no search offers it and MOVE refuses it. -/
theorem seatsAreHeldAndFreed : Obligations.SeatsAreHeldAndFreed := by
  unfold Obligations.SeatsAreHeldAndFreed
  refine ⟨fun seat s hl => ⟨fun h => answerTo_badArgument hl (firstBad_isSeat h), fun x hx => ⟨fun hf => ?_, fun hf => ?_,
    fun hheld => ⟨fun k needs c zones hfound => ?_, fun slot y hslot hy hs => ?_⟩⟩⟩,
    fun seat s hl => ⟨fun h => answerTo_badArgument hl (firstBad_isSeat h), fun x hx => ⟨fun hheld => ?_,
    fun hfault hb ho => ?_, fun hheld hnot => ?_⟩⟩⟩
  · exact answerTo_withArgs hl (isSeat_of_seat? hx) (by simp [seatState_of_seat? hx, hf])
  · exact answerTo_withArgs hl (isSeat_of_seat? hx) (by simp [seatState_of_seat? hx, hf])
  · obtain ⟨z, hz, hfree⟩ := free_of_searchZones hfound
    obtain rfl := Option.some.inj (hx.symm.trans hz)
    exact absurd (hheld.symm.trans hfree) (by decide)
  · rw [exec_move_targetNotFree hl hslot hx hy ((relocatable_iff _).mpr hs) (by simp [hheld]), hheld]
  · exact answerTo_withArgs hl (isSeat_of_seat? hx) (by simp [seatState_of_seat? hx, hheld]; rfl)
  · exact answerTo_withArgs hl (isSeat_of_seat? hx)
      (by simp [seatState_of_seat? hx, hx, hfault, (faultedHold_iff x).mpr ⟨hfault, hb, ho⟩])
  · have hno : x.faultedHold = false := by simpa using (faultedHold_iff x).not.mpr hnot
    exact answerTo_withArgs hl (isSeat_of_seat? hx) (by simp [seatState_of_seat? hx, hx, hheld, hno])

/-! ### REPAIR_SEAT (R9) -/

theorem exec_repairSeat_refused {seat : Half} {s : State} {x : Seat} (hl : s.listening = true)
    (hx : s.seat? seat.toNat = some x) (hr : x.repairable = false) :
    exec (.repairSeat seat) s = s.toHunt.replied 0x04 (refuse .refusedState) :=
  answerTo_withArgs hl (isSeat_of_seat? hx) (by simp [hx, hr])

/-- The seat returns in the state its binding requires, and asks for a pass when that is FREE. -/
theorem exec_repairSeat_taken {seat : Half} {s : State} {x : Seat} (hl : s.listening = true)
    (hx : s.seat? seat.toNat = some x) (hr : x.repairable = true) : exec (.repairSeat seat) s =
      ((s.toHunt.modSeat seat.toNat (Seat.repair (s.bindingState x))).askRetryIf (s.bindingState x == .free)).replied 0x04
        (ok (.seatState (s.bindingState x))) :=
  answerTo_withArgs hl (isSeat_of_seat? hx) (by simp [hx, hr])

/-- A seat no candidate holds is HELD when it was held before the fault, and FREE otherwise. -/
theorem bindingState_unbound {s : State} {x : Seat} (hb : x.bound = none) :
    s.bindingState x = if x.heldOrigin then .held else .free := by
  simp [State.bindingState, hb]

/-- A seat a candidate holds is what the candidate's state and RELOCATING ask for (R9). -/
theorem bindingState_bound {s : State} {x : Seat} {c : Nat} {y : Candidate} (hb : x.bound = some c)
    (hy : s.cand? c = some y) : s.bindingState x =
      match y.state with
      | .expected => .assigned
      | .present | .writing | .paused => if y.relocating then .assigned else .occupied
      | .finished | .withdrawn => .vacated
      | .waiting | .absent => .free := by
  cases hs : y.state <;> simp [State.bindingState, hb, hy, hs]

/-! ### DEFINE_SEATS (R2) -/

theorem mem_runOf {first last i : Nat} : i ∈ runOf first last ↔ first ≤ i ∧ i ≤ last := by
  simp only [runOf, List.mem_map, List.mem_range]
  constructor
  · rintro ⟨n, hn, rfl⟩
    omega
  · rintro ⟨h1, h2⟩
    exact ⟨i - first, by omega, by omega⟩

theorem length_runOf {first last : Nat} (h : first ≤ last) : (runOf first last).length = last - first + 1 := by
  simp only [runOf, List.length_map, List.length_range]
  omega

/-- A run is searched from its lowest position. -/
theorem find?_runOf_eq_some {first last i : Nat} {p : Nat → Bool} (hi : first ≤ i ∧ i ≤ last) (hp : p i = true)
    (hlow : ∀ j, first ≤ j → j < i → p j = false) : (runOf first last).find? p = some i := by
  have hfind : (List.range (last + 1 - first)).find? (p ∘ (first + ·)) = some (i - first) := by
    refine List.find?_range_eq_some.mpr ⟨?_, List.mem_range.mpr (by omega), fun j hj => ?_⟩
    · simpa [Nat.add_sub_cancel' hi.1] using hp
    · simpa using hlow (first + j) (by omega) (by omega)
  rw [runOf, List.find?_map, hfind, Option.map_some, Nat.add_sub_cancel' hi.1]

/-- Defining a position twice is defining it once. -/
theorem define_define (k : SeatKind) (zone : Nat) (attrs : Attrs) (i : Nat) (x : Seat) :
    Seat.define k zone attrs i (Seat.define k zone attrs i x) = Seat.define k zone attrs i x := by
  cases k <;> rfl

/-- The positions listed are each changed by their own function; every other is as before. -/
theorem seat?_forEach_modSeat (f : Nat → Seat → Seat) (hf : ∀ i x, f i (f i x) = f i x) (ids : List Nat) (s : State)
    (j : Nat) : (s.forEach ids (fun i t => t.modSeat i (f i))).seat? j =
      if j ∈ ids then (s.seat? j).map (f j) else s.seat? j := by
  induction ids generalizing s with
  | nil => rfl
  | cons i ids ih =>
    change ((s.modSeat i (f i)).forEach ids (fun i t => t.modSeat i (f i))).seat? j = _
    rw [ih, seat?_modSeat]
    by_cases hj : j = i
    · subst hj
      by_cases hmem : j ∈ ids <;> cases s.seat? j <;> simp [hmem, hf]
    · simp [hj]

/-- Changing positions leaves everything but the seat table alone. -/
theorem forEach_modSeat_frame (f : Nat → Seat → Seat) (ids : List Nat) (s : State) :
    s.forEach ids (fun i t => t.modSeat i (f i)) =
      { s with htu.seats := (s.forEach ids (fun i t => t.modSeat i (f i))).htu.seats } := by
  induction ids generalizing s with
  | nil => rfl
  | cons i ids ih => exact ih (s.modSeat i (f i))

/-- A position blocks the run when it is HELD, FAULTED or bound. -/
theorem blocksDefine_iff (x : Seat) : x.blocksDefine = true ↔ x.state = .held ∨ x.state = .faulted ∨ x.bound ≠ none := by
  simp [Seat.blocksDefine, or_assoc, Option.isSome_iff_ne_none]

section
variable {first last : Half} {kind zone attrs : Byte} {s : State} (hl : s.listening = true)
  (hc : ∀ b ∈ defineSeatsChecks first last kind zone attrs, b = true)
include hl hc

theorem exec_defineSeats_blocked {i : Nat} (hi : (runOf first.toNat last.toNat).find?
    (fun j => (s.seat? j).any Seat.blocksDefine) = some i) : exec (.defineSeats first last kind zone attrs) s =
      s.toHunt.replied 0x01 (refuse .refusedState .none (.seat i)) :=
  answerTo_withArgs hl hc (by simp [hi])

theorem exec_defineSeats_taken {k : SeatKind} (hk : seatKindOf kind = some k) (hle : first.toNat ≤ last.toNat)
    (hfree : ∀ i ∈ runOf first.toNat last.toNat, (s.seat? i).any Seat.blocksDefine = false) :
    exec (.defineSeats first last kind zone attrs) s =
      ((s.toHunt.forEach (runOf first.toNat last.toNat)
        (fun i t => t.modSeat i (Seat.define k zone.toNat (attrsOf attrs) i))).askRetryIf
          ((runOf first.toNat last.toNat).any (fun i =>
            (s.seat? i).any (Seat.definedRelease k zone.toNat (attrsOf attrs))))).replied 0x01
        (ok (.positions (last.toNat - first.toNat + 1))) := by
  have hnone : (runOf first.toNat last.toNat).find? (fun j => (s.seat? j).any Seat.blocksDefine) = none :=
    List.find?_eq_none.mpr fun i hi => by simp [hfree i hi]
  exact answerTo_withArgs hl hc (by simp [hnone, hk, length_runOf hle])

end

/-- The argument checks of DEFINE_SEATS, for either kind. -/
theorem defineSeats_inRange {first last : Half} {kind zone attrs : Byte} (hle : first.toNat ≤ last.toNat)
    (hlast : last.toNat < 384) (hk : kind = 1#8 ∨ (kind = 0#8 ∧ zone.toNat < 8 ∧ attrs.toNat < 8)) :
    ∀ b ∈ defineSeatsChecks first last kind zone attrs, b = true := by
  have hfirst : first.toNat < 384 := by omega
  rcases hk with rfl | ⟨rfl, hz, ha⟩
  · simp [defineSeatsChecks, isSeat, seatKindOf, hfirst, hlast, hle]
  · simp [defineSeatsChecks, isSeat, seatKindOf, isEighth, isAttrs, hfirst, hlast, hle, hz, ha]

/-- The kind a code names: 0 is SEAT. -/
theorem exists_seatKind {kind : Byte} {p : Prop} (hk : kind = 1#8 ∨ (kind = 0#8 ∧ p)) :
    ∃ k, seatKindOf kind = some k ∧ (kind = 0#8 ↔ k = .seat) := by
  rcases hk with rfl | ⟨rfl, -⟩
  · exact ⟨.aisle, rfl, by decide⟩
  · exact ⟨.seat, rfl, by decide⟩

/-- A position's definition is a release when it becomes a SEAT with other fields than it had, or none. -/
theorem definedRelease_iff {k : SeatKind} {zone : Nat} {attrs : Attrs} {x : Seat} :
    x.definedRelease k zone attrs = true ↔ k = .seat ∧ (x.state = .absent ∨ x.zone ≠ zone ∨ x.attrs ≠ attrs) := by
  simp [Seat.definedRelease, or_assoc]

/-- The run's pass is asked for exactly when some position of it is released. -/
theorem any_definedRelease_iff {first last : Nat} {s : State} {k : SeatKind} {zone : Nat} {attrs : Attrs} :
    (runOf first last).any (fun i => (s.seat? i).any (Seat.definedRelease k zone attrs)) = true ↔
      ∃ i x, (first ≤ i ∧ i ≤ last) ∧ s.seat? i = some x ∧ k = .seat ∧
        (x.state = .absent ∨ x.zone ≠ zone ∨ x.attrs ≠ attrs) := by
  simp only [List.any_eq_true, mem_runOf, Option.any_eq_true, definedRelease_iff]
  constructor
  · rintro ⟨i, hi, x, hx, h⟩
    exact ⟨i, x, hi, hx, h⟩
  · rintro ⟨i, x, hi, hx, h⟩
    exact ⟨i, hi, x, hx, h⟩

/-- Settles O21: a run is searched for its lowest blocker, then defined position by position; a repaired seat takes the
state of its binding. -/
theorem seatsAreDefinedAndRepaired : Obligations.SeatsAreDefinedAndRepaired := by
  unfold Obligations.SeatsAreDefinedAndRepaired
  refine ⟨fun first last kind zone attrs s hl hle hlast hk => ?_, fun seat s hl =>
    ⟨fun h => answerTo_badArgument hl (firstBad_isSeat h), fun x hx => ⟨fun hr => ?_, fun st hf ha hst => ?_⟩⟩⟩
  · have hc := defineSeats_inRange hle hlast hk
    have hblock : ∀ i, (s.seat? i).any Seat.blocksDefine = true ↔
        ∃ x, s.seat? i = some x ∧ (x.state = .held ∨ x.state = .faulted ∨ x.bound ≠ none) := fun i => by
      cases hx : s.seat? i <;> simp [blocksDefine_iff]
    refine ⟨fun hfree => ?_, fun i hi hb hlow => ?_⟩
    · have hnone : ∀ i ∈ runOf first.toNat last.toNat, (s.seat? i).any Seat.blocksDefine = false := fun i hi => by
        simpa using (hblock i).not.mpr (hfree i (mem_runOf.mp hi))
      obtain ⟨k, hkind, hseat⟩ := exists_seatKind hk
      refine ⟨_, exec_defineSeats_taken hl hc hkind hle hnone, ?_, fun i hi => ?_, fun i x hi hx => ?_, fun h => ?_,
        fun h => ?_⟩
      · rw [askRetryIf_eq, forEach_modSeat_frame]
      · simp [seat?_forEach_modSeat _ (define_define k _ _), mem_runOf, hi]
      · rw [askRetryIf_seat?, seat?_forEach_modSeat _ (define_define k _ _), if_pos (mem_runOf.mpr hi), toHunt_seat?, hx]
        cases k with
        | seat => rw [if_pos (hseat.mpr rfl)]; rfl
        | aisle => rw [if_neg (hseat.not.mpr nofun)]; rfl
      · obtain ⟨i, x, hi, hx, h0, hrel⟩ := h
        rw [askRetryIf_retryDue, if_pos (any_definedRelease_iff.mpr ⟨i, x, hi, hx, hseat.mp h0, hrel⟩),
          forEach_modSeat_frame]
        rfl
      · rw [askRetryIf_retryDue, if_neg, forEach_modSeat_frame]
        · rfl
        · rw [any_definedRelease_iff]
          rintro ⟨i, x, hi, hx, h0, hrel⟩
          rcases h i x hi hx with rfl | ⟨hs, hz, ha⟩
          · exact absurd (hseat.mpr h0) (by decide)
          · rcases hrel with h | h | h <;> contradiction
    · refine exec_defineSeats_blocked hl hc (find?_runOf_eq_some hi ((hblock i).mpr hb) fun j hj hji => ?_)
      simpa using (hblock j).not.mpr (hlow j ⟨hj, by omega⟩ hji)
  · refine exec_repairSeat_refused hl hx ?_
    rcases hr with h | h <;> simp [Seat.repairable, h]
  · have hbind : s.bindingState x = st := by
      rcases hst with ⟨hb, ho, rfl⟩ | ⟨hb, ho, rfl⟩ | ⟨c, y, hb, hy, hst⟩
      · simp [bindingState_unbound hb, ho]
      · simp [bindingState_unbound hb, ho]
      · rw [bindingState_bound hb hy]
        rcases hst with ⟨h, rfl⟩ | ⟨h | h | h, hr, rfl⟩ | ⟨h | h | h, hr, rfl⟩ | ⟨h | h, rfl⟩ <;> simp [*]
    rw [exec_repairSeat_taken hl hx (by simp [Seat.repairable, hf, ha]), hbind, askRetryIf_eq]
    cases st <;> rfl

end Sys2Proof.Machine
end

