-- ==== Sys2Proof/Proofs/Lookup.lean ====
section
/-!
PROOFS. The number lookup (R14).
-/

namespace Sys2Proof.Machine

/-- The lowest slot whose record passes a test. -/
def State.lowestCand (s : State) (p : Candidate → Bool) : Option Nat := lowestWhere (fun o => o.any p) s.htu.cands

/-- The slot found holds a record that passes the test, and no lower slot does. -/
theorem lowestCand_eq_some {s : State} {p : Candidate → Bool} {c : Nat}
    (h : s.lowestCand p = some c) :
    ∃ x, s.cand? c = some x ∧ p x = true ∧ ∀ d y, s.cand? d = some y → p y = true → c ≤ d := by
  obtain ⟨o, ho, hp, hlow⟩ := (lowestWhere_eq_some _ _ _).mp h
  obtain _ | x := o
  · exact absurd hp (by simp)
  · refine ⟨x, join_getElem?_eq_some.mpr ho, by simpa using hp, fun d y hy hpy => Nat.not_lt.mp fun hd => ?_⟩
    have := hlow d hd _ (join_getElem?_eq_some.mp hy)
    simp [hpy] at this

/-- No slot is found exactly when no record passes the test. -/
theorem lowestCand_eq_none {s : State} {p : Candidate → Bool}
    (h : s.lowestCand p = none) {d : Nat} {y : Candidate} (hy : s.cand? d = some y) :
    p y = false := by
  have := (lowestWhere_eq_none _ _).mp h _
    (Vector.mem_toList_iff.mpr (Vector.mem_of_getElem? (join_getElem?_eq_some.mp hy)))
  simpa using this

/-- Does a record match a number, and a sitting when one is given (R14)? -/
def Candidate.matches (number : Nat) (sitting : Option Nat) (x : Candidate) : Bool :=
  x.number == number && sitting.all (fun k => x.sitting == k)

theorem matches_iff {number : Nat} {sitting : Option Nat} {x : Candidate} :
    x.matches number sitting = true ↔ x.number = number ∧ ∀ k, sitting = some k → x.sitting = k := by
  cases sitting <;> simp [Candidate.matches]

/-- The lookup is the lowest active match, else the lowest match. -/
theorem lookup_eq (s : State) (number : Nat) (sitting : Option Nat) : s.lookup number sitting =
    (s.lowestCand (fun x => x.matches number sitting && x.state.active)).or (s.lowestCand (·.matches number sitting)) := by
  unfold State.lookup State.lowestCand Candidate.matches
  dsimp only
  split <;> simp [*]

/-- Settles O18: a match that is not active is found only when no match is active, and is then the lowest of all. -/
theorem lookupPrefersActiveRecord : Obligations.LookupPrefersActiveRecord := by
  unfold Obligations.LookupPrefersActiveRecord
  intro s number sitting
  refine ⟨fun c h => ?_, fun h d y hy hn => ?_, fun c h => ?_, fun h d y hy hn => ?_⟩
  · rw [lookup_eq] at h
    cases ha : s.lowestCand (fun x => x.matches number sitting && x.state.active) with
    | some b =>
      rw [ha, Option.some_or] at h
      obtain rfl := Option.some.inj h
      obtain ⟨x, hx, hp, -⟩ := lowestCand_eq_some ha
      obtain ⟨hm, hact⟩ := Bool.and_eq_true_iff.mp hp
      obtain ⟨hnum, hsit⟩ := matches_iff.mp hm
      exact ⟨x, hx, hnum, hsit, fun hinact => absurd (hact.symm.trans hinact) (by decide)⟩
    | none =>
      rw [ha, Option.none_or] at h
      obtain ⟨x, hx, hp, hlow⟩ := lowestCand_eq_some h
      obtain ⟨hnum, hsit⟩ := matches_iff.mp hp
      refine ⟨x, hx, hnum, hsit, fun _ d y hy hyn hys => ?_⟩
      have hm : y.matches number sitting = true := matches_iff.mpr ⟨hyn, hys⟩
      exact ⟨by simpa [hm] using lowestCand_eq_none ha hy, hlow d y hy hm⟩
  · rw [lookup_eq, Option.or_eq_none_iff] at h
    have hm := lowestCand_eq_none h.2 hy
    cases sitting with
    | none => simp [Candidate.matches, hn] at hm
    | some k => exact ⟨k, rfl, by simpa [Candidate.matches, hn] using hm⟩
  · obtain ⟨x, hx, hp, -⟩ := lowestCand_eq_some h
    obtain ⟨hnum, hact⟩ := Bool.and_eq_true_iff.mp hp
    exact ⟨x, hx, by simpa using hnum, hact⟩
  · simpa [hn] using lowestCand_eq_none h hy

end Sys2Proof.Machine
end

