-- ==== Sys2Proof/Proofs/Reads.lean ====
section
/-!
PROOFS. The requests that read: each answers with the state as it stands (R20, R23, R42, R61, R118, R137, R149, R171,
R181), one record or a run of records (R10, R78, R98, R136, R171).
-/

namespace Sys2Proof.Machine

/-! ### READ_CALLS (R118) -/

/-- A call whose candidate has a record is shown with that record's number and sitting. -/
theorem callView_of_cand? {s : State} {i : Nat} {c : Call} {y : Candidate} (hy : s.cand? c.slot = some y) :
    s.callView i c =
      { id := i
        call := c
        finishSeat := if c.seat = none then y.finish else none
        number := y.number
        sitting := y.sitting
        dispatchable := if c.state = .pending then s.dispatchable c else false } := by
  cases hs : c.seat <;> by_cases hp : c.state = .pending <;> simp [State.callView, hy, hs, hp]

/-! ### READ_SITTING and READ_SWEEP (R61, R137) -/

theorem exec_readSitting {b : Byte} {s : State} (hl : s.listening = true) (hb : b.toNat < 8) :
    exec (.readSitting b) s = s.toHunt.replied 0x1A (ok (.sitting (s.sitting b.toNat) (s.countByState b.toNat)
      (s.sitting b.toNat).marks.length (s.owing b.toNat).length (s.callsOfSitting b.toNat).length
      (s.sitting b.toNat).secondsLeft)) :=
  answerTo_withArgs hl (by simp [isSitting, hb]) rfl

theorem exec_readSweep {b : Byte} {s : State} (hl : s.listening = true) (hb : b = 0xFF#8 ∨ b.toNat < 4) :
    exec (.readSweep b) s = s.toHunt.replied 0x29 (ok (.sweeps ((channelsFor b).map (fun k => (k, s.channel k)))
      s.scu.exceptions.length s.cli.flags.exceptionsLost)) :=
  answerTo_withArgs hl (by simpa [isChannel] using hb) rfl

/-! ### READ_CANDIDATE (R20) -/

/-- The slot named is read, when it holds a record. -/
theorem exec_readCandidate {slot : Half} {number : Word} {sitting : Byte} {s : State} (hl : s.listening = true)
    (hc : ∀ b ∈ readCandidateChecks slot number sitting, b = true) : exec (.readCandidate slot number sitting) s =
      s.toHunt.replied 0x07 (match s.candidateNamed slot number sitting with
        | none => notFound
        | some c => match s.cand? c with
          | none => notFound
          | some x => ok (.candidate c x)) := by
  refine answerTo_withArgs hl hc ?_
  cases hn : s.candidateNamed slot number sitting with
  | none => simp [hn]
  | some c => cases hx : s.cand? c <;> simp [hn, hx]

theorem slotGiven_iff {slot : Half} : slotGiven slot = true ↔ slot ≠ 0xFFFF#16 := by simp [slotGiven]

theorem numberGiven_iff {number : Word} : numberGiven number = true ↔ number ≠ 0#32 := by simp [numberGiven]

/-- Given by slot: the number's field is 0. -/
theorem readCandidate_bySlot {slot : Half} (sitting : Byte) (h : slot.toNat < 512) :
    slotGiven slot = true ∧ ∀ b ∈ readCandidateChecks slot 0#32 sitting, b = true := by
  have hg : slotGiven slot = true := slotGiven_iff.mpr (by rintro rfl; exact absurd h (by decide))
  exact ⟨hg, by simp [readCandidateChecks, hg, isSlot, h, numberGiven]⟩

/-- Given by number: the slot's field is 0xFFFF. -/
theorem readCandidate_byNumber {number : Word} {sitting : Byte} (h1 : 1 ≤ number.toNat) (h2 : number.toNat ≤ 99999999)
    (hs : sitting = 0xFF#8 ∨ sitting.toNat < 8) : ∀ b ∈ readCandidateChecks 0xFFFF#16 number sitting, b = true := by
  have hg : numberGiven number = true := numberGiven_iff.mpr (by rintro rfl; exact absurd h1 (by decide))
  simpa [readCandidateChecks, slotGiven, hg, isNumber, h1, h2, isSitting] using hs

/-- Given both or neither: the slot is looked at first, then the two together. -/
theorem readCandidate_refused {slot : Half} {number : Word} (sitting : Byte) (h : slot = 0xFFFF#16 ↔ number = 0#32) :
    firstBad (readCandidateChecks slot number sitting) =
      some (if slot = 0xFFFF#16 ∨ slot.toNat < 512 then 2 else 1) := by
  by_cases hs : slot = 0xFFFF#16
  · simp [readCandidateChecks, slotGiven, numberGiven, hs, h.mp hs]
  · have hslot := slotGiven_iff.mpr hs
    have hnumber := numberGiven_iff.mpr (h.not.mp hs)
    by_cases hlt : slot.toNat < 512 <;> simp [readCandidateChecks, hslot, hnumber, hs, isSlot, hlt]

/-- Settles O14: a read with no argument answers by definition; the others by what their operands name. -/
theorem readsReportState : Obligations.ReadsReportState := by
  unfold Obligations.ReadsReportState
  refine ⟨fun s hl => ⟨answerTo_eq hl rfl, answerTo_eq hl rfl, answerTo_eq hl rfl, answerTo_eq hl rfl, answerTo_eq hl rfl,
    answerTo_eq hl rfl⟩, fun s => ⟨fun i c y hy => callView_of_cand? hy, rfl⟩,
    fun b s hl => ⟨fun hb => exec_readSitting hl hb, fun hb => ?_, exec_readSweep hl (.inl rfl)⟩,
    fun slot number sitting s hl => ⟨fun hslot hn => ?_, fun hslot h1 h2 hs => ?_, fun h => ?_⟩⟩
  · rw [exec_readSweep hl (.inr hb), channelsFor, if_neg (by rintro rfl; exact absurd hb (by decide))]
    rfl
  · subst hn
    obtain ⟨hg, hc⟩ := readCandidate_bySlot sitting hslot
    rw [exec_readCandidate hl hc, State.candidateNamed, if_pos hg]
    exact ⟨fun x hx => by simp [hx], fun hx => by simp [hx]⟩
  · subst hslot
    rw [exec_readCandidate hl (readCandidate_byNumber h1 h2 hs)]
    have hnamed : s.candidateNamed 0xFFFF#16 number sitting =
        s.lookup number.toNat (if sitting = 0xFF#8 then none else some sitting.toNat) := if_neg (by decide)
    exact ⟨fun c x hc hx => by simp [hnamed, hc, hx], fun hnone => by simp [hnamed, hnone]⟩
  · exact answerTo_badArgument hl (readCandidate_refused sitting h)

/-! ### Runs of records (R10, R78, R98, R136, R171) -/

/-- A link's addresses run from its base. -/
theorem inLink_iff {link : Byte} {l : LinkName} (hl : linkOf link = some l) (a : Nat) :
    inLink link a = true ↔ linkBase l ≤ a ∧ a < linkBase l + linkSize l := by
  simp [inLink, hl]

/-- An entry of a slot with a record is shown with what R63 and R72 derive from that record. -/
theorem markView_of_cand? {s : State} {x : Sitting} {position : Nat} {e : MarkEntry} {y : Candidate}
    (hy : s.cand? e.slot = some y) : s.markView x position e = some
      { position := position
        entry := e
        number := y.number
        state := y.state
        personalEnd := personalEnd x y
        timeLeft := personalEnd x y - referenceSecond x y
        stage := x.warnings.countP (fun w => decide (personalEnd x y - w * 60 ≤ referenceSecond x y))
        pause := if y.state = .paused then y.pauseStart.map (fun p => (p, y.restBudget - y.restUsed)) else none } := by
  simp [State.markView, hy, timeLeft, warningStage, warningPoint, Candidate.restLeft]

/-- Settles O15: each run lies within its table, so its argument checks pass; a mark entry is shown by its slot's record. -/
theorem runReadsReportRecords : Obligations.RunReadsReportRecords := by
  unfold Obligations.RunReadsReportRecords
  refine ⟨fun first count key store link s hl => ⟨fun h1 h32 => ⟨fun hrun => ?_, fun hrun => ?_, fun l hlink hlo hhi => ?_⟩,
    fun k hk hfirst h1 h32 => ?_, fun q hk hq h1 h40 hrun => ?_, fun hstore => ?_⟩, fun s x position e =>
      ⟨fun hnone => ?_, fun y hy => markView_of_cand? hy⟩⟩
  · refine answerTo_withArgs hl ?_ ?_
    · simp [isSeat, h1, h32, hrun]
      omega
    · simp [State.seatRecords, List.filterMap_map]
  · refine answerTo_withArgs hl ?_ rfl
    simp [isSlot, h1, h32, hrun]
    omega
  · refine answerTo_withArgs hl ?_ ?_
    · simp [readLinkChecks, hlink, inLink_iff hlink, h1, h32]
      omega
    · simp only [hlink]
      rfl
  · refine answerTo_withArgs hl ?_ rfl
    simp [isSitting, hk, hfirst, h1, h32]
  · have hc : ∀ b ∈ readKeyChecks (s.key key.toNat).questions.length key q count, b = true := by
      simpa [readKeyChecks, isEighth, hk, hq, h1, h40] using hrun
    exact answerTo_withArgs hl hc rfl
  · refine answerTo_withArgs hl ?_ rfl
    simp [isStoreSlot, hstore]
  · simp [State.markView, hnone]

end Sys2Proof.Machine
end

