-- ==== Sys2Proof/Proofs/Reset.lean ====
section
/-!
PROOFS. The state after power-up, part by part (R184).
-/

namespace Sys2Proof.Machine

theorem link_reset (l : LinkName) : State.reset.link l = Link.atReset := by
  cases l <;> rfl

theorem unit_reset (l : LinkName) (a : Nat) : State.reset.unit l a = UnitRec.atReset := by
  cases l with
  | floor =>
    unfold State.unit State.reset Ulc.atReset
    by_cases h : a < 20 <;> simp [h]
  | _ =>
    unfold State.unit State.reset Ulc.atReset
    by_cases h : a < 384 <;> simp [h]

theorem call?_reset (i : Nat) : State.reset.call? i = none := by
  unfold State.call? State.reset Cdp.atReset
  by_cases h : i < 48 <;> simp [h]

theorem handset_reset (h : Nat) : State.reset.handset h = Handset.atReset := by
  unfold State.handset State.reset Cdp.atReset
  by_cases hh : h < 8 <;> simp [hh]

theorem channel_reset (k : Nat) : State.reset.channel k = Channel.atReset := by
  unfold State.channel State.reset Scu.atReset
  by_cases h : k < 4 <;> simp [h]

theorem key_reset (k : Nat) : State.reset.key k = Key.atReset := by
  unfold State.key State.reset Mke.atReset
  by_cases h : k < 8 <;> simp [h]

theorem stored?_reset (i : Nat) : State.reset.stored? i = none := by
  unfold State.stored? State.reset Mke.atReset
  by_cases h : i < 64 <;> simp [h]

/-- Settles O3: each table by the rule of its entries, every other field as the reset state writes it. -/
theorem stateAfterPowerUp : Obligations.StateAfterPowerUp := by
  unfold Obligations.StateAfterPowerUp
  refine ⟨fun i hi => ?_, cand?_reset, rfl, rfl, rfl, rfl, fun k _ => ?_, fun l => ?_, unit_reset, call?_reset,
    fun h _ => handset_reset h, fun k _ => channel_reset k, rfl, rfl, rfl, rfl, rfl, rfl, fun k _ => key_reset k,
    stored?_reset, rfl, rfl, rfl, rfl, rfl, rfl, rfl, rfl⟩
  · rw [seat?_reset, if_pos hi]
    rfl
  · rw [sitting_reset]
    exact ⟨rfl, rfl, rfl, rfl, rfl, rfl, rfl, rfl, rfl, rfl, rfl, rfl, rfl, rfl, rfl, rfl, rfl, rfl⟩
  · rw [link_reset]
    exact ⟨rfl, rfl, rfl, rfl, rfl, rfl, rfl⟩

end Sys2Proof.Machine
end

