-- ==== Sys2Proof/Proofs/Outcomes.lean ====
section
/-!
PROOFS. The outcome of a transaction (R83): the link's window, a unit's runs, and the faults a run of three calls for (R7,
R8, R89 to R91).
-/

namespace Sys2Proof.Machine

/-! ### Fault claims (R7) -/

/-- The candidate bound to a seat is the one in the slot the seat's record names. -/
theorem boundTo_eq_some {s : State} {i c : Nat} {y : Candidate} :
    s.boundTo i = some (c, y) ↔ (∃ x, s.seat? i = some x ∧ x.bound = some c) ∧ s.cand? c = some y := by
  unfold State.boundTo
  cases hx : s.seat? i with
  | none => simp
  | some x =>
    cases hb : x.bound with
    | none => simp [hb]
    | some b =>
      simp only [Option.bind_some, hb, Option.map_eq_some_iff, Prod.mk.injEq, Option.some.injEq, exists_eq_left']
      constructor
      · rintro ⟨z, hz, rfl, rfl⟩
        exact ⟨rfl, hz⟩
      · rintro ⟨rfl, hy⟩
        exact ⟨y, hy, rfl, rfl⟩

theorem faultClaim_ignored {s : State} {i : Nat} {x : Seat} (kind : FaultKind) (hx : s.seat? i = some x)
    (h : x.state = .faulted ∨ x.state = .absent) : s.faultClaim i kind = s := by
  simp [State.faultClaim, hx, h]

/-- The seat FAULTED with its notice, before a relocation is asked for. -/
def State.faulted (s : State) (i : Nat) (x : Seat) (kind : FaultKind) : State :=
  (s.modSeat i (fun y => { y with
    state := .faulted, fault := some kind, answering := false, heldOrigin := (x.state == .held) })).notify
    (.seatFault i kind ((s.boundTo i).map (fun b => (b.1, b.2.number))))

theorem faultClaim_taken {s : State} {i : Nat} {x : Seat} (kind : FaultKind) (hx : s.seat? i = some x)
    (hf : x.state ≠ .faulted) (ha : x.state ≠ .absent) : s.faultClaim i kind =
      match s.boundTo i with
      | some (c, y) =>
        if y.state.relocatable then
          { s.faulted i x kind with sal.relocations := (s.faulted i x kind).sal.relocations ++ [(c, i)] }
        else s.faulted i x kind
      | none => s.faulted i x kind := by
  have hheld : decide (x.state = .held) = (x.state == .held) := rfl
  cases hb : s.boundTo i <;> simp [State.faultClaim, State.faulted, State.boundNumber, hx, hf, ha, hb, hheld]

theorem faultClaim_relocates {s : State} {i c : Nat} {x : Seat} {y : Candidate} (kind : FaultKind)
    (hx : s.seat? i = some x) (hf : x.state ≠ .faulted) (ha : x.state ≠ .absent) (hb : s.boundTo i = some (c, y))
    (hy : y.state.relocatable = true) : s.faultClaim i kind =
      { s.faulted i x kind with sal.relocations := s.sal.relocations ++ [(c, i)] } := by
  have hsal : (s.faulted i x kind).sal = s.sal := notify_sal _ _
  simp [faultClaim_taken kind hx hf ha, hb, hy, hsal]

theorem faultClaim_stays {s : State} {i : Nat} {x : Seat} (kind : FaultKind) (hx : s.seat? i = some x)
    (hf : x.state ≠ .faulted) (ha : x.state ≠ .absent)
    (hb : ∀ c y, s.boundTo i = some (c, y) → y.state.relocatable = false) :
    s.faultClaim i kind = s.faulted i x kind := by
  rw [faultClaim_taken kind hx hf ha]
  cases h : s.boundTo i with
  | none => rfl
  | some b => simp [hb b.1 b.2 h]

/-! ### The runs of a unit (R83, R89 to R91) -/

/-- What a run that has reached 3 calls for. -/
theorem faultReached_eq (u : UnitRec) : u.faultReached =
    if 3 ≤ u.missRun then some .silent else if 3 ≤ u.staleRun then some .clock else none := rfl

/-- Did the good run reach 3 with this outcome? -/
theorem reachesGood_iff {u v : UnitRec} : reachesGood u v = true ↔ u.goodRun < 3 ∧ v.goodRun = 3 := by
  simp [reachesGood]

/-- A miss ends the good run, so it does not bring it to 3. -/
theorem reachesGood_miss (u : UnitRec) : reachesGood u (u.count .miss) = false := by
  simp [reachesGood, UnitRec.count]

/-- The answering flag that an outcome writes: cleared by a miss, set by the third good reply in a run. -/
def State.answers (s : State) (i : Nat) (o : PollOutcome) (reached : Bool) : State :=
  if o = .miss then s.answeringClaim i false else if reached then s.answeringClaim i true else s

/-- A seat unit's runs and its answering flag after an outcome, before a fault is claimed. -/
def State.seatCounted (s : State) (l : LinkName) (i : Nat) (o : PollOutcome) : State :=
  (s.modUnit l i (fun _ => ((s.unit l i).count o).setBack)).answers i o
    (reachesGood (s.unit l i) ((s.unit l i).count o))

/-- The fault a seat unit's runs call for is claimed last. -/
theorem countSeat_eq (s : State) (l : LinkName) (i : Nat) (o : PollOutcome) : s.countSeat l i o =
    (((s.unit l i).count o).faultReached).elim (s.seatCounted l i o) (fun k => (s.seatCounted l i o).faultClaim i k) := by
  by_cases ho : o = .miss
  · subst ho
    cases hk : ((s.unit l i).count .miss).faultReached <;>
      simp [State.countSeat, State.seatCounted, State.answers, reachesGood_miss, hk]
  · cases hk : ((s.unit l i).count o).faultReached <;>
      simp [State.countSeat, State.seatCounted, State.answers, ho, hk]

/-- The record of a floor unit written twice holds what was written last. -/
theorem modUnit_floor_twice (s : State) (a : Nat) (u : UnitRec) (g : UnitRec → UnitRec) :
    (s.modUnit .floor a (fun _ => u)).modUnit .floor a g = s.modUnit .floor a (fun _ => g u) := by
  simp [State.modUnit, modAt_modAt]

/-- An outcome leaves the floor fault as it is. -/
@[simp] theorem count_floorFault (u : UnitRec) (o : PollOutcome) : (u.count o).floorFault = u.floorFault := by
  cases o <;> rfl

section
variable {s : State} {a : Nat} {o : PollOutcome}

theorem countFloor_faults {k : FaultKind} (hk : ((s.unit .floor a).count o).faultReached = some k)
    (hf : (s.unit .floor a).floorFault = none) : s.countFloor a o =
      (s.modUnit .floor a (fun _ => { ((s.unit .floor a).count o).setBack with floorFault := some k })).notify
        (.unitFault a (unitKindOf a) (some k)) := by
  simp [State.countFloor, hk, hf, modUnit_floor_twice]

theorem countFloor_recovers (hk : ((s.unit .floor a).count o).faultReached = none)
    (hf : (s.unit .floor a).floorFault ≠ none)
    (hg : reachesGood (s.unit .floor a) ((s.unit .floor a).count o) = true) : s.countFloor a o =
      (s.modUnit .floor a (fun _ => { ((s.unit .floor a).count o).setBack with floorFault := none })).notify
        (.unitFault a (unitKindOf a) none) := by
  obtain ⟨k, hk'⟩ := Option.ne_none_iff_exists'.mp hf
  simp [State.countFloor, hk, hk', hg, modUnit_floor_twice]

theorem countFloor_counts (h : (((s.unit .floor a).count o).faultReached ≠ none ∧ (s.unit .floor a).floorFault ≠ none) ∨
    (((s.unit .floor a).count o).faultReached = none ∧ ((s.unit .floor a).floorFault = none ∨
      reachesGood (s.unit .floor a) ((s.unit .floor a).count o) = false))) :
    s.countFloor a o = s.modUnit .floor a (fun _ => ((s.unit .floor a).count o).setBack) := by
  cases hk : ((s.unit .floor a).count o).faultReached <;> cases hf : (s.unit .floor a).floorFault <;>
    simp [hk, hf] at h <;> simp [State.countFloor, hk, hf, h]

end

/-- A seat link's units are seat units. -/
theorem countUnit_seatLink (s : State) (l : SeatLink) (i : Nat) (o : PollOutcome) :
    s.countUnit l.link i o = s.countSeat l.link i o := by
  cases l <;> rfl

/-- The window of a link closed by an outcome, field by field (R92, R94). -/
theorem closeWindow_eq (x : Link) (o : PollOutcome) : x.closeWindow o = { x with
    current := none
    heardInCycle := x.heardInCycle || decide (o ≠ .miss)
    silentReported := x.silentReported && decide (o = .miss)
    repeatPending := x.repeatPending || decide (o = .unset) } := by
  cases o <;> simp [Link.closeWindow]

/-- Settles O47: the rules of the fault claim, of a seat unit's and a floor unit's runs, and of the link's window. -/
theorem outcomesCountAndFault : Obligations.OutcomesCountAndFault := by
  unfold Obligations.OutcomesCountAndFault
  refine ⟨fun u => ⟨rfl, rfl, rfl, rfl⟩, fun x echo => ⟨fun h => by simp [Link.echoOutcome, h],
    fun h hm => by simp [Link.echoOutcome, h, hm], fun h hm => by simp [Link.echoOutcome, h, hm]⟩,
    fun s i x kind hx => ⟨faultClaim_ignored kind hx, fun hf ha => ⟨fun c y hb hy =>
      faultClaim_relocates kind hx hf ha hb ((relocatable_iff _).mpr hy), fun h =>
      faultClaim_stays kind hx hf ha fun c y hb => ?_⟩⟩, fun s i v => ⟨rfl, fun x hx => ?_, fun j hj => ?_⟩,
    fun s i c y => boundTo_eq_some, fun s l i o => ?_, fun s l a o => ?_, fun s a o => ⟨fun k hk hf =>
      countFloor_faults hk hf, fun hk hf hg => countFloor_recovers hk hf (reachesGood_iff.mpr hg), fun h =>
      countFloor_counts ?_⟩⟩
  · rcases h with h | ⟨c', y', h, h1, h2, h3, h4⟩
    · exact nomatch h.symm.trans hb
    · obtain ⟨-, rfl⟩ := Prod.mk.inj (Option.some.inj (h.symm.trans hb))
      simp [← Bool.not_eq_true, relocatable_iff, h1, h2, h3, h4]
  · simp [State.answeringClaim, seat?_modSeat, hx]
  · simp [State.answeringClaim, seat?_modSeat, hj]
  · rw [countUnit_seatLink, countSeat_eq, faultReached_eq]
    simp only [State.seatCounted, State.answers, reachesGood_iff, UnitRec.setBack]
    by_cases hm : 3 ≤ ((s.unit l.link i).count o).missRun
    · simp only [hm, if_true, Option.elim_some]
    · by_cases hc : 3 ≤ ((s.unit l.link i).count o).staleRun <;>
        simp only [hm, hc, if_true, if_false, Option.elim_some, Option.elim_none]
  · simp only [State.endPoll, closeWindow_eq]
  · simpa [← reachesGood_iff, faultReached_eq] using h

end Sys2Proof.Machine
end

