-- ==== Sys2Proof/Proofs/Allocation.lean ====
section
/-!
PROOFS. The creation of a candidate (R29, R30), ALLOCATE, and ALLOCATE_RUN with its one ROUTE_MISS (R31).
-/

namespace Sys2Proof.Machine

/-! ### The lowest free slot (R11, R30) -/

/-- The slot found is free, and every lower one is taken. -/
theorem lowestFree_eq_some {s : State} {c : Nat} (hc : c < 512) (hfree : s.cand? c = none)
    (hlow : ∀ d, d < c → s.cand? d ≠ none) : lowestWhere (fun o => o.isNone) s.htu.cands = some c := by
  have hentry : ∀ d, d < 512 → s.htu.cands[d]? = some (s.cand? d) := fun d hd => by
    simp [State.cand?, hd]
  refine (lowestWhere_eq_some _ _ _).mpr ⟨none, by rw [hentry c hc, hfree], rfl, fun d hd y hy => ?_⟩
  rw [hentry d (by omega)] at hy
  obtain rfl := Option.some.inj hy
  simpa using Option.ne_none_iff_isSome.mp (hlow d hd)

/-- None is found when every slot is taken. -/
theorem lowestFree_eq_none {s : State} (h : ∀ c, c < 512 → s.cand? c ≠ none) :
    lowestWhere (fun o => o.isNone) s.htu.cands = none := by
  refine (lowestWhere_eq_none _ _).mpr fun x hx => ?_
  obtain ⟨c, hc, rfl⟩ := Vector.mem_iff_getElem.mp (Vector.mem_toList_iff.mp hx)
  simpa [State.cand?, hc, Option.ne_none_iff_isSome] using h c hc

/-- A record put in a slot and then changed is the changed record put there. -/
theorem modCand_putCand (s : State) {c : Nat} (hc : c < 512) (x : Candidate) (f : Candidate → Candidate) :
    (s.putCand c (some x)).modCand c f = s.putCand c (some (f x)) := by
  have hentries : modAt (s.htu.cands.setIfInBounds c (some x)) c (Option.map f) =
      s.htu.cands.setIfInBounds c (some (f x)) := by
    refine Vector.ext fun j hj => Option.some.inj ?_
    rw [← Vector.getElem?_eq_getElem hj, ← Vector.getElem?_eq_getElem hj, modAt_getElem?]
    by_cases h : j = c
    · subst h
      simp [hc]
    · simp [h, Ne.symm h]
  simp only [State.modCand, State.putCand, hentries]

/-- A record put in a slot and bound to a seat is the bound record put there. -/
theorem bindSeat_putCand (s : State) {c : Nat} (hc : c < 512) (x : Candidate) (i : Nat) :
    (s.putCand c (some x)).bindSeat c i =
      (s.putCand c (some { x with bound := some i })).modSeat i (fun y => { y with state := .assigned, bound := some c }) :=
  modCand_putCand (s.modSeat i (fun y => { y with state := .assigned, bound := some c })) hc x
    (fun y => { y with bound := some i })

/-! ### The creation of one candidate (R29, R30) -/

/-- The sittings that admit new candidates. -/
theorem admits_iff {x : Sitting} : x.admits = true ↔ x.state = .defined ∨ x.state = .armed ∨ x.state = .reading ∨
    (x.state = .writing ∧ x.clock < x.cutoff * 60) := by
  cases h : x.state <;> simp [Sitting.admits, h]

section
variable {s : State} {number : Nat} {e : Entry}

theorem createCandidate_notAdmitted (h : (s.sitting e.sitting).admits = false) : s.createCandidate number e =
    .error (refuse .refusedState .none (.sittingState (s.sitting e.sitting).state)) := by
  simp [State.createCandidate, h]

variable (hadm : (s.sitting e.sitting).admits = true)
include hadm

theorem createCandidate_duplicate {c : Nat} (h : s.activeSlot number = some c) :
    s.createCandidate number e = .error (refuse .duplicate .none (.slot c)) := by
  simp [State.createCandidate, hadm, h]

variable (hnew : s.activeSlot number = none)
include hnew

theorem createCandidate_tableFull (h : ∀ c, c < 512 → s.cand? c ≠ none) :
    s.createCandidate number e = .error (refuse .full .table) := by
  simp [State.createCandidate, hadm, hnew, lowestFree_eq_none h]

variable {c : Nat} (hc : c < 512) (hfree : s.cand? c = none) (hlow : ∀ d, d < c → s.cand? d ≠ none)
include hc hfree hlow

/-- The candidate takes the seat the search finds, EXPECTED. -/
theorem createCandidate_seated {i : Nat} (h : s.searchSeat e.sitting e.needs none = some i) : s.createCandidate number e =
    .ok ((s.putCand c (some { freshCandidate number e (s.route? (s.sitting e.sitting).paper).isNone with
      state := .expected, bound := some i })).modSeat i (fun y => { y with state := .assigned, bound := some c }),
      c, .seated i) := by
  simp [State.createCandidate, hadm, hnew, lowestFree_eq_some hc hfree hlow, h, bindSeat_putCand s hc]

/-- With no seat found the candidate joins the tail of the waiting queue. -/
theorem createCandidate_queued (h : s.searchSeat e.sitting e.needs none = none) (hq : s.sal.queue.length < 32) :
    s.createCandidate number e =
      .ok ({ s.putCand c (some (freshCandidate number e (s.route? (s.sitting e.sitting).paper).isNone)) with
        sal.queue := s.sal.queue ++ [c] }, c, .queued (s.sal.queue.length + 1)) := by
  simp [State.createCandidate, hadm, hnew, lowestFree_eq_some hc hfree hlow, h, hq]

theorem createCandidate_queueFull (h : s.searchSeat e.sitting e.needs none = none) (hq : 32 ≤ s.sal.queue.length) :
    s.createCandidate number e = .error (refuse .full .queue) := by
  simp [State.createCandidate, hadm, hnew, lowestFree_eq_some hc hfree hlow, h, Nat.not_lt.mpr hq]

end

/-! ### The ROUTE_MISS notice (R30, R31) -/

theorem noteRouteMiss_eq (s : State) (k c : Nat) : s.noteRouteMiss k c =
    if (s.route? (s.sitting k).paper).isNone then s.notify (.routeMiss k (s.sitting k).paper c) else s := by
  unfold State.noteRouteMiss
  cases s.route? (s.sitting k).paper <;> rfl

/-- A route found is an entry of the table with the paper code. -/
theorem mem_of_route? {s : State} {p : Paper} {r : Route} (h : s.route? p = some r) : r ∈ s.sal.routes ∧ r.paper = p :=
  ⟨List.mem_of_find?_eq_some h, by simpa using List.find?_some h⟩

/-- No route is found when no entry has the paper code. -/
theorem route?_eq_none {s : State} {p : Paper} (h : s.route? p = none) {r : Route} (hr : r ∈ s.sal.routes) :
    r.paper ≠ p := by
  simpa using List.find?_eq_none.mp h r hr

/-! ### ALLOCATE (R29, R30) -/

/-- The argument checks ALLOCATE and ALLOCATE_RUN share. -/
theorem entry_inRange {sitting needs allowance rest : Byte} (hk : sitting.toNat < 8) (hn : needs.toNat < 8)
    (ha : allowance.toNat ≤ 100) (h5 : allowance.toNat % 5 = 0) (hr : rest.toNat ≤ 60) :
    ∀ b ∈ entryChecks sitting needs allowance rest, b = true := by
  simp [entryChecks, isSitting, isAttrs, isAllowance, isRest, hk, hn, ha, h5, hr]

section
variable {number : Word} {sitting needs allowance rest : Byte} {s : State} (hl : s.listening = true)
  (hc : ∀ b ∈ isNumber number.toNat :: entryChecks sitting needs allowance rest, b = true)
include hl hc

theorem exec_allocate_refused {a : Answer}
    (h : s.toHunt.createCandidate number.toNat (entryOf sitting needs allowance rest) = .error a) :
    exec (.allocate number sitting needs allowance rest) s = s.toHunt.replied 0x0B a :=
  answerTo_withArgs hl hc (by simp [h])

theorem exec_allocate_taken {t : State} {c : Nat} {p : Placement}
    (h : s.toHunt.createCandidate number.toNat (entryOf sitting needs allowance rest) = .ok (t, c, p)) :
    exec (.allocate number sitting needs allowance rest) s =
      (t.noteRouteMiss sitting.toNat c).replied 0x0B ⟨p.status, .allocated c p⟩ :=
  answerTo_withArgs hl hc (by simp [h])

end

/-! ### ALLOCATE_RUN (R31) -/

section
variable {e : Entry} {number : Nat} {s t : State} {c : Nat} {p : Placement} {a : Answer}

theorem createRun_error (n : Nat) (h : s.createCandidate number e = .error a) :
    State.createRun e (n + 1) number s = (s, [], n + 1, some a.status) := by
  simp [State.createRun, h]

theorem createRun_ok (n : Nat) (h : s.createCandidate number e = .ok (t, c, p)) :
    State.createRun e (n + 1) number s = ((State.createRun e n (number + 1) t).1,
      (c, p) :: (State.createRun e n (number + 1) t).2.1, (State.createRun e n (number + 1) t).2.2) := by
  simp [State.createRun, h]

end

/-- A run of `n` numbers places no more than `n`, is in the state of the numbers it placed, and leaves the others. -/
theorem createRun_places (e : Entry) (n number : Nat) (s : State) :
    (State.createRun e n number s).2.1.length ≤ n ∧
    (State.createRun e (State.createRun e n number s).2.1.length number s).1 = (State.createRun e n number s).1 ∧
    (State.createRun e n number s).2.2.1 = n - (State.createRun e n number s).2.1.length := by
  induction n generalizing number s with
  | zero => exact ⟨Nat.le_refl _, rfl, rfl⟩
  | succ n ih =>
    cases h : s.createCandidate number e with
    | error a =>
      rw [createRun_error n h]
      exact ⟨Nat.zero_le _, rfl, rfl⟩
    | ok r =>
      obtain ⟨hle, hstate, hleft⟩ := ih (number + 1) r.1
      rw [createRun_ok (t := r.1) (c := r.2.1) (p := r.2.2) n h]
      refine ⟨Nat.succ_le_succ hle, ?_, ?_⟩
      · rw [List.length_cons, createRun_ok (t := r.1) (c := r.2.1) (p := r.2.2) _ h]
        exact hstate
      · rw [List.length_cons, Nat.succ_sub_succ]
        exact hleft

/-- Each number placed is one creation, on the state the numbers before it left. -/
theorem createRun_step (e : Entry) (n number : Nat) (s : State) {j : Nat} {q : Nat × Placement}
    (hq : (State.createRun e n number s).2.1[j]? = some q) :
    (State.createRun e j number s).1.createCandidate (number + j) e =
      .ok ((State.createRun e (j + 1) number s).1, q.1, q.2) := by
  induction n generalizing number s j with
  | zero => exact nomatch hq
  | succ n ih =>
    cases h : s.createCandidate number e with
    | error a =>
      rw [createRun_error n h] at hq
      exact nomatch hq
    | ok r =>
      rw [createRun_ok (t := r.1) (c := r.2.1) (p := r.2.2) n h] at hq
      rw [createRun_ok (t := r.1) (c := r.2.1) (p := r.2.2) j h]
      cases j with
      | zero =>
        obtain rfl := Option.some.inj hq
        exact h
      | succ j =>
        have hstep := ih (number + 1) r.1 hq
        rw [Nat.add_assoc, Nat.add_comm 1 j] at hstep
        rw [createRun_ok (t := r.1) (c := r.2.1) (p := r.2.2) j h]
        exact hstep

/-- A run that stops short was refused at the first number it did not place. -/
theorem createRun_stop (e : Entry) (n number : Nat) (s : State) :
    ((State.createRun e n number s).2.1.length = n → (State.createRun e n number s).2.2.2 = none) ∧
    ((State.createRun e n number s).2.1.length < n → ∃ a,
      (State.createRun e n number s).1.createCandidate (number + (State.createRun e n number s).2.1.length) e = .error a ∧
      (State.createRun e n number s).2.2.2 = some a.status) := by
  induction n generalizing number s with
  | zero => exact ⟨fun _ => rfl, fun h => absurd h (Nat.lt_irrefl 0)⟩
  | succ n ih =>
    cases h : s.createCandidate number e with
    | error a =>
      rw [createRun_error n h]
      exact ⟨nofun, fun _ => ⟨a, h, rfl⟩⟩
    | ok r =>
      obtain ⟨hall, hshort⟩ := ih (number + 1) r.1
      rw [createRun_ok (t := r.1) (c := r.2.1) (p := r.2.2) n h]
      refine ⟨fun hlen => hall (Nat.succ.inj hlen), fun hlen => ?_⟩
      obtain ⟨a, ha, hs⟩ := hshort (Nat.lt_of_succ_lt_succ hlen)
      rw [Nat.add_assoc, Nat.add_comm 1] at ha
      exact ⟨a, ha, hs⟩

section
variable {base : Word} {count sitting needs allowance rest : Byte} {s : State} (hl : s.listening = true)
  (hc : ∀ b ∈ runChecks base count ++ entryChecks sitting needs allowance rest, b = true)
include hl hc

/-- The reply counts the numbers done and those remaining, and is PARTIAL when some remain. -/
theorem exec_allocateRun {r : State × List (Nat × Placement) × Nat × Option Status}
    (hr : State.createRun (entryOf sitting needs allowance rest) count.toNat base.toNat s.toHunt = r) :
    exec (.allocateRun base count sitting needs allowance rest) s =
      (r.1.noteRunMiss sitting.toNat r.2.1).replied 0x0C
        ⟨if r.2.2.1 = 0 then .ok else .isPartial, .run (count.toNat - r.2.2.1) r.2.2.1 r.2.1 r.2.2.2⟩ := by
  subst hr
  exact answerTo_withArgs hl hc rfl

end

/-- Settles O25: a creation by the first of its checks that refuses, for ALLOCATE as it stands; a run is one creation after
another on the states they leave. -/
theorem allocateCreatesCandidates : Obligations.AllocateCreatesCandidates := by
  unfold Obligations.AllocateCreatesCandidates
  refine ⟨fun number sitting needs allowance rest s hl hlo hhi hk hn ha h5 hr => ?_,
    fun base count sitting needs allowance rest s hl hlo h1 h64 hhi hk hn ha h5 hr => ?_,
    fun s number e => ⟨fun hno => ?_, fun c hadm hdup => ?_, fun hadm hnew => ⟨fun hall => ?_, fun c hc hfree hlow =>
      ⟨fun i hf => ?_, fun hf hq => ?_, fun hf hq => ?_⟩⟩⟩,
    fun s k => ⟨rfl, fun c place rest hmiss => ?_, fun r places hroute => ?_⟩,
    fun s p => ⟨fun r hr => mem_of_route? hr, fun hmiss r hr => route?_eq_none hmiss hr⟩⟩
  · have hc : ∀ b ∈ isNumber number.toNat :: entryChecks sitting needs allowance rest, b = true :=
      List.forall_mem_cons.mpr ⟨by simp [isNumber, hlo, hhi], entry_inRange hk hn ha h5 hr⟩
    let e := entryOf sitting needs allowance rest
    have hadmits : (s.toHunt.sitting e.sitting).admits = true ↔ _ := admits_iff (x := s.sitting sitting.toNat)
    have hseat : ∀ o, s.searchSeat e.sitting e.needs none = o → s.toHunt.searchSeat e.sitting e.needs none = o :=
      fun o h => (toHunt_searchSeat s _ _ _).trans h
    refine ⟨fun hno => ?_, fun hadm => ⟨fun c hdup => ?_, fun hnew => ⟨fun hall => ?_, fun c hslot hfree hlow =>
      ⟨fun i hf => ?_, fun hf hq => ?_, fun hf hq => ?_⟩⟩⟩⟩
    · exact exec_allocate_refused hl hc (createCandidate_notAdmitted (by simpa [← hadmits] using hno))
    · exact exec_allocate_refused hl hc (createCandidate_duplicate (hadmits.mpr hadm) hdup)
    · exact exec_allocate_refused hl hc (createCandidate_tableFull (hadmits.mpr hadm) hnew hall)
    · refine (exec_allocate_taken hl hc
        (createCandidate_seated (hadmits.mpr hadm) hnew hslot hfree hlow (hseat _ hf))).trans ?_
      rw [noteRouteMiss_eq]
      rfl
    · refine (exec_allocate_taken hl hc
        (createCandidate_queued (hadmits.mpr hadm) hnew hslot hfree hlow (hseat _ hf) hq)).trans ?_
      rw [noteRouteMiss_eq]
      rfl
    · exact exec_allocate_refused hl hc
        (createCandidate_queueFull (hadmits.mpr hadm) hnew hslot hfree hlow (hseat _ hf) hq)
  · have hc : ∀ b ∈ runChecks base count ++ entryChecks sitting needs allowance rest, b = true := by
      refine List.forall_mem_append.mpr ⟨?_, entry_inRange hk hn ha h5 hr⟩
      simp [runChecks, isNumber, hlo, h1, h64]
      omega
    let e : Entry := ⟨sitting.toNat, attrsOf needs, allowance.toNat, rest.toNat⟩
    let r := State.createRun e count.toNat base.toNat s.toHunt
    obtain ⟨hle, hstate, hleft⟩ : r.2.1.length ≤ count.toNat ∧ _ ∧ r.2.2.1 = count.toNat - r.2.1.length := createRun_places e count.toNat base.toNat s.toHunt
    obtain ⟨hall, hshort⟩ := createRun_stop e count.toNat base.toNat s.toHunt
    have hexec := exec_allocateRun hl hc (r := r) rfl
    refine ⟨r.1, r.2.1, fun j => (State.createRun e j base.toNat s.toHunt).1, hle, rfl, hstate,
      fun j p hp => createRun_step e count.toNat base.toNat s.toHunt hp, fun hlen => ?_, fun hlen => ?_⟩
    · have hzero : r.2.2.1 = 0 := by omega
      rw [hexec, hzero, hall hlen]
      rfl
    · obtain ⟨a, herr, hstop⟩ := hshort hlen
      have hdone : count.toNat - r.2.2.1 = r.2.1.length := by omega
      have hsome : r.2.2.1 ≠ 0 := by omega
      refine ⟨a, herr, ?_⟩
      rw [hexec, if_neg hsome, hdone, hleft, hstop]
  · exact createCandidate_notAdmitted (by simpa [← admits_iff] using hno)
  · exact createCandidate_duplicate (admits_iff.mpr hadm) hdup
  · exact createCandidate_tableFull (admits_iff.mpr hadm) hnew hall
  · exact createCandidate_seated (admits_iff.mpr hadm) hnew hc hfree hlow hf
  · exact createCandidate_queued (admits_iff.mpr hadm) hnew hc hfree hlow hf hq
  · exact createCandidate_queueFull (admits_iff.mpr hadm) hnew hc hfree hlow hf hq
  · simp [State.noteRunMiss, noteRouteMiss_eq, hmiss]
  · cases places <;> simp [State.noteRunMiss, noteRouteMiss_eq, hroute]

end Sys2Proof.Machine
end

