-- ==== Sys2Proof/Proofs/Clearing.lean ====
section
/-!
PROOFS. The clearing of several bindings in one event (R17, R18), and absence at the late cutoff (R17).
-/

namespace Sys2Proof.Machine

/-! ### Several bindings -/

/-- The seats named after one clearing: that candidate names none. -/
theorem seatOf_clearBinding (s : State) (c d : Nat) :
    (s.clearBinding c).1.seatOf d = if d = c then none else s.seatOf d := by
  by_cases h : d = c
  · subst h
    cases hx : s.cand? d <;> simp [State.seatOf, cand?_clearBinding, hx]
  · simp [State.seatOf, cand?_clearBinding, h]

/-- Unbinding a seat makes no difference to whether it would be released. -/
theorem freesOnUnbind_clearBinding (s : State) (c j : Nat) :
    (s.clearBinding c).1.freesOnUnbind j = s.freesOnUnbind j := by
  refine Bool.eq_iff_iff.mpr ?_
  rw [freesOnUnbind_iff, freesOnUnbind_iff, seat?_clearBinding]
  split
  · cases s.seat? j <;> simp
  · exact Iff.rfl

@[simp] theorem clearBindings_nil (s : State) : s.clearBindings [] = (s, false) := rfl

/-- The first binding is cleared, then the rest; the answer is that of either. -/
theorem clearBindings_cons (s : State) (c : Nat) (l : List Nat) : s.clearBindings (c :: l) =
    (((s.clearBinding c).1.clearBindings l).1, (s.clearBinding c).2 || ((s.clearBinding c).1.clearBindings l).2) := by
  have carry : ∀ (l : List Nat) (t : State) (b : Bool),
      l.foldl (fun (r : State × Bool) c => ((r.1.clearBinding c).1, r.2 || (r.1.clearBinding c).2)) (t, b) =
        ((t.clearBindings l).1, b || (t.clearBindings l).2) := by
    intro l
    induction l with
    | nil => intro t b; simp
    | cons d l ih =>
      intro t b
      have hone : t.clearBindings (d :: l) = l.foldl (fun (r : State × Bool) c =>
          ((r.1.clearBinding c).1, r.2 || (r.1.clearBinding c).2)) ((t.clearBinding d).1, (t.clearBinding d).2) := by
        simp [State.clearBindings]
      rw [hone, List.foldl_cons, ih, ih, Bool.or_assoc]
  exact carry l (s.clearBinding c).1 (false || (s.clearBinding c).2) |>.trans (by simp)

/-- The candidates listed have no seat. -/
theorem cand?_clearBindings (l : List Nat) (s : State) (d : Nat) : (s.clearBindings l).1.cand? d =
    if d ∈ l then (s.cand? d).map (fun x => { x with bound := none }) else s.cand? d := by
  induction l generalizing s with
  | nil => simp
  | cons c l ih =>
    rw [clearBindings_cons, ih, cand?_clearBinding]
    by_cases hd : d = c
    · subst hd
      by_cases hl : d ∈ l <;> simp [hl, Function.comp_def]
    · simp [hd]

/-- The seats they named are unbound. -/
theorem seat?_clearBindings (l : List Nat) (s : State) (j : Nat) : (s.clearBindings l).1.seat? j =
    if ∃ c ∈ l, s.seatOf c = some j then (s.seat? j).map Seat.unbind else s.seat? j := by
  induction l generalizing s with
  | nil => simp
  | cons c l ih =>
    rw [clearBindings_cons, ih, seat?_clearBinding]
    by_cases hc : s.seatOf c = some j
    · have hhead : ∃ d ∈ c :: l, s.seatOf d = some j := ⟨c, List.mem_cons_self, hc⟩
      rw [if_pos hhead, if_pos hc]
      split <;> simp [Function.comp_def]
    · have hiff : (∃ d ∈ l, (s.clearBinding c).1.seatOf d = some j) ↔ ∃ d ∈ c :: l, s.seatOf d = some j := by
        simp only [seatOf_clearBinding, List.mem_cons]
        constructor
        · rintro ⟨d, hd, h⟩
          split at h
          · exact nomatch h
          · exact ⟨d, .inr hd, h⟩
        · rintro ⟨d, rfl | hd, h⟩
          · exact absurd h hc
          · exact ⟨d, hd, by rw [if_neg (by rintro rfl; exact hc h)]; exact h⟩
      simp only [hiff, if_neg hc]

/-- The calls of those that had a seat are detached. -/
theorem call?_clearBindings (l : List Nat) (s : State) (n : Nat) : (s.clearBindings l).1.call? n =
    (s.call? n).map (fun y => if y.slot ∈ l ∧ (s.seatOf y.slot).isSome then { y with seat := none } else y) := by
  induction l generalizing s with
  | nil => simp
  | cons c l ih =>
    rw [clearBindings_cons, ih, call?_clearBinding]
    cases hy : s.call? n with
    | none => rfl
    | some y =>
      by_cases hc : y.slot = c
      · subst hc
        cases hb : s.seatOf y.slot <;> simp [seatOf_clearBinding, hb]
      · simp [seatOf_clearBinding, hc]

/-- Some seat became FREE: one that a candidate listed named, and that was not FAULTED. -/
theorem clearBindings_snd (l : List Nat) (s : State) : (s.clearBindings l).2 = true ↔
    ∃ c ∈ l, ∃ i z, s.seatOf c = some i ∧ s.seat? i = some z ∧ z.state ≠ .faulted := by
  have hany : (s.clearBindings l).2 = true ↔ ∃ c ∈ l, (s.seatOf c).any s.freesOnUnbind = true := by
    induction l generalizing s with
    | nil => simp
    | cons c l ih =>
      rw [clearBindings_cons, Bool.or_eq_true, ih, clearBinding_snd]
      simp only [seatOf_clearBinding, funext (freesOnUnbind_clearBinding s c), List.mem_cons]
      constructor
      · rintro (h | ⟨d, hd, h⟩)
        · exact ⟨c, .inl rfl, h⟩
        · split at h
          · exact absurd h (by simp)
          · exact ⟨d, .inr hd, h⟩
      · rintro ⟨d, rfl | hd, h⟩
        · exact .inl h
        · by_cases hdc : d = c
          · exact .inl (hdc ▸ h)
          · exact .inr ⟨d, hd, by rwa [if_neg hdc]⟩
  simp only [hany, Option.any_eq_true, freesOnUnbind_iff, exists_and_left]

/-- Beyond the two tables and the calls nothing changes. -/
theorem clearBindings_frame (l : List Nat) (s : State) : (s.clearBindings l).1 =
    { s with htu := (s.clearBindings l).1.htu, cdp.calls := (s.clearBindings l).1.cdp.calls } := by
  induction l generalizing s with
  | nil => rfl
  | cons c l ih =>
    rw [clearBindings_cons, ih, clearBinding_frame]

/-- What a clearing of the bindings of the candidates that pass a test comes to, told from a state `s` with the same seats,
calls and bindings. -/
theorem clearedFor_clearBindings {s t : State} {p : Candidate → Bool} {slots : List Nat}
    (hslots : ∀ c, c ∈ slots ↔ ∃ x, s.cand? c = some x ∧ p x = true) (hbound : ∀ c, t.seatOf c = s.seatOf c)
    (hseat : ∀ i, t.seat? i = s.seat? i) (hcall : ∀ n, t.call? n = s.call? n)
    (hretry : t.sal.retryDue = s.sal.retryDue) :
    s.clearedFor ((t.clearBindings slots).1.askRetryIf (t.clearBindings slots).2) p := by
  have hnamed : ∀ i, (∃ c ∈ slots, t.seatOf c = some i) ↔
      ∃ c x, s.cand? c = some x ∧ p x = true ∧ x.bound = some i := by
    intro i
    simp only [hslots, hbound]
    constructor
    · rintro ⟨c, ⟨x, hx, hp⟩, h⟩
      exact ⟨c, x, hx, hp, (seatOf_eq hx).symm.trans h⟩
    · rintro ⟨c, x, hx, hp, hb⟩
      exact ⟨c, ⟨x, hx, hp⟩, (seatOf_eq hx).trans hb⟩
  have hfreed : (t.clearBindings slots).2 = true ↔
      ∃ i z, (∃ c x, s.cand? c = some x ∧ p x = true ∧ x.bound = some i) ∧ s.seat? i = some z ∧ z.state ≠ .faulted := by
    rw [clearBindings_snd]
    simp only [← hnamed, hseat]
    constructor
    · rintro ⟨c, hc, i, z, hi, hz⟩
      exact ⟨i, z, ⟨c, hc, hi⟩, hz⟩
    · rintro ⟨i, z, ⟨c, hc, hi⟩, hz⟩
      exact ⟨c, hc, i, z, hi, hz⟩
  have hsal : (t.clearBindings slots).1.sal.retryDue = s.sal.retryDue := by rw [clearBindings_frame]; exact hretry
  refine ⟨fun i z hz hi => ?_, fun i hi => ?_, fun n => ?_, fun h => ?_, fun h => ?_⟩
  · rw [askRetryIf_seat?, seat?_clearBindings, if_pos ((hnamed i).mpr hi), hseat, hz]
    rfl
  · rw [askRetryIf_seat?, seat?_clearBindings, if_neg (fun h => hi ((hnamed i).mp h)), hseat]
  · rw [askRetryIf_call?, call?_clearBindings, hcall]
    refine congrArg (fun f => (s.call? n).map f) (funext fun y => if_congr ?_ rfl rfl)
    cases hx : s.cand? y.slot with
    | none => simp [hslots, hx]
    | some x => simp [hslots, hbound, seatOf_eq hx, hx]
  · rw [askRetryIf_retryDue, if_pos (hfreed.mpr h), hsal]
  · rw [askRetryIf_retryDue, if_neg (fun hf => h (hfreed.mp hf)), hsal]

/-- Only the seats, the calls and the passes asked for are looked at. -/
theorem clearedFor_of_same {s u v : State} {p : Candidate → Bool} (h : s.clearedFor u p) (hseat : ∀ i, v.seat? i = u.seat? i)
    (hcall : ∀ n, v.call? n = u.call? n) (hretry : v.sal.retryDue = u.sal.retryDue) : s.clearedFor v p := by
  obtain ⟨hnamed, hother, hcalls, hfreed, hnot⟩ := h
  exact ⟨fun i z hz hi => (hseat i).trans (hnamed i z hz hi), fun i hi => (hseat i).trans (hother i hi),
    fun n => (hcall n).trans (hcalls n), fun hf => hretry.trans (hfreed hf), fun hf => hretry.trans (hnot hf)⟩

end Sys2Proof.Machine
end

