-- ==== Sys2Proof/Proofs/Points.lean ====
section
/-!
PROOFS. The points of a writing clock (R52 to R55) and what they do: the warning, the late cutoff with its absence claim
(R17, R53), the writing compare (R54), and the entries fired at the end of an event (R65).
-/

namespace Sys2Proof.Machine

/-! ### A sitting's record -/

/-- Two changes that agree on the record as it stands are one change. -/
theorem modSitting_congr {s : State} {k : Nat} {f g : Sitting → Sitting} (h : f (s.sitting k) = g (s.sitting k)) :
    s.modSitting k f = s.modSitting k g := by
  unfold State.modSitting
  refine congrArg (fun v => { s with tme.sittings := v }) (Vector.ext fun j hj => Option.some.inj ?_)
  rw [← Vector.getElem?_eq_getElem hj, ← Vector.getElem?_eq_getElem hj, modAt_getElem?, modAt_getElem?]
  by_cases hjk : j = k
  · subst hjk
    have hrec : s.sitting j = s.tme.sittings[j] := by simp [State.sitting, Vector.getElem?_eq_getElem hj]
    simp [← hrec, h, Vector.getElem?_eq_getElem hj]
  · simp [hjk]

@[simp] theorem notify_sitting (s : State) (b : NoticeBody) (k : Nat) : (s.notify b).sitting k = s.sitting k := by
  simp [State.sitting]

/-- The PHASE notice after a change gives the record as changed. -/
theorem notePhase_modSitting (s : State) {k : Nat} (f : Sitting → Sitting) (cause : PhaseCause) (hk : k < 8) :
    (s.modSitting k f).notePhase k cause = (s.modSitting k f).notify
      (.phase k (f (s.sitting k)).state (f (s.sitting k)).held (f (s.sitting k)).clock cause) := by
  simp [State.notePhase, sitting_modSitting, hk]

/-! ### The points reached -/

theorem writes_iff (x : SittingState) : x.writes = true ↔ x = .writing ∨ x = .extended := by
  cases x <;> simp [SittingState.writes]

theorem warningReached_iff (x : Sitting) : x.warningReached = true ↔
    ∃ i w, x.nextWarning = i + 1 ∧ x.warnings[i]? = some w ∧ (x.writing - w) * 60 ≤ x.clock := by
  unfold Sitting.warningReached
  cases hn : x.nextWarning with
  | zero => simp
  | succ i => cases hw : x.warnings[i]? <;> simp [hw]

theorem cutoffReached_iff (x : Sitting) : x.cutoffReached = true ↔
    (x.state = .writing ∨ x.state = .extended) ∧ x.cutoffTaken = false ∧ x.cutoff * 60 ≤ x.clock := by
  simp [Sitting.cutoffReached, writes_iff, and_assoc]

theorem compareReached_iff (x : Sitting) : x.compareReached = true ↔ x.state = .writing ∧ x.writing * 60 ≤ x.clock := by
  simp [Sitting.compareReached]

/-- No warning's point is reached: none is left, the index is past the list, or the clock is before the point. -/
theorem warningReached_eq_false {x : Sitting} (h : x.nextWarning = 0 ∨ x.warnings[x.nextWarning - 1]? = none ∨
    ∃ w, x.warnings[x.nextWarning - 1]? = some w ∧ x.clock < (x.writing - w) * 60) : x.warningReached = false := by
  refine Bool.eq_false_iff.mpr fun hr => ?_
  obtain ⟨i, w, hn, hw, hclock⟩ := (warningReached_iff x).mp hr
  rw [hn, Nat.add_sub_cancel, hw] at h
  rcases h with h | h | ⟨v, hv, h⟩
  · exact nomatch h
  · exact nomatch h
  · exact absurd hclock (Nat.not_le.mpr (Option.some.inj hv ▸ h))

/-! ### A sitting warning (R52) -/

theorem giveWarning_of_reached {s : State} {k i w : Nat} (hn : (s.sitting k).nextWarning = i + 1)
    (hw : (s.sitting k).warnings[i]? = some w) (hc : ((s.sitting k).writing - w) * 60 ≤ (s.sitting k).clock) :
    s.giveWarning k = (s.notify (.warning k (i + 1) w)).modSitting k (fun y => { y with nextWarning := i + 2 }) := by
  have hr := (warningReached_iff (s.sitting k)).mpr ⟨i, w, hn, hw, hc⟩
  simp only [State.giveWarning, hr, if_true, hn, Nat.add_sub_cancel, hw, Option.getD_some]
  exact modSitting_congr (by simp [hn])

/-! ### Absence (R17) -/

/-- The candidates of a sitting that have not checked in. -/
def notCheckedIn (k : Nat) (y : Candidate) : Bool :=
  y.sitting == k && (y.state == .waiting || y.state == .expected)

theorem notCheckedIn_iff (k : Nat) (y : Candidate) :
    notCheckedIn k y = true ↔ y.sitting = k ∧ (y.state = .waiting ∨ y.state = .expected) := by
  simp [notCheckedIn]

/-- The candidates listed become ABSENT and leave the queue. -/
def State.markAbsent (s : State) (slots : List Nat) : State :=
  s.forEach slots (fun c t => (t.leaveQueue c).modCand c (fun x => { x with state := .absent }))

@[simp] theorem markAbsent_nil (s : State) : s.markAbsent [] = s := rfl

theorem markAbsent_cons (s : State) (c : Nat) (l : List Nat) : s.markAbsent (c :: l) =
    ((s.leaveQueue c).modCand c (fun x => { x with state := .absent })).markAbsent l := rfl

theorem cand?_markAbsent (l : List Nat) (s : State) (d : Nat) : (s.markAbsent l).cand? d =
    if d ∈ l then (s.cand? d).map (fun x => { x with state := .absent }) else s.cand? d := by
  induction l generalizing s with
  | nil => simp
  | cons c l ih =>
    have hleft : (s.leaveQueue c).cand? = s.cand? := rfl
    rw [markAbsent_cons, ih, cand?_modCand, hleft]
    by_cases hd : d = c
    · subst hd
      by_cases hl : d ∈ l <;> simp [hl, Function.comp_def]
    · simp [hd]

/-- Nobody's binding changes. -/
theorem seatOf_markAbsent (l : List Nat) (s : State) (d : Nat) : (s.markAbsent l).seatOf d = s.seatOf d := by
  unfold State.seatOf
  rw [cand?_markAbsent]
  split <;> cases s.cand? d <;> rfl

/-- The order of the others in the queue is kept. -/
theorem queue_markAbsent (l : List Nat) (s : State) :
    (s.markAbsent l).sal.queue = s.sal.queue.filter (fun c => !decide (c ∈ l)) := by
  induction l generalizing s with
  | nil => simp
  | cons c l ih =>
    have hleft : ((s.leaveQueue c).modCand c (fun x => { x with state := .absent })).sal.queue =
        s.sal.queue.filter (· != c) := rfl
    rw [markAbsent_cons, ih, hleft, List.filter_filter]
    refine List.filter_congr fun d _ => ?_
    by_cases hd : d = c <;> simp [hd]

/-- Beyond the candidates and the queue nothing changes. -/
theorem markAbsent_frame (l : List Nat) (s : State) : s.markAbsent l =
    { s with htu.cands := (s.markAbsent l).htu.cands, sal.queue := (s.markAbsent l).sal.queue } := by
  induction l generalizing s with
  | nil => rfl
  | cons c l ih => rw [markAbsent_cons, ih]; rfl

theorem seat?_markAbsent (l : List Nat) (s : State) (i : Nat) : (s.markAbsent l).seat? i = s.seat? i := by
  rw [markAbsent_frame]; rfl

theorem call?_markAbsent (l : List Nat) (s : State) (n : Nat) : (s.markAbsent l).call? n = s.call? n := by
  rw [markAbsent_frame]; rfl

theorem retryDue_markAbsent (l : List Nat) (s : State) : (s.markAbsent l).sal.retryDue = s.sal.retryDue := by
  rw [markAbsent_frame]

theorem absenceClaim_eq (s : State) (k : Nat) : s.absenceClaim k =
    (let slots := s.slotsWhere (notCheckedIn k)
     let r := (s.markAbsent slots).clearBindings slots
     (r.1.askRetryIf r.2, s.countCands (notCheckedIn k))) := rfl

/-- Those not checked in are ABSENT and have no seat; every other record is as before. -/
theorem cand?_absenceClaim (s : State) (k d : Nat) : (s.absenceClaim k).1.cand? d =
    (s.cand? d).map (fun y => if notCheckedIn k y then { y with state := .absent, bound := none } else y) := by
  simp only [absenceClaim_eq, askRetryIf_cand?, cand?_clearBindings, cand?_markAbsent, mem_slotsWhere]
  cases s.cand? d with
  | none => simp
  | some y => cases hp : notCheckedIn k y <;> simp [hp]

/-- Their seats are freed and their calls detached. -/
theorem clearedFor_absenceClaim (s : State) (k : Nat) : s.clearedFor (s.absenceClaim k).1 (notCheckedIn k) :=
  clearedFor_clearBindings (fun _ => mem_slotsWhere) (seatOf_markAbsent _ s) (seat?_markAbsent _ s)
    (call?_markAbsent _ s) (retryDue_markAbsent _ s)

/-- They have left the waiting queue. -/
theorem queue_absenceClaim (s : State) (k : Nat) : (s.absenceClaim k).1.sal.queue =
    s.sal.queue.filter (fun c => !(s.cand? c).any (notCheckedIn k)) := by
  have hclear := congrArg (fun t : State => t.sal.queue)
    (clearBindings_frame (s.slotsWhere (notCheckedIn k)) (s.markAbsent (s.slotsWhere (notCheckedIn k))))
  simp only [absenceClaim_eq, askRetryIf_eq, hclear, queue_markAbsent]
  refine List.filter_congr fun c _ => congrArg _ (Bool.eq_iff_iff.mpr ?_)
  simp [mem_slotsWhere, Option.any_eq_true]

/-- Beyond the two tables, the queue, the passes asked for and the calls nothing changes. -/
theorem absenceClaim_frame (s : State) (k : Nat) : (s.absenceClaim k).1 = { s with
    htu := (s.absenceClaim k).1.htu
    sal.queue := (s.absenceClaim k).1.sal.queue
    sal.retryDue := (s.absenceClaim k).1.sal.retryDue
    cdp.calls := (s.absenceClaim k).1.cdp.calls } := by
  simp only [absenceClaim_eq, askRetryIf_eq]
  rw [clearBindings_frame, markAbsent_frame]

/-! ### The late cutoff (R53) -/

/-- A notice reads the hall clock and the notice queue alone: a change beside them may come before or after it. -/
theorem notify_beside (s : State) (b : NoticeBody) (htu : Htu) (queue : List Nat) (due : Nat)
    (sittings : Vector Sitting 8) (calls : Vector (Option Call) 48) :
    State.notify { s with
      htu := htu, sal.queue := queue, sal.retryDue := due, tme.sittings := sittings, cdp.calls := calls } b =
    { s.notify b with
      htu := htu, sal.queue := queue, sal.retryDue := due, tme.sittings := sittings, cdp.calls := calls } := by
  unfold State.notify
  split <;> rfl

theorem takeCutoff_eq (s : State) (k : Nat) : s.takeCutoff k =
    (((s.modSitting k (fun x => { x with cutoffTaken := true })).absenceClaim k).1.modSitting k
      (fun x => { x with absentCount := x.absentCount + s.countCands (notCheckedIn k) })).notify
        (.lateCutoff k (s.countCands (notCheckedIn k))) := rfl

/-- The tables, the queue and the passes are those of the absence claim. -/
theorem takeCutoff_parts (s : State) (k : Nat) :
    let t := (s.modSitting k (fun x => { x with cutoffTaken := true })).absenceClaim k
    (s.takeCutoff k).htu = t.1.htu ∧ (s.takeCutoff k).sal = t.1.sal ∧ (s.takeCutoff k).cdp = t.1.cdp := by
  simp [takeCutoff_eq]

theorem cand?_takeCutoff (s : State) (k d : Nat) : (s.takeCutoff k).cand? d =
    (s.cand? d).map (fun y => if notCheckedIn k y then { y with state := .absent, bound := none } else y) := by
  obtain ⟨hhtu, -, -⟩ := takeCutoff_parts s k
  have hclaim := cand?_absenceClaim (s.modSitting k (fun x => { x with cutoffTaken := true })) k d
  rw [modSitting_cand?] at hclaim
  rw [← hclaim, State.cand?, hhtu]
  rfl

theorem clearedFor_takeCutoff (s : State) (k : Nat) : s.clearedFor (s.takeCutoff k) (notCheckedIn k) := by
  obtain ⟨hhtu, hsal, hcdp⟩ := takeCutoff_parts s k
  refine clearedFor_of_same (clearedFor_absenceClaim (s.modSitting k (fun x => { x with cutoffTaken := true })) k)
    (fun i => ?_) (fun n => ?_) ?_
  · simp only [State.seat?, hhtu]
  · simp only [State.call?, hcdp]
  · rw [hsal]

theorem queue_takeCutoff (s : State) (k : Nat) : (s.takeCutoff k).sal.queue =
    s.sal.queue.filter (fun c => !(s.cand? c).any (notCheckedIn k)) := by
  obtain ⟨-, hsal, -⟩ := takeCutoff_parts s k
  rw [hsal, queue_absenceClaim]
  rfl

/-- The cutoff is marked taken and the absent are counted; no other sitting changes. -/
theorem sitting_takeCutoff (s : State) {k : Nat} (j : Nat) (hk : k < 8) : (s.takeCutoff k).sitting j =
    if j = k then { s.sitting k with
      cutoffTaken := true
      absentCount := (s.sitting k).absentCount + s.countCands (notCheckedIn k) }
    else s.sitting j := by
  have hclaim : ∀ (t : State) (i : Nat), (t.absenceClaim k).1.sitting i = t.sitting i := by
    intro t i
    rw [absenceClaim_frame]
    rfl
  rw [takeCutoff_eq, notify_sitting, sitting_modSitting _ _ _ _ hk, hclaim, hclaim, sitting_modSitting _ _ _ _ hk,
    sitting_modSitting _ _ _ _ hk]
  split <;> simp

theorem takeCutoff_frame (s : State) (k : Nat) : s.takeCutoff k =
    { s.notify (.lateCutoff k (s.countCands (notCheckedIn k))) with
      htu := (s.takeCutoff k).htu
      sal.queue := (s.takeCutoff k).sal.queue
      sal.retryDue := (s.takeCutoff k).sal.retryDue
      tme.sittings := (s.takeCutoff k).tme.sittings
      cdp.calls := (s.takeCutoff k).cdp.calls } := by
  have hbeside : ∃ htu queue due sittings calls, s.takeCutoff k = State.notify { s with
      htu := htu, sal.queue := queue, sal.retryDue := due, tme.sittings := sittings, cdp.calls := calls }
        (.lateCutoff k (s.countCands (notCheckedIn k))) := by
    rw [takeCutoff_eq, absenceClaim_frame]
    exact ⟨_, _, _, _, _, rfl⟩
  obtain ⟨htu, queue, due, sittings, calls, h⟩ := hbeside
  rw [h, notify_beside]

/-! ### The compare and the emptied list (R54) -/

theorem takeCompare_of_entries {s : State} {k : Nat} (hk : k < 8) (h : (s.sitting k).marks ≠ []) : s.takeCompare k =
    (s.modSitting k (fun y => { y with state := .extended })).notify
      (.phase k .extended (s.sitting k).held (s.sitting k).clock .compare) := by
  rw [State.takeCompare, if_neg h, notePhase_modSitting _ _ _ hk]

theorem takeCompare_of_empty {s : State} {k : Nat} (hk : k < 8) (h : (s.sitting k).marks = []) : s.takeCompare k =
    (s.modSitting k (fun y => { y with state := .collecting, secondsDue := 0 })).notify
      (.phase k .collecting (s.sitting k).held (s.sitting k).clock .compare) := by
  rw [State.takeCompare, if_pos h, notePhase_modSitting _ _ _ hk]

theorem collectIfEmpty_of_empty {s : State} {k : Nat} (hk : k < 8) (hx : (s.sitting k).state = .extended)
    (h : (s.sitting k).marks = []) : s.collectIfEmpty k =
      (s.modSitting k (fun y => { y with state := .collecting, held := false, secondsDue := 0 })).notify
        (.phase k .collecting false (s.sitting k).clock .listEmpty) := by
  rw [State.collectIfEmpty, if_pos ⟨hx, h⟩, notePhase_modSitting _ _ _ hk]

/-- Settles O36: each point by the rules above, the late cutoff by what the absence claim leaves in each table. -/
theorem pointsTakeTheirEffect : Obligations.PointsTakeTheirEffect := by
  intro s k hk
  refine ⟨fun i w hn hw hc => giveWarning_of_reached hn hw hc, fun h => ?_, warningReached_iff _,
    if_congr (cutoffReached_iff _) rfl rfl, if_congr (compareReached_iff _) rfl rfl, if_congr ?_ rfl rfl,
    ⟨fun c y hc hl => ?_, fun c y hc hl => ?_, fun c hc => ?_, clearedFor_takeCutoff s k, queue_takeCutoff s k,
      (sitting_takeCutoff s k hk).trans (if_pos rfl), fun j _ hj => (sitting_takeCutoff s j hk).trans (if_neg hj),
      takeCutoff_frame s k⟩,
    takeCompare_of_entries hk, takeCompare_of_empty hk, collectIfEmpty_of_empty hk, fun h => ?_⟩
  · simp [State.giveWarning, warningReached_eq_false h]
  · simp [writes_iff]
  · rw [cand?_takeCutoff, hc, Option.map_some, if_pos ((notCheckedIn_iff k y).mpr hl)]
  · rw [cand?_takeCutoff, hc, Option.map_some, if_neg (fun hp => hl ((notCheckedIn_iff k y).mp hp))]
  · rw [cand?_takeCutoff, hc, Option.map_none]
  · exact if_neg (fun ⟨hx, hm⟩ => h.elim (absurd hx) (absurd hm))

end Sys2Proof.Machine
end

