-- ==== Sys2Proof/Proofs/Capacity.lean ====
section
/-!
PROOFS. What the shared operations do to the lists that grow (00_scope Capacities): most touch none of them, one that adds
an entry adds none to a full list (R127, R148, R178), and those of the waiting queue take entries off it (R17, R33).
-/

namespace Sys2Proof.Machine

/-! ### States with the same lists -/

/-- The parts of the state that are lists with a capacity. -/
def growingParts : List Part := [.notices, .exceptions, .verdicts, .routes, .queue]

/-- An operation that writes none of the lists leaves them within their capacities, or outside them. -/
theorem Only.withinCapacity {l : List Part} {s t : State} (h : Only l s t)
    (hl : ∀ p ∈ growingParts, p ∉ l := by decide) : t.withinCapacity ↔ s.withinCapacity := by
  have hnotices : t.cli.notices = s.cli.notices := h .notices (hl _ (by decide))
  have hexceptions : t.scu.exceptions = s.scu.exceptions := h .exceptions (hl _ (by decide))
  have hverdicts : t.srp.verdicts = s.srp.verdicts := h .verdicts (hl _ (by decide))
  have hroutes : t.sal.routes = s.sal.routes := h .routes (hl _ (by decide))
  have hqueue : t.sal.queue = s.sal.queue := h .queue (hl _ (by decide))
  simp only [State.withinCapacity, hnotices, hexceptions, hverdicts, hroutes, hqueue]

/-- An operation applied for each member of a list. -/
theorem withinCapacity_forEach {α : Type} {f : α → State → State}
    (h : ∀ x t, (f x t).withinCapacity ↔ t.withinCapacity) (xs : List α) (t : State) :
    (t.forEach xs f).withinCapacity ↔ t.withinCapacity := by
  induction xs generalizing t with
  | nil => exact Iff.rfl
  | cons x xs ih => exact (ih (f x t)).trans (h x t)

/-- The same for an operation that may take entries off a list. -/
theorem forEach_withinCapacity {α : Type} {f : α → State → State}
    (h : ∀ x t, t.withinCapacity → (f x t).withinCapacity) (xs : List α) {t : State} (ht : t.withinCapacity) :
    (t.forEach xs f).withinCapacity := by
  induction xs generalizing t with
  | nil => exact ht
  | cons x xs ih => exact ih (h x t ht)

/-- Either branch of a condition. -/
@[simp] theorem withinCapacity_ite (c : Prop) [Decidable c] (a b : State) :
    (if c then a else b).withinCapacity ↔ if c then a.withinCapacity else b.withinCapacity :=
  Iff.of_eq (apply_ite State.withinCapacity c a b)

/-! ### Operations that write none of the lists -/

/-- One entry of a table changed. -/
@[simp] theorem withinCapacity_update (t : State) :
    (∀ i f, (t.modSeat i f).withinCapacity ↔ t.withinCapacity) ∧
    (∀ c f, (t.modCand c f).withinCapacity ↔ t.withinCapacity) ∧
    (∀ c x, (t.putCand c x).withinCapacity ↔ t.withinCapacity) ∧
    (∀ k f, (t.modSitting k f).withinCapacity ↔ t.withinCapacity) ∧
    (∀ l f, (t.modLink l f).withinCapacity ↔ t.withinCapacity) ∧
    (∀ l a f, (t.modUnit l a f).withinCapacity ↔ t.withinCapacity) ∧
    (∀ i f, (t.modCall i f).withinCapacity ↔ t.withinCapacity) ∧
    (∀ i x, (t.putCall i x).withinCapacity ↔ t.withinCapacity) ∧
    (∀ h f, (t.modHandset h f).withinCapacity ↔ t.withinCapacity) ∧
    (∀ k f, (t.modChannel k f).withinCapacity ↔ t.withinCapacity) ∧
    (∀ k f, (t.modKey k f).withinCapacity ↔ t.withinCapacity) ∧
    (∀ i x, (t.putStore i x).withinCapacity ↔ t.withinCapacity) ∧
    (∀ f, (t.modBatch f).withinCapacity ↔ t.withinCapacity) ∧
    (∀ a, (t.setAssembler a).withinCapacity ↔ t.withinCapacity) ∧
    (∀ r, (t.setReceiver r).withinCapacity ↔ t.withinCapacity) :=
  ⟨fun _ _ => Iff.rfl, fun _ _ => Iff.rfl, fun _ _ => Iff.rfl, fun _ _ => Iff.rfl, fun _ _ => Iff.rfl,
    fun l a f => (modUnit_only t l a f).withinCapacity, fun _ _ => Iff.rfl, fun _ _ => Iff.rfl, fun _ _ => Iff.rfl,
    fun _ _ => Iff.rfl, fun _ _ => Iff.rfl, fun _ _ => Iff.rfl, fun _ => Iff.rfl, fun _ => Iff.rfl, fun _ => Iff.rfl⟩

/-- The receiver, the reply list and the reset record (chapter 10). -/
@[simp] theorem withinCapacity_link (t : State) :
    (∀ kind a, (t.pushReply kind a).withinCapacity ↔ t.withinCapacity) ∧
    (t.discardFrame.withinCapacity ↔ t.withinCapacity) ∧
    (t.clearStatus.withinCapacity ↔ t.withinCapacity) ∧
    (∀ c, (t.recordReset c).withinCapacity ↔ t.withinCapacity) :=
  ⟨fun _ _ => Iff.rfl, Iff.rfl, Iff.rfl, fun _ => Iff.rfl⟩

@[simp] theorem withinCapacity_settle (t : State) : t.settle.withinCapacity ↔ t.withinCapacity :=
  (settle_only t).withinCapacity

/-- Seats, candidates and their bindings, and the passes asked for (chapter 1). -/
@[simp] theorem withinCapacity_binding (t : State) :
    (∀ b, (t.askRetryIf b).withinCapacity ↔ t.withinCapacity) ∧
    (t.askRetry.withinCapacity ↔ t.withinCapacity) ∧
    (∀ c i, (t.bindSeat c i).withinCapacity ↔ t.withinCapacity) ∧
    (∀ c, (t.clearBinding c).1.withinCapacity ↔ t.withinCapacity) ∧
    (∀ l, (t.clearBindings l).1.withinCapacity ↔ t.withinCapacity) ∧
    (∀ c i, (t.moveBinding c i).withinCapacity ↔ t.withinCapacity) ∧
    (∀ c st, (t.retire c st).1.withinCapacity ↔ t.withinCapacity) ∧
    (∀ c, (t.finishClaim c).withinCapacity ↔ t.withinCapacity) ∧
    (∀ k, (t.closingClaim k).1.withinCapacity ↔ t.withinCapacity) ∧
    (∀ k, (t.freeSlotsOf k).1.withinCapacity ↔ t.withinCapacity) ∧
    (∀ i v, (t.answeringClaim i v).withinCapacity ↔ t.withinCapacity) ∧
    (∀ i, (t.occupy i).withinCapacity ↔ t.withinCapacity) :=
  ⟨fun b => (askRetryIf_only t b).withinCapacity, Iff.rfl, fun _ _ => Iff.rfl,
    fun c => (clearBinding_only t c).withinCapacity, fun l => (clearBindings_only t l).withinCapacity,
    fun c i => (moveBinding_only t c i).withinCapacity, fun c st => (retire_only t c st).withinCapacity,
    fun c => (finishClaim_only t c).withinCapacity, fun k => (closingClaim_only t k).withinCapacity,
    fun k => (freeSlotsOf_only t k).withinCapacity, fun _ _ => Iff.rfl, fun _ => Iff.rfl⟩

/-- Time codes asked for, mark lists and the writing clock (chapters 3 and 4). -/
@[simp] theorem withinCapacity_marks (t : State) :
    (t.askBroadcast.withinCapacity ↔ t.withinCapacity) ∧
    (∀ k e, (t.addMark k e).withinCapacity ↔ t.withinCapacity) ∧
    (∀ k c, (t.dropMark k c).withinCapacity ↔ t.withinCapacity) ∧
    (∀ c, (t.addWritingEntry c).withinCapacity ↔ t.withinCapacity) ∧
    (∀ c d, (t.resumeFor c d).withinCapacity ↔ t.withinCapacity) ∧
    (∀ c, (t.fireWarn c).withinCapacity ↔ t.withinCapacity) ∧
    (∀ c, (State.beginWriting c t).withinCapacity ↔ t.withinCapacity) ∧
    (∀ k, (t.advanceClock k).withinCapacity ↔ t.withinCapacity) :=
  ⟨Iff.rfl, fun _ _ => Iff.rfl, fun _ _ => Iff.rfl, fun c => (addWritingEntry_only t c).withinCapacity,
    fun c d => (resumeFor_only t c d).withinCapacity, fun c => (fireWarn_only t c).withinCapacity,
    fun c => (beginWriting_only t c).withinCapacity, fun _ => Iff.rfl⟩

/-- Handsets and calls (chapter 6). -/
@[simp] theorem withinCapacity_calls (t : State) :
    (∀ h n, (t.setNote h n).withinCapacity ↔ t.withinCapacity) ∧
    (∀ c, (t.issueClaim c).1.withinCapacity ↔ t.withinCapacity) ∧
    (∀ h i, (t.unstack h i).withinCapacity ↔ t.withinCapacity) ∧
    (∀ k, (t.cancelSittingCalls k).1.withinCapacity ↔ t.withinCapacity) ∧
    (∀ h, (t.handsetHeard h).withinCapacity ↔ t.withinCapacity) ∧
    (t.clearCalls.withinCapacity ↔ t.withinCapacity) :=
  ⟨fun _ _ => Iff.rfl, fun c => (issueClaim_only t c).withinCapacity, fun _ _ => Iff.rfl,
    fun k => (cancelSittingCalls_only t k).withinCapacity, fun _ => Iff.rfl, Iff.rfl⟩

/-- The store, and the record of a sheet frame's end (chapters 8 and 9). -/
@[simp] theorem withinCapacity_marking (t : State) :
    (t.countSheet.withinCapacity ↔ t.withinCapacity) ∧
    (∀ l, (t.releaseSlots l).1.withinCapacity ↔ t.withinCapacity) ∧
    (∀ i c x, (t.adopt i c x).withinCapacity ↔ t.withinCapacity) ∧
    (∀ taken fault, (t.recordEnd taken fault).withinCapacity ↔ t.withinCapacity) :=
  ⟨Iff.rfl, fun l => (releaseSlots_only t l).withinCapacity, fun i c x => (adopt_only t i c x).withinCapacity,
    fun _ _ => Iff.rfl⟩

/-- The unit links (chapter 5). -/
@[simp] theorem withinCapacity_units (t : State) :
    (∀ l, (t.beginCycle l).withinCapacity ↔ t.withinCapacity) ∧
    (∀ l i o, (t.setOneShot l i o).withinCapacity ↔ t.withinCapacity) ∧
    (∀ l, (t.pollNext l).withinCapacity ↔ t.withinCapacity) ∧
    (∀ l, (t.sendBroadcast l).withinCapacity ↔ t.withinCapacity) ∧
    (∀ l, (t.sendRepeat l).withinCapacity ↔ t.withinCapacity) ∧
    (∀ l, (t.startLink l).withinCapacity ↔ t.withinCapacity) ∧
    (∀ l, (t.stopLink l).withinCapacity ↔ t.withinCapacity) ∧
    (t.restartLinks.withinCapacity ↔ t.withinCapacity) :=
  ⟨fun l => (beginCycle_only t l).withinCapacity, fun l i o => (setOneShot_only t l i o).withinCapacity,
    fun l => (pollNext_only t l).withinCapacity, fun l => (sendBroadcast_only t l).withinCapacity,
    fun l => (sendRepeat_only t l).withinCapacity, fun l => (startLink_only t l).withinCapacity,
    fun l => (stopLink_only t l).withinCapacity, (restartLinks_only t).withinCapacity⟩

/-! ### A full list takes no entry (R127, R148, R178) -/

@[simp] theorem withinCapacity_notify (t : State) (b : NoticeBody) : (t.notify b).withinCapacity ↔ t.withinCapacity := by
  unfold State.notify
  split
  · simp only [State.withinCapacity, List.length_append, List.length_singleton]
    omega
  · exact Iff.rfl

@[simp] theorem withinCapacity_addException (t : State) (e : ExceptionKind) (k : Nat) (g : Option Tag) (i : Option Nat) :
    (t.addException e k g i).withinCapacity ↔ t.withinCapacity := by
  unfold State.addException
  split
  · simp only [State.withinCapacity, List.length_append, List.length_singleton]
    omega
  · exact Iff.rfl

@[simp] theorem withinCapacity_formVerdict (t : State) (f : Byte) (b : Bin) :
    (t.formVerdict f b).withinCapacity ↔ t.withinCapacity := by
  unfold State.formVerdict
  split
  · simp only [State.withinCapacity, List.length_append, List.length_singleton]
    omega
  · exact Iff.rfl

/-! ### The seat search and relocation (chapter 2) -/

@[simp] theorem withinCapacity_noteRouteMiss (t : State) (k c : Nat) :
    (t.noteRouteMiss k c).withinCapacity ↔ t.withinCapacity := by
  unfold State.noteRouteMiss
  split <;> simp

@[simp] theorem withinCapacity_relocate (t : State) (c i : Nat) :
    (t.relocate c i).withinCapacity ↔ t.withinCapacity := by
  unfold State.relocate
  split
  · rfl
  · split
    · split <;> simp
    · rfl

@[simp] theorem withinCapacity_faultClaim (t : State) (i : Nat) (q : FaultKind) :
    (t.faultClaim i q).withinCapacity ↔ t.withinCapacity := by
  unfold State.faultClaim
  split
  · rfl
  · dsimp only
    split
    · rfl
    · split
      · split
        · exact (withinCapacity_notify _ _).trans Iff.rfl
        · simp
      · simp

/-! ### Personal time (chapters 3 and 4) -/

@[simp] theorem withinCapacity_notePhase (t : State) (k : Nat) (c : PhaseCause) :
    (t.notePhase k c).withinCapacity ↔ t.withinCapacity := by
  simp [State.notePhase]

@[simp] theorem withinCapacity_collectIfEmpty (t : State) (k : Nat) :
    (t.collectIfEmpty k).withinCapacity ↔ t.withinCapacity := by
  simp [State.collectIfEmpty]

@[simp] theorem withinCapacity_noteCandEnd (t : State) (c : Nat) :
    (t.noteCandEnd c).withinCapacity ↔ t.withinCapacity := by
  unfold State.noteCandEnd
  split <;> simp

@[simp] theorem withinCapacity_fireEnd (t : State) (c : Nat) : (t.fireEnd c).withinCapacity ↔ t.withinCapacity := by
  simp [State.fireEnd]

@[simp] theorem withinCapacity_fireRest (t : State) (c : Nat) : (t.fireRest c).withinCapacity ↔ t.withinCapacity := by
  unfold State.fireRest
  split
  · rfl
  · split
    · rw [withinCapacity_notify]
      split <;> simp
    · rfl

@[simp] theorem withinCapacity_fireEntry (t : State) (e : MarkEntry) :
    (t.fireEntry e).withinCapacity ↔ t.withinCapacity := by
  unfold State.fireEntry
  split <;> simp

@[simp] theorem withinCapacity_fireHead (t : State) (k : Nat) : (t.fireHead k).withinCapacity ↔ t.withinCapacity := by
  unfold State.fireHead
  split <;> simp

@[simp] theorem withinCapacity_fireDue (t : State) (k : Nat) : (t.fireDue k).withinCapacity ↔ t.withinCapacity := by
  have upTo : ∀ (n : Nat) (u : State), (State.fireUpTo k n u).withinCapacity ↔ u.withinCapacity := by
    intro n
    induction n with
    | zero => exact fun u => Iff.rfl
    | succ n ih =>
      intro u
      unfold State.fireUpTo
      split
      · exact (ih _).trans (withinCapacity_fireHead u k)
      · exact Iff.rfl
  exact upTo _ t

@[simp] theorem withinCapacity_fireInserted (t : State) (k : Nat) :
    (t.fireInserted k).withinCapacity ↔ t.withinCapacity := by
  simp [State.fireInserted]

@[simp] theorem withinCapacity_resumeClaim (t : State) (c : Nat) :
    (t.resumeClaim c).withinCapacity ↔ t.withinCapacity := by
  unfold State.resumeClaim
  split <;> simp

@[simp] theorem withinCapacity_pauseClaim (t : State) (c : Nat) :
    (t.pauseClaim c).withinCapacity ↔ t.withinCapacity := by
  unfold State.pauseClaim
  split <;> simp

@[simp] theorem withinCapacity_giveWarning (t : State) (k : Nat) :
    (t.giveWarning k).withinCapacity ↔ t.withinCapacity := by
  simp [State.giveWarning]

@[simp] theorem withinCapacity_takeCompare (t : State) (k : Nat) :
    (t.takeCompare k).withinCapacity ↔ t.withinCapacity := by
  simp [State.takeCompare]

@[simp] theorem withinCapacity_compareIfReached (t : State) (k : Nat) :
    (t.compareIfReached k).withinCapacity ↔ t.withinCapacity := by
  simp [State.compareIfReached]

/-! ### Calls and handsets (chapter 6) -/

@[simp] theorem withinCapacity_raise (t : State) (i : Nat) (q : CallKind) (o : Option Nat) :
    (t.raise i q o).1.withinCapacity ↔ t.withinCapacity := by
  unfold State.raise
  split
  · split <;> simp
  · rfl

@[simp] theorem withinCapacity_take (t : State) (h : Nat) : (t.take h).withinCapacity ↔ t.withinCapacity := by
  unfold State.take
  split
  · rfl
  · split
    · simp
    · split
      · simp
      · dsimp only
        split <;> simp

@[simp] theorem withinCapacity_doneEffect (t : State) (i : Nat) (c : Call) :
    (t.doneEffect i c).withinCapacity ↔ t.withinCapacity := by
  unfold State.doneEffect
  split
  · simp
  · split <;> simp
  all_goals rfl

@[simp] theorem withinCapacity_finishCall (t : State) (h i : Nat) :
    (t.finishCall h i).withinCapacity ↔ t.withinCapacity := by
  unfold State.finishCall
  split <;> simp

@[simp] theorem withinCapacity_doneCall (t : State) (h : Nat) (i : Option Nat) :
    (t.doneCall h i).withinCapacity ↔ t.withinCapacity := by
  unfold State.doneCall
  split
  · split
    · rfl
    · split <;> simp
  · simp

@[simp] theorem withinCapacity_cancelCall (t : State) (i : Nat) (c : Call) :
    (t.cancelCall i c).withinCapacity ↔ t.withinCapacity := by
  unfold State.cancelCall
  split <;> simp

@[simp] theorem withinCapacity_returnCall (t : State) (i : Nat) :
    (State.returnCall i t).withinCapacity ↔ t.withinCapacity := by
  unfold State.returnCall
  split <;> simp

@[simp] theorem withinCapacity_handsetGoesAway (t : State) (h : Nat) :
    (t.handsetGoesAway h).withinCapacity ↔ t.withinCapacity := by
  simp [State.handsetGoesAway, withinCapacity_forEach]

@[simp] theorem withinCapacity_resumeAll (t : State) : t.resumeAll.withinCapacity ↔ t.withinCapacity := by
  simp [State.resumeAll, withinCapacity_forEach]

/-! ### Sweeps and tags (chapter 7) -/

@[simp] theorem withinCapacity_endChannel (t : State) (k : Nat) (b : Bool) :
    (t.endChannel k b).withinCapacity ↔ t.withinCapacity := by
  simp [State.endChannel]

@[simp] theorem withinCapacity_advance (t : State) (k : Nat) : (t.advance k).withinCapacity ↔ t.withinCapacity := by
  unfold State.advance
  dsimp only
  split
  · split <;> simp
  · rfl

@[simp] theorem withinCapacity_advanceIfDone (t : State) (k : Nat) :
    (t.advanceIfDone k).withinCapacity ↔ t.withinCapacity := by
  simp [State.advanceIfDone]

@[simp] theorem withinCapacity_advanceAll (t : State) : t.advanceAll.withinCapacity ↔ t.withinCapacity := by
  simp [State.advanceAll, withinCapacity_forEach]

@[simp] theorem withinCapacity_completeCollection (t : State) (c : Nat) :
    (t.completeCollection c).withinCapacity ↔ t.withinCapacity := by
  simp [State.completeCollection]

@[simp] theorem withinCapacity_orderCheck (t : State) (k c : Nat) (g : Tag) :
    (t.orderCheck k c g).withinCapacity ↔ t.withinCapacity := by
  unfold State.orderCheck
  split
  · split <;> simp
  · rfl

@[simp] theorem withinCapacity_recordBooklet (t : State) (k c : Nat) (x : Candidate) (g : Tag) :
    (t.recordBooklet k c x g).withinCapacity ↔ t.withinCapacity := by
  simp [State.recordBooklet]

@[simp] theorem withinCapacity_processTag (t : State) (k : Nat) (g : Tag) :
    (t.processTag k g).withinCapacity ↔ t.withinCapacity := by
  unfold State.processTag
  split
  · simp
  · split <;> simp

@[simp] theorem withinCapacity_tagRead (t : State) (k : Nat) (r : Option Tag) :
    (State.tagRead k r t).withinCapacity ↔ t.withinCapacity := by
  unfold State.tagRead
  split <;> simp

@[simp] theorem withinCapacity_skip (t : State) (k : Nat) : (t.skip k).withinCapacity ↔ t.withinCapacity := by
  simp [State.skip]

/-! ### Marking (chapter 9) -/

@[simp] theorem withinCapacity_storeSheet (t : State) (i : Nat) (x : Parked) :
    (t.storeSheet i x).withinCapacity ↔ t.withinCapacity := by
  unfold State.storeSheet
  split <;> simp

@[simp] theorem withinCapacity_park (t : State) (x : Parked) : (t.park x).withinCapacity ↔ t.withinCapacity := by
  unfold State.park
  simp only [withinCapacity_notify, withinCapacity_update]
  exact Iff.rfl

@[simp] theorem withinCapacity_blockSteps (t : State) : t.blockSteps.withinCapacity ↔ t.withinCapacity := by
  simp [State.blockSteps]

@[simp] theorem withinCapacity_takeFaultReport (t : State) : t.takeFaultReport.withinCapacity ↔ t.withinCapacity := by
  simp [State.takeFaultReport]

@[simp] theorem withinCapacity_takeSheet (t : State) (x : Sheet) :
    (t.takeSheet x).1.withinCapacity ↔ t.withinCapacity := by
  unfold State.takeSheet
  dsimp only
  split
  · simp
  · split <;> simp

@[simp] theorem withinCapacity_resumeBatch (t : State) : t.resumeBatch.withinCapacity ↔ t.withinCapacity := by
  unfold State.resumeBatch
  split
  · split
    · rename_i p i _ _ _
      simp only [withinCapacity_blockSteps, withinCapacity_update, withinCapacity_formVerdict]
      exact withinCapacity_storeSheet t i p
    · exact Iff.rfl
  · exact Iff.rfl

/-! ### Unit links (chapter 5) -/

@[simp] theorem withinCapacity_countSeat (t : State) (l : LinkName) (i : Nat) (o : PollOutcome) :
    (t.countSeat l i o).withinCapacity ↔ t.withinCapacity := by
  unfold State.countSeat
  dsimp only
  split <;> simp

@[simp] theorem withinCapacity_countFloor (t : State) (a : Nat) (o : PollOutcome) :
    (t.countFloor a o).withinCapacity ↔ t.withinCapacity := by
  unfold State.countFloor
  dsimp only
  split <;> simp

@[simp] theorem withinCapacity_countUnit (t : State) (l : LinkName) (a : Nat) (o : PollOutcome) :
    (t.countUnit l a o).withinCapacity ↔ t.withinCapacity := by
  unfold State.countUnit
  split <;> simp

@[simp] theorem withinCapacity_endPoll (t : State) (l : LinkName) (a : Nat) (o : PollOutcome) :
    (t.endPoll l a o).withinCapacity ↔ t.withinCapacity := by
  simp [State.endPoll]

@[simp] theorem withinCapacity_refuseCheckIn (t : State) (l : LinkName) (i m : Nat) (c : RefusedCode) :
    (t.refuseCheckIn l i m c).withinCapacity ↔ t.withinCapacity := by
  simp [State.refuseCheckIn]

@[simp] theorem withinCapacity_checkInOnTime (t : State) (i c : Nat) :
    (t.checkInOnTime i c).withinCapacity ↔ t.withinCapacity := by
  unfold State.checkInOnTime
  split <;> simp

@[simp] theorem withinCapacity_checkInLate (t : State) (i c : Nat) :
    (t.checkInLate i c).withinCapacity ↔ t.withinCapacity := by
  unfold State.checkInLate
  split <;> simp

@[simp] theorem withinCapacity_checkInRelocated (t : State) (i c : Nat) :
    (t.checkInRelocated i c).withinCapacity ↔ t.withinCapacity := by
  unfold State.checkInRelocated
  split <;> simp

@[simp] theorem withinCapacity_checkIn (t : State) (l : LinkName) (i m : Nat) :
    (t.checkIn l i m).withinCapacity ↔ t.withinCapacity := by
  unfold State.checkIn
  split <;> simp

@[simp] theorem withinCapacity_pressKey (t : State) (l : LinkName) (i : Nat) (q : CallKind) (b : Bool) :
    (t.pressKey l i q b).withinCapacity ↔ t.withinCapacity := by
  unfold State.pressKey
  dsimp only
  split <;> simp

@[simp] theorem withinCapacity_takeSeatReply (t : State) (l : LinkName) (i : Nat) (r : SeatReply) :
    (State.takeSeatReply l i r t).withinCapacity ↔ t.withinCapacity := by
  unfold State.takeSeatReply
  dsimp only
  split
  · split <;> simp
  · rfl

@[simp] theorem withinCapacity_handsetKey (t : State) (h : Nat) (q : HandsetKey) :
    (t.handsetKey h q).withinCapacity ↔ t.withinCapacity := by
  unfold State.handsetKey
  split <;> simp

@[simp] theorem withinCapacity_takeHandsetReply (t : State) (a : Nat) (r : HandsetKey × Byte) :
    (State.takeHandsetReply a r t).withinCapacity ↔ t.withinCapacity := by
  simp [State.takeHandsetReply]

@[simp] theorem withinCapacity_takeStationReply (t : State) (a : Nat) (r : StationReply) :
    (State.takeStationReply a r t).withinCapacity ↔ t.withinCapacity := by
  unfold State.takeStationReply
  split
  · simp [withinCapacity_forEach]
  · rfl

@[simp] theorem withinCapacity_endCycle (t : State) (l : LinkName) :
    (t.endCycle l).withinCapacity ↔ t.withinCapacity := by
  simp [State.endCycle]

/-! ### The reader port (chapter 8) -/

@[simp] theorem withinCapacity_takeStray (t : State) (b : List Byte) (x : Byte) (f : Option FrameFault) :
    (t.takeStray b x f).withinCapacity ↔ t.withinCapacity := by
  unfold State.takeStray
  simp only [withinCapacity_notify, withinCapacity_formVerdict]
  exact Iff.rfl

@[simp] theorem withinCapacity_handFrame (t : State) (b : List Byte) (x : Byte) (f : Option FrameFault) :
    (t.handFrame b x f).withinCapacity ↔ t.withinCapacity := by
  unfold State.handFrame
  split
  · dsimp only
    split <;> simp
  · simp

@[simp] theorem withinCapacity_endSheetFrame (t : State) (b : List Byte) (f : Option FrameFault) :
    (t.endSheetFrame b f).withinCapacity ↔ t.withinCapacity := by
  unfold State.endSheetFrame
  split <;> simp

@[simp] theorem withinCapacity_takeSheetByte (t : State) (b : Byte) :
    (State.takeSheetByte b t).withinCapacity ↔ t.withinCapacity := by
  unfold State.takeSheetByte
  split
  · split
    · simp
    · simp
    · split <;> simp
  · rfl

@[simp] theorem withinCapacity_takeSheetBytes (t : State) (b : List Byte) :
    (t.takeSheetBytes b).withinCapacity ↔ t.withinCapacity :=
  withinCapacity_forEach (fun x u => by simp) b t

@[simp] theorem withinCapacity_cutFrame (t : State) (f : FrameFault) :
    (t.cutFrame f).withinCapacity ↔ t.withinCapacity := by
  unfold State.cutFrame
  split <;> simp

@[simp] theorem withinCapacity_setRrdy (t : State) (b : Bool) : (t.setRrdy b).withinCapacity ↔ t.withinCapacity := by
  unfold State.setRrdy
  dsimp only
  split
  · exact withinCapacity_cutFrame _ _
  · exact Iff.rfl

@[simp] theorem withinCapacity_abandonFrame (t : State) : t.abandonFrame.withinCapacity ↔ t.withinCapacity := by
  unfold State.abandonFrame
  split
  · split <;> simp
  · rfl

@[simp] theorem withinCapacity_rejectParked (t : State) : t.rejectParked.withinCapacity ↔ t.withinCapacity := by
  unfold State.rejectParked
  split
  · exact withinCapacity_formVerdict _ _ _
  · exact Iff.rfl

@[simp] theorem withinCapacity_resyncReader (t : State) : t.resyncReader.withinCapacity ↔ t.withinCapacity :=
  (withinCapacity_rejectParked t.abandonFrame).trans (withinCapacity_abandonFrame t)

/-! ### The waiting queue (R17, R32, R33) -/

/-- A candidate that leaves the queue makes it no longer. -/
theorem leaveQueue_withinCapacity {t : State} (c : Nat) (h : t.withinCapacity) : (t.leaveQueue c).withinCapacity := by
  obtain ⟨hnotices, hexceptions, hverdicts, hroutes, hqueue⟩ := h
  exact ⟨hnotices, hexceptions, hverdicts, hroutes, (List.length_filter_le _ _).trans hqueue⟩

theorem retryOne_withinCapacity {t : State} (c : Nat) (h : t.withinCapacity) : (State.retryOne c t).withinCapacity := by
  unfold State.retryOne
  split
  · exact h
  · split
    · exact h
    · exact (withinCapacity_notify _ _).mpr (leaveQueue_withinCapacity c (by simpa using h))

theorem retryWalk_withinCapacity {t : State} (h : t.withinCapacity) : t.retryWalk.withinCapacity :=
  forEach_withinCapacity (fun c _ => retryOne_withinCapacity c) _ h

theorem absenceClaim_withinCapacity {t : State} (k : Nat) (h : t.withinCapacity) :
    (t.absenceClaim k).1.withinCapacity := by
  have hmark : ∀ (c : Nat) (u : State), u.withinCapacity →
      ((u.leaveQueue c).modCand c (fun x => { x with state := .absent })).withinCapacity :=
    fun c u hu => by simpa using leaveQueue_withinCapacity c hu
  simpa [State.absenceClaim] using forEach_withinCapacity hmark _ h

theorem takeCutoff_withinCapacity {t : State} (k : Nat) (h : t.withinCapacity) : (t.takeCutoff k).withinCapacity := by
  simpa [State.takeCutoff] using absenceClaim_withinCapacity k (by simpa using h)

theorem cutoffIfReached_withinCapacity {t : State} (k : Nat) (h : t.withinCapacity) :
    (t.cutoffIfReached k).withinCapacity := by
  unfold State.cutoffIfReached
  split
  · exact takeCutoff_withinCapacity k h
  · exact h

theorem startWriting_withinCapacity {t : State} (k : Nat) (cause : PhaseCause) (h : t.withinCapacity) :
    (t.startWriting k cause).withinCapacity := by
  simpa [State.startWriting] using cutoffIfReached_withinCapacity k (by simpa [withinCapacity_forEach] using h)

theorem secondWork_withinCapacity {t : State} (k : Nat) (h : t.withinCapacity) : (t.secondWork k).withinCapacity := by
  simpa [State.secondWork] using cutoffIfReached_withinCapacity k (by simpa using h)

theorem takeSecond_withinCapacity {t : State} (k : Nat) (h : t.withinCapacity) : (t.takeSecond k).withinCapacity := by
  have hclock : (t.advanceClock k).withinCapacity := by simpa using h
  unfold State.takeSecond
  dsimp only
  split
  · split
    · exact startWriting_withinCapacity k _ hclock
    · exact hclock
  · exact secondWork_withinCapacity k hclock

/-- A point within a second, when what takes it keeps the capacities. -/
theorem atPoint_withinCapacity {t : State} (k : Nat) (reached : Sitting → Bool) {take : State → State}
    (htake : t.withinCapacity → (take t).withinCapacity) (h : t.withinCapacity) :
    (t.atPoint k reached take).withinCapacity := by
  unfold State.atPoint
  dsimp only
  split
  · exact htake h
  · split
    · exact takeSecond_withinCapacity k h
    · exact h

theorem startSittingNow_withinCapacity {t : State} (k : Nat) (h : t.withinCapacity) :
    (t.startSittingNow k).withinCapacity := by
  unfold State.startSittingNow
  dsimp only
  split
  · exact startWriting_withinCapacity k _ (by simpa using h)
  · simpa using h

theorem clockJump_withinCapacity {t : State} (time : HallTime) (carried : Bool) (h : t.withinCapacity) :
    (t.clockJump time carried).1.withinCapacity :=
  forEach_withinCapacity (fun k _ => startSittingNow_withinCapacity k) _ h

theorem withdrawAs_withinCapacity {t : State} (c : Nat) (x : Candidate) (h : t.withinCapacity) :
    (t.withdrawAs c x).1.withinCapacity := by
  unfold State.withdrawAs
  split
  · simpa using leaveQueue_withinCapacity c h
  all_goals simpa using h

/-! ### Creating candidates (R29 to R32) -/

/-- A candidate joins the queue only while fewer than 32 wait. -/
theorem createCandidate_withinCapacity {t u : State} {number c : Nat} {e : Entry} {p : Placement}
    (h : t.withinCapacity) (hu : t.createCandidate number e = .ok (u, c, p)) : u.withinCapacity := by
  unfold State.createCandidate at hu
  split at hu
  · exact nomatch hu
  · split at hu
    · exact nomatch hu
    · split at hu
      · exact nomatch hu
      · dsimp only at hu
        split at hu
        · obtain ⟨rfl, -⟩ := Prod.mk.inj (Except.ok.inj hu)
          simpa using h
        · split at hu
          next hroom =>
            obtain ⟨rfl, -⟩ := Prod.mk.inj (Except.ok.inj hu)
            obtain ⟨hnotices, hexceptions, hverdicts, hroutes, -⟩ := h
            exact ⟨hnotices, hexceptions, hverdicts, hroutes, by simpa using hroom⟩
          · exact nomatch hu

theorem createRun_withinCapacity (e : Entry) (n number : Nat) {t : State} (h : t.withinCapacity) :
    (State.createRun e n number t).1.withinCapacity := by
  induction n generalizing number t with
  | zero => exact h
  | succ n ih =>
    unfold State.createRun
    split
    · exact h
    next hu => exact ih _ (createCandidate_withinCapacity h hu)

end Sys2Proof.Machine
end

