-- ==== Sys2Proof/Proofs/CapacityStep.lean ====
section
/-!
PROOFS. Every step keeps the lists that grow within their capacities: the answers to the requests, block by block, the
bytes of the control link, the resets, and the events (00_scope Capacities).
-/

namespace Sys2Proof.Machine

/-- A block's answer to a request keeps the lists within their capacities. -/
def KeepsCapacity (handle : State → State × Answer) : Prop :=
  ∀ s : State, s.withinCapacity → (handle s).1.withinCapacity

theorem keepsCapacity_withArgs {checks : List Bool} {take : State → State × Answer} (h : KeepsCapacity take) :
    KeepsCapacity (withArgs checks take) := by
  intro s hs
  unfold withArgs
  split
  · exact hs
  · exact h s hs

/-- Arguments checked against the state itself. -/
theorem withArgs_withinCapacity {checks : List Bool} {take : State → State × Answer} {s : State}
    (h : KeepsCapacity take) (hs : s.withinCapacity) : (withArgs checks take s).1.withinCapacity :=
  keepsCapacity_withArgs h s hs

/-- A read changes nothing. -/
theorem keepsCapacity_read {answer : State → Answer} : KeepsCapacity (fun s => (s, answer s)) := fun _ h => h

/-- Either branch of a condition. -/
@[simp] theorem withinCapacity_fst_ite (c : Prop) [Decidable c] (a b : State × Answer) :
    (if c then a else b).1.withinCapacity ↔ if c then a.1.withinCapacity else b.1.withinCapacity :=
  Iff.of_eq (apply_ite (fun r : State × Answer => r.1.withinCapacity) c a b)

/-! ### The hall tables (chapter 1) -/

theorem keepsCapacity_defineSeats (first last : Half) (kind zone attrs : Byte) :
    KeepsCapacity (ansDefineSeats first last kind zone attrs) :=
  keepsCapacity_withArgs fun s h => by
    dsimp only
    split
    · exact h
    · simpa [withinCapacity_forEach] using h

theorem keepsCapacity_holdSeat (seat : Half) : KeepsCapacity (ansHoldSeat seat) :=
  keepsCapacity_withArgs fun s h => by simpa using h

theorem keepsCapacity_freeSeat (seat : Half) : KeepsCapacity (ansFreeSeat seat) :=
  keepsCapacity_withArgs fun s h => by simpa using h

theorem keepsCapacity_repairSeat (seat : Half) : KeepsCapacity (ansRepairSeat seat) :=
  keepsCapacity_withArgs fun s h => by
    split
    · exact h
    · simpa using h

theorem keepsCapacity_withdraw (slot : Half) : KeepsCapacity (ansWithdraw slot) :=
  keepsCapacity_withArgs fun s h => by
    split
    · exact h
    · simpa [h] using fun _ => withdrawAs_withinCapacity _ _ h

theorem keepsCapacity_readCandidate (slot : Half) (number : Word) (sitting : Byte) :
    KeepsCapacity (ansReadCandidate slot number sitting) :=
  keepsCapacity_withArgs fun s h => by
    split
    · exact h
    · split <;> exact h

/-! ### Seat allocation (chapter 2) -/

/-- The route table takes an entry only while fewer than sixteen stand there (R22). -/
theorem routesWith_length {e : Route} {routes out : List Route} (h : routes.length ≤ 16)
    (ho : routesWith e routes = some out) : out.length ≤ 16 := by
  unfold routesWith at ho
  split at ho
  · obtain rfl := Option.some.inj ho
    simpa [replaceRoute] using h
  · split at ho
    next hroom =>
      obtain rfl := Option.some.inj ho
      simpa using hroom
    · exact nomatch ho

theorem keepsCapacity_setRoute (paper : Paper) (home : Byte) (overflow : List Byte) :
    KeepsCapacity (ansSetRoute paper home overflow) :=
  keepsCapacity_withArgs fun s h => by
    split
    · exact h
    next hroutes =>
      obtain ⟨hnotices, hexceptions, hverdicts, hlength, hqueue⟩ := h
      simp only [withinCapacity_binding]
      exact ⟨hnotices, hexceptions, hverdicts, routesWith_length hlength hroutes, hqueue⟩

theorem keepsCapacity_clearRoute (paper : Paper) : KeepsCapacity (ansClearRoute paper) :=
  keepsCapacity_withArgs fun s h => by
    split
    · obtain ⟨hnotices, hexceptions, hverdicts, hroutes, hqueue⟩ := h
      exact ⟨hnotices, hexceptions, hverdicts, (List.length_filter_le _ _).trans hroutes, hqueue⟩
    · exact h

theorem keepsCapacity_allocate (number : Word) (sitting needs allowance rest : Byte) :
    KeepsCapacity (ansAllocate number sitting needs allowance rest) :=
  keepsCapacity_withArgs fun s h => by
    split
    · exact h
    next hu => simpa using createCandidate_withinCapacity h hu

theorem keepsCapacity_allocateRun (base : Word) (count sitting needs allowance rest : Byte) :
    KeepsCapacity (ansAllocateRun base count sitting needs allowance rest) :=
  keepsCapacity_withArgs fun s h => by
    have hrun := createRun_withinCapacity (entryOf sitting needs allowance rest) count.toNat base.toNat h
    dsimp only [State.noteRunMiss]
    split
    · exact hrun
    · simpa using hrun

theorem keepsCapacity_move (slot seat : Half) : KeepsCapacity (ansMove slot seat) :=
  keepsCapacity_withArgs fun s h => by
    split
    · exact h
    · simpa using h

/-! ### The timebase and the sittings (chapters 3 and 4) -/

theorem keepsCapacity_setTimebase (source : Byte) (frequency : Half) (prescale syncMode : Byte) :
    KeepsCapacity (ansSetTimebase source frequency prescale syncMode) :=
  keepsCapacity_withArgs fun s h => by
    split
    · exact h
    · exact h

theorem keepsCapacity_setHallTime (hour minute second : Byte) : KeepsCapacity (ansSetHallTime hour minute second) :=
  keepsCapacity_withArgs fun s h => by simpa using clockJump_withinCapacity _ _ h

theorem keepsCapacity_defineSitting (sitting : Byte) (paper : Paper) (reading : Byte)
    (writing cutoff opening closing : Half) (warnings : List Byte) (quiet threshold scriptKind keyId : Byte) :
    KeepsCapacity (ansDefineSitting sitting paper reading writing cutoff opening closing warnings quiet threshold
      scriptKind keyId) :=
  keepsCapacity_withArgs fun s h => by
    unfold State.defineSitting
    split <;> simpa using h

theorem keepsCapacity_startSitting (sitting hour minute second : Byte) :
    KeepsCapacity (ansStartSitting sitting hour minute second) :=
  keepsCapacity_withArgs fun s h => by
    simp [State.armSitting, h, startSittingNow_withinCapacity]

theorem keepsCapacity_cancelStart (sitting : Byte) : KeepsCapacity (ansCancelStart sitting) :=
  keepsCapacity_withArgs fun s h => by simpa using h

theorem keepsCapacity_holdSitting (sitting : Byte) : KeepsCapacity (ansHoldSitting sitting) :=
  keepsCapacity_withArgs fun s h => by
    split
    · exact h
    · exact (withinCapacity_forEach (fun k t => by simp [State.holdOne]) _ s).mpr h

theorem keepsCapacity_resumeSitting (sitting : Byte) : KeepsCapacity (ansResumeSitting sitting) :=
  keepsCapacity_withArgs fun s h => by
    split
    · exact h
    · exact (withinCapacity_forEach (fun k t => by simp [State.resumeOne]) _ s).mpr h

@[simp] theorem withinCapacity_closeSitting (t : State) (k : Nat) :
    (t.closeSitting k).1.withinCapacity ↔ t.withinCapacity := by
  simp [State.closeSitting]

theorem keepsCapacity_closeSitting (sitting : Byte) : KeepsCapacity (ansCloseSitting sitting) :=
  keepsCapacity_withArgs fun s h => by simpa using h

theorem keepsCapacity_forceClose (sitting : Byte) : KeepsCapacity (ansForceClose sitting) :=
  keepsCapacity_withArgs fun s h => by simpa [withinCapacity_forEach] using h

theorem keepsCapacity_clearSitting (sitting : Byte) : KeepsCapacity (ansClearSitting sitting) :=
  keepsCapacity_withArgs fun s h => by simpa using h

theorem keepsCapacity_leave (slot : Half) : KeepsCapacity (ansLeave slot) :=
  keepsCapacity_withArgs fun s h => by
    split
    · exact h
    · split
      · exact h
      · simpa [State.takeLeave] using h

/-! ### Links, calls and collection (chapters 5 to 7) -/

theorem keepsCapacity_startLink (link : Byte) : KeepsCapacity (ansStartLink link) :=
  keepsCapacity_withArgs fun s h => by
    split
    · exact h
    · exact (withinCapacity_forEach (fun l t => by simp) _ s).mpr h

theorem keepsCapacity_stopLink (link : Byte) : KeepsCapacity (ansStopLink link) :=
  keepsCapacity_withArgs fun s h => by
    split
    · exact h
    · exact (withinCapacity_forEach (fun l t => by simp) _ s).mpr h

theorem keepsCapacity_raiseAlert (seat : Half) : KeepsCapacity (ansRaiseAlert seat) :=
  keepsCapacity_withArgs fun s h => by simpa using h

theorem keepsCapacity_cancelCall (call : Byte) : KeepsCapacity (ansCancelCall call) :=
  keepsCapacity_withArgs fun s h => by
    split
    · exact h
    · simpa using h

theorem keepsCapacity_issueBooklet (slot : Half) : KeepsCapacity (ansIssueBooklet slot) :=
  keepsCapacity_withArgs fun s h => by
    split
    · exact h
    · simpa using h

theorem keepsCapacity_takeExceptions (count : Byte) : KeepsCapacity (ansTakeExceptions count) :=
  keepsCapacity_withArgs fun s h => by
    obtain ⟨hnotices, hexceptions, hverdicts, hroutes, hqueue⟩ := h
    exact ⟨hnotices, by simp only [List.length_drop]; omega, hverdicts, hroutes, hqueue⟩

theorem keepsCapacity_startSweep (channel mode : Byte) (start finish : Half) (stride : Byte) :
    KeepsCapacity (ansStartSweep channel mode start finish stride) :=
  keepsCapacity_withArgs fun s h => by simpa [State.startSweep] using h

theorem keepsCapacity_stopSweep (channel : Byte) : KeepsCapacity (ansStopSweep channel) :=
  keepsCapacity_withArgs fun s h => by simpa using h

/-! ### Marking (chapter 9) -/

theorem keepsCapacity_keyBegin (key form questions penalty : Byte) :
    KeepsCapacity (ansKeyBegin key form questions penalty) :=
  keepsCapacity_withArgs fun s h => by simpa using h

theorem keepsCapacity_keyPart (key first : Byte) (entries : List KeyEntry) :
    KeepsCapacity (ansKeyPart key first entries) :=
  fun _ => withArgs_withinCapacity fun s h => by simpa using h

theorem keepsCapacity_keyEnd (key : Byte) : KeepsCapacity (ansKeyEnd key) :=
  keepsCapacity_withArgs fun s h => by
    dsimp only
    split
    · exact h
    · split
      · exact h
      · split <;> simpa using h

theorem keepsCapacity_withdrawQuestion (key question : Byte) : KeepsCapacity (ansWithdrawQuestion key question) :=
  fun _ => withArgs_withinCapacity fun s h => by simpa using h

theorem keepsCapacity_startBatch (sitting count segStart segEnd : Byte) :
    KeepsCapacity (ansStartBatch sitting count segStart segEnd) :=
  keepsCapacity_withArgs fun s h => by
    dsimp only
    split
    · exact h
    · split
      · exact h
      · split <;> simpa using h

theorem keepsCapacity_continueBatch : KeepsCapacity ansContinueBatch := fun s h => by
  simpa [ansContinueBatch] using h

theorem keepsCapacity_extendSegment (segEnd : Byte) : KeepsCapacity (ansExtendSegment segEnd) :=
  fun _ => withArgs_withinCapacity fun s h => by simpa using h

theorem keepsCapacity_releaseSlots (stores : List Byte) : KeepsCapacity (ansReleaseSlots stores) :=
  keepsCapacity_withArgs fun s h => by simpa using h

theorem keepsCapacity_abortBatch : KeepsCapacity ansAbortBatch := fun s h => by
  simpa [ansAbortBatch] using h

theorem keepsCapacity_resolveDuplicate (store action : Byte) : KeepsCapacity (ansResolveDuplicate store action) :=
  keepsCapacity_withArgs fun s h => by
    split
    · exact h
    · split
      · exact h
      · split
        · unfold State.tryAdopt
          split <;> simpa using h
        · simpa using h

/-- Remarking writes results, to the store and to the candidates. -/
theorem withinCapacity_remarkSlot (key : Key) (i : Nat) (r : State × Nat × Nat × Nat) :
    (State.remarkSlot key i r).1.withinCapacity ↔ r.1.withinCapacity := by
  unfold State.remarkSlot
  split
  · rfl
  · split
    · rfl
    · split
      · rfl
      · split
        · rfl
        · dsimp only
          split <;> simp

theorem keepsCapacity_remark (sitting : Byte) : KeepsCapacity (ansRemark sitting) :=
  keepsCapacity_withArgs fun s h => by
    have hfold : ∀ (key : Key) (l : List Nat) (r : State × Nat × Nat × Nat), r.1.withinCapacity →
        (l.foldl (fun r i => State.remarkSlot key i r) r).1.withinCapacity := by
      intro key l
      induction l with
      | nil => exact fun r hr => hr
      | cons i l ih => exact fun r hr => ih _ ((withinCapacity_remarkSlot key i r).mpr hr)
    split
    · exact h
    · split
      · exact h
      · split
        · exact h
        · exact hfold _ _ _ h

/-! ### Parameters (chapter 10) -/

theorem keepsCapacity_setParam (param : Byte) (value : Word) : KeepsCapacity (ansSetParam param value) :=
  fun _ => withArgs_withinCapacity fun s h => by
    split
    · exact h
    · dsimp only
      split
      · exact h
      · split <;> exact h

/-! ### A request row, and the frames of the control link (10.1) -/

/-- A request taken, discarded or not received. -/
theorem requestThen_withinCapacity {s : State} {handle : State → State × Answer} {after : State → State} (kind : Byte)
    (hk : KeepsCapacity handle) (hafter : ∀ t, (after t).withinCapacity ↔ t.withinCapacity) (h : s.withinCapacity) :
    (s.requestThen kind handle after).withinCapacity := by
  unfold State.requestThen State.onFrame
  split
  · exact h
  · split
    · simpa using h
    · simp only [hafter, withinCapacity_link]
      exact hk _ h

theorem request_withinCapacity {s : State} {handle : State → State × Answer} (kind : Byte) (hk : KeepsCapacity handle)
    (h : s.withinCapacity) : (s.request kind handle).withinCapacity :=
  requestThen_withinCapacity kind hk (fun _ => Iff.rfl) h

/-- Every request keeps the capacities; an event row is no request. -/
theorem runRequest_withinCapacity (i : Instr) {s : State} (h : s.withinCapacity) : (s.runRequest i).withinCapacity := by
  have read : ∀ (kind : Byte) (answer : State → Answer), (s.request kind (fun t => (t, answer t))).withinCapacity :=
    fun kind answer => request_withinCapacity kind keepsCapacity_read h
  have readArgs : ∀ (kind : Byte) (checks : List Bool) (answer : State → Answer),
      (s.request kind (withArgs checks (fun t => (t, answer t)))).withinCapacity :=
    fun kind checks answer => request_withinCapacity kind (keepsCapacity_withArgs keepsCapacity_read) h
  cases i with
  | defineSeats => exact request_withinCapacity _ (keepsCapacity_defineSeats _ _ _ _ _) h
  | holdSeat => exact request_withinCapacity _ (keepsCapacity_holdSeat _) h
  | freeSeat => exact request_withinCapacity _ (keepsCapacity_freeSeat _) h
  | repairSeat => exact request_withinCapacity _ (keepsCapacity_repairSeat _) h
  | readSeat => exact readArgs _ _ _
  | withdraw => exact request_withinCapacity _ (keepsCapacity_withdraw _) h
  | readCandidate => exact request_withinCapacity _ (keepsCapacity_readCandidate _ _ _) h
  | setRoute => exact request_withinCapacity _ (keepsCapacity_setRoute _ _ _) h
  | clearRoute => exact request_withinCapacity _ (keepsCapacity_clearRoute _) h
  | readRoutes => exact read _ _
  | allocate => exact request_withinCapacity _ (keepsCapacity_allocate _ _ _ _ _) h
  | allocateRun => exact request_withinCapacity _ (keepsCapacity_allocateRun _ _ _ _ _ _) h
  | readQueue => exact read _ _
  | move => exact request_withinCapacity _ (keepsCapacity_move _ _) h
  | setTimebase => exact request_withinCapacity _ (keepsCapacity_setTimebase _ _ _ _) h
  | setHallTime => exact request_withinCapacity _ (keepsCapacity_setHallTime _ _ _) h
  | readClock => exact read _ _
  | defineSitting => exact request_withinCapacity _ (keepsCapacity_defineSitting _ _ _ _ _ _ _ _ _ _ _ _) h
  | startSitting => exact request_withinCapacity _ (keepsCapacity_startSitting _ _ _ _) h
  | cancelStart => exact request_withinCapacity _ (keepsCapacity_cancelStart _) h
  | holdSitting => exact request_withinCapacity _ (keepsCapacity_holdSitting _) h
  | resumeSitting => exact request_withinCapacity _ (keepsCapacity_resumeSitting _) h
  | closeSitting => exact request_withinCapacity _ (keepsCapacity_closeSitting _) h
  | forceClose => exact request_withinCapacity _ (keepsCapacity_forceClose _) h
  | clearSitting => exact request_withinCapacity _ (keepsCapacity_clearSitting _) h
  | readSitting => exact readArgs _ _ _
  | leave => exact request_withinCapacity _ (keepsCapacity_leave _) h
  | readMarks => exact readArgs _ _ _
  | startLink => exact request_withinCapacity _ (keepsCapacity_startLink _) h
  | stopLink => exact request_withinCapacity _ (keepsCapacity_stopLink _) h
  | readLink => exact readArgs _ _ _
  | raiseAlert => exact request_withinCapacity _ (keepsCapacity_raiseAlert _) h
  | setHandsetZones => exact request_withinCapacity _ (keepsCapacity_withArgs fun _ ht => ht) h
  | cancelCall => exact request_withinCapacity _ (keepsCapacity_cancelCall _) h
  | readCalls => exact read _ _
  | issueBooklet => exact request_withinCapacity _ (keepsCapacity_issueBooklet _) h
  | takeExceptions => exact request_withinCapacity _ (keepsCapacity_takeExceptions _) h
  | startSweep => exact request_withinCapacity _ (keepsCapacity_startSweep _ _ _ _ _) h
  | stopSweep => exact request_withinCapacity _ (keepsCapacity_stopSweep _) h
  | readScripts => exact readArgs _ _ _
  | readSweep => exact readArgs _ _ _
  | readReader => exact read _ _
  | keyBegin => exact request_withinCapacity _ (keepsCapacity_keyBegin _ _ _ _) h
  | keyPart => exact request_withinCapacity _ (keepsCapacity_keyPart _ _ _) h
  | keyEnd => exact request_withinCapacity _ (keepsCapacity_keyEnd _) h
  | withdrawQuestion => exact request_withinCapacity _ (keepsCapacity_withdrawQuestion _ _) h
  | readKey => exact request_withinCapacity _ (fun _ => withArgs_withinCapacity keepsCapacity_read) h
  | readSheet => exact readArgs _ _ _
  | readBatch => exact read _ _
  | startBatch => exact request_withinCapacity _ (keepsCapacity_startBatch _ _ _ _) h
  | continueBatch => exact request_withinCapacity _ keepsCapacity_continueBatch h
  | extendSegment => exact request_withinCapacity _ (keepsCapacity_extendSegment _) h
  | releaseSlots => exact request_withinCapacity _ (keepsCapacity_releaseSlots _) h
  | abortBatch => exact request_withinCapacity _ keepsCapacity_abortBatch h
  | resolveDuplicate => exact request_withinCapacity _ (keepsCapacity_resolveDuplicate _ _) h
  | remark => exact request_withinCapacity _ (keepsCapacity_remark _) h
  | setParam => exact request_withinCapacity _ (keepsCapacity_setParam _ _) h
  | getParam => exact readArgs _ _ _
  | identify => exact read _ _
  | readStatus => exact requestThen_withinCapacity _ keepsCapacity_read (fun t => by simp) h
  | reset => exact request_withinCapacity _ (keepsCapacity_withArgs fun _ ht => ht) h
  | _ => exact h

theorem takeRequest_withinCapacity (kind : Byte) (body : List Byte) {s : State} (h : s.withinCapacity) :
    (s.takeRequest kind body).withinCapacity := by
  unfold State.takeRequest
  split
  · simpa using h
  · split
    · simpa using h
    · split
      · simpa using h
      · exact runRequest_withinCapacity _ h

theorem takeFrame_withinCapacity (kind : Byte) (body : List Byte) {s : State} (h : s.withinCapacity) :
    (s.takeFrame kind body).withinCapacity := by
  unfold State.takeFrame State.onFrame
  split
  · exact h
  · split
    · simpa using h
    · exact takeRequest_withinCapacity kind body h

@[simp] theorem withinCapacity_badFrame (t : State) (ending : BadEnding) :
    (t.badFrame ending).withinCapacity ↔ t.withinCapacity := Iff.rfl

theorem receiveData_withinCapacity (b : Byte) {s : State} (h : s.withinCapacity) : (s.receiveData b).withinCapacity := by
  unfold State.receiveData
  split
  case h_7 =>
    unfold State.endFrame
    split
    · exact takeFrame_withinCapacity _ _ h
    · exact h
  all_goals simpa using h

theorem receiveByte_withinCapacity (b : RxByte) {s : State} (h : s.withinCapacity) :
    (State.receiveByte b s).withinCapacity := by
  unfold State.receiveByte
  split
  · exact h
  · split
    · unfold State.receiveFraming
      split <;> exact h
    · exact receiveData_withinCapacity _ h

/-- The entry of a frame sent leaves its list. -/
theorem frameSent_withinCapacity (f : OutFrame) {s : State} (h : s.withinCapacity) : (s.frameSent f).withinCapacity := by
  unfold State.frameSent
  dsimp only
  split
  · unfold State.releaseReset
    split <;> exact h
  · exact h
  · exact h
  · obtain ⟨hnotices, hexceptions, hverdicts, hroutes, hqueue⟩ := h
    exact ⟨by simp only [List.length_tail]; omega, hexceptions, hverdicts, hroutes, hqueue⟩

theorem verdictSent_withinCapacity {s : State} (h : s.withinCapacity) : s.verdictSent.withinCapacity := by
  unfold State.verdictSent
  split
  · obtain ⟨hnotices, hexceptions, hverdicts, hroutes, hqueue⟩ := h
    exact ⟨hnotices, hexceptions, by simp only [List.length_tail]; omega, hroutes, hqueue⟩
  · exact h

/-! ### The resets (R184 to R186) -/

@[simp] theorem withinCapacity_resetHallPorts (t : State) : t.resetHallPorts.withinCapacity ↔ t.withinCapacity := by
  have hchannels : ∀ (u : State) (v : Vector Channel 4), ({ u with scu.channels := v } : State).withinCapacity ↔
      u.withinCapacity := fun _ _ => Iff.rfl
  exact (hchannels _ _).trans (by simp)

/-- A reset empties the notice queue. -/
theorem resetControl_withinCapacity (cause : ResetCause) {s : State} (h : s.withinCapacity) :
    (s.resetControl cause).withinCapacity := by
  obtain ⟨-, hexceptions, hverdicts, hroutes, hqueue⟩ := h
  exact ⟨Nat.zero_le _, hexceptions, hverdicts, hroutes, hqueue⟩

theorem actPorts_withinCapacity {s : State} (h : s.withinCapacity) : s.actPorts.withinCapacity :=
  resetControl_withinCapacity _ (by simpa using h)

theorem clearHall_withinCapacity {s : State} (h : s.withinCapacity) : s.clearHall.withinCapacity := by
  obtain ⟨hnotices, -, hverdicts, hroutes, -⟩ := h
  simp [State.withinCapacity, State.clearHall, hnotices, hverdicts, hroutes]

theorem actHall_withinCapacity {s : State} (h : s.withinCapacity) : s.actHall.withinCapacity :=
  resetControl_withinCapacity _ (clearHall_withinCapacity (by simpa using h))

/-- LINK_RESET keeps the verdicts of the resynchronised port alone. -/
theorem actLinkReset_withinCapacity {s : State} (h : s.withinCapacity) : s.actLinkReset.withinCapacity := by
  have hport : s.resyncReader.withinCapacity := by simpa using h
  obtain ⟨-, -, hport, -, -⟩ := hport
  have hnotices : s.actLinkReset.cli.notices = [] := rfl
  have hexceptions : s.actLinkReset.scu.exceptions = [] := rfl
  have hverdicts : s.actLinkReset.srp.verdicts = s.resyncReader.srp.verdicts := rfl
  have hroutes : s.actLinkReset.sal.routes = [] := rfl
  have hqueue : s.actLinkReset.sal.queue = [] := rfl
  simp [State.withinCapacity, hnotices, hexceptions, hverdicts, hroutes, hqueue, hport]

/-! ### The outcome of a row -/

/-- The next state, if there is one, is within the capacities. -/
def NextWithinCapacity (o : Outcome) : Prop := ∀ t, o = .next t → t.withinCapacity

@[simp] theorem nextWithinCapacity_done (s : State) : NextWithinCapacity (done s) ↔ s.withinCapacity := by
  refine ⟨fun h => (withinCapacity_settle s).mp (h _ rfl), fun h t ht => ?_⟩
  obtain rfl : s.settle = t := Host.Outcome.next.inj ht
  simpa using h

@[simp] theorem nextWithinCapacity_ite (c : Prop) [Decidable c] (a b : Outcome) :
    NextWithinCapacity (if c then a else b) ↔ if c then NextWithinCapacity a else NextWithinCapacity b :=
  Iff.of_eq (apply_ite NextWithinCapacity c a b)

theorem powerOn_withinCapacity (rate1 rate0 : Bool) (s : State) : NextWithinCapacity (execPowerOn rate1 rate0 s) := by
  refine (nextWithinCapacity_done _).mpr ?_
  simp [State.withinCapacity, State.reset, Cli.atReset, Scu.atReset, Srp.atReset, Sal.atReset]

theorem fireFor_withinCapacity (slot : Nat) (kind : MarkKind → Bool) {s : State} (h : s.withinCapacity) :
    (s.fireFor slot kind).withinCapacity := by
  unfold State.fireFor
  split
  · exact h
  · exact atPoint_withinCapacity _ _ (fun hs => by simpa using hs) h

/-- A timebase second writes clocks and timers. -/
theorem tick_withinCapacity {s : State} (h : s.withinCapacity) :
    s.tickHall.tickSittings.tickSync.tickCalls.withinCapacity := by
  have hhall : s.tickHall.withinCapacity := by
    unfold State.tickHall
    dsimp only
    split <;> exact h
  have hsync : s.tickHall.tickSittings.tickSync.withinCapacity := by
    unfold State.tickSync
    split <;> exact hhall
  exact hsync

theorem correctToMinute_withinCapacity {s : State} (h : s.withinCapacity) : s.correctToMinute.withinCapacity := by
  unfold State.correctToMinute
  dsimp only
  split
  · exact h
  · split <;> exact clockJump_withinCapacity _ _ h

theorem syncEdge_withinCapacity {s : State} (h : s.withinCapacity) : NextWithinCapacity (execSyncEdge s) := by
  have hedge : s.correctToMinute.noteEdge.withinCapacity := correctToMinute_withinCapacity h
  simp [execSyncEdge, h, hedge]

theorem onReply_withinCapacity {α : Type} (l : LinkName) (frame : List Byte) (read : Nat → List Byte → Option α)
    (echo : α → Byte) {take : Nat → α → State → State} (htake : ∀ a r t, (take a r t).withinCapacity ↔ t.withinCapacity)
    {s : State} (h : s.withinCapacity) : (s.onReply l frame read echo take).withinCapacity := by
  unfold State.onReply
  split
  · split
    · simpa using h
    · simpa [htake] using h
  · exact h

/-- A row of a request has that request's outcome, and every other keeps the capacities. -/
theorem exec_request_or_withinCapacity (i : Instr) {s : State} (h : s.withinCapacity) :
    exec i s = done (s.runRequest i) ∨ NextWithinCapacity (exec i s) := by
  have point : ∀ (k : Nat) (reached : Sitting → Bool) (take : State → State),
      (s.withinCapacity → (take s).withinCapacity) → NextWithinCapacity (done (s.atPoint k reached take)) :=
    fun k reached take htake => (nextWithinCapacity_done _).mpr (atPoint_withinCapacity k reached htake h)
  cases i with
  | resetPorts => exact .inr (by simp [exec, execResetPorts, h, actPorts_withinCapacity])
  | resetHall => exact .inr (by simp [exec, execResetHall, h, actHall_withinCapacity])
  | powerOn rate1 rate0 => exact .inr (powerOn_withinCapacity rate1 rate0 s)
  | linkReset => exact .inr (by simp [exec, execLinkReset, h, actLinkReset_withinCapacity])
  | lineIdleReturn => exact .inr ((nextWithinCapacity_done _).mpr h)
  | badFrame run =>
    exact .inr ((nextWithinCapacity_done _).mpr
      (forEach_withinCapacity (fun b t ht => by simpa using receiveByte_withinCapacity b ht) run h))
  | receiveGapTimeout =>
    refine .inr ?_
    dsimp only [exec, execReceiveGapTimeout]
    split <;> simpa using h
  | unknownKind kind body => exact .inr ((nextWithinCapacity_done _).mpr (takeFrame_withinCapacity kind body h))
  | overrun kind body => exact .inr ((nextWithinCapacity_done _).mpr (takeFrame_withinCapacity kind body h))
  | hrdyChange level => exact .inr ((nextWithinCapacity_done _).mpr h)
  | frameSent =>
    refine .inr ?_
    dsimp only [exec, execFrameSent]
    split
    · exact (nextWithinCapacity_done _).mpr (frameSent_withinCapacity _ h)
    · exact (nextWithinCapacity_done _).mpr h
  | timebaseSecond => exact .inr ((nextWithinCapacity_done _).mpr (tick_withinCapacity h))
  | syncEdge => exact .inr (syncEdge_withinCapacity h)
  | syncLost =>
    refine .inr ?_
    dsimp only [exec, execSyncLost]
    split
    · exact (nextWithinCapacity_done _).mpr ((withinCapacity_notify _ _).mpr h)
    · exact (nextWithinCapacity_done _).mpr h
  | scheduledStart k => exact .inr (by simp [exec, execScheduledStart, h, startSittingNow_withinCapacity])
  | sittingSecond k => exact .inr (by simp [exec, execSittingSecond, h, takeSecond_withinCapacity])
  | readingCompare k => exact .inr (point _ _ _ (startWriting_withinCapacity _ _))
  | sittingWarning k => exact .inr (point _ _ _ (withinCapacity_giveWarning _ _).mpr)
  | lateCutoff k => exact .inr (point _ _ _ (takeCutoff_withinCapacity _))
  | writingCompare k => exact .inr (point _ _ _ (withinCapacity_takeCompare _ _).mpr)
  | warnFiring c => exact .inr ((nextWithinCapacity_done _).mpr (fireFor_withinCapacity _ _ h))
  | endFiring c => exact .inr ((nextWithinCapacity_done _).mpr (fireFor_withinCapacity _ _ h))
  | restExpiry c => exact .inr ((nextWithinCapacity_done _).mpr (fireFor_withinCapacity _ _ h))
  | escalation n => exact .inr (by simp [exec, execEscalation, h])
  | handsetAway n => exact .inr (by simp [exec, execHandsetAway, h])
  | retryPass =>
    refine .inr ?_
    dsimp only [exec, execRetryPass]
    split
    · exact (nextWithinCapacity_done _).mpr h
    · exact (nextWithinCapacity_done _).mpr (retryWalk_withinCapacity h)
  | relocation =>
    refine .inr ?_
    dsimp only [exec, execRelocation]
    split
    · exact (nextWithinCapacity_done _).mpr h
    · exact (nextWithinCapacity_done _).mpr ((withinCapacity_relocate _ _ _).mpr h)
  | pollCycleStart l => exact .inr (by simp [exec, execPollCycleStart, h])
  | pollFrame l => exact .inr (by simp [exec, execPollFrame, h])
  | pollTimeout l =>
    refine .inr ?_
    dsimp only [exec, execPollTimeout]
    split <;> simpa using h
  | seatReply l frame => exact .inr ((nextWithinCapacity_done _).mpr (onReply_withinCapacity _ _ _ _ (by simp) h))
  | handsetReply frame => exact .inr ((nextWithinCapacity_done _).mpr (onReply_withinCapacity _ _ _ _ (by simp) h))
  | stationReply frame => exact .inr ((nextWithinCapacity_done _).mpr (onReply_withinCapacity _ _ _ _ (by simp) h))
  | wallClockReply frame => exact .inr ((nextWithinCapacity_done _).mpr (onReply_withinCapacity _ _ _ _ (by simp) h))
  | lateUnitReply l frame => exact .inr ((nextWithinCapacity_done _).mpr h)
  | pollCycleEnd l => exact .inr (by simp [exec, execPollCycleEnd, h])
  | timeCodeBroadcast l => exact .inr (by simp [exec, execTimeCodeBroadcast, h])
  | timeCodeRepeat l => exact .inr (by simp [exec, execTimeCodeRepeat, h])
  | sheetFrameEnd run => exact .inr (by simp [exec, execSheetFrameEnd, h])
  | frameGapTimeout => exact .inr (by simp [exec, execFrameGapTimeout, h])
  | rrdyChange level => exact .inr (by simp [exec, execRrdyChange, h])
  | verdictSent => exact .inr ((nextWithinCapacity_done _).mpr (verdictSent_withinCapacity h))
  | _ => exact .inl rfl

theorem exec_withinCapacity (i : Instr) {s : State} (h : s.withinCapacity) : NextWithinCapacity (exec i s) := by
  rcases exec_request_or_withinCapacity i h with hrequest | hevent
  · rw [hrequest, nextWithinCapacity_done]
    exact runRequest_withinCapacity i h
  · exact hevent

/-- Settles O5: with no command waiting the state stands; the command taken, a request or an event, keeps every list. -/
theorem stepKeepsCapacities : Obligations.StepKeepsCapacities := by
  intro s t h ht
  unfold step at ht
  split at ht
  · obtain rfl : s = t := Host.Outcome.next.inj ht
    exact h
  next c rest _ => exact exec_withinCapacity c (s := { s with pending := rest }) h t ht

end Sys2Proof.Machine
end

