-- ==== Sys2Proof/Proofs/Search.lean ====
section
/-!
PROOFS. The seat search (R24 to R28): the order in which the grid is examined, what qualifies a desk, the two passes over
one zone, and the zones of a list one after another.
-/

namespace Sys2Proof.Machine

/-! ### FILL_ORDER (R24, R26) -/

/-- The place of a position in FILL_ORDER. -/
def fillRank (fill : FillOrder) (n : Nat) : Nat :=
  n / 16 * 16 + if fill = .serpentine ∧ n / 16 % 2 = 1 then 15 - n % 16 else n % 16

theorem fillRank_of_row (fill : FillOrder) (r : Nat) {c : Nat} (hc : c < 16) :
    fillRank fill (r * 16 + c) = r * 16 + if fill = .serpentine ∧ r % 2 = 1 then 15 - c else c := by
  have hrow : (r * 16 + c) / 16 = r := by omega
  have hcolumn : (r * 16 + c) % 16 = c := by omega
  rw [fillRank, hrow, hcolumn]

theorem mem_columnOrder {fill : FillOrder} {r c : Nat} : c ∈ columnOrder fill r ↔ c < 16 := by
  unfold columnOrder
  split
  · simp
  · split <;> simp

/-- Every position of the grid is examined. -/
theorem mem_gridOrder {fill : FillOrder} {i : Nat} : i ∈ gridOrder fill ↔ i < 384 := by
  simp only [gridOrder, List.mem_flatMap, List.mem_range, List.mem_map, mem_columnOrder]
  constructor
  · rintro ⟨r, hr, c, hc, rfl⟩
    omega
  · intro hi
    exact ⟨i / 16, by omega, i % 16, by omega, by omega⟩

/-- The columns of a row run up, and those of an odd row under SERPENTINE down. -/
theorem columnOrder_pairwise (fill : FillOrder) (r : Nat) : (columnOrder fill r).Pairwise
    (fun a b => fillRank fill (r * 16 + a) < fillRank fill (r * 16 + b)) := by
  have hup : (List.range 16).Pairwise (· < ·) := List.pairwise_lt_range
  have hdown : (List.range 16).reverse.Pairwise (fun a b => b < a) := List.pairwise_reverse.mpr hup
  unfold columnOrder
  split
  · refine hup.imp_of_mem fun ha hb hab => ?_
    rw [fillRank_of_row _ _ (List.mem_range.mp ha), fillRank_of_row _ _ (List.mem_range.mp hb)]
    simpa using hab
  · split
    next heven =>
      refine hup.imp_of_mem fun ha hb hab => ?_
      rw [fillRank_of_row _ _ (List.mem_range.mp ha), fillRank_of_row _ _ (List.mem_range.mp hb)]
      simpa [heven] using hab
    next hodd =>
      refine hdown.imp_of_mem fun {a b} ha hb hab => ?_
      have ha : a < 16 := by simpa using ha
      have hb : b < 16 := by simpa using hb
      have hodd : r % 2 = 1 := by omega
      simp only [fillRank_of_row _ _ ha, fillRank_of_row _ _ hb, hodd, and_self, if_true]
      omega

/-- A position of a row stands in the sixteen places of that row. -/
theorem fillRank_row (fill : FillOrder) (r : Nat) {c : Nat} (hc : c < 16) :
    r * 16 ≤ fillRank fill (r * 16 + c) ∧ fillRank fill (r * 16 + c) < r * 16 + 16 := by
  rw [fillRank_of_row fill r hc]
  split <;> omega

/-- The grid is examined in the order of the places. -/
theorem gridOrder_pairwise (fill : FillOrder) :
    (gridOrder fill).Pairwise (fun a b => fillRank fill a < fillRank fill b) := by
  refine List.pairwise_flatMap.mpr ⟨fun r _ => List.pairwise_map.mpr (columnOrder_pairwise fill r), ?_⟩
  refine List.pairwise_lt_range.imp fun {r q} hrq a ha b hb => ?_
  obtain ⟨c, hc, rfl⟩ := List.mem_map.mp ha
  obtain ⟨d, hd, rfl⟩ := List.mem_map.mp hb
  have hlow := fillRank_row fill r (mem_columnOrder.mp hc)
  have hhigh := fillRank_row fill q (mem_columnOrder.mp hd)
  omega

/-- A position found passes the test, and none before it in FILL_ORDER does. -/
theorem find?_gridOrder_eq_some {fill : FillOrder} {p : Nat → Bool} {i : Nat} (h : (gridOrder fill).find? p = some i) :
    p i = true ∧ ∀ j, j < 384 → p j = true → fillRank fill i ≤ fillRank fill j := by
  obtain ⟨hp, before, after, hsplit, hbefore⟩ := List.find?_eq_some_iff_append.mp h
  refine ⟨hp, fun j hj hpj => ?_⟩
  have horder := gridOrder_pairwise fill
  have hmem : j ∈ gridOrder fill := mem_gridOrder.mpr hj
  rw [hsplit, List.pairwise_append, List.pairwise_cons] at horder
  rw [hsplit, List.mem_append, List.mem_cons] at hmem
  obtain ⟨-, ⟨hafter, -⟩, -⟩ := horder
  rcases hmem with hmem | rfl | hmem
  · exact absurd hpj (by simpa using hbefore j hmem)
  · exact le_rfl
  · exact (hafter j hmem).le

/-! ### The neighbours of a desk (R24, R27) -/

/-- Under ROW the positions beside it in its row, under CROSS those before and behind it as well, on the grid. -/
theorem mem_neighbours {rule : SpacingRule} {i j : Nat} (hi : i < 384) : j ∈ neighbours rule i ↔ j < 384 ∧
    ((rule ≠ .none ∧ j / 16 = i / 16 ∧ (j = i + 1 ∨ i = j + 1)) ∨ (rule = .cross ∧ (j = i + 16 ∨ i = j + 16))) := by
  have hrow : j ∈ (if i % 16 = 0 then [] else [i - 1]) ++ (if i % 16 = 15 then [] else [i + 1]) ↔
      j / 16 = i / 16 ∧ (j = i + 1 ∨ i = j + 1) := by
    simp only [List.mem_append, List.mem_ite_nil_left, List.mem_singleton]
    omega
  have hcolumn : j ∈ (if i < 16 then [] else [i - 16]) ++ (if i < 368 then [i + 16] else []) ↔
      j < 384 ∧ (j = i + 16 ∨ i = j + 16) := by
    simp only [List.mem_append, List.mem_ite_nil_left, List.mem_ite_nil_right, List.mem_singleton]
    omega
  cases rule with
  | none => simp [neighbours]
  | row =>
    simp only [neighbours, hrow]
    simp
    omega
  | cross =>
    simp only [neighbours, List.mem_append (s := _ ++ _), hrow, hcolumn]
    simp
    omega

/-! ### What the search looks for in a desk (R26 to R28) -/

/-- A position blocks a candidate's spacing when it is a desk bound to another candidate of the sitting. -/
theorem blocksSpacing_eq_false {s : State} {k : Nat} {c : Option Nat} {j : Nat} : s.blocksSpacing k c j = false ↔
    ∀ y, s.seat? j = some y → y.kind = .seat → ∀ d w, s.boundTo j = some (d, w) → w.sitting = k → c = some d := by
  unfold State.blocksSpacing
  cases s.seat? j with
  | none => simp
  | some y =>
    cases s.boundTo j with
    | none => simp
    | some b =>
      obtain ⟨d, w⟩ := b
      simp

/-- A desk qualifies when it is FREE, has all the candidate needs and no neighbour blocks the spacing. -/
theorem qualifies_iff {s : State} {k : Nat} {needs : Attrs} {c : Option Nat} {i : Nat} :
    s.qualifies k needs c i = true ↔ ∃ x, s.seat? i = some x ∧ x.state = .free ∧ needs &&& x.attrs = needs ∧
      ∀ j ∈ neighbours s.cli.params.spacingRule i, ∀ y, s.seat? j = some y → y.kind = .seat →
        ∀ d w, s.boundTo j = some (d, w) → w.sitting = k → c = some d := by
  simp only [← blocksSpacing_eq_false]
  unfold State.qualifies
  cases s.seat? i <;> simp [and_assoc]

/-- A pass over a zone examines its desks, the first pass over it sparing the accessible ones. -/
theorem examined_iff {s : State} {needs : Attrs} {z : Nat} {second : Bool} {i : Nat} :
    s.examined needs z second i = true ↔ ∃ x, s.seat? i = some x ∧ x.kind = .seat ∧ x.zone = z ∧
      (second = true ∨ x.attrs.getLsbD 0 = false ∨ needs.getLsbD 0 = true) := by
  unfold State.examined
  cases s.seat? i <;> simp [and_assoc, or_assoc]

/-! ### One zone (R28) -/

/-- A pass over a zone. -/
def State.searchPass (s : State) (k : Nat) (needs : Attrs) (c : Option Nat) (z : Nat) (second : Bool) : Option Nat :=
  (gridOrder s.cli.params.fillOrder).find? (fun i => s.examined needs z second i && s.qualifies k needs c i)

/-- The two passes over a zone. -/
def State.searchZone (s : State) (k : Nat) (needs : Attrs) (c : Option Nat) (z : Nat) : Option Nat :=
  (s.searchPass k needs c z false).or (s.searchPass k needs c z true)

/-- The desks of a zone that will do. -/
def State.willDo (s : State) (k : Nat) (needs : Attrs) (c : Option Nat) (z i : Nat) : Prop :=
  s.examined needs z true i = true ∧ s.qualifies k needs c i = true

section
variable {s : State} {k : Nat} {needs : Attrs} {c : Option Nat} {z i : Nat}

theorem willDo_iff : s.willDo k needs c z i ↔ ∃ x, s.seat? i = some x ∧ x.kind = .seat ∧ x.zone = z ∧ x.state = .free ∧
    needs &&& x.attrs = needs ∧ ∀ j ∈ neighbours s.cli.params.spacingRule i, ∀ y, s.seat? j = some y → y.kind = .seat →
      ∀ d w, s.boundTo j = some (d, w) → w.sitting = k → c = some d := by
  rw [State.willDo, examined_iff, qualifies_iff]
  cases s.seat? i <;> simp [and_assoc]

/-- A desk stands in one zone. -/
theorem zone_of_willDo {x : Seat} (h : s.willDo k needs c z i) (hx : s.seat? i = some x) : z = x.zone := by
  obtain ⟨y, hy, -, hz, -⟩ := examined_iff.mp h.1
  rw [← hz, Option.some.inj (hy.symm.trans hx)]

/-- The first pass examines nothing that the second does not. -/
theorem examined_second {second : Bool} (h : s.examined needs z second i = true) : s.examined needs z true i = true := by
  obtain ⟨x, hx, hkind, hz, -⟩ := examined_iff.mp h
  exact examined_iff.mpr ⟨x, hx, hkind, hz, .inl rfl⟩

/-- What a pass finds is the first of the desks it examines that qualify. -/
theorem searchPass_eq_some {second : Bool} (h : s.searchPass k needs c z second = some i) :
    s.examined needs z second i = true ∧ s.qualifies k needs c i = true ∧
      ∀ j, s.examined needs z second j = true → s.qualifies k needs c j = true →
        fillRank s.cli.params.fillOrder i ≤ fillRank s.cli.params.fillOrder j := by
  obtain ⟨hp, hfirst⟩ := find?_gridOrder_eq_some h
  obtain ⟨he, hq⟩ := (Bool.and_eq_true _ _).mp hp
  refine ⟨he, hq, fun j hej hqj => ?_⟩
  obtain ⟨y, hy, -⟩ := examined_iff.mp hej
  exact hfirst j (seat?_lt hy) ((Bool.and_eq_true _ _).mpr ⟨hej, hqj⟩)

/-- A pass that finds none has no desk it examines that qualifies. -/
theorem searchPass_eq_none {second : Bool} (h : s.searchPass k needs c z second = none) {j : Nat}
    (he : s.examined needs z second j = true) : s.qualifies k needs c j = false := by
  obtain ⟨y, hy, -⟩ := examined_iff.mp he
  simpa [he] using List.find?_eq_none.mp h j (mem_gridOrder.mpr (seat?_lt hy))

/-- The second pass comes when the first finds none. -/
theorem searchZone_eq_some : s.searchZone k needs c z = some i ↔ s.searchPass k needs c z false = some i ∨
    (s.searchPass k needs c z false = none ∧ s.searchPass k needs c z true = some i) := Option.or_eq_some_iff

theorem willDo_of_searchZone (h : s.searchZone k needs c z = some i) : s.willDo k needs c z i := by
  rcases searchZone_eq_some.mp h with hfirst | ⟨-, hsecond⟩
  · obtain ⟨he, hq, -⟩ := searchPass_eq_some hfirst
    exact ⟨examined_second he, hq⟩
  · obtain ⟨he, hq, -⟩ := searchPass_eq_some hsecond
    exact ⟨he, hq⟩

theorem not_willDo_of_searchZone (h : s.searchZone k needs c z = none) : ¬s.willDo k needs c z i := by
  rintro ⟨he, hq⟩
  obtain ⟨-, hsecond⟩ := Option.or_eq_none_iff.mp h
  exact absurd hq (by simp [searchPass_eq_none hsecond he])

/-- A desk that will do and stands before the one found is an accessible desk spared for want of that need, as the one
found was not. -/
theorem spared_of_fillRank_lt {j : Nat} {x y : Seat} (h : s.searchZone k needs c z = some i) (hx : s.seat? i = some x)
    (hy : s.seat? j = some y) (hj : s.willDo k needs c z j)
    (hlt : fillRank s.cli.params.fillOrder j < fillRank s.cli.params.fillOrder i) :
    (x.attrs.getLsbD 0 = false ∨ needs.getLsbD 0 = true) ∧ y.attrs.getLsbD 0 = true ∧ needs.getLsbD 0 = false := by
  obtain ⟨hej, hqj⟩ := hj
  rcases searchZone_eq_some.mp h with hfirst | ⟨-, hsecond⟩
  · obtain ⟨he, -, hleast⟩ := searchPass_eq_some hfirst
    obtain ⟨x', hx', -, -, hopen⟩ := examined_iff.mp he
    obtain rfl := Option.some.inj (hx'.symm.trans hx)
    obtain ⟨y', hy', hkind, hz, -⟩ := examined_iff.mp hej
    obtain rfl := Option.some.inj (hy'.symm.trans hy)
    have hspared : ¬(y'.attrs.getLsbD 0 = false ∨ needs.getLsbD 0 = true) := fun ho =>
      absurd (hleast j (examined_iff.mpr ⟨y', hy, hkind, hz, .inr ho⟩) hqj) (Nat.not_le.mpr hlt)
    exact ⟨by simpa using hopen, by simpa using hspared⟩
  · obtain ⟨-, -, hleast⟩ := searchPass_eq_some hsecond
    exact absurd (hleast j hej hqj) (Nat.not_le.mpr hlt)

/-- When an accessible desk is found for a candidate without that need, every desk of the zone that will do is
accessible. -/
theorem accessible_of_searchZone {j : Nat} {x y : Seat} (h : s.searchZone k needs c z = some i) (hx : s.seat? i = some x)
    (hacc : x.attrs.getLsbD 0 = true) (hneed : needs.getLsbD 0 = false) (hy : s.seat? j = some y)
    (hj : s.willDo k needs c z j) : y.attrs.getLsbD 0 = true := by
  obtain ⟨hej, hqj⟩ := hj
  rcases searchZone_eq_some.mp h with hfirst | ⟨hnone, -⟩
  · obtain ⟨he, -⟩ := searchPass_eq_some hfirst
    obtain ⟨x', hx', -, -, hopen⟩ := examined_iff.mp he
    obtain rfl := Option.some.inj (hx'.symm.trans hx)
    rcases hopen with hfalse | hplain | hneeded
    · exact nomatch hfalse
    · exact absurd (hacc.symm.trans hplain) (by decide)
    · exact absurd (hneed.symm.trans hneeded) (by decide)
  · obtain ⟨y', hy', hkind, hz, -⟩ := examined_iff.mp hej
    obtain rfl := Option.some.inj (hy'.symm.trans hy)
    by_contra hplain
    have hexamined : s.examined needs z false j = true :=
      examined_iff.mpr ⟨y', hy, hkind, hz, .inr (.inl (by simpa using hplain))⟩
    exact absurd hqj (by simp [searchPass_eq_none hnone hexamined])

end

/-! ### The zones of a list (R25, R28) -/

/-- The zones are searched one after another. -/
theorem searchZones_eq (s : State) (k : Nat) (needs : Attrs) (c : Option Nat) (zones : List Nat) :
    s.searchZones k needs c zones = zones.findSome? (s.searchZone k needs c) := by
  have hzone : ∀ z, [(z, false), (z, true)].findSome? (fun p => s.searchPass k needs c p.1 p.2) =
      s.searchZone k needs c z := by
    intro z
    unfold State.searchZone
    cases hfirst : s.searchPass k needs c z false <;> cases hsecond : s.searchPass k needs c z true <;>
      simp [hfirst, hsecond]
  have hpasses : (zones.flatMap (fun z => [(z, false), (z, true)])).findSome? (fun p => s.searchPass k needs c p.1 p.2) =
      zones.findSome? (s.searchZone k needs c) := by
    induction zones with
    | nil => rfl
    | cons z zones ih =>
      rw [List.flatMap_cons, List.findSome?_append, hzone, ih, List.findSome?_cons]
      cases s.searchZone k needs c z <;> rfl
  exact hpasses

section
variable {s : State} {k : Nat} {needs : Attrs} {c : Option Nat} {zones : List Nat} {i : Nat}

/-- The desk found is the one its zone's search finds, and the zones before it have none that will do. -/
theorem searchZones_eq_some : s.searchZones k needs c zones = some i ↔ ∃ before z after, zones = before ++ z :: after ∧
    s.searchZone k needs c z = some i ∧ ∀ y ∈ before, s.searchZone k needs c y = none := by
  rw [searchZones_eq]
  exact List.findSome?_eq_some_iff

theorem searchZones_eq_none : s.searchZones k needs c zones = none ↔ ∀ z ∈ zones, s.searchZone k needs c z = none := by
  rw [searchZones_eq]
  exact List.findSome?_eq_none_iff

/-- The desk found is the one its own zone's search finds. -/
theorem searchZone_of_searchZones {x : Seat} (h : s.searchZones k needs c zones = some i) (hx : s.seat? i = some x) :
    s.searchZone k needs c x.zone = some i := by
  obtain ⟨-, z, -, -, hz, -⟩ := searchZones_eq_some.mp h
  rwa [← zone_of_willDo (willDo_of_searchZone hz) hx]

/-- No desk of a zone standing before the found desk's zone will do. -/
theorem not_willDo_of_before {before after : List Nat} {z : Nat} (h : s.searchZones k needs c zones = some i)
    (hzones : zones = before ++ z :: after) (hi : s.willDo k needs c z i) (hz : z ∉ before) {y : Nat} (hy : y ∈ before)
    (j : Nat) : ¬s.willDo k needs c y j := by
  have hbefore : s.searchZones k needs c before = none := by
    by_contra hsome
    obtain ⟨n, hn⟩ := Option.ne_none_iff_exists'.mp hsome
    have hfound : s.searchZones k needs c zones = some n := by
      rw [searchZones_eq] at hn ⊢
      rw [hzones, List.findSome?_append, hn, Option.some_or]
    obtain rfl := Option.some.inj (hfound.symm.trans h)
    obtain ⟨_, w, _, rfl, hw, -⟩ := searchZones_eq_some.mp hn
    obtain ⟨x, hx, -⟩ := willDo_iff.mp hi
    have hwz : w = z := (zone_of_willDo (willDo_of_searchZone hw) hx).trans (zone_of_willDo hi hx).symm
    exact hz (by simp [hwz])
  exact not_willDo_of_searchZone (searchZones_eq_none.mp hbefore y hy)

end

/-- Settles O24: a desk found is the first, in FILL_ORDER, of the first pass over the first zone that finds one; a desk that
will do is one that some pass over its zone examines and that qualifies. -/
theorem searchFindsQualifyingSeat : Obligations.SearchFindsQualifyingSeat := by
  refine ⟨fun s k needs c zones => ?_, fun s k needs c zones i j x y => ?_, fun s k needs c i => qualifies_iff,
    fun rule i j hi => mem_neighbours hi⟩
  · simp only [← willDo_iff]
    refine ⟨fun i h => ?_, fun h z hz i => ?_, fun i before z after h hzones hi hz y hy j => ?_,
      fun i x h hx hacc hneed j y hy hplain hj => ?_⟩
    · obtain ⟨before, z, after, rfl, hz, -⟩ := searchZones_eq_some.mp h
      exact ⟨z, by simp, willDo_of_searchZone hz⟩
    · exact not_willDo_of_searchZone (searchZones_eq_none.mp h z hz)
    · exact not_willDo_of_before h hzones hi hz hy j
    · have hspared := accessible_of_searchZone (searchZone_of_searchZones h hx) hx hacc hneed hy hj
      exact absurd (hspared.symm.trans hplain) (by decide)
  · intro rank h hx hy hkind hzone hq hlt
    exact spared_of_fillRank_lt (searchZone_of_searchZones h hx) hx hy
      ⟨examined_iff.mpr ⟨y, hy, hkind, hzone, .inl rfl⟩, hq⟩ hlt

end Sys2Proof.Machine
end

