-- ==== Sys2Proof/Proofs/Routes.lean ====
section
/-!
PROOFS. SET_ROUTE and CLEAR_ROUTE (R22, R23): the overflow list by its checks, the table by whether it has an entry of the
paper code and room for another.
-/

namespace Sys2Proof.Machine

/-! ### An overflow list (R22) -/

theorem noRepeat_iff (l : List Nat) : noRepeat l = true ↔ l.Nodup := by
  induction l with
  | nil => simp [noRepeat]
  | cons a l ih => simp [noRepeat, ih]

/-- Bytes differ exactly when their numbers do. -/
theorem nodup_map_toNat {w : Nat} (l : List (BitVec w)) : (l.map (·.toNat)).Nodup ↔ l.Nodup :=
  List.nodup_map_iff fun _ _ h => BitVec.eq_of_toNat_eq h

theorem isOverflow_iff {home : Byte} {overflow : List Byte} : isOverflow home overflow = true ↔
    overflow.length ≤ 3 ∧ (∀ z ∈ overflow, z.toNat < 8) ∧ (home :: overflow).Nodup := by
  rw [← nodup_map_toNat, List.map_cons, ← noRepeat_iff]
  simp [isOverflow, isEighth, and_assoc]

/-- An overflow list is refused for its length, a zone out of range or a zone that repeats. -/
theorem isOverflow_eq_false {home : Byte} {overflow : List Byte} (h : 3 < overflow.length ∨
    (∃ z ∈ overflow, 8 ≤ z.toNat) ∨ ¬(home :: overflow).Nodup) : isOverflow home overflow = false := by
  refine Bool.eq_false_iff.mpr fun ht => ?_
  obtain ⟨hlength, hzones, hnodup⟩ := isOverflow_iff.mp ht
  rcases h with hlong | ⟨z, hz, hrange⟩ | hrepeat
  · omega
  · exact absurd (hzones z hz) (by omega)
  · exact hrepeat hnodup

/-! ### The route table (R22, R23) -/

/-- The table has an entry of the paper code. -/
theorem any_paper_iff {routes : List Route} {paper : Paper} :
    routes.any (fun r => r.paper == paper) = true ↔ ∃ r ∈ routes, r.paper = paper := by
  simp

section
variable {e : Route} {routes : List Route}

theorem routesWith_known (h : ∃ r ∈ routes, r.paper = e.paper) :
    routesWith e routes = some (routes.map (fun r => if r.paper = e.paper then e else r)) := by
  simp [routesWith, replaceRoute, h]

theorem routesWith_room (h : ¬∃ r ∈ routes, r.paper = e.paper) (hroom : routes.length < 16) :
    routesWith e routes = some (routes ++ [e]) := by
  rw [routesWith, if_neg (fun ha => h (any_paper_iff.mp ha)), if_pos hroom]

theorem routesWith_full (h : ¬∃ r ∈ routes, r.paper = e.paper) (hfull : 16 ≤ routes.length) :
    routesWith e routes = none := by
  rw [routesWith, if_neg (fun ha => h (any_paper_iff.mp ha)), if_neg (Nat.not_lt.mpr hfull)]

end

section
variable {paper : Paper} {home : Byte} {overflow : List Byte} {s : State} (hl : s.listening = true)
  (hc : ∀ b ∈ [isPaper paper, isEighth home, isOverflow home overflow], b = true)
include hl hc

theorem exec_setRoute_taken {routes : List Route}
    (h : routesWith ⟨paper, home.toNat, overflow.map (·.toNat)⟩ s.sal.routes = some routes) :
    exec (.setRoute paper home overflow) s = State.replied
      { s.toHunt with
        sal.routes := routes
        sal.retryDue := if s.sal.queue = [] then s.sal.retryDue else s.sal.retryDue + 1 } 0x08
      (ok (.routeCount routes.length)) := by
  refine answerTo_withArgs hl hc ?_
  have hsal : s.toHunt.sal = s.sal := rfl
  simp only [hsal, h, askRetryIf_eq]
  cases s.sal.queue <;> rfl

theorem exec_setRoute_full (h : routesWith ⟨paper, home.toNat, overflow.map (·.toNat)⟩ s.sal.routes = none) :
    exec (.setRoute paper home overflow) s = s.toHunt.replied 0x08 (refuse .full) :=
  answerTo_withArgs hl hc (by
    have hsal : s.toHunt.sal = s.sal := rfl
    simp only [hsal, h])

end

/-- Settles O23: the table by the rules above, the refusals by the first check that fails. -/
theorem routesAreSetAndCleared : Obligations.RoutesAreSetAndCleared := by
  intro paper home overflow s hl hpaper
  have hclear : ∀ b ∈ [isPaper paper], b = true := by simp [hpaper]
  refine ⟨fun hhome hlength hzones hnodup => ?_, fun hhome hbad => ?_, fun hhome => ?_, fun hknown => ?_, fun hnew => ?_⟩
  · have hc : ∀ b ∈ [isPaper paper, isEighth home, isOverflow home overflow], b = true := by
      simp [hpaper, isEighth, hhome, isOverflow_iff.mpr ⟨hlength, hzones, hnodup⟩]
    exact ⟨fun hknown => exec_setRoute_taken hl hc (routesWith_known hknown),
      fun hnew hroom => exec_setRoute_taken hl hc (routesWith_room hnew hroom),
      fun hnew hfull => exec_setRoute_full hl hc (routesWith_full hnew hfull)⟩
  · exact answerTo_badArgument hl (by simp [hpaper, isEighth, hhome, isOverflow_eq_false hbad])
  · exact answerTo_badArgument hl (by simp [hpaper, isEighth, Nat.not_lt.mpr hhome])
  · have hfilter : s.sal.routes.filter (fun r => r.paper != paper) = s.sal.routes.filter (fun r => r.paper ≠ paper) :=
      List.filter_congr fun r _ => Bool.eq_iff_iff.mpr (by simp)
    refine answerTo_withArgs hl hclear ((if_pos (any_paper_iff.mpr hknown)).trans ?_)
    rw [← hfilter]
    rfl
  · exact answerTo_withArgs hl hclear (if_neg (fun ha => hnew (any_paper_iff.mp ha)))

end Sys2Proof.Machine
end

