-- ==== Sys2Proof/Proofs/Waiting.lean ====
section
/-!
PROOFS. The waiting queue as READ_QUEUE gives it (R34), one candidate of the retry pass (R33), and relocation (R36).
-/

namespace Sys2Proof.Machine

/-! ### READ_QUEUE (R34) -/

/-- Nothing is passed over when every member of a list has an image. -/
theorem map_some_filterMap {α β : Type} {f : α → Option β} {l : List α} (h : ∀ a ∈ l, (f a).isSome = true) :
    (l.filterMap f).map some = l.map f := by
  induction l with
  | nil => rfl
  | cons a l ih =>
    obtain ⟨b, hb⟩ := Option.isSome_iff_exists.mp (h a List.mem_cons_self)
    simp [hb, ih fun c hc => h c (List.mem_cons_of_mem a hc)]

/-- When every entry of the queue is a candidate, the reply has one entry for each, in its place. -/
theorem map_some_queueEntries {s : State} (h : ∀ c ∈ s.sal.queue, (s.cand? c).isSome = true) :
    s.queueEntries.map some = s.sal.queue.zipIdx.map (fun e =>
      (s.cand? e.1).map (fun x => (e.2 + 1, e.1, x.number, x.sitting, x.needs))) :=
  map_some_filterMap fun e he => by simpa using h e.1 (List.fst_mem_of_mem_zipIdx he)

/-- Settles O16: the reply lists the queue's entries, each candidate's place kept since none is passed over. -/
theorem readQueueListsWaiting : Obligations.ReadQueueListsWaiting := by
  intro s hl
  refine ⟨answerTo_eq hl rfl, fun hqueue => ⟨?_, fun n c x hn hx => ?_⟩⟩
  · simpa using congrArg List.length (map_some_queueEntries hqueue)
  · have hentry := congrArg (fun l => l[n]?) (map_some_queueEntries hqueue)
    simpa [hn, hx] using hentry

/-! ### The retry pass (R33) -/

/-- Two changes of one candidate are one change. -/
theorem modCand_modCand (s : State) (c : Nat) (f g : Candidate → Candidate) :
    (s.modCand c f).modCand c g = s.modCand c (fun y => g (f y)) := by
  simp only [State.modCand, modAt_modAt, Option.map_map]
  rfl

theorem retryOne_unseated {s : State} {c : Nat} {x : Candidate} (hx : s.cand? c = some x)
    (h : s.searchSeat x.sitting x.needs (some c) = none) : s.retryOne c = s := by
  simp [State.retryOne, hx, h]

theorem retryOne_seated {s : State} {c i : Nat} {x : Candidate} (hx : s.cand? c = some x)
    (h : s.searchSeat x.sitting x.needs (some c) = some i) : s.retryOne c = State.notify
      { (s.modSeat i (fun y => { y with state := .assigned, bound := some c })).modCand c (fun y =>
          { y with state := .expected, bound := some i }) with
        sal.queue := s.sal.queue.filter (· != c) }
      (.queueSeated c x.number x.sitting i) := by
  simp only [State.retryOne, hx, h, State.bindSeat, modCand_modCand]
  rfl

/-! ### Relocation (R36) -/

/-- The oldest relocation asked for is taken. -/
theorem exec_relocation {s u : State} {c i : Nat} {rest : List (Nat × Nat)} (h : s.sal.relocations = (c, i) :: rest)
    (hu : ({ s with sal.relocations := rest } : State).relocate c i = u) : exec .relocation s = .next u.settle := by
  dsimp only [exec, execRelocation]
  rw [h, ← hu]
  rfl

theorem relocate_freeSlot {s : State} {c : Nat} (i : Nat) (hx : s.cand? c = none) : s.relocate c i = s := by
  simp [State.relocate, hx]

/-- Is the candidate still in one of the four states, and bound to the seat? -/
def Candidate.mustLeave (x : Candidate) (i : Nat) : Bool := x.state.relocatable && x.bound == some i

theorem mustLeave_iff {x : Candidate} {i : Nat} : x.mustLeave i = true ↔
    (x.state = .expected ∨ x.state = .present ∨ x.state = .writing ∨ x.state = .paused) ∧ x.bound = some i := by
  simp [Candidate.mustLeave, relocatable_iff]

section
variable {s : State} {c i : Nat} {x : Candidate} (hx : s.cand? c = some x)
include hx

theorem relocate_left (h : x.mustLeave i = false) : s.relocate c i = s := by
  unfold Candidate.mustLeave at h
  simp only [State.relocate, hx, h]
  rfl

theorem relocate_moved {t : Nat} (h : x.mustLeave i = true)
    (hfound : s.searchZones x.sitting x.needs (some c) (s.relocationZones x.sitting i) = some t) :
    s.relocate c i = (s.moveBinding c t).notify (.relocated c x.number i t) := by
  unfold Candidate.mustLeave at h
  simp only [State.relocate, hx, h, hfound, if_true]

theorem relocate_failed (h : x.mustLeave i = true)
    (hfound : s.searchZones x.sitting x.needs (some c) (s.relocationZones x.sitting i) = none) :
    s.relocate c i = s.notify (.relocateFailed c x.number i) := by
  unfold Candidate.mustLeave at h
  simp only [State.relocate, hx, h, hfound, if_true]

end

/-- Settles O27: one candidate of the retry pass and one relocation by what the search finds. -/
theorem retryAndRelocation : Obligations.RetryAndRelocation := by
  refine ⟨⟨fun s h => ?_, fun s n h => ?_, fun s c x hx => ⟨retryOne_unseated hx, fun i => retryOne_seated hx⟩⟩,
    ⟨fun s h => ?_, fun s c i rest h => ?_⟩⟩
  · dsimp only [exec, execRetryPass]
    rw [h]
    rfl
  · dsimp only [exec, execRetryPass]
    rw [h]
    rfl
  · dsimp only [exec, execRelocation]
    rw [h]
    rfl
  · refine ⟨fun hx => exec_relocation h (relocate_freeSlot i hx), fun x hx => ⟨fun hasked => ?_,
      fun hasked t hfound => ?_, fun hasked hfound => ?_⟩⟩
    · exact exec_relocation h (relocate_left hx (Bool.eq_false_iff.mpr (mustLeave_iff.not.mpr hasked)))
    · exact exec_relocation h
        (relocate_moved (s := { s with sal.relocations := rest }) hx (mustLeave_iff.mpr hasked) hfound)
    · exact exec_relocation h (relocate_failed hx (mustLeave_iff.mpr hasked) hfound)

end Sys2Proof.Machine
end

