-- ==== Sys2Proof/Proofs/ClocksKept.lean ====
section
/-!
PROOFS. The hall clock stays a time of day and HELD stays on running sittings (R40, R46): what the shared operations do to the
Timing Engine. Most leave it alone; those of a sitting set no HELD flag and stop no held sitting.
-/

namespace Sys2Proof.Machine

/-! ### The Timing Engine left alone -/

/-- The parts of the state that make up the Timing Engine. -/
def tmeParts : List Part :=
  [.timebase, .secondCount, .hall, .syncTimer, .sinceEdge, .lastEdge, .syncLostDue, .sittings]

/-- An operation that writes none of its parts leaves the Timing Engine as it is. -/
theorem Only.tme {l : List Part} {s t : State} (h : Only l s t) (hl : ∀ p ∈ tmeParts, p ∉ l := by decide) :
    t.tme = s.tme := by
  have htimebase : t.tme.timebase = s.tme.timebase := h .timebase (hl _ (by decide))
  have hcount : t.tme.secondCount = s.tme.secondCount := h .secondCount (hl _ (by decide))
  have hhall : t.tme.hall = s.tme.hall := h .hall (hl _ (by decide))
  have htimer : t.tme.syncTimer = s.tme.syncTimer := h .syncTimer (hl _ (by decide))
  have hsince : t.tme.sinceEdge = s.tme.sinceEdge := h .sinceEdge (hl _ (by decide))
  have hedge : t.tme.lastEdge = s.tme.lastEdge := h .lastEdge (hl _ (by decide))
  have hlost : t.tme.syncLostDue = s.tme.syncLostDue := h .syncLostDue (hl _ (by decide))
  have hsittings : t.tme.sittings = s.tme.sittings := h .sittings (hl _ (by decide))
  show Tme.mk _ _ _ _ _ _ _ _ = Tme.mk _ _ _ _ _ _ _ _
  rw [htimebase, hcount, hhall, htimer, hsince, hedge, hlost, hsittings]

/-- Seats, candidates and their bindings, and the passes asked for (chapters 1 and 2). -/
@[simp] theorem tme_binding (t : State) :
    (∀ b, (t.askRetryIf b).tme = t.tme) ∧ (∀ c i, (t.bindSeat c i).tme = t.tme) ∧
    (∀ c, (t.clearBinding c).1.tme = t.tme) ∧ (∀ l, (t.clearBindings l).1.tme = t.tme) ∧
    (∀ c i, (t.moveBinding c i).tme = t.tme) ∧ (∀ c st, (t.retire c st).1.tme = t.tme) ∧
    (∀ c, (t.finishClaim c).tme = t.tme) ∧ (∀ k, (t.absenceClaim k).1.tme = t.tme) ∧
    (∀ k, (t.closingClaim k).1.tme = t.tme) ∧ (∀ k, (t.freeSlotsOf k).1.tme = t.tme) ∧
    (∀ k c, (t.noteRouteMiss k c).tme = t.tme) ∧ (∀ k l, (t.noteRunMiss k l).tme = t.tme) ∧
    (t.retryWalk.tme = t.tme) ∧ (∀ c i, (t.relocate c i).tme = t.tme) ∧ (∀ i, (t.occupy i).tme = t.tme) :=
  ⟨fun b => (askRetryIf_only t b).tme, fun c i => (bindSeat_only t c i).tme, fun c => (clearBinding_only t c).tme,
    fun l => (clearBindings_only t l).tme, fun c i => (moveBinding_only t c i).tme, fun c st => (retire_only t c st).tme,
    fun c => (finishClaim_only t c).tme, fun k => (absenceClaim_only t k).tme, fun k => (closingClaim_only t k).tme,
    fun k => (freeSlotsOf_only t k).tme, fun k c => (noteRouteMiss_only t k c).tme,
    fun k l => (noteRunMiss_only t k l).tme, (retryWalk_only t).tme, fun c i => (relocate_only t c i).tme,
    fun i => (occupy_only t i).tme⟩

/-- Notices of a sitting and of a candidate (chapters 3 and 4). -/
@[simp] theorem tme_notices (t : State) :
    (∀ k c, (t.notePhase k c).tme = t.tme) ∧ (∀ c, (t.noteCandEnd c).tme = t.tme) ∧ (∀ c, (t.fireEnd c).tme = t.tme) :=
  ⟨fun k c => (notePhase_only t k c).tme, fun c => (noteCandEnd_only t c).tme, fun c => (fireEnd_only t c).tme⟩

/-- Units and links (chapter 5). -/
@[simp] theorem tme_units (t : State) :
    (∀ l, (t.beginCycle l).tme = t.tme) ∧ (∀ l i o, (t.setOneShot l i o).tme = t.tme) ∧ (∀ l, (t.pollNext l).tme = t.tme) ∧
    (∀ l a o, (t.endPoll l a o).tme = t.tme) ∧ (∀ l i m c, (t.refuseCheckIn l i m c).tme = t.tme) ∧
    (∀ i c, (t.checkInOnTime i c).tme = t.tme) ∧ (∀ i c, (t.checkInRelocated i c).tme = t.tme) ∧
    (∀ l i q b, (t.pressKey l i q b).tme = t.tme) ∧ (∀ a r, (State.takeStationReply a r t).tme = t.tme) ∧
    (∀ l, (t.endCycle l).tme = t.tme) ∧ (∀ l, (t.sendBroadcast l).tme = t.tme) ∧ (∀ l, (t.sendRepeat l).tme = t.tme) ∧
    (∀ l, (t.startLink l).tme = t.tme) ∧ (∀ l, (t.stopLink l).tme = t.tme) ∧ t.restartLinks.tme = t.tme :=
  ⟨fun l => (beginCycle_only t l).tme, fun l i o => (setOneShot_only t l i o).tme, fun l => (pollNext_only t l).tme,
    fun l a o => (endPoll_only t l a o).tme, fun l i m c => (refuseCheckIn_only t l i m c).tme,
    fun i c => (checkInOnTime_only t i c).tme, fun i c => (checkInRelocated_only t i c).tme,
    fun l i q b => (pressKey_only t l i q b).tme, fun a r => (takeStationReply_only t a r).tme,
    fun l => (endCycle_only t l).tme, fun l => (sendBroadcast_only t l).tme, fun l => (sendRepeat_only t l).tme,
    fun l => (startLink_only t l).tme, fun l => (stopLink_only t l).tme, (restartLinks_only t).tme⟩

/-- Calls, handsets and sweeps (chapters 6 and 7). -/
@[simp] theorem tme_calls (t : State) :
    (∀ i q o, (t.raise i q o).1.tme = t.tme) ∧ (∀ h n, (t.setNote h n).tme = t.tme) ∧
    (∀ c, (t.issueClaim c).1.tme = t.tme) ∧ (∀ h i, (t.unstack h i).tme = t.tme) ∧
    (∀ k, (t.cancelSittingCalls k).1.tme = t.tme) ∧ (∀ h, (t.handsetHeard h).tme = t.tme) ∧ t.clearCalls.tme = t.tme ∧
    (∀ k b, (t.endChannel k b).tme = t.tme) ∧ t.advanceAll.tme = t.tme :=
  ⟨fun i q o => (raise_only t i q o).tme, fun h n => (setNote_only t h n).tme, fun c => (issueClaim_only t c).tme,
    fun h i => (unstack_only t h i).tme, fun k => (cancelSittingCalls_only t k).tme,
    fun h => (handsetHeard_only t h).tme, (clearCalls_only t).tme, fun k b => (endChannel_only t k b).tme,
    (advanceAll_only t).tme⟩

/-- The reader port, the store and the transmitters (chapters 8 to 10). -/
@[simp] theorem tme_marking (t : State) :
    t.settle.tme = t.tme ∧ t.resumeBatch.tme = t.tme ∧ (∀ l, (t.releaseSlots l).1.tme = t.tme) ∧
    (∀ i c x, (t.adopt i c x).tme = t.tme) ∧ (∀ b, (t.takeSheetBytes b).tme = t.tme) ∧
    (∀ f, (t.cutFrame f).tme = t.tme) ∧ (∀ b, (t.setRrdy b).tme = t.tme) ∧ t.verdictSent.tme = t.tme ∧
    t.rejectParked.tme = t.tme ∧ t.resyncReader.tme = t.tme :=
  ⟨(settle_only t).tme, (resumeBatch_only t).tme, fun l => (releaseSlots_only t l).tme,
    fun i c x => (adopt_only t i c x).tme, fun b => (takeSheetBytes_only t b).tme, fun f => (cutFrame_only t f).tme,
    fun b => (setRrdy_only t b).tme, (verdictSent_only t).tme, (rejectParked_only t).tme, (resyncReader_only t).tme⟩

/-- An operation applied for each member of a list. -/
theorem tme_forEach {α : Type} {f : α → State → State} (h : ∀ x t, (f x t).tme = t.tme) (xs : List α) (t : State) :
    (t.forEach xs f).tme = t.tme := by
  induction xs generalizing t with
  | nil => rfl
  | cons x xs ih => exact (ih (f x t)).trans (h x t)

/-! ### What may become of a sitting -/

/-- HELD is set on a running sitting only (R46). -/
def Sitting.heldRuns (x : Sitting) : Prop := x.held = true → x.state.running = true

/-- A sitting that is held was held before, and runs if it ran before. -/
def Sitting.Follows (x y : Sitting) : Prop :=
  y.held = true → x.held = true ∧ (x.state.running = true → y.state.running = true)

theorem Sitting.Follows.refl (x : Sitting) : x.Follows x := fun h => ⟨h, id⟩

theorem Sitting.Follows.trans {x y z : Sitting} (h : x.Follows y) (k : y.Follows z) : x.Follows z := fun hz =>
  have hy := k hz
  have hx := h hy.1
  ⟨hx.1, fun r => hy.2 (hx.2 r)⟩

theorem Sitting.Follows.heldRuns {x y : Sitting} (h : x.Follows y) (hx : x.heldRuns) : y.heldRuns := fun hy =>
  (h hy).2 (hx (h hy).1)

/-- The hall clock stands, and each sitting follows from itself. -/
structure Tme.Follows (a b : Tme) : Prop where
  hall : b.hall = a.hall
  sitting : ∀ (k : Nat) (h : k < 8), a.sittings[k].Follows b.sittings[k]

@[simp] theorem Tme.Follows.refl (a : Tme) : a.Follows a := ⟨rfl, fun _ _ => .refl _⟩

theorem Tme.Follows.trans {a b c : Tme} (h : a.Follows b) (k : b.Follows c) : a.Follows c :=
  ⟨k.hall.trans h.hall, fun j hj => (h.sitting j hj).trans (k.sitting j hj)⟩

/-- The entry changed reads as changed; every other reads as before. -/
theorem modAt_getElem {α : Type} {n : Nat} (v : Vector α n) (i j : Nat) (f : α → α) (hj : j < n) :
    (modAt v i f)[j] = if j = i then f v[j] else v[j] := by
  refine Option.some.inj ?_
  rw [← Vector.getElem?_eq_getElem hj, modAt_getElem?]
  by_cases h : j = i
  · subst h; simp [hj]
  · simp [h, hj]

/-- One sitting changed. -/
theorem follows_modSitting {a : Tme} {t : State} {k : Nat} {f : Sitting → Sitting} (hf : ∀ x : Sitting, x.Follows (f x))
    (h : a.Follows t.tme) : a.Follows (t.modSitting k f).tme := by
  refine h.trans ⟨rfl, fun j hj => ?_⟩
  rw [State.modSitting, modAt_getElem]
  split
  · exact hf _
  · exact .refl _

/-- An operation applied for each member of a list. -/
theorem follows_forEach {α : Type} {a : Tme} {f : α → State → State} (hf : ∀ (x : α) (t : State), t.tme.Follows (f x t).tme)
    (xs : List α) {t : State} (h : a.Follows t.tme) : a.Follows (t.forEach xs f).tme := by
  induction xs generalizing t with
  | nil => exact h
  | cons x xs ih => exact ih (h.trans (hf x t))

/-- The sitting read after is one that follows from the sitting read before. -/
theorem Tme.Follows.read {s t : State} (h : s.tme.Follows t.tme) (k : Nat) : (s.sitting k).Follows (t.sitting k) := by
  unfold State.sitting
  by_cases hk : k < 8
  · simpa [hk] using h.sitting k hk
  · simp [hk, Sitting.Follows.refl]

/-! ### Mark lists and firing (chapter 4) -/

/-- A change that leaves the state and the HELD flag of a sitting. -/
theorem Sitting.follows_of_same {x y : Sitting} (hstate : y.state = x.state) (hheld : y.held = x.held) : x.Follows y :=
  fun h => ⟨hheld ▸ h, fun r => hstate ▸ r⟩

/-- A change to a running state that leaves the HELD flag. -/
theorem Sitting.follows_of_running {x y : Sitting} (hstate : y.state.running = true) (hheld : y.held = x.held) :
    x.Follows y := fun h => ⟨hheld ▸ h, fun _ => hstate⟩

/-- A change that clears the HELD flag. -/
theorem Sitting.follows_of_clear {x y : Sitting} (hheld : y.held = false) : x.Follows y := fun h =>
  absurd h (by simp [hheld])

section
variable {a : Tme} {t : State}

theorem follows_addMark (k : Nat) (e : MarkEntry) (h : a.Follows t.tme) : a.Follows (t.addMark k e).tme :=
  follows_modSitting (fun _ => Sitting.follows_of_same rfl rfl) h

theorem follows_dropMark (k c : Nat) (h : a.Follows t.tme) : a.Follows (t.dropMark k c).tme :=
  follows_modSitting (fun _ => Sitting.follows_of_same rfl rfl) h

theorem follows_addWritingEntry (c : Nat) (h : a.Follows t.tme) : a.Follows (t.addWritingEntry c).tme := by
  unfold State.addWritingEntry
  split
  · exact h
  · exact follows_addMark _ _ h

theorem follows_collectIfEmpty (k : Nat) (h : a.Follows t.tme) : a.Follows (t.collectIfEmpty k).tme := by
  unfold State.collectIfEmpty
  split
  · rw [(tme_notices _).1]
    exact follows_modSitting (fun _ => Sitting.follows_of_clear rfl) h
  · exact h

theorem follows_resumeFor (c d : Nat) (h : a.Follows t.tme) : a.Follows (t.resumeFor c d).tme :=
  follows_addWritingEntry c h

theorem follows_fireRest (c : Nat) (h : a.Follows t.tme) : a.Follows (t.fireRest c).tme := by
  unfold State.fireRest
  split
  · exact h
  · split
    · rw [notify_tme]
      split
      · exact follows_resumeFor _ _ h
      · exact follows_resumeFor _ _ h
    · exact h

theorem follows_fireEntry (e : MarkEntry) (h : a.Follows t.tme) : a.Follows (t.fireEntry e).tme := by
  unfold State.fireEntry
  split
  · exact follows_addWritingEntry _ h
  · simpa using h
  · exact follows_fireRest _ h

theorem follows_fireHead (k : Nat) (h : a.Follows t.tme) : a.Follows (t.fireHead k).tme := by
  unfold State.fireHead
  split
  · exact h
  · exact follows_collectIfEmpty k
      (follows_fireEntry _ (follows_modSitting (fun _ => Sitting.follows_of_same rfl rfl) h))

theorem follows_fireDue (k : Nat) (h : a.Follows t.tme) : a.Follows (t.fireDue k).tme := by
  have upTo : ∀ (n : Nat) (u : State), a.Follows u.tme → a.Follows (State.fireUpTo k n u).tme := by
    intro n
    induction n with
    | zero => exact fun u hu => hu
    | succ n ih =>
      intro u hu
      unfold State.fireUpTo
      split
      · exact ih _ (follows_fireHead k hu)
      · exact hu
  exact upTo _ t h

theorem follows_fireInserted (k : Nat) (h : a.Follows t.tme) : a.Follows (t.fireInserted k).tme := by
  unfold State.fireInserted
  split
  · exact follows_fireDue k h
  · exact h

theorem follows_resumeClaim (c : Nat) (h : a.Follows t.tme) : a.Follows (t.resumeClaim c).tme := by
  unfold State.resumeClaim
  split
  · exact h
  · split
    · exact follows_fireInserted _ (follows_resumeFor _ _ (follows_dropMark _ _ h))
    · exact h

theorem follows_pauseClaim (c : Nat) (h : a.Follows t.tme) : a.Follows (t.pauseClaim c).tme := by
  unfold State.pauseClaim
  split
  · exact h
  · split
    · exact follows_fireInserted _ (follows_addMark _ _ (follows_dropMark _ _ h))
    · exact h

theorem follows_beginWriting (c : Nat) (h : a.Follows t.tme) : a.Follows (State.beginWriting c t).tme := by
  unfold State.beginWriting
  split
  · exact h
  · exact follows_addWritingEntry _ h

/-! ### The points of a second, and the start of a sitting (chapter 3) -/

theorem follows_giveWarning (k : Nat) (h : a.Follows t.tme) : a.Follows (t.giveWarning k).tme := by
  unfold State.giveWarning
  dsimp only
  split
  · exact follows_modSitting (fun _ => Sitting.follows_of_same rfl rfl) (by simpa using h)
  · exact h

theorem follows_takeCutoff (k : Nat) (h : a.Follows t.tme) : a.Follows (t.takeCutoff k).tme := by
  have hclaim : a.Follows ((t.modSitting k (fun x => { x with cutoffTaken := true })).absenceClaim k).1.tme := by
    simp only [tme_binding]
    exact follows_modSitting (fun _ => Sitting.follows_of_same rfl rfl) h
  rw [takeCutoff_eq, notify_tme]
  exact follows_modSitting (fun _ => Sitting.follows_of_same rfl rfl) hclaim

theorem follows_cutoffIfReached (k : Nat) (h : a.Follows t.tme) : a.Follows (t.cutoffIfReached k).tme := by
  unfold State.cutoffIfReached
  split
  · exact follows_takeCutoff k h
  · exact h

theorem follows_startWriting (k : Nat) (cause : PhaseCause) (h : a.Follows t.tme) :
    a.Follows (t.startWriting k cause).tme := by
  have hphase : a.Follows ((t.modSitting k (fun x => { x with
      state := .writing, clock := 0, nextWarning := 1 })).notePhase k cause).tme := by
    simp only [tme_notices]
    exact follows_modSitting (fun _ => Sitting.follows_of_running rfl rfl) h
  exact follows_fireInserted k (follows_cutoffIfReached k (follows_giveWarning k
    (follows_forEach (fun c u => follows_beginWriting c (.refl u.tme)) _ hphase)))

theorem follows_startSittingNow (k : Nat) (h : a.Follows t.tme) : a.Follows (t.startSittingNow k).tme := by
  have hfresh : a.Follows (t.modSitting k (fun x => { x with
      scheduled := none, startDue := false, secondsDue := 0, clock := 0 })).tme :=
    follows_modSitting (fun _ => Sitting.follows_of_same rfl rfl) h
  unfold State.startSittingNow
  dsimp only
  split
  · exact follows_startWriting k _ hfresh
  · simp only [tme_notices]
    exact follows_modSitting (fun _ => Sitting.follows_of_running rfl rfl) hfresh

/-! ### Calls, handsets and check-in (chapters 5 and 6) -/

theorem follows_take (i : Nat) (h : a.Follows t.tme) : a.Follows (t.take i).tme := by
  unfold State.take
  split
  · exact h
  · split
    · simpa using h
    · split
      · simpa using h
      · dsimp only
        split
        · split
          · exact follows_pauseClaim _ h
          · exact h
        · exact h

theorem follows_doneEffect (i : Nat) (c : Call) (h : a.Follows t.tme) : a.Follows (t.doneEffect i c).tme := by
  unfold State.doneEffect
  split
  · split
    · exact h
    · exact follows_resumeClaim _ h
  · split
    · dsimp only
      split
      · split <;> simpa using h
      · exact h
    · exact h
  all_goals exact h

theorem follows_finishCall (n i : Nat) (h : a.Follows t.tme) : a.Follows (t.finishCall n i).tme := by
  unfold State.finishCall
  split
  · exact h
  · exact follows_doneEffect _ _ h

theorem follows_doneCall (n : Nat) (id : Option Nat) (h : a.Follows t.tme) : a.Follows (t.doneCall n id).tme := by
  unfold State.doneCall
  split
  · split
    · exact h
    · split
      · exact h
      · exact follows_finishCall _ _ h
  · split
    · exact follows_finishCall _ _ h
    · exact h

theorem follows_cancelCall (i : Nat) (c : Call) (h : a.Follows t.tme) : a.Follows (t.cancelCall i c).tme := by
  unfold State.cancelCall
  split
  · exact h
  · rw [putCall_tme]
    split
    · exact follows_resumeClaim _ h
    · exact h

theorem follows_returnCall (i : Nat) (h : a.Follows t.tme) : a.Follows (State.returnCall i t).tme := by
  unfold State.returnCall
  split
  · exact h
  · rw [modCall_tme]
    split
    · exact follows_resumeClaim _ h
    · exact h

theorem follows_handsetGoesAway (n : Nat) (h : a.Follows t.tme) : a.Follows (t.handsetGoesAway n).tme := by
  simpa [State.handsetGoesAway] using follows_forEach (fun i u => follows_returnCall i (.refl u.tme)) _ h

theorem follows_resumeAll (h : a.Follows t.tme) : a.Follows t.resumeAll.tme :=
  follows_forEach (fun c u => follows_resumeClaim c (.refl u.tme)) _ h

theorem follows_checkInLate (i c : Nat) (h : a.Follows t.tme) : a.Follows (t.checkInLate i c).tme := by
  unfold State.checkInLate
  split
  · exact h
  · exact follows_fireInserted _ (by
      simp only [notify_tme, tme_binding]
      exact follows_beginWriting c h)

theorem follows_checkIn (l : LinkName) (i m : Nat) (h : a.Follows t.tme) : a.Follows (t.checkIn l i m).tme := by
  unfold State.checkIn
  split
  case h_4 => exact follows_checkInLate _ _ h
  all_goals simpa using h

theorem follows_takeSeatReply (l : LinkName) (i : Nat) (r : SeatReply) (h : a.Follows t.tme) :
    a.Follows (State.takeSeatReply l i r t).tme := by
  have hcard : a.Follows (if r.card = 0 then t else t.checkIn l i r.card).tme := by
    split
    · exact h
    · exact follows_checkIn _ _ _ h
  unfold State.takeSeatReply
  dsimp only
  split
  · split
    · exact hcard
    · simpa using hcard
  · exact h

theorem follows_takeHandsetReply (n : Nat) (r : HandsetKey × Byte) (h : a.Follows t.tme) :
    a.Follows (State.takeHandsetReply n r t).tme := by
  have hheard : a.Follows (t.handsetHeard n).tme := by simpa using h
  unfold State.takeHandsetReply State.handsetKey
  split
  · split
    · exact hheard
    · exact follows_take _ hheard
    · exact follows_doneCall _ _ hheard
    · simpa using hheard
  · exact h

/-- A unit reply, when what takes its contents is followed. -/
theorem follows_onReply {α : Type} (l : LinkName) (frame : List Byte) (read : Nat → List Byte → Option α)
    (echo : α → Byte) {take : Nat → α → State → State}
    (htake : ∀ (i : Nat) (r : α) (u : State), u.tme.Follows (take i r u).tme) (h : a.Follows t.tme) :
    a.Follows (t.onReply l frame read echo take).tme := by
  unfold State.onReply
  split
  · split
    · simpa using h
    · exact (by simpa using h : a.Follows (t.endPoll l _ _).tme).trans (htake _ _ _)
  · exact h

end

end Sys2Proof.Machine
end

