-- ==== Sys2Proof/Proofs/ClocksStep.lean ====
section
/-!
PROOFS. Every step keeps the hall clock a time of day and HELD on running sittings (R40, R46): the operations that arm, compare,
hold and end a sitting, the answers to the requests, and the events.
-/

namespace Sys2Proof.Machine

/-! ### What is kept -/

/-- A time of day stays one, and where HELD is set on running sittings only it stays so. -/
structure Tme.Keeps (a b : Tme) : Prop where
  hall : a.hall.valid = true → b.hall.valid = true
  held : (∀ x ∈ a.sittings.toList, x.heldRuns) → ∀ x ∈ b.sittings.toList, x.heldRuns

theorem Tme.Keeps.refl (a : Tme) : a.Keeps a := ⟨id, id⟩

theorem Tme.Keeps.trans {a b c : Tme} (h : a.Keeps b) (k : b.Keeps c) : a.Keeps c :=
  ⟨k.hall ∘ h.hall, k.held ∘ h.held⟩

theorem Tme.Keeps.of_eq {a b : Tme} (h : b = a) : a.Keeps b := h ▸ .refl a

theorem Tme.Follows.keeps {a b : Tme} (h : a.Follows b) : a.Keeps b := by
  refine ⟨fun hv => h.hall ▸ hv, fun hx y hy => ?_⟩
  obtain ⟨k, hk, rfl⟩ := List.getElem_of_mem hy
  have hk8 : k < 8 := by simpa using hk
  simpa using (h.sitting k hk8).heldRuns (hx _ (by simp))

/-- Sittings that are all clear of HELD. -/
theorem Tme.Keeps.of_reset {a : Tme} {b : Tme} (hhall : a.hall.valid = true → b.hall.valid = true)
    (hsittings : b.sittings = Vector.replicate 8 Sitting.atReset) : a.Keeps b := by
  refine ⟨hhall, fun _ x hx hheld => ?_⟩
  rw [hsittings] at hx
  obtain ⟨-, rfl⟩ := by simpa using hx
  exact absurd hheld (by decide)

/-- One sitting changed, the HELD flag of the result being in order when that of the sitting is. -/
theorem keeps_modSitting {t : State} {k : Nat} {f : Sitting → Sitting}
    (hf : (t.sitting k).heldRuns → (f (t.sitting k)).heldRuns) : t.tme.Keeps (t.modSitting k f).tme := by
  refine ⟨id, fun hx y hy => ?_⟩
  obtain ⟨j, hj, rfl⟩ := List.getElem_of_mem hy
  have hj8 : j < 8 := by simpa using hj
  have hthis : t.tme.sittings[j].heldRuns := hx _ (by simp)
  have hafter : (t.modSitting k f).tme.sittings.toList[j] = (modAt t.tme.sittings k f)[j] := Vector.getElem_toList _
  rw [hafter, modAt_getElem]
  split
  next h =>
    subst h
    have hread : t.sitting j = t.tme.sittings[j] := by simp [State.sitting, hj8]
    exact hread ▸ hf (hread ▸ hthis)
  · exact hthis

/-- An operation applied for each member of a list. -/
theorem keeps_forEach {α : Type} {f : α → State → State} (hf : ∀ (x : α) (t : State), t.tme.Keeps (f x t).tme)
    (xs : List α) (t : State) : t.tme.Keeps (t.forEach xs f).tme := by
  induction xs generalizing t with
  | nil => exact .refl _
  | cons x xs ih => exact (hf x t).trans (ih (f x t))

/-- A sitting whose HELD flag is clear. -/
theorem Sitting.heldRuns_of_clear {x : Sitting} (h : x.held = false) : x.heldRuns := fun hheld =>
  absurd hheld (by simp [h])

/-- A sitting in order whose state is no running one is not held. -/
theorem Sitting.heldRuns.not_held {x : Sitting} (h : x.heldRuns) (hstate : x.state.running = false) : x.held = false :=
  Bool.eq_false_iff.mpr fun hheld => by simp [h hheld] at hstate

/-! ### The points of a second (R51 to R55) -/

theorem keeps_takeCompare {t : State} {k : Nat} (h : (t.sitting k).held = false) : t.tme.Keeps (t.takeCompare k).tme := by
  unfold State.takeCompare
  split
  all_goals
    simp only [tme_notices]
    exact keeps_modSitting fun _ => Sitting.heldRuns_of_clear h

/-- A sitting that is not held is not held after an operation that sets no HELD flag. -/
theorem Tme.Follows.not_held {s t : State} {k : Nat} (h : s.tme.Follows t.tme) (hs : (s.sitting k).held = false) :
    (t.sitting k).held = false :=
  Bool.eq_false_iff.mpr fun ht => by simp [(h.read k ht).1] at hs

theorem keeps_secondWork {t : State} {k : Nat} (h : (t.sitting k).held = false) : t.tme.Keeps (t.secondWork k).tme := by
  have hpoints : t.tme.Follows (((t.giveWarning k).cutoffIfReached k).fireDue k).tme :=
    follows_fireDue k (follows_cutoffIfReached k (follows_giveWarning k (.refl _)))
  refine hpoints.keeps.trans ?_
  unfold State.secondWork State.compareIfReached
  split
  · exact keeps_takeCompare (hpoints.not_held h)
  · exact .refl _

theorem keeps_takeSecond {t : State} {k : Nat} (h : (t.sitting k).held = false) : t.tme.Keeps (t.takeSecond k).tme := by
  have hclock : t.tme.Follows (t.advanceClock k).tme :=
    follows_modSitting (fun _ => Sitting.follows_of_same rfl rfl) (.refl _)
  unfold State.takeSecond
  dsimp only
  split
  · split
    · exact (follows_startWriting k _ hclock).keeps
    · exact hclock.keeps
  · exact hclock.keeps.trans (keeps_secondWork (hclock.not_held h))

/-- A point within a second of a sitting that is not held. -/
theorem keeps_atPoint {t : State} (k : Nat) (reached : Sitting → Bool) {take : State → State}
    (htake : (t.sitting k).held = false → t.tme.Keeps (take t).tme) : t.tme.Keeps (t.atPoint k reached take).tme := by
  unfold State.atPoint
  dsimp only
  split
  next h =>
    obtain ⟨⟨-, hclear⟩, -⟩ := by simpa using h
    exact htake hclear
  next =>
    split
    next h =>
      obtain ⟨⟨⟨-, hclear⟩, -⟩, -⟩ := by simpa [Sitting.secondWaits] using h
      exact keeps_takeSecond hclear
    next => exact .refl _

theorem keeps_fireFor (t : State) (slot : Nat) (kind : MarkKind → Bool) : t.tme.Keeps (t.fireFor slot kind).tme := by
  unfold State.fireFor
  split
  · exact .refl _
  · exact keeps_atPoint _ _ fun _ => (follows_fireDue _ (.refl _)).keeps

/-! ### The hall clock (R40 to R43) -/

theorem HallTime.valid_iff (t : HallTime) : t.valid = true ↔ t.hour < 24 ∧ t.minute < 60 ∧ t.second < 60 := by
  simp [HallTime.valid, and_assoc]

theorem HallTime.valid_next {t : HallTime} (h : t.valid = true) : t.next.valid = true := by
  rw [HallTime.valid_iff] at *
  unfold HallTime.next
  split
  · dsimp only; omega
  · split
    · dsimp only; omega
    · split <;> dsimp only <;> omega

theorem HallTime.valid_nextMinute {t : HallTime} (h : t.valid = true) : t.nextMinute.valid = true := by
  rw [HallTime.valid_iff] at *
  unfold HallTime.nextMinute
  split
  · dsimp only; omega
  · split <;> dsimp only <;> omega

theorem keeps_clockJump {t : State} {t1 : HallTime} (carried : Bool) (h : t.tme.hall.valid = true → t1.valid = true) :
    t.tme.Keeps (t.clockJump t1 carried).1.tme := by
  have hset : t.tme.Keeps ({ t with tme.hall := t1, tme.secondCount := 0 } : State).tme := ⟨h, id⟩
  exact hset.trans (keeps_forEach (fun k u => (follows_startSittingNow k (.refl u.tme)).keeps) _ _)

theorem keeps_correctToMinute (t : State) : t.tme.Keeps t.correctToMinute.tme := by
  unfold State.correctToMinute
  dsimp only
  split
  · exact ⟨id, id⟩
  · split
    · refine keeps_clockJump _ fun h => ?_
      rw [HallTime.valid_iff] at *
      dsimp only
      omega
    · exact keeps_clockJump _ HallTime.valid_nextMinute

/-- A timebase second counts seconds and marks starts due; it holds and starts nothing. -/
theorem Sitting.follows_tick (hall : HallTime) (x : Sitting) : x.Follows (x.tick hall) := by
  unfold Sitting.tick
  split
  · exact Sitting.follows_of_same rfl rfl
  · split
    · exact Sitting.follows_of_same rfl rfl
    · exact .refl x

theorem keeps_tick (s : State) : s.tme.Keeps s.tickHall.tickSittings.tickSync.tickCalls.tme := by
  have hhall : s.tme.Keeps s.tickHall.tme := by
    unfold State.tickHall
    dsimp only
    split <;> exact ⟨HallTime.valid_next, id⟩
  have hsittings : s.tickHall.tme.Follows s.tickHall.tickSittings.tme :=
    ⟨rfl, fun k hk => by simpa [State.tickSittings, mapAll] using Sitting.follows_tick _ _⟩
  have hsync : s.tickHall.tickSittings.tme.Keeps s.tickHall.tickSittings.tickSync.tme := by
    unfold State.tickSync
    split
    · exact ⟨id, id⟩
    · exact .refl _
  exact (hhall.trans hsittings.keeps).trans hsync

/-! ### The answers that leave the Timing Engine alone -/

/-- A block's answer to a request leaves the Timing Engine as it is. -/
def LeavesTme (handle : State → State × Answer) : Prop := ∀ s : State, (handle s).1.tme = s.tme

theorem leavesTme_read {answer : State → Answer} : LeavesTme (fun s => (s, answer s)) := fun _ => rfl

/-- Arguments checked against the state itself. -/
theorem withArgs_tme {checks : List Bool} {take : State → State × Answer} (h : LeavesTme take) (s : State) :
    (withArgs checks take s).1.tme = s.tme := by
  unfold withArgs
  split
  · rfl
  · exact h s

theorem leavesTme_withArgs {checks : List Bool} {take : State → State × Answer} (h : LeavesTme take) :
    LeavesTme (withArgs checks take) := withArgs_tme h

/-- Either branch of a condition. -/
@[simp] theorem tme_fst_ite (c : Prop) [Decidable c] (a b : State × Answer) :
    (if c then a else b).1.tme = if c then a.1.tme else b.1.tme :=
  apply_ite (fun r : State × Answer => r.1.tme) c a b

theorem leavesTme_defineSeats (first last : Half) (kind zone attrs : Byte) :
    LeavesTme (ansDefineSeats first last kind zone attrs) :=
  leavesTme_withArgs fun s => by
    dsimp only
    split
    · rfl
    · simp only [tme_binding]
      exact tme_forEach (fun _ _ => modSeat_tme _ _ _) _ s

theorem leavesTme_freeSeat (seat : Half) : LeavesTme (ansFreeSeat seat) :=
  leavesTme_withArgs fun s => by simp

theorem leavesTme_holdSeat (seat : Half) : LeavesTme (ansHoldSeat seat) :=
  leavesTme_withArgs fun s => by simp

theorem leavesTme_repairSeat (seat : Half) : LeavesTme (ansRepairSeat seat) :=
  leavesTme_withArgs fun s => by
    split
    · rfl
    · simp

theorem leavesTme_readCandidate (slot : Half) (number : Word) (sitting : Byte) :
    LeavesTme (ansReadCandidate slot number sitting) :=
  leavesTme_withArgs fun s => by
    split
    · rfl
    · split <;> rfl

theorem leavesTme_setRoute (paper : Paper) (home : Byte) (overflow : List Byte) :
    LeavesTme (ansSetRoute paper home overflow) :=
  leavesTme_withArgs fun s => by
    split
    · rfl
    · simp

theorem leavesTme_clearRoute (paper : Paper) : LeavesTme (ansClearRoute paper) :=
  leavesTme_withArgs fun s => by simp

theorem createCandidate_tme {t u : State} {number c : Nat} {e : Entry} {p : Placement}
    (hu : t.createCandidate number e = .ok (u, c, p)) : u.tme = t.tme := by
  unfold State.createCandidate at hu
  split at hu
  · exact nomatch hu
  · split at hu
    · exact nomatch hu
    · split at hu
      · exact nomatch hu
      · dsimp only at hu
        split at hu
        · obtain ⟨rfl, -⟩ := Prod.mk.inj (Except.ok.inj hu)
          simp
        · split at hu
          · obtain ⟨rfl, -⟩ := Prod.mk.inj (Except.ok.inj hu)
            rfl
          · exact nomatch hu

theorem createRun_tme (e : Entry) (n number : Nat) (t : State) : (State.createRun e n number t).1.tme = t.tme := by
  induction n generalizing number t with
  | zero => rfl
  | succ n ih =>
    unfold State.createRun
    split
    · rfl
    next hu => exact (ih _ _).trans (createCandidate_tme hu)

theorem leavesTme_allocate (number : Word) (sitting needs allowance rest : Byte) :
    LeavesTme (ansAllocate number sitting needs allowance rest) :=
  leavesTme_withArgs fun s => by
    split
    · rfl
    next hu => simpa using createCandidate_tme hu

theorem leavesTme_allocateRun (base : Word) (count sitting needs allowance rest : Byte) :
    LeavesTme (ansAllocateRun base count sitting needs allowance rest) :=
  leavesTme_withArgs fun s => by simp [createRun_tme]

theorem leavesTme_move (slot seat : Half) : LeavesTme (ansMove slot seat) :=
  leavesTme_withArgs fun s => by
    split
    · rfl
    · simp

theorem leavesTme_startLink (link : Byte) : LeavesTme (ansStartLink link) :=
  leavesTme_withArgs fun s => by
    split
    · rfl
    · simp [tme_forEach]

theorem leavesTme_stopLink (link : Byte) : LeavesTme (ansStopLink link) :=
  leavesTme_withArgs fun s => by
    split
    · rfl
    · simp [tme_forEach]

theorem leavesTme_raiseAlert (seat : Half) : LeavesTme (ansRaiseAlert seat) :=
  leavesTme_withArgs fun s => by simp

theorem leavesTme_issueBooklet (slot : Half) : LeavesTme (ansIssueBooklet slot) :=
  leavesTme_withArgs fun s => by
    split
    · rfl
    · simp

theorem leavesTme_startSweep (channel mode : Byte) (start finish : Half) (stride : Byte) :
    LeavesTme (ansStartSweep channel mode start finish stride) :=
  leavesTme_withArgs fun s => by
    dsimp only
    split
    · rfl
    · split
      · rfl
      · unfold State.startSweep
        dsimp only
        split <;> simp

theorem leavesTme_stopSweep (channel : Byte) : LeavesTme (ansStopSweep channel) :=
  leavesTme_withArgs fun s => by simp

theorem leavesTme_keyBegin (key form questions penalty : Byte) : LeavesTme (ansKeyBegin key form questions penalty) :=
  leavesTme_withArgs fun s => by simp

theorem leavesTme_keyPart (key first : Byte) (entries : List KeyEntry) : LeavesTme (ansKeyPart key first entries) :=
  fun _ => withArgs_tme (fun s => by simp) _

theorem leavesTme_keyEnd (key : Byte) : LeavesTme (ansKeyEnd key) :=
  leavesTme_withArgs fun s => by
    dsimp only
    split
    · rfl
    · split
      · rfl
      · split <;> simp

theorem leavesTme_withdrawQuestion (key question : Byte) : LeavesTme (ansWithdrawQuestion key question) :=
  fun _ => withArgs_tme (fun s => by simp) _

theorem leavesTme_startBatch (sitting count segStart segEnd : Byte) :
    LeavesTme (ansStartBatch sitting count segStart segEnd) :=
  leavesTme_withArgs fun s => by
    dsimp only
    split
    · rfl
    · split
      · rfl
      · split
        · rfl
        · simp

theorem leavesTme_continueBatch : LeavesTme ansContinueBatch := fun s => by simp [ansContinueBatch]

theorem leavesTme_extendSegment (segEnd : Byte) : LeavesTme (ansExtendSegment segEnd) :=
  fun _ => withArgs_tme (fun s => by simp) _

theorem leavesTme_releaseSlots (stores : List Byte) : LeavesTme (ansReleaseSlots stores) :=
  leavesTme_withArgs fun s => by simp

theorem leavesTme_abortBatch : LeavesTme ansAbortBatch := fun s => by simp [ansAbortBatch]

theorem leavesTme_resolveDuplicate (store action : Byte) : LeavesTme (ansResolveDuplicate store action) :=
  leavesTme_withArgs fun s => by
    split
    · rfl
    · split
      · rfl
      · split
        · unfold State.tryAdopt
          split
          · rfl
          · simp
        · simp

/-- Remarking writes results, to the store and to the candidates. -/
theorem remarkSlot_tme (key : Key) (i : Nat) (r : State × Nat × Nat × Nat) :
    (State.remarkSlot key i r).1.tme = r.1.tme := by
  unfold State.remarkSlot
  split
  · rfl
  · split
    · rfl
    · split
      · rfl
      · split
        · rfl
        · dsimp only
          split <;> simp

theorem leavesTme_remark (sitting : Byte) : LeavesTme (ansRemark sitting) :=
  leavesTme_withArgs fun s => by
    have hfold : ∀ (key : Key) (l : List Nat) (r : State × Nat × Nat × Nat),
        (l.foldl (fun r i => State.remarkSlot key i r) r).1.tme = r.1.tme := by
      intro key l
      induction l with
      | nil => exact fun r => rfl
      | cons i l ih => exact fun r => (ih _).trans (remarkSlot_tme key i r)
    split
    · rfl
    · split
      · rfl
      · split
        · rfl
        · exact hfold _ _ _

theorem leavesTme_setParam (param : Byte) (value : Word) : LeavesTme (ansSetParam param value) :=
  fun _ => withArgs_tme (fun s => by
    split
    · rfl
    · dsimp only
      split
      · rfl
      · split <;> rfl) _

/-! ### The answers that write it -/

/-- A block's answer to a request keeps the clock and the holds. -/
def KeepsClocks (handle : State → State × Answer) : Prop := ∀ s : State, s.tme.Keeps (handle s).1.tme

theorem LeavesTme.keepsClocks {handle : State → State × Answer} (h : LeavesTme handle) : KeepsClocks handle := fun s =>
  .of_eq (h s)

/-- Arguments checked: what takes them may rely on the checks. -/
theorem keepsClocks_withChecked {checks : List Bool} {take : State → State × Answer}
    (h : (∀ b ∈ checks, b = true) → KeepsClocks take) : KeepsClocks (withArgs checks take) := by
  intro s
  unfold withArgs
  split
  · exact .refl _
  next hgood => exact h (firstBad_eq_none.mp hgood) s

theorem keepsClocks_withArgs {checks : List Bool} {take : State → State × Answer} (h : KeepsClocks take) :
    KeepsClocks (withArgs checks take) := keepsClocks_withChecked fun _ => h

theorem keepsClocks_withdraw (slot : Half) : KeepsClocks (ansWithdraw slot) :=
  keepsClocks_withArgs fun s => by
    have hwithdrawn : ∀ x, s.tme.Follows (s.withdrawAs slot.toNat x).1.tme := by
      intro x
      unfold State.withdrawAs
      split
      case h_3 =>
        simp only [tme_binding]
        exact follows_dropMark _ _ (.refl _)
      all_goals simp
    split
    · exact .refl _
    · split
      · exact (follows_collectIfEmpty _ (by simpa using hwithdrawn _)).keeps
      · exact .refl _

theorem keepsClocks_setTimebase (source : Byte) (frequency : Half) (prescale syncMode : Byte) :
    KeepsClocks (ansSetTimebase source frequency prescale syncMode) :=
  keepsClocks_withArgs fun s => by
    split
    · exact .refl _
    · exact ⟨id, id⟩

theorem keepsClocks_setHallTime (hour minute second : Byte) : KeepsClocks (ansSetHallTime hour minute second) :=
  keepsClocks_withChecked fun h s => keeps_clockJump false fun _ => by
    rw [HallTime.valid_iff]
    simpa [timeOf] using h

theorem keepsClocks_defineSitting (sitting : Byte) (paper : Paper) (reading : Byte)
    (writing cutoff opening closing : Half) (warnings : List Byte) (quiet threshold scriptKind keyId : Byte) :
    KeepsClocks (ansDefineSitting sitting paper reading writing cutoff opening closing warnings quiet threshold
      scriptKind keyId) :=
  keepsClocks_withArgs fun s => by
    have hdefined := keeps_modSitting (t := s) (k := sitting.toNat) (f := fun _ => definedSitting paper reading writing
      cutoff opening closing warnings quiet threshold scriptKind keyId) fun _ => Sitting.heldRuns_of_clear rfl
    unfold State.defineSitting
    split
    · simpa using hdefined
    · simpa using hdefined
    · exact .refl _

theorem keepsClocks_startSitting (sitting hour minute second : Byte) :
    KeepsClocks (ansStartSitting sitting hour minute second) :=
  keepsClocks_withArgs fun s => by
    dsimp only
    split
    · exact .refl _
    next hstate =>
      split
      · exact .refl _
      · split
        · exact (follows_startSittingNow _ (.refl _)).keeps
        · unfold State.armSitting
          simp only [tme_notices]
          refine keeps_modSitting fun h => Sitting.heldRuns_of_clear (h.not_held ?_)
          simp [not_not.mp hstate, SittingState.running]

theorem keepsClocks_cancelStart (sitting : Byte) : KeepsClocks (ansCancelStart sitting) :=
  keepsClocks_withArgs fun s => by
    split
    next hstate =>
      simp only [tme_notices]
      refine keeps_modSitting fun h => Sitting.heldRuns_of_clear (h.not_held ?_)
      simp [hstate, SittingState.running]
    next => exact .refl _

/-- The sittings a request with ALL applies to are those of the kind it is for. -/
theorem sittingsFor_sound {s : State} {b : Byte} {p : Sitting → Bool} {k : Nat} (h : k ∈ s.sittingsFor b p) :
    p (s.sitting k) = true := by
  unfold State.sittingsFor at h
  split at h
  · obtain ⟨x, hx, hp⟩ := (mem_indexesWhere p _ k).mp h
    simpa [State.sitting, hx] using hp
  · split at h
    next hp => exact List.mem_singleton.mp h ▸ hp
    next => exact nomatch h

/-- The sittings are read from the Timing Engine. -/
theorem sitting_of_tme {s t : State} (h : t.tme = s.tme) (k : Nat) : t.sitting k = s.sitting k := by
  simp only [State.sitting, h]

/-- A sitting read after one was changed is as before or as changed. -/
theorem sitting_modSitting_or (t : State) (k j : Nat) (f : Sitting → Sitting) :
    (t.modSitting k f).sitting j = t.sitting j ∨ (t.modSitting k f).sitting j = f (t.sitting j) := by
  by_cases hk : k < 8
  · rw [sitting_modSitting _ _ _ _ hk]
    split
    next h => exact .inr (by rw [h])
    next => exact .inl rfl
  · exact .inl (by simp [State.sitting, State.modSitting, modAt, hk])

/-- A hold leaves the states of the sittings. -/
theorem holdOne_state (k j : Nat) (s : State) : ((State.holdOne k s).sitting j).state = (s.sitting j).state := by
  unfold State.holdOne
  rw [sitting_of_tme ((tme_notices _).1 _ _)]
  rcases sitting_modSitting_or s k j (fun x => { x with held := true, secondsDue := 0 }) with h | h <;> rw [h]

/-- Sittings that run are held one after the other. -/
theorem keeps_holds (ids : List Nat) {s : State} (h : ∀ k ∈ ids, (s.sitting k).state.running = true) :
    s.tme.Keeps (s.forEach ids State.holdOne).tme := by
  induction ids generalizing s with
  | nil => exact .refl _
  | cons k ids ih =>
    have hone : s.tme.Keeps (State.holdOne k s).tme := by
      unfold State.holdOne
      simp only [tme_notices]
      exact keeps_modSitting fun _ _ => h k (by simp)
    refine hone.trans (ih fun j hj => ?_)
    rw [holdOne_state]
    exact h j (by simp [hj])

theorem keepsClocks_holdSitting (sitting : Byte) : KeepsClocks (ansHoldSitting sitting) :=
  keepsClocks_withArgs fun s => by
    split
    · exact .refl _
    next ids hids =>
      refine keeps_holds _ fun k hk => ?_
      obtain ⟨hrun, -⟩ := by simpa [Sitting.holdable] using sittingsFor_sound (p := Sitting.holdable) hk
      exact hrun

theorem keepsClocks_resumeSitting (sitting : Byte) : KeepsClocks (ansResumeSitting sitting) :=
  keepsClocks_withArgs fun s => by
    split
    · exact .refl _
    · refine keeps_forEach (fun k t => ?_) _ s
      unfold State.resumeOne
      simp only [tme_notices]
      exact keeps_modSitting fun _ => Sitting.heldRuns_of_clear rfl

theorem keeps_closeSitting {t : State} {k : Nat} (h : (t.sitting k).state = .collecting) :
    t.tme.Keeps (t.closeSitting k).1.tme := by
  unfold State.closeSitting
  simp only [tme_binding, tme_calls]
  exact keeps_modSitting fun hk => Sitting.heldRuns_of_clear (hk.not_held (by simp [h, SittingState.running]))

theorem keepsClocks_closeSitting (sitting : Byte) : KeepsClocks (ansCloseSitting sitting) :=
  keepsClocks_withArgs fun s => by
    dsimp only
    split
    · exact .refl _
    next hstate =>
      split
      · simpa using keeps_closeSitting (not_not.mp hstate)
      · exact .refl _

theorem keepsClocks_forceClose (sitting : Byte) : KeepsClocks (ansForceClose sitting) :=
  keepsClocks_withArgs fun s => by
    dsimp only
    split
    · exact .refl _
    next hstate =>
      split
      · exact .refl _
      · have hshort : ∀ (ids : List Nat) (f : Nat → State → State), (∀ c t, (f c t).tme = t.tme) →
            ((s.cancelSittingCalls sitting.toNat).1.forEach ids f).tme = s.tme :=
          fun ids f hf => (tme_forEach hf ids _).trans (by simp)
        have h := hshort ((s.cancelSittingCalls sitting.toNat).1.owing sitting.toNat)
          (fun c t => t.modCand c (fun x => { x with shortfall := true })) fun _ _ => rfl
        simp only [tme_notices]
        rw [← h]
        exact keeps_closeSitting (by rw [sitting_of_tme h]; exact not_not.mp hstate)

theorem keepsClocks_clearSitting (sitting : Byte) : KeepsClocks (ansClearSitting sitting) :=
  keepsClocks_withArgs fun s => by
    dsimp only
    split
    · exact .refl _
    · split
      · exact .refl _
      · simp only [tme_notices]
        refine (Tme.Keeps.of_eq (by simp)).trans (keeps_modSitting (t := (s.freeSlotsOf sitting.toNat).1) fun _ => ?_)
        exact Sitting.heldRuns_of_clear rfl

theorem keepsClocks_leave (slot : Half) : KeepsClocks (ansLeave slot) :=
  keepsClocks_withArgs fun s => by
    split
    · exact .refl _
    · split
      · exact .refl _
      · simpa [State.takeLeave] using (follows_dropMark _ _ (.refl _)).keeps

theorem keepsClocks_cancelCall (call : Byte) : KeepsClocks (ansCancelCall call) :=
  keepsClocks_withArgs fun s => by
    split
    · exact .refl _
    · exact (follows_cancelCall _ _ (.refl _)).keeps

/-! ### A request row, and the frames of the control link (10.1) -/

/-- A request taken, discarded or not received. -/
theorem requestThen_keeps {s : State} {handle : State → State × Answer} {after : State → State} (kind : Byte)
    (hk : KeepsClocks handle) (hafter : ∀ t, (after t).tme = t.tme) : s.tme.Keeps (s.requestThen kind handle after).tme := by
  unfold State.requestThen State.onFrame
  split
  · exact .refl _
  · split
    · exact .refl _
    · rw [hafter, pushReply_tme]
      exact hk { s with cli.receiver := .hunt }

/-- Every request keeps the clock and the holds; an event row is no request. -/
theorem runRequest_keeps (i : Instr) (s : State) : s.tme.Keeps (s.runRequest i).tme := by
  have req : ∀ (kind : Byte) {handle : State → State × Answer}, KeepsClocks handle →
      s.tme.Keeps (s.request kind handle).tme := fun kind _ h => requestThen_keeps kind h fun _ => rfl
  have leaves : ∀ (kind : Byte) {handle : State → State × Answer}, LeavesTme handle →
      s.tme.Keeps (s.request kind handle).tme := fun kind _ h => req kind h.keepsClocks
  have read : ∀ (kind : Byte) (answer : State → Answer), s.tme.Keeps (s.request kind (fun t => (t, answer t))).tme :=
    fun kind _ => leaves kind leavesTme_read
  have readArgs : ∀ (kind : Byte) (checks : List Bool) (answer : State → Answer),
      s.tme.Keeps (s.request kind (withArgs checks (fun t => (t, answer t)))).tme :=
    fun kind _ _ => leaves kind (leavesTme_withArgs leavesTme_read)
  cases i with
  | defineSeats => exact leaves _ (leavesTme_defineSeats _ _ _ _ _)
  | holdSeat => exact leaves _ (leavesTme_holdSeat _)
  | freeSeat => exact leaves _ (leavesTme_freeSeat _)
  | repairSeat => exact leaves _ (leavesTme_repairSeat _)
  | readSeat => exact readArgs _ _ _
  | withdraw => exact req _ (keepsClocks_withdraw _)
  | readCandidate => exact leaves _ (leavesTme_readCandidate _ _ _)
  | setRoute => exact leaves _ (leavesTme_setRoute _ _ _)
  | clearRoute => exact leaves _ (leavesTme_clearRoute _)
  | readRoutes => exact read _ _
  | allocate => exact leaves _ (leavesTme_allocate _ _ _ _ _)
  | allocateRun => exact leaves _ (leavesTme_allocateRun _ _ _ _ _ _)
  | readQueue => exact read _ _
  | move => exact leaves _ (leavesTme_move _ _)
  | setTimebase => exact req _ (keepsClocks_setTimebase _ _ _ _)
  | setHallTime => exact req _ (keepsClocks_setHallTime _ _ _)
  | readClock => exact read _ _
  | defineSitting => exact req _ (keepsClocks_defineSitting _ _ _ _ _ _ _ _ _ _ _ _)
  | startSitting => exact req _ (keepsClocks_startSitting _ _ _ _)
  | cancelStart => exact req _ (keepsClocks_cancelStart _)
  | holdSitting => exact req _ (keepsClocks_holdSitting _)
  | resumeSitting => exact req _ (keepsClocks_resumeSitting _)
  | closeSitting => exact req _ (keepsClocks_closeSitting _)
  | forceClose => exact req _ (keepsClocks_forceClose _)
  | clearSitting => exact req _ (keepsClocks_clearSitting _)
  | readSitting => exact readArgs _ _ _
  | leave => exact req _ (keepsClocks_leave _)
  | readMarks => exact readArgs _ _ _
  | startLink => exact leaves _ (leavesTme_startLink _)
  | stopLink => exact leaves _ (leavesTme_stopLink _)
  | readLink => exact readArgs _ _ _
  | raiseAlert => exact leaves _ (leavesTme_raiseAlert _)
  | setHandsetZones => exact leaves _ (leavesTme_withArgs fun _ => rfl)
  | cancelCall => exact req _ (keepsClocks_cancelCall _)
  | readCalls => exact read _ _
  | issueBooklet => exact leaves _ (leavesTme_issueBooklet _)
  | takeExceptions => exact leaves _ (leavesTme_withArgs fun _ => rfl)
  | startSweep => exact leaves _ (leavesTme_startSweep _ _ _ _ _)
  | stopSweep => exact leaves _ (leavesTme_stopSweep _)
  | readScripts => exact readArgs _ _ _
  | readSweep => exact readArgs _ _ _
  | readReader => exact read _ _
  | keyBegin => exact leaves _ (leavesTme_keyBegin _ _ _ _)
  | keyPart => exact leaves _ (leavesTme_keyPart _ _ _)
  | keyEnd => exact leaves _ (leavesTme_keyEnd _)
  | withdrawQuestion => exact leaves _ (leavesTme_withdrawQuestion _ _)
  | readKey => exact leaves _ (fun _ => withArgs_tme leavesTme_read _)
  | readSheet => exact readArgs _ _ _
  | readBatch => exact read _ _
  | startBatch => exact leaves _ (leavesTme_startBatch _ _ _ _)
  | continueBatch => exact leaves _ leavesTme_continueBatch
  | extendSegment => exact leaves _ (leavesTme_extendSegment _)
  | releaseSlots => exact leaves _ (leavesTme_releaseSlots _)
  | abortBatch => exact leaves _ leavesTme_abortBatch
  | resolveDuplicate => exact leaves _ (leavesTme_resolveDuplicate _ _)
  | remark => exact leaves _ (leavesTme_remark _)
  | setParam => exact leaves _ (leavesTme_setParam _ _)
  | getParam => exact readArgs _ _ _
  | identify => exact read _ _
  | readStatus => exact requestThen_keeps _ (leavesTme_read).keepsClocks fun _ => rfl
  | reset => exact leaves _ (leavesTme_withArgs fun _ => rfl)
  | _ => exact .refl _

theorem takeRequest_keeps (kind : Byte) (body : List Byte) (s : State) : s.tme.Keeps (s.takeRequest kind body).tme := by
  unfold State.takeRequest
  split
  · exact .refl _
  · split
    · exact .refl _
    · split
      · exact .refl _
      · exact runRequest_keeps _ s

theorem takeFrame_keeps (kind : Byte) (body : List Byte) (s : State) : s.tme.Keeps (s.takeFrame kind body).tme := by
  unfold State.takeFrame State.onFrame
  split
  · exact .refl _
  · split
    · exact .refl _
    · exact takeRequest_keeps kind body { s with cli.receiver := .hunt }

theorem receiveData_keeps (b : Byte) (s : State) : s.tme.Keeps (s.receiveData b).tme := by
  unfold State.receiveData
  split
  case h_7 =>
    unfold State.endFrame
    split
    · exact takeFrame_keeps _ _ s
    · exact .refl _
  case h_1 => split <;> exact .refl _
  case h_3 => split <;> exact .refl _
  all_goals exact .refl _

theorem receiveByte_keeps (b : RxByte) (s : State) : s.tme.Keeps (State.receiveByte b s).tme := by
  unfold State.receiveByte
  split
  · exact .refl _
  · split
    · unfold State.receiveFraming
      split <;> exact .refl _
    · exact receiveData_keeps _ s

theorem frameSent_tme (f : OutFrame) (s : State) : (s.frameSent f).tme = s.tme := by
  unfold State.frameSent
  dsimp only
  split
  · unfold State.releaseReset
    split <;> rfl
  all_goals rfl

/-! ### The resets (R184 to R186) -/

/-- Beyond ending the pauses, what both scopes of RESET do leaves the Timing Engine. -/
theorem resetHallPorts_tme (s : State) : s.resetHallPorts.tme = s.resumeAll.tme := by
  have hchannels : ∀ (u : State) (v : Vector Channel 4), ({ u with scu.channels := v } : State).tme = u.tme :=
    fun _ _ => rfl
  exact (hchannels _ _).trans (by simp)

theorem follows_resetHallPorts (s : State) : s.tme.Follows s.resetHallPorts.tme := by
  rw [resetHallPorts_tme]
  exact follows_resumeAll (.refl _)

theorem resetControl_tme (cause : ResetCause) (s : State) : (s.resetControl cause).tme = s.tme := rfl

theorem keeps_clearHall (s : State) : s.tme.Keeps s.clearHall.tme := .of_reset id rfl

theorem keeps_actPorts (s : State) : s.tme.Keeps s.actPorts.tme := by
  rw [State.actPorts, resetControl_tme, modBatch_tme]
  exact (follows_resetHallPorts s).keeps

theorem keeps_actHall (s : State) : s.tme.Keeps s.actHall.tme := by
  rw [State.actHall, resetControl_tme]
  exact (follows_resetHallPorts s).keeps.trans (keeps_clearHall _)

/-! ### The outcome of a row -/

/-- The next state keeps the clock and the holds of a state. -/
def NextKeeps (s : State) (o : Outcome) : Prop := ∀ t, o = .next t → s.tme.Keeps t.tme

@[simp] theorem nextKeeps_done (s u : State) : NextKeeps s (done u) ↔ s.tme.Keeps u.tme := by
  have hsettle : u.settle.tme = u.tme := (settle_only u).tme
  refine ⟨fun h => hsettle ▸ h _ rfl, fun h t ht => ?_⟩
  obtain rfl : u.settle = t := Host.Outcome.next.inj ht
  exact hsettle ▸ h

/-- An event whose row ends in one state or in another. -/
theorem nextKeeps_ite {s u v : State} {c : Prop} [Decidable c] (hu : s.tme.Keeps u.tme) (hv : s.tme.Keeps v.tme) :
    NextKeeps s (if c then done u else done v) := by
  split
  · exact (nextKeeps_done s u).mpr hu
  · exact (nextKeeps_done s v).mpr hv

theorem syncEdge_keeps (s : State) : NextKeeps s (execSyncEdge s) := by
  have hedge : s.tme.Keeps s.correctToMinute.noteEdge.tme := (keeps_correctToMinute s).trans ⟨id, id⟩
  refine nextKeeps_ite ?_ (.refl _)
  split <;> exact hedge

/-- A run of bytes, each with the end of its event. -/
theorem takeRun_keeps (run : List RxByte) (s : State) : s.tme.Keeps (s.takeRun State.receiveByte run).tme :=
  keeps_forEach (fun b t => (receiveByte_keeps b t).trans (.of_eq (settle_only _).tme)) run s

/-- A row of a request has that request's outcome, and every other keeps the clock and the holds. -/
theorem exec_request_or_keeps (i : Instr) (s : State) : exec i s = done (s.runRequest i) ∨ NextKeeps s (exec i s) := by
  have leaves : ∀ {u : State}, u.tme = s.tme → NextKeeps s (done u) := fun h => (nextKeeps_done _ _).mpr (.of_eq h)
  have keeps : ∀ {u : State}, s.tme.Keeps u.tme → NextKeeps s (done u) := (nextKeeps_done _ _).mpr
  cases i with
  | resetPorts => exact .inr (nextKeeps_ite (keeps_actPorts s) (.refl _))
  | resetHall => exact .inr (nextKeeps_ite (keeps_actHall s) (.refl _))
  | powerOn rate1 rate0 => exact .inr (keeps (.of_reset (fun _ => (rfl : HallTime.zero.valid = true)) rfl))
  | linkReset => exact .inr (nextKeeps_ite (.refl _) (.of_reset id rfl))
  | lineIdleReturn => exact .inr (leaves rfl)
  | badFrame run => exact .inr (keeps (takeRun_keeps run s))
  | receiveGapTimeout =>
    refine .inr ?_
    dsimp only [exec, execReceiveGapTimeout]
    split <;> exact leaves rfl
  | unknownKind kind body => exact .inr (keeps (takeFrame_keeps kind body s))
  | overrun kind body => exact .inr (keeps (takeFrame_keeps kind body s))
  | hrdyChange level => exact .inr (leaves rfl)
  | frameSent =>
    refine .inr ?_
    dsimp only [exec, execFrameSent]
    split
    · exact leaves (frameSent_tme _ s)
    · exact leaves rfl
  | timebaseSecond => exact .inr (keeps (keeps_tick s))
  | syncEdge => exact .inr (syncEdge_keeps s)
  | syncLost => exact .inr (nextKeeps_ite (by rw [notify_tme]; exact ⟨id, id⟩) (.refl _))
  | scheduledStart k => exact .inr (nextKeeps_ite (follows_startSittingNow _ (.refl _)).keeps (.refl _))
  | sittingSecond k =>
    refine .inr ?_
    dsimp only [exec, execSittingSecond]
    split
    next hwaits =>
      obtain ⟨⟨-, hclear⟩, -⟩ := by simpa [Sitting.secondWaits] using hwaits
      exact keeps (keeps_takeSecond hclear)
    next => exact leaves rfl
  | readingCompare k => exact .inr (keeps (keeps_atPoint _ _ fun _ => (follows_startWriting _ _ (.refl _)).keeps))
  | sittingWarning k => exact .inr (keeps (keeps_atPoint _ _ fun _ => (follows_giveWarning _ (.refl _)).keeps))
  | lateCutoff k => exact .inr (keeps (keeps_atPoint _ _ fun _ => (follows_takeCutoff _ (.refl _)).keeps))
  | writingCompare k => exact .inr (keeps (keeps_atPoint _ _ keeps_takeCompare))
  | warnFiring c => exact .inr (keeps (keeps_fireFor s _ _))
  | endFiring c => exact .inr (keeps (keeps_fireFor s _ _))
  | restExpiry c => exact .inr (keeps (keeps_fireFor s _ _))
  | escalation n => exact .inr (nextKeeps_ite (.refl _) (.refl _))
  | handsetAway n => exact .inr (nextKeeps_ite (follows_handsetGoesAway _ (.refl _)).keeps (.refl _))
  | retryPass =>
    refine .inr ?_
    dsimp only [exec, execRetryPass]
    split
    · exact leaves rfl
    · exact leaves (by simp)
  | relocation =>
    refine .inr ?_
    dsimp only [exec, execRelocation]
    split
    · exact leaves rfl
    · exact leaves (by simp)
  | pollCycleStart l => exact .inr (nextKeeps_ite (.of_eq (by simp)) (.refl _))
  | pollFrame l => exact .inr (leaves (by simp))
  | pollTimeout l =>
    refine .inr ?_
    dsimp only [exec, execPollTimeout]
    split
    · exact leaves (by simp)
    · exact leaves rfl
  | seatReply l frame =>
    exact .inr (keeps (follows_onReply _ _ _ _ (fun _ _ _ => follows_takeSeatReply _ _ _ (.refl _)) (.refl _)).keeps)
  | handsetReply frame =>
    exact .inr (keeps (follows_onReply _ _ _ _ (fun _ _ _ => follows_takeHandsetReply _ _ (.refl _)) (.refl _)).keeps)
  | stationReply frame => exact .inr (keeps (follows_onReply _ _ _ _ (fun _ _ _ => by simp) (.refl _)).keeps)
  | wallClockReply frame => exact .inr (keeps (follows_onReply _ _ _ _ (fun _ _ _ => .refl _) (.refl _)).keeps)
  | lateUnitReply l frame => exact .inr (leaves rfl)
  | pollCycleEnd l => exact .inr (nextKeeps_ite (.of_eq (by simp)) (.refl _))
  | timeCodeBroadcast l => exact .inr (leaves (by simp))
  | timeCodeRepeat l => exact .inr (leaves (by simp))
  | sheetFrameEnd run => exact .inr (leaves (by simp))
  | frameGapTimeout => exact .inr (leaves (by simp))
  | rrdyChange level => exact .inr (leaves (by simp))
  | verdictSent => exact .inr (leaves (by simp))
  | _ => exact .inl rfl

/-- Every row keeps the clock and the holds. -/
theorem exec_keeps (i : Instr) (s : State) : NextKeeps s (exec i s) := by
  rcases exec_request_or_keeps i s with hrequest | hevent
  · rw [hrequest, nextKeeps_done]
    exact runRequest_keeps i s
  · exact hevent

/-- A step keeps the clock and the holds: with no command waiting the state stands, and the command taken is a row. -/
theorem step_keeps {s t : State} (ht : step s = .next t) : s.tme.Keeps t.tme := by
  unfold step at ht
  split at ht
  · obtain rfl : s = t := Host.Outcome.next.inj ht
    exact .refl _
  next c rest _ => exact exec_keeps c { s with pending := rest } t ht

/-- Settles O8: each row keeps a valid hall time valid, and HELD on the running sittings. -/
theorem stepKeepsClocksAndHolds : Obligations.StepKeepsClocksAndHolds :=
  ⟨fun _ _ h ht => (step_keeps ht).hall h, fun _ _ h ht => (step_keeps ht).held h⟩

end Sys2Proof.Machine
end

