-- ==== Sys2Proof/Proofs/Timebase.lean ====
section
/-!
PROOFS. The timebase, the hall clock and SYNC (R38 to R44): the settings, the clock jumps, the timebase second.
-/

namespace Sys2Proof.Machine

/-! ### The sittings by number -/

/-- A sitting read by its number is the entry there. -/
theorem sitting_getElem? {s : State} {k : Nat} (hk : k < 8) : s.tme.sittings[k]? = some (s.sitting k) := by
  simp [State.sitting, hk]

/-- The numbers listed are those of the sittings that pass the test. -/
theorem mem_sittingsWhere {s : State} {p : Sitting → Bool} {k : Nat} :
    k ∈ indexesWhere p s.tme.sittings ↔ k < 8 ∧ p (s.sitting k) = true := by
  rw [mem_indexesWhere]
  constructor
  · rintro ⟨x, hx, hp⟩
    have hk : k < 8 := (Vector.getElem?_eq_some_iff.mp hx).1
    obtain rfl := Option.some.inj ((sitting_getElem? hk).symm.trans hx)
    exact ⟨hk, hp⟩
  · rintro ⟨hk, hp⟩
    exact ⟨_, sitting_getElem? hk, hp⟩

/-- The numbers of a table's entries are listed in ascending order. -/
theorem indexesWhere_pairwise {α : Type} {n : Nat} (p : α → Bool) (v : Vector α n) :
    (indexesWhere p v).Pairwise (· < ·) := by
  have hall : ((v.toList.zipIdx).map (·.2)).Pairwise (· < ·) := by
    rw [List.zipIdx_map_snd]
    exact List.pairwise_lt_range'
  exact hall.sublist (List.filter_sublist.map _)

/-- The lowest sitting that passes a test. -/
theorem lowestSitting_eq_some {s : State} {p : Sitting → Bool} {k : Nat} :
    lowestWhere p s.tme.sittings = some k ↔ k < 8 ∧ p (s.sitting k) = true ∧ ∀ j < k, p (s.sitting j) = false := by
  rw [lowestWhere_eq_some]
  constructor
  · rintro ⟨x, hx, hp, hlow⟩
    have hk : k < 8 := (Vector.getElem?_eq_some_iff.mp hx).1
    obtain rfl := Option.some.inj ((sitting_getElem? hk).symm.trans hx)
    exact ⟨hk, hp, fun j hj => hlow j hj _ (sitting_getElem? (by omega))⟩
  · rintro ⟨hk, hp, hlow⟩
    refine ⟨_, sitting_getElem? hk, hp, fun j hj y hy => ?_⟩
    obtain rfl := Option.some.inj ((sitting_getElem? (by omega)).symm.trans hy)
    exact hlow j hj

/-- None passes the test. -/
theorem lowestSitting_eq_none {s : State} {p : Sitting → Bool} (h : ∀ k < 8, p (s.sitting k) = false) :
    lowestWhere p s.tme.sittings = none := by
  rw [lowestWhere_eq_none]
  intro x hx
  obtain ⟨k, hk, rfl⟩ := mem_sittings.mp hx
  exact h k hk

/-! ### SET_TIMEBASE (R39) -/

theorem holdsTimebase_iff (x : SittingState) : x.holdsTimebase = true ↔ x = .armed ∨ x.running = true := by
  simp [SittingState.holdsTimebase]

theorem usedFrequency_of_source {source : Byte} {src : TimeSource} (frequency : Half) (h : sourceOf source = some src) :
    usedFrequency source frequency = if src = .internal then 10000 else frequency.toNat := by
  simp [usedFrequency, h]

/-- Settles O28: the lowest sitting that holds the timebase refuses it; with none the settings are those of the arguments. -/
theorem setTimebaseReplacesSettings : Obligations.SetTimebaseReplacesSettings := by
  unfold Obligations.SetTimebaseReplacesSettings
  intro source frequency prescale syncMode s hl src mode hsrc hmode f busy hlow hhigh hp1 hp16 hdiv hq1 hq2
  have hf : usedFrequency source frequency = f := usedFrequency_of_source frequency hsrc
  have hchecks : ∀ b ∈ setTimebaseChecks source frequency prescale syncMode, b = true := by
    simp [setTimebaseChecks, isPrescale, hf, hsrc, hmode, hlow, hhigh, hp1, hp16, hdiv, hq1, hq2]
  have hbusy : ∀ k, busy k ↔ k < 8 ∧ (s.toHunt.sitting k).state.holdsTimebase = true := fun k => by
    rw [holdsTimebase_iff, toHunt_sitting]
  constructor
  · intro k hk hfirst
    obtain ⟨hk8, hholds⟩ := (hbusy k).mp hk
    have hfound : lowestWhere (fun x => x.state.holdsTimebase) s.toHunt.tme.sittings = some k :=
      lowestSitting_eq_some.mpr ⟨hk8, hholds, fun j hj =>
        Bool.eq_false_iff.mpr fun h => hfirst j hj ((hbusy j).mpr ⟨by omega, h⟩)⟩
    exact answerTo_withArgs hl hchecks (by simp only [hfound])
  · intro hnone
    have hfound : lowestWhere (fun x => x.state.holdsTimebase) s.toHunt.tme.sittings = none :=
      lowestSitting_eq_none fun k hk => Bool.eq_false_iff.mpr fun h => hnone k ((hbusy k).mpr ⟨hk, h⟩)
    have hsettings : timebaseOf source frequency prescale syncMode = ⟨src, f, prescale.toNat, mode⟩ := by
      simp [timebaseOf, hf, hsrc, hmode]
    exact answerTo_withArgs hl hchecks (by simp only [hfound, hsettings])

/-! ### Clock jumps (R41, R42) -/

/-- The ARMED sittings whose scheduled start passes a test. -/
theorem mem_armedWhere {s : State} {p : HallTime → Bool} {k : Nat} : k ∈ s.armedWhere p ↔
    k < 8 ∧ (s.sitting k).state = .armed ∧ ∃ t, (s.sitting k).scheduled = some t ∧ p t = true := by
  rw [State.armedWhere, mem_sittingsWhere]
  cases (s.sitting k).scheduled <;> simp

theorem startedByJump_pairwise (s : State) (t0 t1 : HallTime) (carried : Bool) :
    (s.startedByJump t0 t1 carried).Pairwise (· < ·) := by
  unfold State.startedByJump State.armedWhere
  split
  · split <;> exact indexesWhere_pairwise _ _
  · split
    · exact indexesWhere_pairwise _ _
    · split
      · exact indexesWhere_pairwise _ _
      · exact .nil

/-- The sittings a jump passes when it does not carry the clock forward: forward those due up to the new time, backward those
due at it. -/
theorem mem_startedByJump {s : State} {t0 t1 : HallTime} {k : Nat} : k ∈ s.startedByJump t0 t1 false ↔
    k < 8 ∧ (s.sitting k).state = .armed ∧ ∃ t, (s.sitting k).scheduled = some t ∧
      ((t0.seconds < t1.seconds ∧ t0.seconds < t.seconds ∧ t.seconds ≤ t1.seconds) ∨
        (t1.seconds < t0.seconds ∧ t = t1)) := by
  unfold State.startedByJump
  rcases Nat.lt_trichotomy t0.seconds t1.seconds with h | h | h
  · simp [mem_armedWhere, h, Nat.lt_asymm h]
  · simp [h]
  · simp [mem_armedWhere, h, Nat.lt_asymm h]

/-- The sittings a jump passes when a SYNC correction carries the clock forward, over midnight or not. -/
theorem mem_startedByJump_carried {s : State} {t0 t1 : HallTime} {k : Nat} : k ∈ s.startedByJump t0 t1 true ↔
    k < 8 ∧ (s.sitting k).state = .armed ∧ ∃ t, (s.sitting k).scheduled = some t ∧
      ((t0.seconds < t1.seconds ∧ t0.seconds < t.seconds ∧ t.seconds ≤ t1.seconds) ∨
        (t1.seconds ≤ t0.seconds ∧ (t0.seconds < t.seconds ∨ t = .zero))) := by
  unfold State.startedByJump
  by_cases h : t0.seconds < t1.seconds
  · simp [mem_armedWhere, h, Nat.not_le.mpr h]
  · simp [mem_armedWhere, h, Nat.not_lt.mp h]

/-- The starts of a jump leave the hall clock at the new time. -/
theorem hall_starts (started : List Nat) (u : State) :
    (started.foldl (fun u k => u.startSittingNow k) u).tme.hall = u.tme.hall :=
  (follows_forEach (f := fun k u => u.startSittingNow k) (fun k t => follows_startSittingNow k (.refl t.tme)) started
    (.refl u.tme)).hall

/-! ### SYNC (R43, R44) -/

/-- The time an edge corrects the clock to. -/
def HallTime.corrected (t : HallTime) : HallTime := if t.second < 30 then { t with second := 0 } else t.nextMinute

/-- The sittings the correction of an edge starts. -/
def State.startedByEdge (s : State) : List Nat :=
  if s.tme.hall.second = 0 then []
  else s.startedByJump s.tme.hall s.tme.hall.corrected (30 ≤ s.tme.hall.second)

/-- A correction is a jump to the nearest whole minute; at seconds 0 only the second count restarts. -/
theorem correctToMinute_eq (s : State) : s.correctToMinute =
    s.startedByEdge.foldl (fun u k => u.startSittingNow k)
      { s with tme.hall := s.tme.hall.corrected, tme.secondCount := 0 } := by
  unfold State.correctToMinute State.startedByEdge HallTime.corrected
  by_cases h0 : s.tme.hall.second = 0
  · have hsame : ({ s.tme.hall with second := 0 } : HallTime) = s.tme.hall := h0 ▸ rfl
    simp [h0, hsame]
  · by_cases h30 : s.tme.hall.second < 30
    · simp [h0, h30, State.clockJump, State.forEach, Nat.not_le.mpr h30]
    · simp [h0, h30, State.clockJump, State.forEach, Nat.not_lt.mp h30]

/-- The minute after a time of day, round the day. -/
theorem seconds_nextMinute {t : HallTime} (h : t.valid = true) :
    t.nextMinute.second = 0 ∧ t.nextMinute.seconds = (t.seconds + (60 - t.second)) % 86400 ∧
      (t.nextMinute.seconds ≤ t.seconds → t.nextMinute = .zero) := by
  rw [HallTime.valid_iff] at h
  unfold HallTime.nextMinute HallTime.seconds
  split
  · exact ⟨rfl, by dsimp only; omega, by dsimp only; omega⟩
  · split
    · exact ⟨rfl, by dsimp only; omega, by dsimp only; omega⟩
    · exact ⟨rfl, by dsimp only; omega, fun _ => rfl⟩

/-- The corrected time: a whole minute, the one before at seconds 0–29 and the one after at 30–59. -/
theorem corrected_spec {t : HallTime} (h : t.valid = true) :
    t.corrected.second = 0 ∧ t.corrected.valid = true ∧ (t.second < 30 → t.corrected.seconds + t.second = t.seconds) ∧
      (30 ≤ t.second → t.corrected.seconds = (t.seconds + (60 - t.second)) % 86400) := by
  obtain ⟨hsecond, hseconds, -⟩ := seconds_nextMinute h
  unfold HallTime.corrected
  by_cases h30 : t.second < 30
  · rw [if_pos h30]
    rw [HallTime.valid_iff] at h
    refine ⟨rfl, ?_, fun _ => ?_, fun hlate => absurd h30 (by omega)⟩
    · rw [HallTime.valid_iff]
      dsimp only
      omega
    · unfold HallTime.seconds
      dsimp only
      omega
  · rw [if_neg h30]
    exact ⟨hsecond, HallTime.valid_nextMinute h, fun hearly => absurd hearly h30, fun _ => hseconds⟩

/-- The sittings a correction starts: backward those due at the new time; forward those the jump passes, over midnight too. -/
theorem mem_startedByEdge {s : State} (hv : s.hallValid) {k : Nat} : k ∈ s.startedByEdge ↔
    k < 8 ∧ (s.sitting k).state = .armed ∧ ∃ t, (s.sitting k).scheduled = some t ∧
      ((1 ≤ s.tme.hall.second ∧ s.tme.hall.second < 30 ∧ t = s.tme.hall.corrected) ∨
        (30 ≤ s.tme.hall.second ∧ s.tme.hall.seconds < s.tme.hall.corrected.seconds ∧ s.tme.hall.seconds < t.seconds ∧
          t.seconds ≤ s.tme.hall.corrected.seconds) ∨
        (30 ≤ s.tme.hall.second ∧ s.tme.hall.corrected.seconds < s.tme.hall.seconds ∧
          (s.tme.hall.seconds < t.seconds ∨ t = s.tme.hall.corrected))) := by
  obtain ⟨-, -, hearly, hlate⟩ := corrected_spec hv
  obtain ⟨hhour, hminute, hsecond⟩ := (HallTime.valid_iff _).mp hv
  unfold State.startedByEdge
  by_cases h0 : s.tme.hall.second = 0
  · simp [h0]
  · by_cases h30 : s.tme.hall.second < 30
    · have hback : s.tme.hall.corrected.seconds < s.tme.hall.seconds := by have := hearly h30; omega
      have h1 : 1 ≤ s.tme.hall.second := Nat.pos_of_ne_zero h0
      simp [h0, h1, h30, Nat.not_le.mpr h30, mem_startedByJump, hback, Nat.lt_asymm hback]
    · have hzero : s.tme.hall.corrected.seconds ≤ s.tme.hall.seconds → s.tme.hall.corrected = .zero := by
        rw [HallTime.corrected, if_neg h30]
        exact (seconds_nextMinute hv).2.2
      have hne : s.tme.hall.corrected.seconds ≠ s.tme.hall.seconds := by
        rw [hlate (Nat.not_lt.mp h30)]
        unfold HallTime.seconds
        omega
      by_cases hforward : s.tme.hall.seconds < s.tme.hall.corrected.seconds
      · simp [h0, h30, Nat.not_lt.mp h30, mem_startedByJump_carried, hforward, Nat.not_le.mpr hforward, Nat.lt_asymm hforward]
      · have hback : s.tme.hall.corrected.seconds < s.tme.hall.seconds := by omega
        have hmidnight := hzero (Nat.le_of_lt hback)
        rw [hmidnight] at hback
        simp [h0, h30, Nat.not_lt.mp h30, mem_startedByJump_carried, hmidnight, hback, Nat.le_of_lt hback,
          Nat.lt_asymm hback]

theorem startedByEdge_pairwise (s : State) : s.startedByEdge.Pairwise (· < ·) := by
  unfold State.startedByEdge
  split
  · exact .nil
  · exact startedByJump_pairwise _ _ _ _

/-- SYNC_EDGE in MINUTE mode. -/
theorem exec_syncEdge {s : State} (h : s.tme.timebase.syncMode = .minute) : exec .syncEdge s = .next (State.settle
    (if s.tme.hall.corrected.minute = s.tme.hall.minute then s.correctToMinute.noteEdge
      else s.correctToMinute.noteEdge.askBroadcast)) := by
  have hhall : s.correctToMinute.noteEdge.tme.hall = s.tme.hall.corrected := by
    show s.correctToMinute.tme.hall = _
    rw [correctToMinute_eq, hall_starts]
  show execSyncEdge s = _
  rw [execSyncEdge, if_pos h]
  dsimp only
  rw [hhall, done]

/-- Asking for a broadcast marks every RUNNING link. -/
theorem link_askBroadcast (s : State) (l : LinkName) : s.askBroadcast.link l =
    if (s.link l).running = true then { s.link l with broadcastPending := true } else s.link l := by
  have hl : linkIndex l < 5 := by cases l <;> decide
  simp [State.link, State.askBroadcast, mapAll, hl]

/-- Settles O29: the sittings a jump or a correction passes start in ascending order; the rest is read off the rows. -/
theorem clockJumpsAndSync : Obligations.ClockJumpsAndSync := by
  unfold Obligations.ClockJumpsAndSync
  refine ⟨?setHallTime, fun s => ⟨rfl, link_askBroadcast s⟩, fun s => ⟨?off, ?minute⟩, fun s => ⟨?lost, ?notLost⟩⟩
  case setHallTime =>
    intro hour minute second s hl hhour hminute hsecond t1 old
    refine ⟨s.startedByJump old t1 false, ?_, startedByJump_pairwise _ _ _ _, fun k => mem_startedByJump⟩
    exact answerTo_withArgs hl (by simp [hhour, hminute, hsecond]) rfl
  case off =>
    intro hoff
    show execSyncEdge s = _
    rw [execSyncEdge, if_neg (by simp [hoff]), done]
  case minute =>
    intro hminute hv old
    obtain ⟨hsecond, hvalid, hearly, hlate⟩ := corrected_spec hv
    refine ⟨s.startedByEdge, old.corrected, ?_, hsecond, hvalid, hearly, hlate, startedByEdge_pairwise s,
      fun k => mem_startedByEdge hv⟩
    rw [exec_syncEdge hminute]
    have hedge : s.correctToMinute.noteEdge = { s.correctToMinute with
        tme.syncTimer := 0
        tme.sinceEdge := some 0
        tme.lastEdge := some old.corrected
        tme.syncLostDue := false
        cli.flags.syncLost := false } := by
      have hhall : s.correctToMinute.tme.hall = old.corrected := by rw [correctToMinute_eq, hall_starts]
      rw [State.noteEdge, hhall]
    rw [hedge, correctToMinute_eq]
  case lost =>
    intro hminute hdue
    show execSyncLost s = _
    rw [execSyncLost, if_pos ⟨hminute, hdue⟩, done]
  case notLost =>
    intro hnot
    have hneither : ¬(s.tme.timebase.syncMode = .minute ∧ s.tme.syncLostDue = true) := by
      rintro ⟨hminute, hdue⟩
      rcases hnot with h | h
      · simp [hminute] at h
      · simp [hdue] at h
    show execSyncLost s = _
    rw [execSyncLost, if_neg hneither, done]

/-! ### The timebase second (R38, R40, R44, R51, R103, R108) -/

/-- One second later, round the day. -/
theorem seconds_next {t : HallTime} (h : t.valid = true) : t.next.seconds = (t.seconds + 1) % 86400 := by
  rw [HallTime.valid_iff] at h
  unfold HallTime.next HallTime.seconds
  split
  · dsimp only; omega
  · split
    · dsimp only; omega
    · split <;> dsimp only <;> omega

/-- The state a timebase second leaves. -/
def State.tick (s : State) : State := s.tickHall.tickSittings.tickSync.tickCalls

/-- The hall clock goes on, and a change of minute asks for a broadcast. -/
theorem tickHall_eq (s : State) : s.tickHall = { s with
    tme.hall := s.tme.hall.next
    tme.secondCount := 0
    ulc.links := if s.tme.hall.next.minute = s.tme.hall.minute then s.ulc.links else s.askBroadcast.ulc.links } := by
  unfold State.tickHall
  dsimp only
  split <;> rfl

theorem link_tickHall (s : State) (l : LinkName) : s.tickHall.link l =
    if s.tme.hall.next.minute ≠ s.tme.hall.minute ∧ (s.link l).running = true
    then { s.link l with broadcastPending := true } else s.link l := by
  by_cases h : s.tme.hall.next.minute = s.tme.hall.minute
  · simp [State.link, tickHall_eq, h]
  · have hasked : s.tickHall.link l = s.askBroadcast.link l := by simp [State.link, tickHall_eq, h]
    simp [hasked, link_askBroadcast, h]

/-- A second changes the silence timer in MINUTE mode, and no other part of the state. -/
theorem tickSync_eq (s : State) : s.tickSync = { s with
    tme.syncTimer := if s.tme.timebase.syncMode = .minute then heldAdd 180 s.tme.syncTimer else s.tme.syncTimer
    tme.syncLostDue := if s.tme.timebase.syncMode = .minute then s.tme.syncLostDue || s.tme.syncTimer == 179
      else s.tme.syncLostDue
    tme.sinceEdge := if s.tme.timebase.syncMode = .minute then s.tme.sinceEdge.map (· + 1) else s.tme.sinceEdge } := by
  unfold State.tickSync
  split <;> rfl

theorem sitting_tickSittings (s : State) {k : Nat} (hk : k < 8) :
    s.tickSittings.sitting k = (s.sitting k).tick s.tme.hall := by
  simp [State.sitting, State.tickSittings, mapAll, hk]

/-- A second makes a start due or is owed. -/
theorem tick_eq (hall : HallTime) (x : Sitting) : x.tick hall =
    if x.state = .armed ∧ x.scheduled = some hall then { x with startDue := true }
    else if x.state.running = true ∧ x.held = false then { x with secondsDue := x.secondsDue + 1 }
    else x := by
  unfold Sitting.tick
  by_cases harmed : x.state = .armed
  · have hidle : x.state.running = false := by simp [harmed, SittingState.running]
    by_cases hnow : x.scheduled = some hall
    · simp [harmed, hnow]
    · have hnot : (x.scheduled == some hall) = false := by simpa using hnow
      rw [if_pos harmed, if_neg (fun h => hnow h.2), if_neg (by simp [hidle]), hnot, Bool.or_false]
  · simp [harmed]

theorem call?_tickCalls (s : State) (n : Nat) :
    s.tickCalls.call? n = (s.call? n).map (Call.tick s.cli.params.escalateTime) := by
  unfold State.call? State.tickCalls
  rw [join_mapAll _ _ rfl]
  cases (s.cdp.calls[n]?).join <;> rfl

theorem handset_tickCalls (s : State) {h : Nat} (hh : h < 8) :
    s.tickCalls.handset h = (s.handset h).tick s.cli.params.handsetAway := by
  simp [State.handset, State.tickCalls, mapAll, hh]

/-- Settles O30: the four parts of a second, each on its own part of the state. -/
theorem timebaseSecondStepsClocks : Obligations.TimebaseSecondStepsClocks := by
  unfold Obligations.TimebaseSecondStepsClocks
  intro s
  have htick : s.tick = State.tickCalls (State.tickSync (State.tickSittings s.tickHall)) := rfl
  have hhall : s.tick.tme.hall = s.tme.hall.next := by
    rw [htick, tickHall_eq, tickSync_eq]
    rfl
  refine ⟨s.tick, rfl, ?frame, ?timebase, ?count, ?edge, ?clock, ?links, ?sittings, ?off, ?minute, ?calls, ?handsets⟩
  case frame => rw [htick, tickHall_eq, tickSync_eq]; rfl
  case timebase => rw [htick, tickHall_eq, tickSync_eq]; rfl
  case count => rw [htick, tickHall_eq, tickSync_eq]; rfl
  case edge => rw [htick, tickHall_eq, tickSync_eq]; rfl
  case clock =>
    intro hv
    exact ⟨(keeps_tick s).hall hv, by rw [hhall]; exact seconds_next hv⟩
  case links =>
    intro l
    rw [hhall, ← link_tickHall, htick, tickSync_eq]
    rfl
  case sittings =>
    intro k hk
    have hread : s.tick.sitting k = s.tickHall.tickSittings.sitting k := by rw [htick, tickSync_eq]; rfl
    rw [hread, hhall, ← tick_eq, sitting_tickSittings _ hk, tickHall_eq]
    rfl
  case off =>
    intro hoff
    rw [htick, tickHall_eq, tickSync_eq]
    simp [State.tickSittings, State.tickCalls, hoff]
  case minute =>
    intro hminute
    rw [htick, tickHall_eq, tickSync_eq]
    exact ⟨if_pos hminute, if_pos hminute, by simp [State.tickSittings, State.tickCalls, hminute]⟩
  case calls =>
    intro n
    rw [htick, call?_tickCalls, tickSync_eq, tickHall_eq]
    rfl
  case handsets =>
    intro h hh
    rw [htick, handset_tickCalls _ hh, tickSync_eq, tickHall_eq]
    rfl

end Sys2Proof.Machine
end

