-- ==== Sys2Proof/Proofs/SittingRequests.lean ====
section
/-!
PROOFS. The requests on the sittings: DEFINE_SITTING, the starts and the holds (R47 to R50, R56, R57).
-/

namespace Sys2Proof.Machine

/-! ### DEFINE_SITTING (R47) -/

theorem strictlyDescending_iff (l : List Nat) : strictlyDescending l = true ↔ l.Pairwise (· > ·) := by
  rw [← List.isChain_iff_pairwise]
  induction l with
  | nil => simp [strictlyDescending]
  | cons a l ih =>
    cases l with
    | nil => simp [strictlyDescending]
    | cons b l => simp [strictlyDescending, ih]

theorem isWarnings_of {writing : Nat} {warnings : List Byte} (hcount : warnings.length ≤ 4)
    (heach : ∀ w ∈ warnings, 1 ≤ w.toNat ∧ w.toNat ≤ 120 ∧ w.toNat ≤ writing)
    (hdesc : (warnings.map (·.toNat)).Pairwise (· > ·)) : isWarnings writing warnings = true := by
  have hall : warnings.all (fun w => 1 ≤ w.toNat && w.toNat ≤ 120 && w.toNat ≤ writing) = true := by
    simpa [List.all_eq_true, and_assoc] using heach
  unfold isWarnings
  rw [hall, (strictlyDescending_iff _).mpr hdesc]
  simpa using hcount

/-- Settles O31: with every argument in range the answer goes by the sitting's state. -/
theorem defineSittingReplacesFields : Obligations.DefineSittingReplacesFields := by
  unfold Obligations.DefineSittingReplacesFields
  intro sitting paper reading writing cutoff opening closing warnings quiet threshold scriptKind keyId kind s hl hk hpaper
    hreading hw1 hw360 hcutoff hopening hclosing hsum hcount heach hdesc hquiet hthreshold hkind hkey k x answered
  have hchecks : ∀ b ∈ defineSittingChecks sitting paper reading writing cutoff opening closing warnings quiet threshold
      scriptKind keyId, b = true := by
    simpa [defineSittingChecks, isSitting, hk, hpaper, hreading, hw1, hw360, hcutoff, hopening, hclosing, hsum,
      isWarnings_of hcount heach hdesc, hquiet, isEighth, hthreshold, hkind] using hkey
  have hrecord : definedSitting paper reading writing cutoff opening closing warnings quiet threshold scriptKind keyId = x := by
    simp [definedSitting, x, hkind, keyIdOf, Sitting.atReset]
  have hanswer : ∀ {u : State} {a : Answer}, s.toHunt.defineSitting k x = (u, a) → answered u a := fun h =>
    answerTo_withArgs hl hchecks (by rw [hrecord]; exact h)
  refine ⟨fun hstate => hanswer ?_, fun hstate => hanswer ?_, fun hempty hdefined => hanswer ?_⟩
  · rw [State.defineSitting, toHunt_sitting, hstate, notePhase_modSitting _ _ _ hk]
  · rw [State.defineSitting, toHunt_sitting, hstate, askRetryIf_eq]
    cases hqueue : s.sal.queue <;> simp [hqueue]
  · rw [State.defineSitting, toHunt_sitting]
    split
    next h => exact absurd h hempty
    next h => exact absurd h hdefined
    next => rfl

/-! ### The starts (R48 to R50) -/

/-- Two changes of one sitting are one change. -/
theorem modSitting_modSitting (s : State) (k : Nat) (f g : Sitting → Sitting) :
    (s.modSitting k f).modSitting k g = s.modSitting k (fun x => g (f x)) := by
  show State.modSitting { s with tme.sittings := _ } k g = _
  unfold State.modSitting
  rw [modAt_modAt]

theorem isAbsentTime_iff {hour minute second : Byte} :
    isAbsentTime hour minute second = true ↔ hour = 0xFF#8 ∧ minute = 0xFF#8 ∧ second = 0xFF#8 := by
  simp [isAbsentTime, and_assoc]

theorem isStartTime_iff {hour minute second : Byte} : isStartTime hour minute second = true ↔
    (hour = 0xFF#8 ∧ minute = 0xFF#8 ∧ second = 0xFF#8) ∨ (timeOf hour minute second).valid = true := by
  rw [isStartTime, Bool.or_eq_true, isAbsentTime_iff]

theorem startsNow_iff {s : State} {hour minute second : Byte} : s.startsNow hour minute second = true ↔
    (hour = 0xFF#8 ∧ minute = 0xFF#8 ∧ second = 0xFF#8) ∨ timeOf hour minute second = s.tme.hall := by
  rw [State.startsNow, Bool.or_eq_true, isAbsentTime_iff, beq_iff_eq]

/-- A sitting with a reading period starts READING. -/
theorem startSittingNow_reading {s : State} {k : Nat} (hk : k < 8) (h : (s.sitting k).reading ≠ 0) : s.startSittingNow k =
    (s.modSitting k (fun y => { y with
      scheduled := none, startDue := false, secondsDue := 0, clock := 0, state := .reading })).notify
      (.phase k .reading (s.sitting k).held 0 .start) := by
  rw [State.startSittingNow, if_neg (by simpa [sitting_modSitting _ _ _ _ hk] using h), modSitting_modSitting,
    notePhase_modSitting _ _ _ hk]

/-- A sitting with none starts writing. -/
theorem startSittingNow_writing {s : State} {k : Nat} (hk : k < 8) (h : (s.sitting k).reading = 0) : s.startSittingNow k =
    (s.modSitting k (fun y => { y with
      scheduled := none, startDue := false, secondsDue := 0, clock := 0 })).startWriting k .start := by
  rw [State.startSittingNow, if_pos (by simpa [sitting_modSitting _ _ _ _ hk] using h)]

/-- The five steps of the start of writing (R50). -/
theorem startWriting_eq {s : State} {k : Nat} (hk : k < 8) (cause : PhaseCause) : s.startWriting k cause =
    ((((s.slotsWhere (fun c => c.sitting == k && c.state == .present)).foldl (fun t c => t.beginWriting c)
      ((s.modSitting k (fun y => { y with state := .writing, clock := 0, nextWarning := 1 })).notify
        (.phase k .writing (s.sitting k).held 0 cause))).giveWarning k).cutoffIfReached k).fireInserted k := by
  have hslots : ∀ (u : State) (p : Candidate → Bool), u.htu = s.htu → u.slotsWhere p = s.slotsWhere p :=
    fun u p h => by simp only [State.slotsWhere, h]
  unfold State.startWriting
  dsimp only
  rw [notePhase_modSitting _ _ _ hk, hslots _ _ (by simp)]
  rfl

/-- A candidate begins writing with its extension, rounded up to whole minutes. -/
theorem beginWriting_eq {s : State} {c : Nat} {y : Candidate} (h : s.cand? c = some y) : s.beginWriting c =
    (s.modCand c (fun z => { z with
      state := .writing
      extension := ((s.sitting y.sitting).writing * z.allowance + 99) / 100 * 60 })).addWritingEntry c := by
  simp only [State.beginWriting, h]
  rfl

/-- Settles O32: each request and row by the sitting's state; a start as R49 and R50 say. -/
theorem sittingStarts : Obligations.SittingStarts := by
  unfold Obligations.SittingStarts
  constructor
  · intro b hour minute second s hk k x t absent answered
    refine ⟨fun hl htime => ?start, fun hl => ⟨fun harmed => ?cancelled, fun hnot => ?kept⟩, ?row⟩
    case start =>
      have hchecks : ∀ c ∈ [isSitting b, isStartTime hour minute second], c = true := by
        simp [isSitting, hk, isStartTime_iff.mpr htime]
      refine ⟨fun hnot => answerTo_withArgs hl hchecks (if_pos hnot), fun hdefined hsheet hkey => ?_,
        fun hdefined hkeyed => ?_⟩
      · exact answerTo_withArgs hl hchecks ((if_neg (not_not.mpr hdefined)).trans (if_pos ⟨hsheet, hkey⟩))
      have hready : ¬(x.scriptKind = .sheet ∧ x.keyId = none) := fun ⟨hsheet, hkey⟩ =>
        hkeyed.elim (fun hbooklet => by simp [hbooklet] at hsheet) (fun hsome => hsome hkey)
      refine ⟨fun hnow => ?_, fun habsent hlater => ?_⟩
      · refine answerTo_withArgs hl hchecks (((if_neg (not_not.mpr hdefined)).trans (if_neg hready)).trans ?_)
        simp only [if_pos (startsNow_iff.mpr hnow : s.toHunt.startsNow hour minute second = true)]
        rfl
      · have hwaits : s.toHunt.startsNow hour minute second ≠ true := fun h =>
          (startsNow_iff.mp h).elim habsent hlater
        refine answerTo_withArgs hl hchecks (((if_neg (not_not.mpr hdefined)).trans (if_neg hready)).trans ?_)
        simp only [if_neg hwaits, State.armSitting, notePhase_modSitting _ _ _ hk, notify_sitting,
          sitting_modSitting _ _ _ _ hk, if_pos]
        rfl
    case cancelled =>
      refine answerTo_withArgs hl (by simp [isSitting, hk]) ((if_pos harmed).trans ?_)
      rw [notePhase_modSitting _ _ _ hk]
      rfl
    case kept => exact answerTo_withArgs hl (by simp [isSitting, hk]) (if_neg hnot)
    case row =>
      intro n hn
      have hrow : exec (.scheduledStart n) s =
          if x.state = .armed ∧ x.startDue = true then done (s.startSittingNow k) else done s := by
        show execScheduledStart n s = _
        rw [execScheduledStart, hn]
      exact ⟨fun harmed hdue => hrow.trans (if_pos ⟨harmed, hdue⟩), fun hnot => hrow.trans (if_neg hnot)⟩
  · intro s k hk x started
    exact ⟨startSittingNow_reading hk, startSittingNow_writing hk, startWriting_eq hk, fun c y => beginWriting_eq⟩

/-! ### Holds (R56, R57) -/

/-- Two ascending lists with the same members are the same list. -/
theorem eq_of_ascending {l m : List Nat} (hl : l.Pairwise (· < ·)) (hm : m.Pairwise (· < ·)) (h : ∀ k, k ∈ l ↔ k ∈ m) :
    l = m :=
  List.Perm.eq_of_pairwise (fun _ _ _ _ hab hba => absurd hab (Nat.lt_asymm hba)) hl hm
    ((List.perm_ext_iff_of_nodup (hl.imp Nat.ne_of_lt) (hm.imp Nat.ne_of_lt)).mpr h)

/-- A request for ALL applies to the sittings that pass the test, in ascending order. -/
theorem sittingsFor_all {s : State} {p : Sitting → Bool} {ks : List Nat} (hks : ks.Pairwise (· < ·))
    (h : ∀ k, k ∈ ks ↔ k < 8 ∧ p (s.sitting k) = true) : s.sittingsFor 0xFF#8 p = ks :=
  eq_of_ascending (indexesWhere_pairwise p _) hks fun k => mem_sittingsWhere.trans (h k).symm

/-- A request for one sitting applies to it if it passes the test. -/
theorem sittingsFor_one {s : State} {p : Sitting → Bool} {b : Byte} (hb : b.toNat < 8) :
    s.sittingsFor b p = if p (s.sitting b.toNat) = true then [b.toNat] else [] := by
  have hall : b ≠ 0xFF#8 := by rintro rfl; simp at hb
  rw [State.sittingsFor, if_neg hall]

theorem holdable_iff (x : Sitting) : x.holdable = true ↔ x.state.running = true ∧ x.held = false := by
  simp [Sitting.holdable]

theorem resumable_iff (x : Sitting) : x.resumable = true ↔ x.state.running = true ∧ x.held = true := by
  simp [Sitting.resumable]

/-- Changes to the sittings in a list, each with its PHASE notice, when the change leaves states and clocks: the notice of each
gives the state and the clock it had before them all. -/
theorem forEach_notePhase {s : State} {f : Sitting → Sitting} {held : Bool} {cause : PhaseCause}
    (hstate : ∀ x, (f x).state = x.state) (hclock : ∀ x, (f x).clock = x.clock) (hheld : ∀ x, (f x).held = held)
    (ids : List Nat) {u : State} (hids : ∀ k ∈ ids, k < 8)
    (hu : ∀ k, (u.sitting k).state = (s.sitting k).state ∧ (u.sitting k).clock = (s.sitting k).clock) :
    u.forEach ids (fun k t => (t.modSitting k f).notePhase k cause) =
      ids.foldl (fun t k => (t.modSitting k f).notify
        (.phase k (s.sitting k).state held (s.sitting k).clock cause)) u := by
  induction ids generalizing u with
  | nil => rfl
  | cons k ids ih =>
    have hfirst : (u.modSitting k f).notePhase k cause =
        (u.modSitting k f).notify (.phase k (s.sitting k).state held (s.sitting k).clock cause) := by
      rw [notePhase_modSitting _ _ _ (hids k (by simp)), hstate, hheld, hclock, (hu k).1, (hu k).2]
    show State.forEach ((u.modSitting k f).notePhase k cause) ids _ = List.foldl _ ((u.modSitting k f).notify _) ids
    rw [hfirst]
    refine ih (fun j hj => hids j (by simp [hj])) fun j => ?_
    rw [notify_sitting]
    rcases sitting_modSitting_or u k j f with h | h
    · rw [h]
      exact hu j
    · rw [h, hstate, hclock]
      exact hu j

/-- Settles O33: the sittings a request is for, ascending, are held or resumed one after the other. -/
theorem holdAndResumeSittings : Obligations.HoldAndResumeSittings := by
  unfold Obligations.HoldAndResumeSittings
  intro b s hl holdable resumable hold resume
  have hone : b.toNat < 8 → ∀ c ∈ [isSittingOrAll b], c = true := fun hb => by simp [isSittingOrAll, isSitting, hb]
  have hall : ∀ c ∈ [isSittingOrAll 0xFF#8], c = true := by decide
  have hholds : ∀ ids : List Nat, (∀ k ∈ ids, k < 8) → s.toHunt.forEach ids State.holdOne = ids.foldl hold s.toHunt :=
    fun ids hids => forEach_notePhase (s := s) (f := fun y => { y with held := true, secondsDue := 0 })
      (fun _ => rfl) (fun _ => rfl) (fun _ => rfl) ids hids fun _ => ⟨rfl, rfl⟩
  have hresumes : ∀ ids : List Nat, (∀ k ∈ ids, k < 8) →
      s.toHunt.forEach ids State.resumeOne = ids.foldl resume s.toHunt :=
    fun ids hids => forEach_notePhase (s := s) (f := fun y => { y with held := false, secondsDue := 0 })
      (fun _ => rfl) (fun _ => rfl) (fun _ => rfl) ids hids fun _ => ⟨rfl, rfl⟩
  have hheld : ∀ (c : Byte) (ids : List Nat), (∀ d ∈ [isSittingOrAll c], d = true) → (∀ k ∈ ids, k < 8) →
      s.sittingsFor c Sitting.holdable = ids → exec (.holdSitting c) s =
        if ids = [] then s.toHunt.replied 0x15 (refuse .refusedState .none (s.holdDetail c))
        else (ids.foldl hold s.toHunt).replied 0x15 (ok (.sittings ids)) := by
    intro c ids hc hids hfor
    cases ids with
    | nil => exact answerTo_withArgs hl hc (by simp only [toHunt_sittingsFor, hfor]; rfl)
    | cons k ids => exact answerTo_withArgs hl hc (by simp only [toHunt_sittingsFor, hfor, hholds _ hids])
  have hresumed : ∀ (c : Byte) (ids : List Nat), (∀ d ∈ [isSittingOrAll c], d = true) → (∀ k ∈ ids, k < 8) →
      s.sittingsFor c Sitting.resumable = ids → exec (.resumeSitting c) s =
        if ids = [] then s.toHunt.replied 0x16 (refuse .refusedState)
        else (ids.foldl resume s.toHunt).replied 0x16 (ok (.sittings ids)) := by
    intro c ids hc hids hfor
    cases ids with
    | nil => exact answerTo_withArgs hl hc (by simp only [toHunt_sittingsFor, hfor])
    | cons k ids => exact answerTo_withArgs hl hc (by simp only [toHunt_sittingsFor, hfor, hresumes _ hids])
  refine ⟨fun hb => ⟨fun hyes => ?_, fun hno => ?_, fun hyes => ?_, fun hno => ?_⟩,
    fun ks hks => ⟨fun hmem => ?_, fun hmem => ?_⟩⟩
  · exact hheld b [b.toNat] (hone hb) (by simpa using hb)
      ((sittingsFor_one hb).trans (if_pos ((holdable_iff _).mpr hyes)))
  · have hdetail : s.holdDetail b = .sittingHeld (s.sitting b.toNat).state (s.sitting b.toNat).held :=
      if_neg (by rintro rfl; simp at hb)
    rw [← hdetail]
    exact hheld b [] (hone hb) (by simp) ((sittingsFor_one hb).trans (if_neg (mt (holdable_iff _).mp hno)))
  · exact hresumed b [b.toNat] (hone hb) (by simpa using hb)
      ((sittingsFor_one hb).trans (if_pos ((resumable_iff _).mpr hyes)))
  · exact hresumed b [] (hone hb) (by simp) ((sittingsFor_one hb).trans (if_neg (mt (resumable_iff _).mp hno)))
  · exact hheld _ ks hall (fun k hk => ((hmem k).mp hk).1)
      (sittingsFor_all hks fun k => by rw [hmem k, holdable_iff])
  · exact hresumed _ ks hall (fun k hk => ((hmem k).mp hk).1)
      (sittingsFor_all hks fun k => by rw [hmem k, resumable_iff])

end Sys2Proof.Machine
end

