-- ==== Sys2Proof/Proofs/SittingEnd.lean ====
section
/-!
PROOFS. The end of a sitting: CLOSE_SITTING, FORCE_CLOSE and CLEAR_SITTING, with the closing claim, the cancelling of a
sitting's calls and the freeing of its slots (R18, R58 to R60, R115).
-/

namespace Sys2Proof.Machine

/-! ### The closing claim (R18) -/

/-- Candidates with no seat make no difference to a clearing. -/
theorem clearedFor_congr {s u : State} {p q : Candidate → Bool} (hpq : ∀ x : Candidate, x.bound.isSome = true → p x = q x)
    (h : s.clearedFor u p) : s.clearedFor u q := by
  have hnamed : ∀ i, (∃ c x, s.cand? c = some x ∧ p x = true ∧ x.bound = some i) ↔
      ∃ c x, s.cand? c = some x ∧ q x = true ∧ x.bound = some i := fun i =>
    exists_congr fun c => exists_congr fun x => and_congr_right fun _ => and_congr_left fun hb => by
      rw [hpq x (by simp [hb])]
  have hcalls : ∀ o : Option Candidate,
      o.any (fun x => p x && x.bound.isSome) = o.any (fun x => q x && x.bound.isSome) := by
    intro o
    cases o with
    | none => rfl
    | some x => cases hb : x.bound.isSome <;> simp [hb, hpq]
  unfold State.clearedFor at *
  simpa only [hnamed, hcalls] using h

/-- A candidate with no seat is as with its seat taken. -/
theorem Candidate.eq_unbound {x : Candidate} (h : x.bound = none) : { x with bound := none } = x := by
  rw [← h]

section
variable (s : State) (k : Nat)

/-- The bindings of a sitting's candidates are cleared. -/
theorem clearedFor_closingClaim : s.clearedFor (s.closingClaim k).1 (fun x => x.sitting == k) :=
  clearedFor_congr (p := fun x => x.sitting == k && x.bound.isSome) (fun x hx => by simp [hx])
    (clearedFor_clearBindings (fun _ => mem_slotsWhere) (fun _ => rfl) (fun _ => rfl) (fun _ => rfl) rfl)

theorem closingClaim_frame : (s.closingClaim k).1 = { s with
    htu := (s.closingClaim k).1.htu
    cdp.calls := (s.closingClaim k).1.cdp.calls
    sal.retryDue := (s.closingClaim k).1.sal.retryDue } := by
  simp only [State.closingClaim, askRetryIf_eq]
  rw [clearBindings_frame]

theorem cand?_closingClaim (c : Nat) : (s.closingClaim k).1.cand? c =
    (s.cand? c).map (fun x => if x.sitting = k then { x with bound := none } else x) := by
  simp only [State.closingClaim, askRetryIf_cand?, cand?_clearBindings, mem_slotsWhere]
  cases s.cand? c with
  | none => simp
  | some x =>
    by_cases hk : x.sitting = k
    · subst hk
      cases hb : x.bound with
      | none => simp [hb, Candidate.eq_unbound hb]
      | some i => simp [hb]
    · simp [hk]

end

/-! ### The cancelling of a sitting's calls (R115) -/

/-- Is the call, if there is one, in service with a handset? -/
def servedBy (h : Nat) (o : Option Call) : Bool := o.any (fun y => y.state == .inService h)

/-- A handset whose calls that pass a test were cancelled: they leave its stack, and its note says so. -/
def Handset.drops (x : Handset) (p : Nat → Bool) : Handset :=
  { x with stack := x.stack.filter (fun n => !p n), note := some ⟨.cancelled, 5⟩ }

theorem Handset.drops_drops (x : Handset) (p q : Nat → Bool) : (x.drops p).drops q = x.drops (fun n => p n || q n) := by
  simp [Handset.drops, List.filter_filter, Bool.and_comm]

/-- One call leaves the list; of one in service the handset's stack and note are changed too. -/
def State.cancelOne (i : Nat) (t : State) : State :=
  match (t.call? i).map Call.state with
  | some (.inService h) => ((t.unstack h i).setNote h .cancelled).putCall i none
  | _ => t.putCall i none

/-- The calls of a sitting are cancelled one after the other. -/
theorem cancelSittingCalls_eq (s : State) (k : Nat) : s.cancelSittingCalls k =
    (s.forEach (s.callsOfSitting k) State.cancelOne, (s.callsOfSitting k).length) := by
  unfold State.cancelSittingCalls
  dsimp only
  congr 2
  funext i t
  unfold State.cancelOne
  cases hc : t.call? i with
  | none => rfl
  | some c =>
    obtain ⟨-, -, -, -, -, -, state, -, -⟩ := c
    cases state <;> rfl

theorem cancelOne_frame (i : Nat) (t : State) : State.cancelOne i t = { t with cdp := (State.cancelOne i t).cdp } := by
  unfold State.cancelOne
  split <;> rfl

theorem call?_cancelOne {i : Nat} (t : State) (n : Nat) (hi : i < 48) :
    (State.cancelOne i t).call? n = if n = i then none else t.call? n := by
  unfold State.cancelOne
  split
  · rw [call?_putCall _ _ _ _ hi]
    rfl
  · rw [call?_putCall _ _ _ _ hi]

/-- A handset other than the one changed. -/
theorem handset_modHandset_ne (s : State) {h j : Nat} (f : Handset → Handset) (hne : j ≠ h) :
    (s.modHandset h f).handset j = s.handset j := by
  simp [State.handset, State.modHandset, modAt_getElem?, hne]

/-- The handset serving the call drops it. -/
theorem handset_cancelOne {h : Nat} (i : Nat) (t : State) (hh : h < 8) : (State.cancelOne i t).handset h =
    if servedBy h (t.call? i) then (t.handset h).drops (· == i) else t.handset h := by
  unfold State.cancelOne servedBy
  cases hc : t.call? i with
  | none => rfl
  | some c =>
    cases hstate : c.state with
    | pending => simp [hstate]
    | inService j =>
      by_cases hj : j = h
      · subst hj
        simp [hstate, State.setNote, State.unstack, handset_modHandset _ _ _ _ hh, Handset.drops, bne]
      · simp [hstate, hj, State.setNote, State.unstack, handset_modHandset_ne _ _ (Ne.symm hj)]

/-- After calls were cancelled: beyond the Call Dispatcher nothing changed. -/
theorem forEach_cancelOne_frame (ids : List Nat) (s : State) :
    s.forEach ids State.cancelOne = { s with cdp := (s.forEach ids State.cancelOne).cdp } := by
  induction ids generalizing s with
  | nil => rfl
  | cons i ids ih =>
    show State.forEach (State.cancelOne i s) ids _ = { s with cdp := (State.forEach (State.cancelOne i s) ids _).cdp }
    rw [ih, cancelOne_frame]

/-- They have left the list. -/
theorem call?_forEach_cancelOne {ids : List Nat} (hids : ∀ i ∈ ids, i < 48) (s : State) (n : Nat) :
    (s.forEach ids State.cancelOne).call? n = if n ∈ ids then none else s.call? n := by
  induction ids generalizing s with
  | nil => simp [State.forEach]
  | cons i ids ih =>
    show (State.forEach (State.cancelOne i s) ids _).call? n = _
    rw [ih (fun j hj => hids j (by simp [hj])), call?_cancelOne _ _ (hids i (by simp))]
    by_cases hn : n = i <;> simp [hn]

/-- A handset that served some of them has dropped those. -/
theorem handset_forEach_cancelOne {ids : List Nat} {h : Nat} (hids : ∀ i ∈ ids, i < 48) (hh : h < 8) (s : State) :
    (s.forEach ids State.cancelOne).handset h =
      if ids.any (fun n => servedBy h (s.call? n)) then
        (s.handset h).drops (fun n => ids.contains n && servedBy h (s.call? n))
      else s.handset h := by
  induction ids generalizing s with
  | nil => rfl
  | cons i ids ih =>
    show (State.forEach (State.cancelOne i s) ids _).handset h = _
    have hrest : ∀ n, servedBy h (if n = i then none else s.call? n) = (n != i && servedBy h (s.call? n)) := by
      intro n
      by_cases hn : n = i <;> simp [hn, servedBy]
    rw [ih (fun j hj => hids j (by simp [hj])), handset_cancelOne _ _ hh]
    simp only [call?_cancelOne _ _ (hids i (by simp)), hrest]
    by_cases hi : servedBy h (s.call? i) = true
    · have hany : (i :: ids).any (fun n => servedBy h (s.call? n)) = true := by simp [hi]
      rw [if_pos hi, if_pos hany]
      have hdrop : ∀ n, ((n == i) || (ids.contains n && (n != i && servedBy h (s.call? n)))) =
          (List.contains (i :: ids) n && servedBy h (s.call? n)) := by
        intro n
        by_cases hn : n = i
        · simp [hn, hi]
        · simp [hn, bne, beq_false_of_ne hn]
      split
      · rw [Handset.drops_drops]
        exact congrArg _ (funext hdrop)
      next hnone =>
        refine congrArg _ (funext fun n => ?_)
        rw [← hdrop n]
        have hnot : (ids.contains n && (n != i && servedBy h (s.call? n))) = false :=
          Bool.eq_false_iff.mpr fun hn => by
            obtain ⟨hmem, hserved⟩ := (Bool.and_eq_true _ _).mp hn
            exact hnone (List.any_eq_true.mpr ⟨n, by simpa using hmem, hserved⟩)
        rw [hnot, Bool.or_false]
    · have hfalse : servedBy h (s.call? i) = false := by simpa using hi
      have hsame : ∀ n, (n != i && servedBy h (s.call? n)) = servedBy h (s.call? n) := by
        intro n
        by_cases hn : n = i <;> simp [hn, hfalse]
      have hdrop : ∀ n, (List.contains (i :: ids) n && servedBy h (s.call? n)) =
          (ids.contains n && servedBy h (s.call? n)) := by
        intro n
        by_cases hn : n = i <;> simp [hn, hfalse]
      simp only [hsame, hdrop, hfalse, List.any_cons, Bool.false_or, if_false, Bool.false_eq_true]

section
variable (s : State) (k : Nat)

/-- Does the call, if there is one, belong to the sitting? -/
def State.isCallOf (n : Nat) : Bool := (s.call? n).any (fun y => (s.cand? y.slot).any (fun x => x.sitting == k))

theorem mem_callsOfSitting {n : Nat} : n ∈ s.callsOfSitting k ↔ s.isCallOf k n = true := by
  unfold State.callsOfSitting State.callsWhere State.isCallOf State.call?
  rw [mem_indexesWhere]
  rcases s.cdp.calls[n]? with _ | _ | y <;> simp

theorem callsOfSitting_nodup : (s.callsOfSitting k).Nodup := (indexesWhere_pairwise _ _).imp Nat.ne_of_lt

/-- The id of an outstanding call is one of the list. -/
theorem callsOfSitting_lt : ∀ n ∈ s.callsOfSitting k, n < 48 := fun n hn => by
  obtain ⟨x, hx, -⟩ := (mem_indexesWhere _ _ n).mp hn
  exact (Vector.getElem?_eq_some_iff.mp hx).1

theorem cancelSittingCalls_frame : (s.cancelSittingCalls k).1 = { s with cdp := (s.cancelSittingCalls k).1.cdp } := by
  rw [cancelSittingCalls_eq]
  exact forEach_cancelOne_frame _ s

theorem call?_cancelSittingCalls (n : Nat) :
    (s.cancelSittingCalls k).1.call? n = if s.isCallOf k n = true then none else s.call? n := by
  rw [cancelSittingCalls_eq]
  exact (call?_forEach_cancelOne (callsOfSitting_lt s k) s n).trans (if_congr (mem_callsOfSitting s k) rfl rfl)

/-- A handset that served some of the sitting's calls has dropped those, and any other is as before. -/
theorem handset_cancelSittingCalls {h : Nat} (hh : h < 8) :
    ((∃ n, (s.isCallOf k n && servedBy h (s.call? n)) = true) → (s.cancelSittingCalls k).1.handset h =
      (s.handset h).drops (fun n => s.isCallOf k n && servedBy h (s.call? n))) ∧
    ((∀ n, (s.isCallOf k n && servedBy h (s.call? n)) = false) →
      (s.cancelSittingCalls k).1.handset h = s.handset h) := by
  have hmine : ∀ n, (s.callsOfSitting k).contains n = s.isCallOf k n := fun n =>
    Bool.eq_iff_iff.mpr (by rw [List.contains_iff_mem, mem_callsOfSitting])
  have hany : (s.callsOfSitting k).any (fun n => servedBy h (s.call? n)) = true ↔
      ∃ n, (s.isCallOf k n && servedBy h (s.call? n)) = true := by
    simp only [List.any_eq_true, mem_callsOfSitting, Bool.and_eq_true]
  rw [cancelSittingCalls_eq]
  dsimp only
  rw [handset_forEach_cancelOne (callsOfSitting_lt s k) hh]
  simp only [hmine]
  refine ⟨fun hsome => if_pos (hany.mpr hsome), fun hnone => if_neg fun h => ?_⟩
  obtain ⟨n, hn⟩ := hany.mp h
  simp [hnone n] at hn

end

/-! ### The freeing of a sitting's slots (R11, R60, R159) -/

/-- A slot listed lies within the table. -/
theorem slotsWhere_lt {s : State} {p : Candidate → Bool} : ∀ c ∈ s.slotsWhere p, c < 512 := fun c hc => by
  obtain ⟨x, hx, -⟩ := mem_slotsWhere.mp hc
  exact cand?_lt hx

/-- Slots freed one after the other. -/
theorem forEach_freed (slots : List Nat) (hslots : ∀ c ∈ slots, c < 512) (s : State) :
    s.forEach slots (fun c t => t.putCand c none) =
      { s with htu.cands := (s.forEach slots (fun c t => t.putCand c none)).htu.cands } ∧
    ∀ c, (s.forEach slots (fun c t => t.putCand c none)).cand? c = if c ∈ slots then none else s.cand? c := by
  induction slots generalizing s with
  | nil => exact ⟨rfl, fun c => by simp [State.forEach]⟩
  | cons d slots ih =>
    obtain ⟨hframe, hcand⟩ := ih (fun c hc => hslots c (by simp [hc])) (s.putCand d none)
    refine ⟨hframe, fun c => (hcand c).trans ?_⟩
    rw [cand?_putCand _ _ _ _ (hslots d (by simp))]
    by_cases hc : c = d <;> simp [hc]

section
variable (s : State) (k : Nat)

theorem freeSlotsOf_frame : (s.freeSlotsOf k).1 = { s with
    htu.cands := (s.freeSlotsOf k).1.htu.cands
    mke.store := (s.freeSlotsOf k).1.mke.store } := by
  have hframe := (forEach_freed (s.slotsWhere (fun c => c.sitting == k)) slotsWhere_lt s).1
  unfold State.freeSlotsOf
  dsimp only
  rw [hframe]

/-- The records of the sitting's candidates are gone. -/
theorem cand?_freeSlotsOf (c : Nat) : (s.freeSlotsOf k).1.cand? c = (s.cand? c).filter (fun y => y.sitting != k) := by
  refine ((forEach_freed _ slotsWhere_lt s).2 c).trans ?_
  simp only [mem_slotsWhere]
  cases s.cand? c with
  | none => simp
  | some y => by_cases hy : y.sitting = k <;> simp [hy, Option.filter_some]

/-- A stored sheet of such a candidate keeps no reference. -/
theorem stored?_freeSlotsOf (i : Nat) : (s.freeSlotsOf k).1.stored? i = (s.stored? i).map (fun y => { y with
    ref := y.ref.filter (fun c => !(s.cand? c).any (fun z => z.sitting == k)) }) := by
  have hstore : (s.forEach (s.slotsWhere (fun c => c.sitting == k)) (fun c t => t.putCand c none)).mke.store =
      s.mke.store := by
    rw [(forEach_freed _ slotsWhere_lt s).1]
  have hlisted : ∀ c, (s.slotsWhere (fun c => c.sitting == k)).contains c = (s.cand? c).any (fun z => z.sitting == k) :=
    fun c => Bool.eq_iff_iff.mpr (by rw [List.contains_iff_mem, mem_slotsWhere, Option.any_eq_true])
  unfold State.freeSlotsOf State.stored?
  dsimp only
  rw [join_mapAll _ _ rfl, hstore]
  cases (s.mke.store[i]?).join with
  | none => rfl
  | some y =>
    obtain ⟨kind, ref, sheet, result, erasures⟩ := y
    simp only [hlisted, Option.bind_some, Option.map_some, Option.some.injEq]
    cases ref with
    | none => rfl
    | some c => cases hc : (s.cand? c).any (fun z => z.sitting == k) <;> simp [hc, Option.filter_some]

end

/-! ### The requests (R58 to R60) -/

section
variable (s : State) (k : Nat)

theorem batchOf_iff : s.batchOf k = true ↔ s.mke.batch.state ≠ .idle ∧ s.mke.batch.sitting = k := by
  simp [State.batchOf]

theorem closeCounts_eq_zero : s.closeCounts k = (0, 0, 0) ↔
    (s.owing k).length = 0 ∧ (s.callsOfSitting k).length = 0 ∧ ¬(s.mke.batch.state ≠ .idle ∧ s.mke.batch.sitting = k) := by
  rw [← batchOf_iff]
  cases hb : s.batchOf k <;> simp [State.closeCounts, hb]

theorem clearable_iff : s.clearable k = true ↔ (s.sitting k).state = .closed ∨
    (((s.sitting k).state = .defined ∨ (s.sitting k).state = .armed) ∧ s.candidatesOf k = 0) := by
  unfold State.clearable
  cases (s.sitting k).state <;> simp

/-- A sitting closed is seen CLOSED after its seats are unbound and its channels looked at, with the rest of its record. -/
theorem notePhase_closeSitting {k : Nat} (cause : PhaseCause) (hk : k < 8) : (s.closeSitting k).1.notePhase k cause =
    (s.closeSitting k).1.notify (.phase k .closed (s.sitting k).held (s.sitting k).clock cause) := by
  have hread : (s.closeSitting k).1.sitting k = { s.sitting k with state := .closed } := by
    have htme : (s.closeSitting k).1.tme = (s.modSitting k (fun x => { x with state := .closed })).tme := by
      simp [State.closeSitting]
    rw [sitting_of_tme htme, sitting_modSitting _ _ _ _ hk, if_pos rfl]
  rw [State.notePhase, hread]

/-- The calls cancelled, the candidates stand. -/
theorem owing_cancelSittingCalls (j : Nat) : (s.cancelSittingCalls k).1.owing j = s.owing j := by
  rw [State.owing, cancelSittingCalls_frame]
  rfl

/-- Shortfalls marked in the candidate table. -/
theorem forEach_shortfall_tme (slots : List Nat) :
    (s.forEach slots (fun c t => t.modCand c (fun x => { x with shortfall := true }))).tme = s.tme :=
  tme_forEach (fun _ _ => modCand_tme _ _ _) slots s

end

/-- The closing claim, then the four channels. -/
theorem closeSitting_fst (s : State) (k : Nat) : (s.closeSitting k).1 = [0, 1, 2, 3].foldl (fun t n => t.advanceIfDone n)
    ((s.modSitting k (fun y => { y with state := .closed })).closingClaim k).1 := by
  simp only [State.closeSitting, State.advanceAll, State.forEach]

section
variable {s : State} {b : Byte} (hl : s.listening = true) (hb : b.toNat < 8)
include hl hb

/-- CLOSE_SITTING of a COLLECTING sitting with nothing outstanding. -/
theorem exec_closeSitting_taken (hstate : (s.sitting b.toNat).state = .collecting)
    (hcounts : s.closeCounts b.toNat = (0, 0, 0)) : exec (.closeSitting b) s =
      ((s.toHunt.closeSitting b.toNat).1.notify (.phase b.toNat .closed (s.sitting b.toNat).held
        (s.sitting b.toNat).clock .close)).replied 0x17 (ok .none) := by
  refine answerTo_withArgs hl (by simp [isSitting, hb]) ?_
  dsimp only
  rw [toHunt_sitting, toHunt_closeCounts, if_neg (not_not.mpr hstate), if_pos hcounts, notePhase_closeSitting _ _ hb,
    toHunt_sitting]

/-- FORCE_CLOSE of a COLLECTING sitting that no batch marks. -/
theorem exec_forceClose_taken (hstate : (s.sitting b.toNat).state = .collecting) (hbatch : s.batchOf b.toNat ≠ true) :
    exec (.forceClose b) s =
      (((((s.toHunt.cancelSittingCalls b.toNat).1.forEach (s.owing b.toNat)
        (fun c t => t.modCand c (fun x => { x with shortfall := true }))).closeSitting b.toNat).1.notify
          (.phase b.toNat .closed (s.sitting b.toNat).held (s.sitting b.toNat).clock .force)).replied 0x18
        (ok (.forceClosed (s.callsOfSitting b.toNat).length (s.owing b.toNat).length
          (((s.toHunt.cancelSittingCalls b.toNat).1.forEach (s.owing b.toNat)
            (fun c t => t.modCand c (fun x => { x with shortfall := true }))).closeSitting b.toNat).2))) := by
  refine answerTo_withArgs hl (by simp [isSitting, hb]) ?_
  have hsitting : (((s.toHunt.cancelSittingCalls b.toNat).1.forEach (s.owing b.toNat)
      (fun c t => t.modCand c (fun x => { x with shortfall := true }))).sitting b.toNat) = s.sitting b.toNat :=
    sitting_of_tme ((forEach_shortfall_tme _ _).trans (by simp)) _
  have hcount : (s.toHunt.cancelSittingCalls b.toNat).2 = (s.callsOfSitting b.toNat).length := by
    rw [cancelSittingCalls_eq, toHunt_callsOfSitting]
  dsimp only
  rw [toHunt_sitting, toHunt_batchOf, if_neg (not_not.mpr hstate), if_neg hbatch, owing_cancelSittingCalls, toHunt_owing,
    notePhase_closeSitting _ _ hb, hsitting, hcount]

/-- CLEAR_SITTING of a sitting that may be cleared and that no batch marks. -/
theorem exec_clearSitting_taken (hclear : s.clearable b.toNat = true)
    (hbatch : ((s.sitting b.toNat).state == .closed && s.batchOf b.toNat) = false) : exec (.clearSitting b) s =
      (((s.toHunt.freeSlotsOf b.toNat).1.modSitting b.toNat (fun _ => Sitting.atReset)).notify
        (.phase b.toNat .empty false 0 .clear)).replied 0x19 (ok (.slotsFreed (s.candidatesOf b.toNat))) := by
  refine answerTo_withArgs hl (by simp [isSitting, hb]) ?_
  dsimp only
  rw [toHunt_sitting, toHunt_batchOf, toHunt_clearable, hclear, hbatch, notePhase_modSitting _ _ _ hb]
  rfl

end

/-- Settles O34: each request by the sitting's state and its counts; the shared operations part by part. -/
theorem sittingIsClosedOrCleared : Obligations.SittingIsClosedOrCleared := by
  unfold Obligations.SittingIsClosedOrCleared
  refine ⟨?requests, fun s k => ?closing, fun s k => ?cancelling⟩
  case closing =>
    exact ⟨closingClaim_frame s k, clearedFor_closingClaim s k, cand?_closingClaim s k, rfl⟩
  case cancelling =>
    exact ⟨cancelSittingCalls_frame s k, call?_cancelSittingCalls s k,
      fun h hh => handset_cancelSittingCalls s k hh, by rw [cancelSittingCalls_eq], callsOfSitting_nodup s k,
      fun n => mem_callsOfSitting s k⟩
  case requests =>
    intro b s hl hb k x marking owing calls cands examined
    have hchecks : ∀ c ∈ [isSitting b], c = true := by simp [isSitting, hb]
    have hmarking : s.batchOf k = true ↔ marking := batchOf_iff s k
    refine ⟨fun hstate => ⟨?_, ?_⟩, fun hcoll hcounts => ⟨if s.batchOf k then 1 else 0, ?_, ?_, ?_⟩,
      fun hcoll howing hcalls hmark => ?_, fun hcoll hmark => ?_, fun hcoll hmark => ?_, fun hkept => ?_,
      fun hclear => ⟨fun hclosed hmark => ?_, fun hfree => ?_⟩⟩
    · exact answerTo_withArgs hl hchecks (if_pos hstate)
    · exact answerTo_withArgs hl hchecks (if_pos hstate)
    · exact fun hmark => if_pos (hmarking.mpr hmark)
    · exact fun hmark => if_neg (mt hmarking.mp hmark)
    · exact answerTo_withArgs hl hchecks ((if_neg (not_not.mpr hcoll)).trans
        (if_neg (mt (closeCounts_eq_zero s k).mp hcounts)))
    · rw [exec_closeSitting_taken hl hb hcoll ((closeCounts_eq_zero s k).mpr ⟨howing, hcalls, hmark⟩), closeSitting_fst]
    · exact answerTo_withArgs hl hchecks ((if_neg (not_not.mpr hcoll)).trans (if_pos (hmarking.mpr hmark)))
    · rw [exec_forceClose_taken hl hb hcoll (mt hmarking.mp hmark), closeSitting_fst]
      rfl
    · have hnot : (!s.clearable k) = true := by simpa using mt (clearable_iff s k).mp hkept
      exact answerTo_withArgs hl hchecks (if_pos hnot)
    · have hmay : ¬(!s.clearable k) = true := by simpa using (clearable_iff s k).mpr hclear
      have hbatch : ((s.sitting k).state == .closed && s.batchOf k) = true :=
        (Bool.and_eq_true _ _).mpr ⟨beq_iff_eq.mpr hclosed, hmarking.mpr hmark⟩
      exact answerTo_withArgs hl hchecks ((if_neg hmay).trans (if_pos hbatch))
    · have hbatch : ((s.sitting k).state == .closed && s.batchOf k) = false :=
        Bool.eq_false_iff.mpr fun h => by
          obtain ⟨hclosed, hbatch⟩ := (Bool.and_eq_true _ _).mp h
          exact hfree ⟨beq_iff_eq.mp hclosed, hmarking.mp hbatch⟩
      refine ⟨_, exec_clearSitting_taken hl hb ((clearable_iff s k).mpr hclear) hbatch, ?_, cand?_freeSlotsOf _ k,
        ?_, fun j hj hne => ?_, stored?_freeSlotsOf _ k⟩
      · rw [freeSlotsOf_frame]
        rfl
      · rw [sitting_modSitting _ _ _ _ hb, if_pos rfl]
      · rw [sitting_modSitting _ _ _ _ hb, if_neg hne, freeSlotsOf_frame]
        rfl

end Sys2Proof.Machine
end

