-- ==== Sys2Proof/Proofs/SittingSecond.lean ====
section
/-!
PROOFS. The second of a sitting, and the points within it taken as rows of their own (R51 to R55).
-/

namespace Sys2Proof.Machine

/-! ### A point as a row of its own -/

section
variable {s : State} {k : Nat} {reached : Sitting → Bool} {take : State → State}

/-- A second waits when the sitting runs, is not held, and one is owed. -/
theorem secondWaits_iff (x : Sitting) : x.secondWaits = true ↔ x.state.running = true ∧ x.held = false ∧ 0 < x.secondsDue := by
  simp [Sitting.secondWaits, and_assoc]

/-- A point that stands reached is taken. -/
theorem atPoint_reached (hrun : (s.sitting k).state.running = true) (hheld : (s.sitting k).held = false)
    (hreached : reached (s.sitting k) = true) : s.atPoint k reached take = take s := by
  simp [State.atPoint, hrun, hheld, hreached]

/-- When the next second owed reaches it, that second is taken, whole. -/
theorem atPoint_second (hwaits : (s.sitting k).secondWaits = true) (hnow : reached (s.sitting k) = false)
    (hnext : reached { s.sitting k with clock := (s.sitting k).clock + 1 } = true) :
    s.atPoint k reached take = s.takeSecond k := by
  simp [State.atPoint, hwaits, hnow, hnext]

/-- A sitting that is held or does not run takes no point. -/
theorem atPoint_idle (h : (s.sitting k).state.running = false ∨ (s.sitting k).held = true) :
    s.atPoint k reached take = s := by
  rcases h with h | h <;> simp [State.atPoint, Sitting.secondWaits, h]

/-- A point neither reached nor reached by a next second owed is not taken. -/
theorem atPoint_notReached (hnow : reached (s.sitting k) = false) (hnext : (s.sitting k).secondsDue = 0 ∨
    reached { s.sitting k with clock := (s.sitting k).clock + 1 } = false) : s.atPoint k reached take = s := by
  rcases hnext with h | h <;> simp [State.atPoint, Sitting.secondWaits, hnow, h]

end

/-! ### The second owed to a sitting (R51, R55) -/

theorem readingReached_iff (x : Sitting) : x.readingReached = true ↔ x.state = .reading ∧ x.reading * 60 ≤ x.clock := by
  simp [Sitting.readingReached]

theorem sitting_advanceClock (s : State) {k : Nat} (hk : k < 8) : (s.advanceClock k).sitting k =
    { s.sitting k with clock := (s.sitting k).clock + 1, secondsDue := (s.sitting k).secondsDue - 1 } := by
  rw [State.advanceClock, sitting_modSitting _ _ _ _ hk, if_pos rfl]

section
variable {s : State} {k : Nat}

/-- A second of the reading period. -/
theorem takeSecond_reading (hk : k < 8) (hstate : (s.sitting k).state = .reading)
    (hclock : (s.sitting k).clock + 1 < (s.sitting k).reading * 60) : s.takeSecond k = s.advanceClock k := by
  have hbefore : ((s.advanceClock k).sitting k).readingReached ≠ true := by
    rw [ne_eq, readingReached_iff, sitting_advanceClock s hk]
    exact fun h => absurd h.2 (Nat.not_le.mpr hclock)
  rw [State.takeSecond, if_pos (by rw [sitting_advanceClock s hk]; exact hstate), if_neg hbefore]

/-- The last second of the reading period. -/
theorem takeSecond_compare (hk : k < 8) (hstate : (s.sitting k).state = .reading)
    (hclock : (s.sitting k).reading * 60 ≤ (s.sitting k).clock + 1) :
    s.takeSecond k = (s.advanceClock k).startWriting k .compare := by
  have hreached : ((s.advanceClock k).sitting k).readingReached = true := by
    rw [readingReached_iff, sitting_advanceClock s hk]
    exact ⟨hstate, hclock⟩
  rw [State.takeSecond, if_pos (by rw [sitting_advanceClock s hk]; exact hstate), if_pos hreached]

/-- A second of a WRITING or EXTENDED sitting. -/
theorem takeSecond_writing (hk : k < 8) (hstate : (s.sitting k).state ≠ .reading) :
    s.takeSecond k = (s.advanceClock k).secondWork k := by
  rw [State.takeSecond, if_neg (by rw [sitting_advanceClock s hk]; exact hstate)]

/-- SITTING_SECOND takes the second that waits. -/
theorem exec_sittingSecond {n : Fin 8} (h : (s.sitting n.val).secondWaits = true) :
    exec (.sittingSecond n) s = .next (s.takeSecond n.val).settle := by
  show execSittingSecond n s = _
  rw [execSittingSecond, if_pos h, done]

/-- With none that waits it does nothing. -/
theorem exec_sittingSecond_none {n : Fin 8} (h : (s.sitting n.val).secondWaits ≠ true) :
    exec (.sittingSecond n) s = .next s.settle := by
  show execSittingSecond n s = _
  rw [execSittingSecond, if_neg h, done]

/-- The four cases of a row that is a point of a sitting. -/
theorem exec_point {n : Fin 8} {c : Instr} {reached seen : Sitting → Bool} {take : State → State}
    (hexec : exec c s = done (s.atPoint n.val reached take)) (hseen : ∀ x, reached x = seen x) :
    ((s.sitting n.val).state.running = true → (s.sitting n.val).held = false → seen (s.sitting n.val) = true →
      exec c s = .next (take s).settle) ∧
    ((s.sitting n.val).state.running = true → (s.sitting n.val).held = false → seen (s.sitting n.val) = false →
      0 < (s.sitting n.val).secondsDue → seen { s.sitting n.val with clock := (s.sitting n.val).clock + 1 } = true →
      exec c s = exec (.sittingSecond n) s) ∧
    ((s.sitting n.val).state.running = false ∨ (s.sitting n.val).held = true → exec c s = .next s.settle) ∧
    (seen (s.sitting n.val) = false →
      ((s.sitting n.val).secondsDue = 0 ∨ seen { s.sitting n.val with clock := (s.sitting n.val).clock + 1 } = false) →
      exec c s = .next s.settle) := by
  obtain rfl : reached = seen := funext hseen
  refine ⟨fun hrun hheld hnow => ?_, fun hrun hheld hnow hdue hnext => ?_, fun hidle => ?_, fun hnow hnext => ?_⟩
  · rw [hexec, atPoint_reached hrun hheld hnow, done]
  · have hwaits := (secondWaits_iff _).mpr ⟨hrun, hheld, hdue⟩
    rw [hexec, atPoint_second hwaits hnow hnext, exec_sittingSecond hwaits, done]
  · rw [hexec, atPoint_idle hidle, done]
  · rw [hexec, atPoint_notReached hnow hnext, done]

end

/-- Settles O35: a second by the sitting's state, and each of the four points as a row. -/
theorem sittingSecondTakesWork : Obligations.SittingSecondTakesWork := by
  unfold Obligations.SittingSecondTakesWork
  constructor
  · intro n s k x owed s1
    have howed : x.secondWaits = true ↔ owed := secondWaits_iff x
    refine ⟨fun hno => exec_sittingSecond_none (mt howed.mp hno), fun ho hstate hclock => ?_,
      fun ho hstate hclock => ?_, fun ho hstate => ?_⟩
    · rw [exec_sittingSecond (howed.mpr ho), takeSecond_reading n.isLt hstate hclock]
      rfl
    · rw [exec_sittingSecond (howed.mpr ho), takeSecond_compare n.isLt hstate hclock]
      rfl
    · rw [exec_sittingSecond (howed.mpr ho), takeSecond_writing n.isLt hstate]
      rfl
  · intro n s k x row
    have hpoint : ∀ (c : Instr) (reached seen : Sitting → Bool) (take : State → State),
        exec c s = done (s.atPoint n.val reached take) → (∀ y, reached y = true ↔ seen y = true) → row c seen take :=
      fun _ _ _ _ hexec hseen => exec_point hexec fun y => Bool.eq_iff_iff.mpr (hseen y)
    clear_value row
    refine ⟨hpoint _ Sitting.readingReached _ _ rfl fun y => ?_,
      hpoint _ (fun y => y.state.writes && y.warningReached) _ _ rfl fun y => ?_,
      hpoint _ Sitting.cutoffReached _ _ rfl fun y => ?_, hpoint _ Sitting.compareReached _ _ rfl fun y => ?_⟩
    · simp [readingReached_iff]
    · simp [writes_iff]
    · simp [cutoffReached_iff, and_assoc]
    · simp [compareReached_iff]

end Sys2Proof.Machine
end

