-- ==== Sys2Proof/Proofs/MarkFiring.lean ====
section
/-!
PROOFS. The firing of mark entries (R68 to R70, R74). What the fuel of `State.fireDue` rests on: every firing of an entry
that is due lowers a count of the work due, and twice the length of the list bounds that count.
-/

namespace Sys2Proof.Machine

/-! ### The work due in a mark list -/

/-- The firings an entry still costs at a clock: none before it is due, one for an END, and for a WARN or a REST_EXPIRY its own
and that of the writing entry it inserts. -/
def MarkEntry.cost (clock : Nat) (e : MarkEntry) : Nat :=
  if clock < e.due then 0 else if e.kind = .finish then 1 else 2

/-- The firings due in a list at a clock. -/
def marksCost (clock : Nat) (l : List MarkEntry) : Nat := (l.map (MarkEntry.cost clock)).sum

/-- The firings due in a sitting. -/
def Sitting.cost (x : Sitting) : Nat := marksCost x.clock x.marks

theorem MarkEntry.cost_le (clock : Nat) (e : MarkEntry) : e.cost clock ≤ 2 := by
  unfold MarkEntry.cost
  split
  · omega
  · split <;> omega

theorem MarkEntry.cost_pos {clock : Nat} {e : MarkEntry} (h : e.due ≤ clock) : 0 < e.cost clock := by
  unfold MarkEntry.cost
  rw [if_neg (Nat.not_lt.mpr h)]
  split <;> omega

theorem marksCost_cons (clock : Nat) (e : MarkEntry) (l : List MarkEntry) :
    marksCost clock (e :: l) = e.cost clock + marksCost clock l := by
  simp [marksCost]

theorem marksCost_insertMark (clock : Nat) (e : MarkEntry) (l : List MarkEntry) :
    marksCost clock (insertMark e l) = e.cost clock + marksCost clock l := by
  induction l with
  | nil => exact marksCost_cons clock e []
  | cons a l ih =>
    unfold insertMark
    split
    · exact marksCost_cons clock e _
    · rw [marksCost_cons, marksCost_cons, ih]
      omega

/-- The fuel of a second bounds the work due. -/
theorem Sitting.cost_le (x : Sitting) : x.cost ≤ 2 * x.marks.length := by
  unfold Sitting.cost
  induction x.marks with
  | nil => simp [marksCost]
  | cons a l ih =>
    have ha := MarkEntry.cost_le x.clock a
    rw [marksCost_cons, List.length_cons]
    omega

/-- A writing entry is an END, or not due yet. -/
theorem cost_writingEntry (x : Sitting) (slot : Nat) (y : Candidate) (c : Nat) : (writingEntry x slot y c).cost c ≤ 1 := by
  have hfold : ∀ (points : List (Nat × Nat)) (e : MarkEntry), (∀ p ∈ points, c < p.1) → e.cost c ≤ 1 →
      (points.foldl (fun (e : MarkEntry) p => if p.1 < e.due then ⟨p.1, slot, .warn p.2⟩ else e) e).cost c ≤ 1 := by
    intro points
    induction points with
    | nil => exact fun e _ he => he
    | cons p points ih =>
      intro e hpoints he
      refine ih _ (fun q hq => hpoints q (by simp [hq])) ?_
      dsimp only
      split
      · have hbeyond : c < p.1 := hpoints p (by simp)
        simp [MarkEntry.cost, hbeyond]
      · exact he
  refine hfold _ _ (fun p hp => by simpa using (List.mem_filter.mp hp).2) ?_
  unfold MarkEntry.cost
  split
  · omega
  · simp

/-! ### What a firing costs -/

/-- The mark list of a sitting costs at most `n`, at a clock that reads `clock`. -/
def Sitting.costs (x : Sitting) (clock n : Nat) : Prop := x.clock = clock ∧ marksCost clock x.marks ≤ n

/-- A sitting other than the one changed. -/
theorem sitting_modSitting_ne (t : State) {j k : Nat} (f : Sitting → Sitting) (h : j ≠ k) :
    (t.modSitting k f).sitting j = t.sitting j := by
  simp [State.sitting, State.modSitting, modAt_getElem?, h]

section
variable {t : State} {k clock n : Nat}

/-- An operation that leaves the sittings. -/
theorem costs_of_tme {u : State} (htme : u.tme = t.tme) (h : (t.sitting k).costs clock n) : (u.sitting k).costs clock n := by
  rwa [sitting_of_tme htme]

theorem costs_mono {m : Nat} (hm : n ≤ m) (h : (t.sitting k).costs clock n) : (t.sitting k).costs clock m :=
  ⟨h.1, h.2.trans hm⟩

/-- An entry inserted adds its cost. -/
theorem costs_addMark {e : MarkEntry} (he : e.cost clock ≤ 1) (h : (t.sitting k).costs clock n) :
    ((t.addMark k e).sitting k).costs clock (n + 1) := by
  obtain ⟨rfl, hcost⟩ := h
  rw [State.addMark]
  rcases sitting_modSitting_or t k k (fun x => { x with marks := insertMark e x.marks }) with hsame | hadded
  · rw [hsame]
    exact ⟨rfl, hcost.trans (Nat.le_succ n)⟩
  · rw [hadded]
    refine ⟨rfl, ?_⟩
    rw [marksCost_insertMark]
    omega

/-- A candidate's writing entry costs at most one firing more. -/
theorem costs_addWritingEntry (slot : Nat) (h : (t.sitting k).costs clock n) :
    ((t.addWritingEntry slot).sitting k).costs clock (n + 1) := by
  unfold State.addWritingEntry
  split
  · exact costs_mono (Nat.le_succ n) h
  next c _ =>
    by_cases hk : k = c.sitting
    · subst hk
      exact costs_addMark (h.1 ▸ cost_writingEntry _ slot c _) h
    · rw [State.addMark, sitting_modSitting_ne _ _ hk]
      exact costs_mono (Nat.le_succ n) h

/-- The look at an EXTENDED sitting's empty list leaves clock and list. -/
theorem costs_collectIfEmpty (j : Nat) (h : (t.sitting k).costs clock n) :
    ((t.collectIfEmpty j).sitting k).costs clock n := by
  unfold State.collectIfEmpty
  split
  · refine costs_of_tme ((tme_notices _).1 _ _) ?_
    rcases sitting_modSitting_or t j k (fun x => { x with state := .collecting, held := false, secondsDue := 0 }) with
      hsame | hcollects
    · rwa [hsame]
    · rwa [hcollects]
  · exact h

/-- What a REST_EXPIRY inserts. -/
theorem costs_fireRest (slot : Nat) (h : (t.sitting k).costs clock n) :
    ((t.fireRest slot).sitting k).costs clock (n + 1) := by
  unfold State.fireRest
  split
  · exact costs_mono (Nat.le_succ n) h
  next c _ =>
    split
    · refine costs_of_tme (notify_tme _ _) ?_
      have hresumed : ((t.resumeFor slot c.restLeft).sitting k).costs clock (n + 1) := costs_addWritingEntry slot h
      split <;> exact hresumed
    · exact costs_mono (Nat.le_succ n) h

/-- An entry that was due costs less once it has acted. -/
theorem costs_fireEntry {e : MarkEntry} (hdue : e.due ≤ clock) (h : (t.sitting k).costs clock n) :
    ((t.fireEntry e).sitting k).costs clock (n + e.cost clock - 1) := by
  have hcost : e.cost clock = if e.kind = .finish then 1 else 2 := if_neg (Nat.not_lt.mpr hdue)
  unfold State.fireEntry
  split
  next hkind =>
    rw [hcost, if_neg (by simp [hkind])]
    exact costs_addWritingEntry e.slot h
  next hkind =>
    rw [hcost, if_pos hkind]
    exact costs_of_tme (by simp) h
  next hkind =>
    rw [hcost, if_neg (by simp [hkind])]
    exact costs_fireRest e.slot h

end

theorem headDue_iff (x : Sitting) : x.headDue = true ↔ ∃ e rest, x.marks = e :: rest ∧ e.due ≤ x.clock := by
  unfold Sitting.headDue
  cases x.marks <;> simp

/-- A firing takes the first entry off its list, and acts. -/
theorem fireHead_cons {s : State} {k : Nat} {e : MarkEntry} {rest : List MarkEntry} (h : (s.sitting k).marks = e :: rest) :
    s.fireHead k = ((s.modSitting k (fun x => { x with marks := rest })).fireEntry e).collectIfEmpty k := by
  simp only [State.fireHead, h]

/-- Each firing lowers the work due. -/
theorem cost_fireHead {s : State} {k : Nat} (h : (s.sitting k).headDue = true) :
    ((s.fireHead k).sitting k).cost < (s.sitting k).cost := by
  obtain ⟨e, rest, hmarks, hdue⟩ := (headDue_iff _).mp h
  have hk : k < 8 := by
    by_contra hk
    simp [State.sitting, hk, Sitting.atReset] at hmarks
  have htaken : ((s.modSitting k (fun x => { x with marks := rest })).sitting k).costs (s.sitting k).clock
      (marksCost (s.sitting k).clock rest) := by
    rw [sitting_modSitting _ _ _ _ hk, if_pos rfl]
    exact ⟨rfl, le_refl _⟩
  have hfired := costs_collectIfEmpty k (costs_fireEntry hdue htaken)
  rw [← fireHead_cons hmarks] at hfired
  obtain ⟨hclock, hcost⟩ := hfired
  have hpos := MarkEntry.cost_pos hdue
  unfold Sitting.cost
  rw [hclock, hmarks, marksCost_cons]
  omega

/-! ### Firing what is due (R68) -/

/-- With no work due the first entry is not due. -/
theorem headDue_of_cost_zero {x : Sitting} (h : x.cost = 0) : x.headDue = false := by
  refine Bool.eq_false_iff.mpr fun hdue => ?_
  obtain ⟨e, rest, hmarks, hdue⟩ := (headDue_iff x).mp hdue
  have hpos := MarkEntry.cost_pos hdue
  unfold Sitting.cost at h
  rw [hmarks, marksCost_cons] at h
  omega

/-- With fuel for the work due, none is due after, and more fuel makes no difference. -/
theorem fireUpTo_complete {k : Nat} (n : Nat) {s : State} (hn : (s.sitting k).cost ≤ n) :
    ((State.fireUpTo k n s).sitting k).headDue = false ∧
      ∀ m, (s.sitting k).cost ≤ m → State.fireUpTo k m s = State.fireUpTo k n s := by
  induction n generalizing s with
  | zero =>
    have hquiet := headDue_of_cost_zero (Nat.le_zero.mp hn)
    refine ⟨hquiet, fun m _ => ?_⟩
    cases m with
    | zero => rfl
    | succ m => simp [State.fireUpTo, hquiet]
  | succ n ih =>
    by_cases hdue : (s.sitting k).headDue = true
    · have hless := cost_fireHead hdue
      obtain ⟨hquiet, hsame⟩ := ih (s := s.fireHead k) (by omega)
      refine ⟨by simpa [State.fireUpTo, hdue] using hquiet, fun m hm => ?_⟩
      cases m with
      | zero => omega
      | succ m => simpa [State.fireUpTo, hdue] using hsame m (by omega)
    · have hquiet : (s.sitting k).headDue = false := by simpa using hdue
      refine ⟨by simp [State.fireUpTo, hquiet], fun m _ => ?_⟩
      cases m with
      | zero => simp [State.fireUpTo, hquiet]
      | succ m => simp [State.fireUpTo, hquiet]

section
variable {s : State} {k : Nat}

/-- None is due after the entries due have fired. -/
theorem fireDue_quiet (s : State) (k : Nat) : ((s.fireDue k).sitting k).headDue = false :=
  (fireUpTo_complete _ (Sitting.cost_le _)).1

/-- With none due nothing fires. -/
theorem fireDue_of_quiet (h : (s.sitting k).headDue = false) : s.fireDue k = s := by
  unfold State.fireDue
  cases 2 * (s.sitting k).marks.length with
  | zero => rfl
  | succ n => simp [State.fireUpTo, h]

/-- The first that is due fires before the others. -/
theorem fireDue_of_due (h : (s.sitting k).headDue = true) : s.fireDue k = (s.fireHead k).fireDue k := by
  have hless := cost_fireHead h
  have hfuel := Sitting.cost_le (s.sitting k)
  obtain ⟨n, hn⟩ : ∃ n, 2 * (s.sitting k).marks.length = n + 1 := ⟨_, (Nat.succ_pred_eq_of_pos (by omega)).symm⟩
  have hstep : s.fireDue k = State.fireUpTo k n (s.fireHead k) := by
    rw [State.fireDue, hn, State.fireUpTo, if_pos h]
  rw [hstep]
  exact (fireUpTo_complete _ (Sitting.cost_le _)).2 n (by omega)

end

end Sys2Proof.Machine
end

