-- ==== Sys2Proof/Proofs/MarkRows.lean ====
section
/-!
PROOFS. The mark rows (R68 to R70, R74): what the first entry of a list does by its kind, and when a row fires.
-/

namespace Sys2Proof.Machine

/-! ### The first entry, by its kind -/

section
variable {s : State} {k : Nat} {e : MarkEntry} {rest : List MarkEntry}

/-- A WARN is replaced by the next writing entry (R69). -/
theorem fireHead_warn {j : Nat} (hmarks : (s.sitting k).marks = e :: rest) (hkind : e.kind = .warn j) : s.fireHead k =
    ((s.modSitting k (fun x => { x with marks := rest })).addWritingEntry e.slot).collectIfEmpty k := by
  rw [fireHead_cons hmarks, State.fireEntry, hkind]
  rfl

/-- An END finishes a WRITING candidate (R70). -/
theorem fireHead_finish {y : Candidate} (hmarks : (s.sitting k).marks = e :: rest) (hkind : e.kind = .finish)
    (hy : s.cand? e.slot = some y) : s.fireHead k =
      (if y.state = .writing then
        ((s.modSitting k (fun x => { x with marks := rest })).finishClaim e.slot).noteCandEnd e.slot
      else s.modSitting k (fun x => { x with marks := rest })).collectIfEmpty k := by
  rw [fireHead_cons hmarks, State.fireEntry, hkind]
  simp [State.fireEnd, hy]

/-- A REST_EXPIRY of a candidate who is not PAUSED only leaves. -/
theorem fireHead_rest_stale {y : Candidate} (hmarks : (s.sitting k).marks = e :: rest) (hkind : e.kind = .restExpiry)
    (hy : s.cand? e.slot = some y) (hstate : y.state ≠ .paused) :
    s.fireHead k = (s.modSitting k (fun x => { x with marks := rest })).collectIfEmpty k := by
  rw [fireHead_cons hmarks, State.fireEntry, hkind]
  simp [State.fireRest, hy, hstate]

/-- A REST_EXPIRY of a PAUSED candidate resumes it with the whole rest left, marks its call and is noticed (R74). -/
theorem fireHead_rest {y : Candidate} (hmarks : (s.sitting k).marks = e :: rest) (hkind : e.kind = .restExpiry)
    (hy : s.cand? e.slot = some y) (hstate : y.state = .paused) : s.fireHead k =
      (State.notify (match s.liveRest e.slot with
        | some i => ((s.modSitting k (fun x => { x with marks := rest })).resumeFor e.slot
            (y.restBudget - y.restUsed)).modCall i (fun z => { z with expired := true })
        | none => (s.modSitting k (fun x => { x with marks := rest })).resumeFor e.slot (y.restBudget - y.restUsed))
        (.restExpired e.slot y.number y.sitting y.bound (s.liveRest e.slot)
          (y.restUsed + (y.restBudget - y.restUsed)))).collectIfEmpty k := by
  have hcand : (s.modSitting k (fun x => { x with marks := rest })).cand? e.slot = some y := hy
  have hcall : (s.modSitting k (fun x => { x with marks := rest })).liveRest e.slot = s.liveRest e.slot := rfl
  rw [fireHead_cons hmarks, State.fireEntry, hkind]
  simp only [State.fireRest, hcand, hstate, hcall, if_true]
  cases s.liveRest e.slot <;> rfl

/-- An entry of a free slot only leaves. -/
theorem fireHead_free (hmarks : (s.sitting k).marks = e :: rest) (hfree : s.cand? e.slot = none) :
    s.fireHead k = (s.modSitting k (fun x => { x with marks := rest })).collectIfEmpty k := by
  have hcand : (s.modSitting k (fun x => { x with marks := rest })).cand? e.slot = none := hfree
  rw [fireHead_cons hmarks, State.fireEntry]
  cases e.kind with
  | warn j => simp [State.fireWarn, State.addWritingEntry, hcand]
  | finish => simp [State.fireEnd, hcand]
  | restExpiry => simp [State.fireRest, hcand]

end

/-- The live REST call of a candidate is its lowest in service that is not marked expired. -/
theorem liveRest_eq_some (s : State) (c i : Nat) : s.liveRest c = some i ↔
    (∃ d, s.call? i = some d ∧ d.slot = c ∧ d.kind = .rest ∧ d.expired = false ∧ d.state ≠ .pending) ∧
      ∀ j, j < i → ¬∃ d, s.call? j = some d ∧ d.slot = c ∧ d.kind = .rest ∧ d.expired = false ∧ d.state ≠ .pending := by
  have hlive : ∀ n, (∃ d, s.call? n = some d ∧ d.slot = c ∧ d.kind = .rest ∧ d.expired = false ∧ d.state ≠ .pending) ↔
      ∃ o, s.cdp.calls[n]? = some o ∧ o.any (fun (d : Call) =>
        d.slot == c && d.kind == .rest && !d.expired && d.state != .pending) = true := by
    intro n
    unfold State.call?
    rcases s.cdp.calls[n]? with _ | _ | d <;> simp [and_assoc]
  rw [State.liveRest, lowestWhere_eq_some, hlive]
  constructor
  · rintro ⟨o, ho, hp, hlow⟩
    refine ⟨⟨o, ho, hp⟩, fun j hj hlivej => ?_⟩
    obtain ⟨p, hpj, hany⟩ := (hlive j).mp hlivej
    exact Bool.eq_false_iff.mp (hlow j hj p hpj) hany
  · rintro ⟨⟨o, ho, hp⟩, hlow⟩
    exact ⟨o, ho, hp, fun j hj p hpj => Bool.eq_false_iff.mpr fun hany => hlow j hj ((hlive j).mpr ⟨p, hpj, hany⟩)⟩

/-- CAND_END is sent when the personal end differs from the base end (R70). -/
theorem noteCandEnd_eq {s : State} {c : Nat} {y : Candidate} (hy : s.cand? c = some y) : s.noteCandEnd c =
    if (s.sitting y.sitting).writing * 60 + y.extension + y.pausedTotal = (s.sitting y.sitting).writing * 60 then s
    else s.notify (.candEnd c y.number y.sitting y.finish
      ((s.sitting y.sitting).writing * 60 + y.extension + y.pausedTotal) y.extension y.pausedTotal) := by
  rw [State.noteCandEnd, hy]
  rfl

/-! ### The mark rows -/

theorem isWarn_iff (kind : MarkKind) : kind.isWarn = true ↔ ∃ j, kind = .warn j := by
  cases kind <;> simp [MarkKind.isWarn]

theorem isEnd_iff (kind : MarkKind) : kind.isEnd = true ↔ kind = .finish := by
  cases kind <;> simp [MarkKind.isEnd]

theorem isRest_iff (kind : MarkKind) : kind.isRest = true ↔ kind = .restExpiry := by
  cases kind <;> simp [MarkKind.isRest]

theorem entryReached_iff (slot : Nat) (kind : MarkKind → Bool) (x : Sitting) : x.entryReached slot kind = true ↔
    ∃ e ∈ x.marks, e.slot = slot ∧ kind e.kind = true ∧ e.due ≤ x.clock := by
  simp [Sitting.entryReached, and_assoc]

section
variable {s : State} {n : Nat} {kind : MarkKind → Bool} {y : Candidate}

/-- A row of a free slot fires nothing. -/
theorem fireFor_free (h : s.cand? n = none) : s.fireFor n kind = s := by
  simp [State.fireFor, h]

/-- A row of a candidate is a point of its sitting. -/
theorem fireFor_cand (hy : s.cand? n = some y) : s.fireFor n kind =
    s.atPoint y.sitting (Sitting.entryReached n kind) (fun t => t.fireDue y.sitting) := by
  simp [State.fireFor, hy]

/-- An entry due fires all that are due. -/
theorem fireFor_due (hy : s.cand? n = some y) (hrun : (s.sitting y.sitting).state.running = true)
    (hheld : (s.sitting y.sitting).held = false)
    (hdue : ∃ e ∈ (s.sitting y.sitting).marks, e.slot = n ∧ kind e.kind = true ∧ e.due ≤ (s.sitting y.sitting).clock) :
    s.fireFor n kind = s.fireDue y.sitting := by
  rw [fireFor_cand hy, atPoint_reached hrun hheld ((entryReached_iff n kind _).mpr hdue)]

/-- An entry due at the next second owed takes that second. -/
theorem fireFor_second (hy : s.cand? n = some y) (hwaits : (s.sitting y.sitting).secondWaits = true)
    (hnow : ¬∃ e ∈ (s.sitting y.sitting).marks, e.slot = n ∧ kind e.kind = true ∧ e.due ≤ (s.sitting y.sitting).clock)
    (hnext : ∃ e ∈ (s.sitting y.sitting).marks, e.slot = n ∧ kind e.kind = true ∧
      e.due ≤ (s.sitting y.sitting).clock + 1) : s.fireFor n kind = s.takeSecond y.sitting := by
  have hquiet : (s.sitting y.sitting).entryReached n kind = false :=
    Bool.eq_false_iff.mpr (mt (entryReached_iff n kind _).mp hnow)
  rw [fireFor_cand hy, atPoint_second hwaits hquiet ((entryReached_iff n kind _).mpr hnext)]

/-- A row does nothing in a sitting that is held or does not run, or when none of its entries is due. -/
theorem fireFor_idle (hy : s.cand? n = some y)
    (h : (s.sitting y.sitting).held = true ∨ (s.sitting y.sitting).state.running = false ∨
      ∀ e ∈ (s.sitting y.sitting).marks, e.slot = n → kind e.kind = true → (s.sitting y.sitting).clock < e.due ∧
        ((s.sitting y.sitting).secondsDue = 0 ∨ (s.sitting y.sitting).clock + 1 < e.due)) : s.fireFor n kind = s := by
  rw [fireFor_cand hy]
  rcases h with hheld | hidle | hlater
  · exact atPoint_idle (.inr hheld)
  · exact atPoint_idle (.inl hidle)
  · refine atPoint_notReached (Bool.eq_false_iff.mpr fun hnow => ?_) ?_
    · obtain ⟨e, he, hslot, hkind, hdue⟩ := (entryReached_iff n kind _).mp hnow
      exact absurd hdue (Nat.not_le.mpr (hlater e he hslot hkind).1)
    · by_cases hnone : (s.sitting y.sitting).secondsDue = 0
      · exact .inl hnone
      · refine .inr (Bool.eq_false_iff.mpr fun hnext => ?_)
        obtain ⟨e, he, hslot, hkind, hdue⟩ := (entryReached_iff n kind _).mp hnext
        exact absurd hdue (Nat.not_le.mpr ((hlater e he hslot hkind).2.resolve_left hnone))

/-- With the first entry the candidate's, of the kind and the only one due, the row fires that entry. -/
theorem fireFor_head {e : MarkEntry} {rest : List MarkEntry} (hy : s.cand? n = some y)
    (hrun : (s.sitting y.sitting).state.running = true) (hheld : (s.sitting y.sitting).held = false)
    (hmarks : (s.sitting y.sitting).marks = e :: rest) (hslot : e.slot = n) (hdue : e.due ≤ (s.sitting y.sitting).clock)
    (hkind : kind e.kind = true) (hquiet : ∀ m l, ((s.fireHead y.sitting).sitting y.sitting).marks = m :: l →
      ((s.fireHead y.sitting).sitting y.sitting).clock < m.due) : s.fireFor n kind = s.fireHead y.sitting := by
  have hfirst : (s.sitting y.sitting).headDue = true := (headDue_iff _).mpr ⟨e, rest, hmarks, hdue⟩
  have hafter : ((s.fireHead y.sitting).sitting y.sitting).headDue = false := Bool.eq_false_iff.mpr fun h => by
    obtain ⟨m, l, hm, hle⟩ := (headDue_iff _).mp h
    exact absurd hle (Nat.not_le.mpr (hquiet m l hm))
  rw [fireFor_due hy hrun hheld ⟨e, by simp [hmarks], hslot, hkind, hdue⟩, fireDue_of_due hfirst,
    fireDue_of_quiet hafter]

end

/-- Settles O38: the first entry acts by its kind, a row is a point of its candidate's sitting, and the fuel suffices. -/
theorem markEntriesFire : Obligations.MarkEntriesFire := by
  unfold Obligations.MarkEntriesFire
  refine ⟨?heads, ?idle, ⟨?firing, liveRest_eq_some, ?rows⟩, ?candEnd⟩
  case heads =>
    intro n s y e rest hy hk hrun hheld hmarks hslot hdue k s1 quiet
    have hhead : ∀ {kind : MarkKind → Bool} {u : State}, s.fireHead k = u → kind e.kind = true → quiet u →
        done (s.fireFor n.val kind) = .next u.settle := by
      rintro kind u rfl hkind hquiet
      rw [fireFor_head hy hrun hheld hmarks hslot hdue hkind hquiet, done]
    refine ⟨fun j hkind => ?_, fun hkind hstate => ?_, fun hkind hstate => ?_⟩
    · exact hhead (hslot ▸ fireHead_warn hmarks hkind) ((isWarn_iff _).mpr ⟨j, hkind⟩)
    · refine hhead ?_ ((isEnd_iff _).mpr hkind)
      rw [fireHead_finish hmarks hkind (hslot ▸ hy), if_pos hstate, hslot]
    · refine hhead ?_ ((isRest_iff _).mpr hkind)
      rw [fireHead_rest hmarks hkind (hslot ▸ hy) hstate, hslot]
      rfl
  case idle =>
    intro n s
    refine ⟨fun hfree => ⟨?_, ?_, ?_⟩, fun y hy => ?_⟩
    · exact congrArg done (fireFor_free hfree)
    · exact congrArg done (fireFor_free hfree)
    · exact congrArg done (fireFor_free hfree)
    · intro x idle
      have hidle : ∀ (kind : MarkKind → Bool) (c : Instr) (p : MarkKind → Prop), exec c s = done (s.fireFor n.val kind) →
          (∀ e, kind e = true → p e) → idle c p := fun kind c p hexec hp h => by
        rw [hexec, fireFor_idle hy (h.imp_right fun h => h.imp_right fun h e he hslot hkind => h e he hslot (hp _ hkind)), done]
      clear_value idle
      exact ⟨hidle MarkKind.isWarn _ _ rfl fun e => (isWarn_iff e).mp, hidle MarkKind.isEnd _ _ rfl fun e => (isEnd_iff e).mp,
        hidle MarkKind.isRest _ _ rfl fun e => (isRest_iff e).mp⟩
  case firing =>
    intro s k due
    have hdue : ∀ u, (u.sitting k).headDue = true ↔ due u := fun u => headDue_iff _
    refine ⟨fun h => fireDue_of_quiet (Bool.eq_false_iff.mpr (mt (hdue s).mp h)),
      fun h => fireDue_of_due ((hdue s).mpr h), mt (hdue _).mpr (Bool.eq_false_iff.mp (fireDue_quiet s k)), ?_⟩
    intro e rest hmarks s1
    exact ⟨fun j => fireHead_warn hmarks, fun y => fireHead_finish hmarks, fun y => fireHead_rest_stale hmarks,
      fun y => fireHead_rest hmarks, fireHead_free hmarks⟩
  case rows =>
    intro n s y m hy hm x row
    have hrow : ∀ (kind : MarkKind → Bool) (c : Instr) (p : MarkKind → Prop), exec c s = done (s.fireFor n.val kind) →
        (∀ e, kind e = true ↔ p e) → row c p := by
      intro kind c p hexec hp hrun hheld
      have hreached : ∀ clock, (∃ e ∈ x.marks, e.slot = n.val ∧ p e.kind ∧ e.due ≤ clock) ↔
          ∃ e ∈ x.marks, e.slot = n.val ∧ kind e.kind = true ∧ e.due ≤ clock := fun clock =>
        exists_congr fun e => by rw [hp]
      have hsame : s.sitting y.sitting = x := by rw [hm]
      refine ⟨fun hnow => ?_, fun hnow hdue hnext => ?_⟩
      · rw [hexec, fireFor_due hy (hsame ▸ hrun) (hsame ▸ hheld) (hsame ▸ (hreached _).mp hnow), hm, done]
      · have hwaits : x.secondWaits = true := (secondWaits_iff x).mpr ⟨hrun, hheld, hdue⟩
        rw [hexec, fireFor_second hy (hsame ▸ hwaits) (hsame ▸ mt (hreached _).mpr hnow) (hsame ▸ (hreached _).mp hnext), hm,
          exec_sittingSecond hwaits, done]
    clear_value row
    exact ⟨hrow MarkKind.isWarn _ _ rfl isWarn_iff, hrow MarkKind.isEnd _ _ rfl isEnd_iff,
      hrow MarkKind.isRest _ _ rfl isRest_iff⟩
  case candEnd =>
    intro s c y hy base finish
    exact ⟨fun h => (noteCandEnd_eq hy).trans (if_pos h), fun h => (noteCandEnd_eq hy).trans (if_neg h)⟩

end Sys2Proof.Machine
end

