-- ==== Sys2Proof/Proofs/MarkLists.lean ====
section
/-!
PROOFS. Personal time and the mark lists (R62 to R65): the extension, the order of a list and the place an entry takes in it, a
candidate's writing entry, and what the three operations on a list do to the sittings.
-/

namespace Sys2Proof.Machine

/-! ### The extension (R62) -/

/-- A quotient rounded up is the least whole number that is not below it. -/
theorem ceilDiv_bounds (n : Nat) {d : Nat} (hd : 0 < d) : n ≤ ceilDiv n d * d ∧ ceilDiv n d * d < n + d := by
  unfold ceilDiv
  have hmod := Nat.div_add_mod (n + (d - 1)) d
  have hlt := Nat.mod_lt (n + (d - 1)) hd
  rw [Nat.mul_comm] at hmod
  omega

/-! ### The order of a mark list (R64) -/

theorem before_iff (a b : MarkEntry) : a.before b = true ↔ a.due < b.due ∨ (a.due = b.due ∧ a.slot < b.slot) := by
  simp [MarkEntry.before]

/-- Not before: later, or at the same time in no lower slot. -/
theorem before_eq_false_iff (a b : MarkEntry) :
    a.before b = false ↔ b.due < a.due ∨ (b.due = a.due ∧ b.slot ≤ a.slot) := by
  rw [← Bool.not_eq_true, before_iff]
  omega

/-- An entry before one that none of a list is before: none of the list is before it either. -/
theorem before_trans_false {e a b : MarkEntry} (he : e.before a = true) (hb : b.before a = false) : b.before e = false := by
  rw [before_iff] at he
  rw [before_eq_false_iff] at *
  omega

/-- An insertion adds the entry and moves no other. -/
theorem perm_insertMark (e : MarkEntry) (l : List MarkEntry) : (insertMark e l).Perm (e :: l) := by
  induction l with
  | nil => exact .refl _
  | cons a l ih =>
    unfold insertMark
    split
    · exact .refl _
    · exact (ih.cons a).trans (.swap e a l)

/-- An ordered list stays ordered when an entry takes its place. -/
theorem pairwise_insertMark (e : MarkEntry) {l : List MarkEntry} (h : l.Pairwise (fun a b => b.before a = false)) :
    (insertMark e l).Pairwise (fun a b => b.before a = false) := by
  induction l with
  | nil => exact List.pairwise_singleton _ _
  | cons a l ih =>
    obtain ⟨hfirst, hrest⟩ := List.pairwise_cons.mp h
    unfold insertMark
    split
    next hbefore =>
      refine List.pairwise_cons.mpr ⟨fun b hb => before_trans_false hbefore ?_, h⟩
      rcases List.mem_cons.mp hb with rfl | hb
      · rw [before_eq_false_iff]
        exact .inr ⟨rfl, le_refl _⟩
      · exact hfirst b hb
    next hnot =>
      refine List.pairwise_cons.mpr ⟨fun b hb => ?_, ih hrest⟩
      rcases List.mem_cons.mp ((perm_insertMark e l).mem_iff.mp hb) with rfl | hb
      · exact Bool.eq_false_iff.mpr hnot
      · exact hfirst b hb

/-! ### The writing entry (R63, R65) -/

/-- A candidate's warning points beyond a clock, each with the number of its warning (R63). -/
def pointsBeyond (x : Sitting) (cand : Candidate) (c : Nat) : List (Nat × Nat) :=
  (x.warnings.zipIdx.map (fun w => (warningPoint x cand w.1, w.2 + 1))).filter (fun p => c < p.1)

/-- The earliest of an entry and of the WARN entries of some points; of two at one time the first. -/
def earliestOf (slot : Nat) (points : List (Nat × Nat)) (e : MarkEntry) : MarkEntry :=
  points.foldl (fun e p => if p.1 < e.due then ⟨p.1, slot, .warn p.2⟩ else e) e

theorem writingEntry_eq (x : Sitting) (slot : Nat) (cand : Candidate) (c : Nat) : writingEntry x slot cand c =
    earliestOf slot (pointsBeyond x cand c) ⟨personalEnd x cand, slot, .finish⟩ := rfl

theorem mem_pointsBeyond {x : Sitting} {cand : Candidate} {c due n : Nat} : (due, n) ∈ pointsBeyond x cand c ↔
    c < due ∧ ∃ i w, x.warnings[i]? = some w ∧ n = i + 1 ∧ due = warningPoint x cand w := by
  simp only [pointsBeyond, List.mem_filter, List.mem_map, Prod.exists, List.mem_zipIdx_iff_getElem?, Prod.mk.injEq,
    decide_eq_true_eq]
  constructor
  · rintro ⟨⟨w, i, hw, rfl, rfl⟩, hbeyond⟩
    exact ⟨hbeyond, i, w, hw, rfl, rfl⟩
  · rintro ⟨hbeyond, i, w, hw, rfl, rfl⟩
    exact ⟨⟨w, i, hw, rfl, rfl⟩, hbeyond⟩

/-- The earliest is the entry itself or a WARN at one of the points. -/
theorem earliestOf_eq_or (slot : Nat) (points : List (Nat × Nat)) (e : MarkEntry) :
    earliestOf slot points e = e ∨ ∃ p ∈ points, earliestOf slot points e = ⟨p.1, slot, .warn p.2⟩ := by
  induction points generalizing e with
  | nil => exact .inl rfl
  | cons p points ih =>
    rw [earliestOf, List.foldl_cons, ← earliestOf]
    rcases ih (if p.1 < e.due then ⟨p.1, slot, .warn p.2⟩ else e) with hkeep | ⟨q, hq, hwarn⟩
    · rw [hkeep]
      split
      · exact .inr ⟨p, List.mem_cons_self, rfl⟩
      · exact .inl rfl
    · exact .inr ⟨q, List.mem_cons_of_mem p hq, hwarn⟩

/-- It is no later than the entry, nor than any of the points. -/
theorem earliestOf_due_le (slot : Nat) (points : List (Nat × Nat)) (e : MarkEntry) :
    (earliestOf slot points e).due ≤ e.due ∧ ∀ p ∈ points, (earliestOf slot points e).due ≤ p.1 := by
  induction points generalizing e with
  | nil => exact ⟨le_refl _, by simp⟩
  | cons p points ih =>
    rw [earliestOf, List.foldl_cons, ← earliestOf]
    obtain ⟨hle, hpoints⟩ := ih (if p.1 < e.due then ⟨p.1, slot, .warn p.2⟩ else e)
    have hfirst : (if p.1 < e.due then (⟨p.1, slot, .warn p.2⟩ : MarkEntry) else e).due ≤ min e.due p.1 := by
      split
      next h => exact Nat.le_min.mpr ⟨h.le, le_refl _⟩
      next h => exact Nat.le_min.mpr ⟨le_refl _, Nat.not_lt.mp h⟩
    have hmin := Nat.le_min.mp (hle.trans hfirst)
    refine ⟨hmin.1, fun q hq => ?_⟩
    rcases List.mem_cons.mp hq with rfl | hq
    · exact hmin.2
    · exact hpoints q hq

section
variable (x : Sitting) (slot : Nat) (y : Candidate) (c : Nat)

/-- A writing entry is the END at the personal end, or the WARN of a warning point beyond the clock. -/
theorem writingEntry_eq_or : writingEntry x slot y c = ⟨personalEnd x y, slot, .finish⟩ ∨
    ∃ i w, x.warnings[i]? = some w ∧ c < warningPoint x y w ∧
      writingEntry x slot y c = ⟨warningPoint x y w, slot, .warn (i + 1)⟩ := by
  rw [writingEntry_eq]
  rcases earliestOf_eq_or slot (pointsBeyond x y c) ⟨personalEnd x y, slot, .finish⟩ with hend | ⟨⟨due, n⟩, hp, hwarn⟩
  · exact .inl hend
  · obtain ⟨hbeyond, i, w, hw, rfl, rfl⟩ := mem_pointsBeyond.mp hp
    exact .inr ⟨i, w, hw, hbeyond, hwarn⟩

theorem writingEntry_slot : (writingEntry x slot y c).slot = slot := by
  rcases writingEntry_eq_or x slot y c with h | ⟨i, w, -, -, h⟩ <;> rw [h]

/-- It is due no later than the personal end. -/
theorem writingEntry_due_le_end : (writingEntry x slot y c).due ≤ personalEnd x y :=
  (earliestOf_due_le slot (pointsBeyond x y c) ⟨personalEnd x y, slot, .finish⟩).1

/-- Nor later than any warning point beyond the clock. -/
theorem writingEntry_due_le_warning {w : Nat} (hw : w ∈ x.warnings) (hbeyond : c < warningPoint x y w) :
    (writingEntry x slot y c).due ≤ warningPoint x y w := by
  obtain ⟨i, hi⟩ := List.mem_iff_getElem?.mp hw
  exact (earliestOf_due_le slot (pointsBeyond x y c) ⟨personalEnd x y, slot, .finish⟩).2 _
    (mem_pointsBeyond.mpr ⟨hbeyond, i, w, hi, rfl, rfl⟩)

end

/-! ### The operations on a list -/

/-- Only one sitting changed, and of the state nothing else. -/
theorem modSitting_only_this (s : State) {k : Nat} (hk : k < 8) (f : Sitting → Sitting) :
    (s.modSitting k f = { s with tme.sittings := (s.modSitting k f).tme.sittings } ∧
      ∀ j, j < 8 → j ≠ k → (s.modSitting k f).sitting j = s.sitting j) ∧ (s.modSitting k f).sitting k = f (s.sitting k) :=
  ⟨⟨rfl, fun _ _ hne => sitting_modSitting_ne s f hne⟩, by rw [sitting_modSitting _ _ _ _ hk, if_pos rfl]⟩

/-- A candidate's writing entry goes into its own sitting's list. -/
theorem addWritingEntry_of_cand? {s : State} {c : Nat} {y : Candidate} (hy : s.cand? c = some y) : s.addWritingEntry c =
    s.addMark y.sitting (writingEntry (s.sitting y.sitting) c y (s.sitting y.sitting).clock) := by
  simp only [State.addWritingEntry, hy]

theorem addWritingEntry_of_none {s : State} {c : Nat} (hc : s.cand? c = none) : s.addWritingEntry c = s := by
  simp only [State.addWritingEntry, hc]

/-- Settles O37: the extension's bounds, the writing entry as the earliest, and one sitting changed by each operation. -/
theorem personalTime : Obligations.PersonalTime := by
  unfold Obligations.PersonalTime
  refine ⟨⟨?extension, by decide, by decide, by decide, by decide, by decide⟩, ?entry, before_iff, ?lists,
    fun s c => addWritingEntry_of_none⟩
  case extension =>
    intro writing allowance
    obtain ⟨hle, hlt⟩ := ceilDiv_bounds (writing * allowance) (d := 100) (by decide)
    exact ⟨ceilDiv (writing * allowance) 100, rfl, hle, hlt⟩
  case entry =>
    intro x slot c y finish e
    refine ⟨writingEntry_slot x slot y c, ?_, writingEntry_due_le_end x slot y c,
      fun w hw hbeyond => writingEntry_due_le_warning x slot y c hw hbeyond,
      fun m l hl => ⟨pairwise_insertMark m hl, perm_insertMark m l⟩⟩
    rcases writingEntry_eq_or x slot y c with hend | ⟨i, w, hw, hbeyond, hwarn⟩
    · exact .inl ⟨congrArg MarkEntry.kind hend, congrArg MarkEntry.due hend⟩
    · have hdue : e.due = warningPoint x y w := congrArg MarkEntry.due hwarn
      exact .inr ⟨i, w, hw, congrArg MarkEntry.kind hwarn, hdue, hdue ▸ hbeyond⟩
  case lists =>
    intro s k hk x only
    refine ⟨fun m => modSitting_only_this s hk _, fun c => modSitting_only_this s hk _, fun c y hy hsitting => ?_⟩
    subst hsitting
    rw [addWritingEntry_of_cand? hy]
    exact modSitting_only_this s hk _

end Sys2Proof.Machine
end

