-- ==== Sys2Proof/Proofs/EarlyLeave.lean ====
section
/-!
PROOFS. Pauses and early leave: the two claims by the candidate's state (R72, R73), and LEAVE by the first of its five checks
that refuses (R71).
-/

namespace Sys2Proof.Machine

/-! ### The pause and the resume claim (R72, R73) -/

section
variable {s : State} {c : Nat} {y : Candidate} (hy : s.cand? c = some y)
include hy

/-- A pause of a WRITING candidate: its entry gives way to a REST_EXPIRY entry. -/
theorem pauseClaim_writing (hstate : y.state = .writing) : s.pauseClaim c =
    (((s.dropMark y.sitting c).modCand c (fun z => { z with
      pauseStart := some (s.sitting y.sitting).clock, state := .paused })).addMark y.sitting
        ⟨(s.sitting y.sitting).clock + y.restLeft, c, .restExpiry⟩).fireInserted y.sitting := by
  simp only [State.pauseClaim, hy, if_pos hstate]

theorem pauseClaim_of_not_writing (hstate : y.state ≠ .writing) : s.pauseClaim c = s := by
  simp only [State.pauseClaim, hy, if_neg hstate]

/-- A resume of a PAUSED candidate: its entry goes, and the seconds since the pause are credited. -/
theorem resumeClaim_paused {start : Nat} (hstate : y.state = .paused) (hstart : y.pauseStart = some start) :
    s.resumeClaim c = ((s.dropMark y.sitting c).resumeFor c ((s.sitting y.sitting).clock - start)).fireInserted
      y.sitting := by
  simp only [State.resumeClaim, hy, if_pos hstate, hstart, Option.getD_some]

theorem resumeClaim_of_not_paused (hstate : y.state ≠ .paused) : s.resumeClaim c = s := by
  simp only [State.resumeClaim, hy, if_neg hstate]

end

/-! ### The checks of LEAVE (R71) -/

section
variable {x : Sitting} {y : Candidate}

theorem leaveRefusal_candidate (hy : y.state ≠ .writing) : leaveRefusal x y = some .candidateState := if_pos hy

section
variable (hy : y.state = .writing)
include hy

theorem leaveRefusal_sitting (hx : x.state ≠ .writing) : leaveRefusal x y = some .sittingState := by
  simp [leaveRefusal, hy, hx]

section
variable (hx : x.state = .writing)
include hx

theorem leaveRefusal_held (hheld : x.held = true) : leaveRefusal x y = some .sittingHeld := by
  simp [leaveRefusal, hy, hx, hheld]

theorem leaveRefusal_early (hheld : x.held = false) (hearly : x.clock < x.opening * 60) :
    leaveRefusal x y = some .windowNotOpen := by
  simp [leaveRefusal, hy, hx, hheld, hearly]

theorem leaveRefusal_late (hheld : x.held = false) (hopen : x.opening * 60 ≤ x.clock)
    (hlate : (x.writing - x.closing) * 60 ≤ x.clock) : leaveRefusal x y = some .windowClosed := by
  simp [leaveRefusal, hy, hx, hheld, Nat.not_lt.mpr hopen, hlate]

theorem leaveRefusal_window (hheld : x.held = false) (hopen : x.opening * 60 ≤ x.clock)
    (hclose : x.clock < (x.writing - x.closing) * 60) : leaveRefusal x y = none := by
  simp [leaveRefusal, hy, hx, hheld, Nat.not_lt.mpr hopen, Nat.not_le.mpr hclose]

end

end

end

/-! ### LEAVE (R71) -/

section
variable {slot : Half} {s : State} (hl : s.listening = true) (hslot : slot.toNat < 512)
include hl hslot

theorem exec_leave_freeSlot (hy : s.cand? slot.toNat = none) : exec (.leave slot) s = s.toHunt.replied 0x1B notFound :=
  answerTo_withArgs hl (by simp [isSlot, hslot]) (by simp [hy])

variable {y : Candidate} (hy : s.cand? slot.toNat = some y)
include hy

/-- A check that fails is answered by its reason, and nothing changes. -/
theorem exec_leave_refused {reason : Reason} (h : leaveRefusal (s.sitting y.sitting) y = some reason) :
    exec (.leave slot) s = s.toHunt.replied 0x1B (refuse .refusedState reason) :=
  answerTo_withArgs hl (by simp [isSlot, hslot]) (by simp [hy, h])

/-- With all five passed the paper ends. -/
theorem exec_leave_taken (h : leaveRefusal (s.sitting y.sitting) y = none) : exec (.leave slot) s =
    (s.toHunt.takeLeave slot.toNat y).replied 0x1B (ok (.left slot.toNat (s.sitting y.sitting).clock y.bound
      (y.bound.map (s.toHunt.takeLeave slot.toNat y).seatState))) :=
  answerTo_withArgs hl (by simp [isSlot, hslot]) (by simp [hy, h])

end

/-- Settles O39: each claim by the candidate's state, and LEAVE by the first check that refuses. -/
theorem pausesAndEarlyLeave : Obligations.PausesAndEarlyLeave := by
  unfold Obligations.PausesAndEarlyLeave
  refine ⟨?claims, ?leave⟩
  case claims =>
    intro s c y hy k now
    exact ⟨pauseClaim_writing hy, pauseClaim_of_not_writing hy, fun start => resumeClaim_paused hy,
      resumeClaim_of_not_paused hy⟩
  case leave =>
    intro slot s hl hslot c refused
    refine ⟨exec_leave_freeSlot hl hslot, fun y hy => ?_⟩
    intro x
    have refuses : ∀ {r : Reason}, leaveRefusal x y = some r → refused r := exec_leave_refused hl hslot hy
    exact ⟨fun h => refuses (leaveRefusal_candidate h), fun h hx => refuses (leaveRefusal_sitting h hx),
      fun h hx hheld => refuses (leaveRefusal_held h hx hheld),
      fun h hx hheld hearly => refuses (leaveRefusal_early h hx hheld hearly),
      fun h hx hheld hopen hlate => refuses (leaveRefusal_late h hx hheld hopen hlate),
      fun h hx hheld hopen hclose => exec_leave_taken hl hslot hy (leaveRefusal_window h hx hheld hopen hclose)⟩

end Sys2Proof.Machine
end

