-- ==== Sys2Proof/Proofs/MarksKept.lean ====
section
/-!
PROOFS. The mark lists stay ordered by due time, then by slot (R64): what the operations that write the sittings do to the lists.
A list changes by an entry that takes its place, by entries that leave, and by its clearing; every other change of a sitting
leaves the list as it is.
-/

namespace Sys2Proof.Machine

/-! ### The lists of a Timing Engine -/

/-- Every sitting's mark list is ordered. -/
def Tme.marksOrdered (a : Tme) : Prop := ∀ x ∈ a.sittings.toList, x.marksOrdered

theorem marksOrdered_iff_tme (s : State) : s.marksOrdered ↔ s.tme.marksOrdered := Iff.rfl

/-- A sitting with no entries. -/
theorem Sitting.marksOrdered_of_nil {x : Sitting} (h : x.marks = []) : x.marksOrdered := by
  rw [Sitting.marksOrdered, h]
  exact .nil

/-- Sittings as they are after a reset. -/
theorem Tme.marksOrdered_of_reset {a : Tme} (h : a.sittings = Vector.replicate 8 Sitting.atReset) : a.marksOrdered := by
  intro x hx
  rw [h] at hx
  obtain ⟨-, rfl⟩ := by simpa using hx
  exact Sitting.marksOrdered_of_nil rfl

/-- A sitting read from an ordered Timing Engine. -/
theorem marksOrdered_sitting {t : State} (h : t.tme.marksOrdered) (k : Nat) : (t.sitting k).marksOrdered := by
  unfold State.sitting
  by_cases hk : k < 8
  · simpa [hk] using h t.tme.sittings[k] (by simp)
  · simpa [hk] using Sitting.marksOrdered_of_nil rfl

section
variable {t : State}

/-- One sitting changed, the list of the result being ordered when that of the sitting is. -/
theorem marksOrdered_modSitting {k : Nat} {f : Sitting → Sitting} (hf : ∀ x : Sitting, x.marksOrdered → (f x).marksOrdered)
    (h : t.tme.marksOrdered) : (t.modSitting k f).tme.marksOrdered := by
  intro y hy
  obtain ⟨j, hj, rfl⟩ := List.getElem_of_mem hy
  have hj8 : j < 8 := by simpa using hj
  have hthis : t.tme.sittings[j].marksOrdered := h _ (by simp)
  have hafter : (t.modSitting k f).tme.sittings.toList[j] = (modAt t.tme.sittings k f)[j] := Vector.getElem_toList _
  rw [hafter, modAt_getElem]
  split
  · exact hf _ hthis
  · exact hthis

/-- A change of a sitting that leaves its list. -/
theorem marksOrdered_modSitting_same {k : Nat} {f : Sitting → Sitting} (h : t.tme.marksOrdered)
    (hf : ∀ x : Sitting, (f x).marks = x.marks := by exact fun _ => rfl) : (t.modSitting k f).tme.marksOrdered :=
  marksOrdered_modSitting (fun x hx => by rwa [Sitting.marksOrdered, hf x]) h

/-- An operation applied for each member of a list. -/
theorem marksOrdered_forEach {α : Type} {f : α → State → State}
    (hf : ∀ (x : α) (u : State), u.tme.marksOrdered → (f x u).tme.marksOrdered) (xs : List α) (h : t.tme.marksOrdered) :
    (t.forEach xs f).tme.marksOrdered := by
  induction xs generalizing t with
  | nil => exact h
  | cons x xs ih => exact ih (hf x t h)

/-! ### Mark lists and firing (chapter 4) -/

/-- An entry takes its place. -/
theorem marksOrdered_addMark (k : Nat) (e : MarkEntry) (h : t.tme.marksOrdered) : (t.addMark k e).tme.marksOrdered :=
  marksOrdered_modSitting (fun _ hx => pairwise_insertMark e hx) h

/-- A candidate's entry leaves. -/
theorem marksOrdered_dropMark (k c : Nat) (h : t.tme.marksOrdered) : (t.dropMark k c).tme.marksOrdered :=
  marksOrdered_modSitting (fun _ hx => hx.filter _) h

/-- The first entry leaves. -/
theorem marksOrdered_takeHead {k : Nat} {e : MarkEntry} {rest : List MarkEntry} (hmarks : (t.sitting k).marks = e :: rest)
    (h : t.tme.marksOrdered) : (t.modSitting k (fun x => { x with marks := rest })).tme.marksOrdered := by
  have hlist : (e :: rest).Pairwise (fun a b => b.before a = false) := hmarks ▸ marksOrdered_sitting h k
  exact marksOrdered_modSitting (fun _ _ => (List.pairwise_cons.mp hlist).2) h

theorem marksOrdered_addWritingEntry (c : Nat) (h : t.tme.marksOrdered) : (t.addWritingEntry c).tme.marksOrdered := by
  unfold State.addWritingEntry
  split
  · exact h
  · exact marksOrdered_addMark _ _ h

theorem marksOrdered_collectIfEmpty (k : Nat) (h : t.tme.marksOrdered) : (t.collectIfEmpty k).tme.marksOrdered := by
  unfold State.collectIfEmpty
  split
  · rw [(tme_notices _).1]
    exact marksOrdered_modSitting_same h
  · exact h

theorem marksOrdered_resumeFor (c d : Nat) (h : t.tme.marksOrdered) : (t.resumeFor c d).tme.marksOrdered :=
  marksOrdered_addWritingEntry c h

theorem marksOrdered_fireRest (c : Nat) (h : t.tme.marksOrdered) : (t.fireRest c).tme.marksOrdered := by
  unfold State.fireRest
  split
  · exact h
  next y _ =>
    have hresumed : (t.resumeFor c y.restLeft).tme.marksOrdered := marksOrdered_resumeFor _ _ h
    split
    · rw [notify_tme]
      split <;> exact hresumed
    · exact h

theorem marksOrdered_fireEntry (e : MarkEntry) (h : t.tme.marksOrdered) : (t.fireEntry e).tme.marksOrdered := by
  unfold State.fireEntry
  split
  · exact marksOrdered_addWritingEntry _ h
  · simpa using h
  · exact marksOrdered_fireRest _ h

theorem marksOrdered_fireHead (k : Nat) (h : t.tme.marksOrdered) : (t.fireHead k).tme.marksOrdered := by
  cases hmarks : (t.sitting k).marks with
  | nil => simpa only [State.fireHead, hmarks] using h
  | cons e rest =>
    rw [fireHead_cons hmarks]
    exact marksOrdered_collectIfEmpty k (marksOrdered_fireEntry e (marksOrdered_takeHead hmarks h))

theorem marksOrdered_fireUpTo (k n : Nat) (h : t.tme.marksOrdered) : (State.fireUpTo k n t).tme.marksOrdered := by
  induction n generalizing t with
  | zero => exact h
  | succ n ih =>
    unfold State.fireUpTo
    split
    · exact ih (marksOrdered_fireHead k h)
    · exact h

theorem marksOrdered_fireDue (k : Nat) (h : t.tme.marksOrdered) : (t.fireDue k).tme.marksOrdered :=
  marksOrdered_fireUpTo k _ h

theorem marksOrdered_fireInserted (k : Nat) (h : t.tme.marksOrdered) : (t.fireInserted k).tme.marksOrdered := by
  unfold State.fireInserted
  split
  · exact marksOrdered_fireDue k h
  · exact h

theorem marksOrdered_resumeClaim (c : Nat) (h : t.tme.marksOrdered) : (t.resumeClaim c).tme.marksOrdered := by
  unfold State.resumeClaim
  split
  · exact h
  · split
    · exact marksOrdered_fireInserted _ (marksOrdered_resumeFor _ _ (marksOrdered_dropMark _ _ h))
    · exact h

theorem marksOrdered_pauseClaim (c : Nat) (h : t.tme.marksOrdered) : (t.pauseClaim c).tme.marksOrdered := by
  unfold State.pauseClaim
  split
  · exact h
  · split
    · exact marksOrdered_fireInserted _ (marksOrdered_addMark _ _ (marksOrdered_dropMark _ _ h))
    · exact h

theorem marksOrdered_beginWriting (c : Nat) (h : t.tme.marksOrdered) : (State.beginWriting c t).tme.marksOrdered := by
  unfold State.beginWriting
  split
  · exact h
  · exact marksOrdered_addWritingEntry _ h

/-! ### The points of a second, and the start of a sitting (chapter 3) -/

theorem marksOrdered_giveWarning (k : Nat) (h : t.tme.marksOrdered) : (t.giveWarning k).tme.marksOrdered := by
  unfold State.giveWarning
  dsimp only
  split
  · exact marksOrdered_modSitting_same (by rwa [notify_tme])
  · exact h

theorem marksOrdered_takeCutoff (k : Nat) (h : t.tme.marksOrdered) : (t.takeCutoff k).tme.marksOrdered := by
  rw [takeCutoff_eq, notify_tme]
  refine marksOrdered_modSitting_same ?_
  simp only [tme_binding]
  exact marksOrdered_modSitting_same h

theorem marksOrdered_cutoffIfReached (k : Nat) (h : t.tme.marksOrdered) : (t.cutoffIfReached k).tme.marksOrdered := by
  unfold State.cutoffIfReached
  split
  · exact marksOrdered_takeCutoff k h
  · exact h

theorem marksOrdered_takeCompare (k : Nat) (h : t.tme.marksOrdered) : (t.takeCompare k).tme.marksOrdered := by
  unfold State.takeCompare
  split <;>
  · rw [(tme_notices _).1]
    exact marksOrdered_modSitting_same h

theorem marksOrdered_compareIfReached (k : Nat) (h : t.tme.marksOrdered) : (t.compareIfReached k).tme.marksOrdered := by
  unfold State.compareIfReached
  split
  · exact marksOrdered_takeCompare k h
  · exact h

theorem marksOrdered_startWriting (k : Nat) (cause : PhaseCause) (h : t.tme.marksOrdered) :
    (t.startWriting k cause).tme.marksOrdered := by
  have hphase : ((t.modSitting k (fun x => { x with
      state := .writing, clock := 0, nextWarning := 1 })).notePhase k cause).tme.marksOrdered := by
    rw [(tme_notices _).1]
    exact marksOrdered_modSitting_same h
  exact marksOrdered_fireInserted k (marksOrdered_cutoffIfReached k (marksOrdered_giveWarning k
    (marksOrdered_forEach (fun c _ => marksOrdered_beginWriting c) _ hphase)))

theorem marksOrdered_startSittingNow (k : Nat) (h : t.tme.marksOrdered) : (t.startSittingNow k).tme.marksOrdered := by
  have hfresh : (t.modSitting k (fun x => { x with
      scheduled := none, startDue := false, secondsDue := 0, clock := 0 })).tme.marksOrdered :=
    marksOrdered_modSitting_same h
  unfold State.startSittingNow
  dsimp only
  split
  · exact marksOrdered_startWriting k _ hfresh
  · rw [(tme_notices _).1]
    exact marksOrdered_modSitting_same hfresh

theorem marksOrdered_secondWork (k : Nat) (h : t.tme.marksOrdered) : (t.secondWork k).tme.marksOrdered :=
  marksOrdered_compareIfReached k (marksOrdered_fireDue k (marksOrdered_cutoffIfReached k (marksOrdered_giveWarning k h)))

theorem marksOrdered_takeSecond (k : Nat) (h : t.tme.marksOrdered) : (t.takeSecond k).tme.marksOrdered := by
  have hclock : (t.advanceClock k).tme.marksOrdered := marksOrdered_modSitting_same h
  unfold State.takeSecond
  dsimp only
  split
  · split
    · exact marksOrdered_startWriting k _ hclock
    · exact hclock
  · exact marksOrdered_secondWork k hclock

/-- A point within a second. -/
theorem marksOrdered_atPoint (k : Nat) (reached : Sitting → Bool) {take : State → State}
    (htake : t.tme.marksOrdered → (take t).tme.marksOrdered) (h : t.tme.marksOrdered) :
    (t.atPoint k reached take).tme.marksOrdered := by
  unfold State.atPoint
  dsimp only
  split
  · exact htake h
  · split
    · exact marksOrdered_takeSecond k h
    · exact h

theorem marksOrdered_fireFor (c : Nat) (kind : MarkKind → Bool) (h : t.tme.marksOrdered) :
    (t.fireFor c kind).tme.marksOrdered := by
  unfold State.fireFor
  split
  · exact h
  · exact marksOrdered_atPoint _ _ (marksOrdered_fireDue _) h

/-! ### The hall clock (R38 to R43) -/

theorem marksOrdered_clockJump (t1 : HallTime) (carried : Bool) (h : t.tme.marksOrdered) :
    (t.clockJump t1 carried).1.tme.marksOrdered :=
  marksOrdered_forEach (fun k _ => marksOrdered_startSittingNow k) _ h

theorem marksOrdered_correctToMinute (h : t.tme.marksOrdered) : t.correctToMinute.tme.marksOrdered := by
  unfold State.correctToMinute
  dsimp only
  split
  · exact h
  · split <;> exact marksOrdered_clockJump _ _ h

/-- A timebase second counts seconds and marks starts due. -/
theorem Sitting.marks_tick (hall : HallTime) (x : Sitting) : (x.tick hall).marks = x.marks := by
  unfold Sitting.tick
  split
  · rfl
  · split <;> rfl

theorem marksOrdered_tickSittings (h : t.tme.marksOrdered) : t.tickSittings.tme.marksOrdered := by
  intro y hy
  obtain ⟨x, hx, rfl⟩ : ∃ x ∈ t.tme.sittings, x.tick t.tme.hall = y := by simpa [State.tickSittings, mapAll] using hy
  rw [Sitting.marksOrdered, Sitting.marks_tick]
  exact h x (by simpa using hx)

theorem marksOrdered_tick (h : t.tme.marksOrdered) : t.tickHall.tickSittings.tickSync.tickCalls.tme.marksOrdered := by
  have hhall : t.tickHall.tme.marksOrdered := by
    unfold State.tickHall
    dsimp only
    split <;> exact h
  have hsittings := marksOrdered_tickSittings hhall
  show t.tickHall.tickSittings.tickSync.tme.marksOrdered
  unfold State.tickSync
  split <;> exact hsittings

/-! ### Calls, handsets and check-in (chapters 5 and 6) -/

theorem marksOrdered_take (i : Nat) (h : t.tme.marksOrdered) : (t.take i).tme.marksOrdered := by
  unfold State.take
  split
  · exact h
  · split
    · simpa using h
    · split
      · simpa using h
      · dsimp only
        split
        · split
          · exact marksOrdered_pauseClaim _ h
          · exact h
        · exact h

theorem marksOrdered_doneEffect (i : Nat) (c : Call) (h : t.tme.marksOrdered) : (t.doneEffect i c).tme.marksOrdered := by
  unfold State.doneEffect
  split
  · split
    · exact h
    · exact marksOrdered_resumeClaim _ h
  · split
    · dsimp only
      split
      · split <;> simpa using h
      · exact h
    · exact h
  all_goals exact h

theorem marksOrdered_finishCall (n i : Nat) (h : t.tme.marksOrdered) : (t.finishCall n i).tme.marksOrdered := by
  unfold State.finishCall
  split
  · exact h
  · exact marksOrdered_doneEffect _ _ h

theorem marksOrdered_doneCall (n : Nat) (id : Option Nat) (h : t.tme.marksOrdered) :
    (t.doneCall n id).tme.marksOrdered := by
  unfold State.doneCall
  split
  · split
    · exact h
    · split
      · exact h
      · exact marksOrdered_finishCall _ _ h
  · split
    · exact marksOrdered_finishCall _ _ h
    · exact h

theorem marksOrdered_cancelCall (i : Nat) (c : Call) (h : t.tme.marksOrdered) : (t.cancelCall i c).tme.marksOrdered := by
  unfold State.cancelCall
  split
  · exact h
  · rw [putCall_tme]
    split
    · exact marksOrdered_resumeClaim _ h
    · exact h

theorem marksOrdered_returnCall (i : Nat) (h : t.tme.marksOrdered) : (State.returnCall i t).tme.marksOrdered := by
  unfold State.returnCall
  split
  · exact h
  · rw [modCall_tme]
    split
    · exact marksOrdered_resumeClaim _ h
    · exact h

theorem marksOrdered_handsetGoesAway (n : Nat) (h : t.tme.marksOrdered) : (t.handsetGoesAway n).tme.marksOrdered := by
  simpa [State.handsetGoesAway] using marksOrdered_forEach (fun i _ => marksOrdered_returnCall i) _ h

theorem marksOrdered_resumeAll (h : t.tme.marksOrdered) : t.resumeAll.tme.marksOrdered :=
  marksOrdered_forEach (fun c _ => marksOrdered_resumeClaim c) _ h

theorem marksOrdered_checkInLate (i c : Nat) (h : t.tme.marksOrdered) : (t.checkInLate i c).tme.marksOrdered := by
  unfold State.checkInLate
  split
  · exact h
  · refine marksOrdered_fireInserted _ ?_
    simp only [notify_tme, tme_binding]
    exact marksOrdered_beginWriting c h

theorem marksOrdered_checkIn (l : LinkName) (i m : Nat) (h : t.tme.marksOrdered) : (t.checkIn l i m).tme.marksOrdered := by
  unfold State.checkIn
  split
  case h_4 => exact marksOrdered_checkInLate _ _ h
  all_goals simpa using h

theorem marksOrdered_takeSeatReply (l : LinkName) (i : Nat) (r : SeatReply) (h : t.tme.marksOrdered) :
    (State.takeSeatReply l i r t).tme.marksOrdered := by
  have hcard : (if r.card = 0 then t else t.checkIn l i r.card).tme.marksOrdered := by
    split
    · exact h
    · exact marksOrdered_checkIn _ _ _ h
  unfold State.takeSeatReply
  dsimp only
  split
  · split
    · exact hcard
    · simpa using hcard
  · exact h

theorem marksOrdered_takeHandsetReply (n : Nat) (r : HandsetKey × Byte) (h : t.tme.marksOrdered) :
    (State.takeHandsetReply n r t).tme.marksOrdered := by
  have hheard : (t.handsetHeard n).tme.marksOrdered := by simpa using h
  unfold State.takeHandsetReply State.handsetKey
  split
  · split
    · exact hheard
    · exact marksOrdered_take _ hheard
    · exact marksOrdered_doneCall _ _ hheard
    · simpa using hheard
  · exact h

/-- A unit reply, when what takes its contents keeps the order. -/
theorem marksOrdered_onReply {α : Type} (l : LinkName) (frame : List Byte) (read : Nat → List Byte → Option α)
    (echo : α → Byte) {take : Nat → α → State → State}
    (htake : ∀ (i : Nat) (r : α) (u : State), u.tme.marksOrdered → (take i r u).tme.marksOrdered) (h : t.tme.marksOrdered) :
    (t.onReply l frame read echo take).tme.marksOrdered := by
  unfold State.onReply
  split
  · split
    · simpa using h
    · exact htake _ _ _ (by simpa using h)
  · exact h

/-! ### The resets (R184 to R186) -/

theorem marksOrdered_resetHallPorts (h : t.tme.marksOrdered) : t.resetHallPorts.tme.marksOrdered := by
  rw [resetHallPorts_tme]
  exact marksOrdered_resumeAll h

theorem marksOrdered_actPorts (h : t.tme.marksOrdered) : t.actPorts.tme.marksOrdered := by
  rw [State.actPorts, resetControl_tme, modBatch_tme]
  exact marksOrdered_resetHallPorts h

theorem marksOrdered_actHall (t : State) : t.actHall.tme.marksOrdered := Tme.marksOrdered_of_reset rfl

theorem marksOrdered_actLinkReset (t : State) : t.actLinkReset.tme.marksOrdered := Tme.marksOrdered_of_reset rfl

end

end Sys2Proof.Machine
end

