-- ==== Sys2Proof/Proofs/MarksStep.lean ====
section
/-!
PROOFS. Every step keeps the mark lists ordered (R64): the answers to the requests that write the sittings, the frames of the
control link, and the rows.
-/

namespace Sys2Proof.Machine

/-! ### The answers that write the sittings -/

/-- A block's answer to a request keeps the mark lists ordered. -/
def KeepsMarks (handle : State → State × Answer) : Prop := ∀ s : State, s.tme.marksOrdered → (handle s).1.tme.marksOrdered

theorem LeavesTme.keepsMarks {handle : State → State × Answer} (h : LeavesTme handle) : KeepsMarks handle := fun s hs => by
  rwa [h s]

theorem keepsMarks_withArgs {checks : List Bool} {take : State → State × Answer} (h : KeepsMarks take) :
    KeepsMarks (withArgs checks take) := by
  intro s hs
  unfold withArgs
  split
  · exact hs
  · exact h s hs

/-- A notice of a sitting that was changed with its list left, as most answers of chapter 3 end. -/
theorem marksOrdered_notePhase_modSitting {t : State} {k : Nat} {f : Sitting → Sitting} (cause : PhaseCause)
    (hf : ∀ x : Sitting, x.marksOrdered → (f x).marksOrdered) (h : t.tme.marksOrdered) :
    ((t.modSitting k f).notePhase k cause).tme.marksOrdered := by
  rw [(tme_notices _).1]
  exact marksOrdered_modSitting hf h

theorem keepsMarks_withdraw (slot : Half) : KeepsMarks (ansWithdraw slot) :=
  keepsMarks_withArgs fun s hs => by
    have hwithdrawn : ∀ x, (s.withdrawAs slot.toNat x).1.tme.marksOrdered := by
      intro x
      unfold State.withdrawAs
      split
      case h_3 =>
        simp only [tme_binding]
        exact marksOrdered_dropMark _ _ hs
      all_goals simpa using hs
    split
    · exact hs
    · split
      · exact marksOrdered_collectIfEmpty _ (by simpa using hwithdrawn _)
      · exact hs

theorem keepsMarks_setTimebase (source : Byte) (frequency : Half) (prescale syncMode : Byte) :
    KeepsMarks (ansSetTimebase source frequency prescale syncMode) :=
  keepsMarks_withArgs fun s hs => by split <;> exact hs

theorem keepsMarks_setHallTime (hour minute second : Byte) : KeepsMarks (ansSetHallTime hour minute second) :=
  keepsMarks_withArgs fun _ => marksOrdered_clockJump _ _

theorem keepsMarks_defineSitting (sitting : Byte) (paper : Paper) (reading : Byte)
    (writing cutoff opening closing : Half) (warnings : List Byte) (quiet threshold scriptKind keyId : Byte) :
    KeepsMarks (ansDefineSitting sitting paper reading writing cutoff opening closing warnings quiet threshold
      scriptKind keyId) :=
  keepsMarks_withArgs fun s hs => by
    have hdefined : (s.modSitting sitting.toNat (fun _ => definedSitting paper reading writing cutoff opening closing
        warnings quiet threshold scriptKind keyId)).tme.marksOrdered :=
      marksOrdered_modSitting (fun _ _ => Sitting.marksOrdered_of_nil rfl) hs
    unfold State.defineSitting
    split
    · simpa using hdefined
    · simpa using hdefined
    · exact hs

theorem keepsMarks_startSitting (sitting hour minute second : Byte) :
    KeepsMarks (ansStartSitting sitting hour minute second) :=
  keepsMarks_withArgs fun s hs => by
    dsimp only
    split
    · exact hs
    · split
      · exact hs
      · split
        · exact marksOrdered_startSittingNow _ hs
        · exact marksOrdered_notePhase_modSitting _ (fun _ => id) hs

theorem keepsMarks_cancelStart (sitting : Byte) : KeepsMarks (ansCancelStart sitting) :=
  keepsMarks_withArgs fun s hs => by
    split
    · exact marksOrdered_notePhase_modSitting _ (fun _ => id) hs
    · exact hs

theorem marksOrdered_holdOne (k : Nat) {t : State} (h : t.tme.marksOrdered) : (State.holdOne k t).tme.marksOrdered := by
  unfold State.holdOne
  exact marksOrdered_notePhase_modSitting _ (fun _ => id) h

theorem marksOrdered_resumeOne (k : Nat) {t : State} (h : t.tme.marksOrdered) :
    (State.resumeOne k t).tme.marksOrdered := by
  unfold State.resumeOne
  exact marksOrdered_notePhase_modSitting _ (fun _ => id) h

theorem keepsMarks_holdSitting (sitting : Byte) : KeepsMarks (ansHoldSitting sitting) :=
  keepsMarks_withArgs fun s hs => by
    split
    · exact hs
    · exact marksOrdered_forEach (fun k _ => marksOrdered_holdOne k) _ hs

theorem keepsMarks_resumeSitting (sitting : Byte) : KeepsMarks (ansResumeSitting sitting) :=
  keepsMarks_withArgs fun s hs => by
    split
    · exact hs
    · exact marksOrdered_forEach (fun k _ => marksOrdered_resumeOne k) _ hs

theorem marksOrdered_closeSitting {t : State} (k : Nat) (h : t.tme.marksOrdered) :
    (t.closeSitting k).1.tme.marksOrdered := by
  unfold State.closeSitting
  simp only [tme_binding, tme_calls]
  exact marksOrdered_modSitting_same h

theorem keepsMarks_closeSitting (sitting : Byte) : KeepsMarks (ansCloseSitting sitting) :=
  keepsMarks_withArgs fun s hs => by
    dsimp only
    split
    · exact hs
    · split
      · rw [(tme_notices _).1]
        exact marksOrdered_closeSitting _ hs
      · exact hs

theorem keepsMarks_forceClose (sitting : Byte) : KeepsMarks (ansForceClose sitting) :=
  keepsMarks_withArgs fun s hs => by
    dsimp only
    split
    · exact hs
    · split
      · exact hs
      · rw [(tme_notices _).1]
        refine marksOrdered_closeSitting _ ?_
        rw [forEach_shortfall_tme]
        simpa using hs

theorem keepsMarks_clearSitting (sitting : Byte) : KeepsMarks (ansClearSitting sitting) :=
  keepsMarks_withArgs fun s hs => by
    dsimp only
    split
    · exact hs
    · split
      · exact hs
      · exact marksOrdered_notePhase_modSitting _ (fun _ _ => Sitting.marksOrdered_of_nil rfl) (by simpa using hs)

theorem keepsMarks_leave (slot : Half) : KeepsMarks (ansLeave slot) :=
  keepsMarks_withArgs fun s hs => by
    split
    · exact hs
    · split
      · exact hs
      · simpa [State.takeLeave] using marksOrdered_dropMark _ _ hs

theorem keepsMarks_cancelCall (call : Byte) : KeepsMarks (ansCancelCall call) :=
  keepsMarks_withArgs fun s hs => by
    split
    · exact hs
    · exact marksOrdered_cancelCall _ _ hs

/-! ### A request row, and the frames of the control link (10.1) -/

section
variable {s : State}

/-- A request taken, discarded or not received. -/
theorem marksOrdered_requestThen {handle : State → State × Answer} {after : State → State} (kind : Byte)
    (hk : KeepsMarks handle) (hafter : ∀ t, (after t).tme = t.tme) (h : s.tme.marksOrdered) :
    (s.requestThen kind handle after).tme.marksOrdered := by
  unfold State.requestThen State.onFrame
  split
  · exact h
  · split
    · exact h
    · rw [hafter, pushReply_tme]
      exact hk { s with cli.receiver := .hunt } h

/-- Every request keeps the lists ordered; an event row is no request. -/
theorem marksOrdered_runRequest (i : Instr) (h : s.tme.marksOrdered) : (s.runRequest i).tme.marksOrdered := by
  have req : ∀ (kind : Byte) {handle : State → State × Answer}, KeepsMarks handle →
      (s.request kind handle).tme.marksOrdered := fun kind _ hk => marksOrdered_requestThen kind hk (fun _ => rfl) h
  have leaves : ∀ (kind : Byte) {handle : State → State × Answer}, LeavesTme handle →
      (s.request kind handle).tme.marksOrdered := fun kind _ hk => req kind hk.keepsMarks
  have read : ∀ (kind : Byte) (answer : State → Answer), (s.request kind (fun t => (t, answer t))).tme.marksOrdered :=
    fun kind _ => leaves kind leavesTme_read
  have readArgs : ∀ (kind : Byte) (checks : List Bool) (answer : State → Answer),
      (s.request kind (withArgs checks (fun t => (t, answer t)))).tme.marksOrdered :=
    fun kind _ _ => leaves kind (leavesTme_withArgs leavesTme_read)
  cases i with
  | defineSeats => exact leaves _ (leavesTme_defineSeats _ _ _ _ _)
  | holdSeat => exact leaves _ (leavesTme_holdSeat _)
  | freeSeat => exact leaves _ (leavesTme_freeSeat _)
  | repairSeat => exact leaves _ (leavesTme_repairSeat _)
  | readSeat => exact readArgs _ _ _
  | withdraw => exact req _ (keepsMarks_withdraw _)
  | readCandidate => exact leaves _ (leavesTme_readCandidate _ _ _)
  | setRoute => exact leaves _ (leavesTme_setRoute _ _ _)
  | clearRoute => exact leaves _ (leavesTme_clearRoute _)
  | readRoutes => exact read _ _
  | allocate => exact leaves _ (leavesTme_allocate _ _ _ _ _)
  | allocateRun => exact leaves _ (leavesTme_allocateRun _ _ _ _ _ _)
  | readQueue => exact read _ _
  | move => exact leaves _ (leavesTme_move _ _)
  | setTimebase => exact req _ (keepsMarks_setTimebase _ _ _ _)
  | setHallTime => exact req _ (keepsMarks_setHallTime _ _ _)
  | readClock => exact read _ _
  | defineSitting => exact req _ (keepsMarks_defineSitting _ _ _ _ _ _ _ _ _ _ _ _)
  | startSitting => exact req _ (keepsMarks_startSitting _ _ _ _)
  | cancelStart => exact req _ (keepsMarks_cancelStart _)
  | holdSitting => exact req _ (keepsMarks_holdSitting _)
  | resumeSitting => exact req _ (keepsMarks_resumeSitting _)
  | closeSitting => exact req _ (keepsMarks_closeSitting _)
  | forceClose => exact req _ (keepsMarks_forceClose _)
  | clearSitting => exact req _ (keepsMarks_clearSitting _)
  | readSitting => exact readArgs _ _ _
  | leave => exact req _ (keepsMarks_leave _)
  | readMarks => exact readArgs _ _ _
  | startLink => exact leaves _ (leavesTme_startLink _)
  | stopLink => exact leaves _ (leavesTme_stopLink _)
  | readLink => exact readArgs _ _ _
  | raiseAlert => exact leaves _ (leavesTme_raiseAlert _)
  | setHandsetZones => exact leaves _ (leavesTme_withArgs fun _ => rfl)
  | cancelCall => exact req _ (keepsMarks_cancelCall _)
  | readCalls => exact read _ _
  | issueBooklet => exact leaves _ (leavesTme_issueBooklet _)
  | takeExceptions => exact leaves _ (leavesTme_withArgs fun _ => rfl)
  | startSweep => exact leaves _ (leavesTme_startSweep _ _ _ _ _)
  | stopSweep => exact leaves _ (leavesTme_stopSweep _)
  | readScripts => exact readArgs _ _ _
  | readSweep => exact readArgs _ _ _
  | readReader => exact read _ _
  | keyBegin => exact leaves _ (leavesTme_keyBegin _ _ _ _)
  | keyPart => exact leaves _ (leavesTme_keyPart _ _ _)
  | keyEnd => exact leaves _ (leavesTme_keyEnd _)
  | withdrawQuestion => exact leaves _ (leavesTme_withdrawQuestion _ _)
  | readKey => exact leaves _ (fun _ => withArgs_tme leavesTme_read _)
  | readSheet => exact readArgs _ _ _
  | readBatch => exact read _ _
  | startBatch => exact leaves _ (leavesTme_startBatch _ _ _ _)
  | continueBatch => exact leaves _ leavesTme_continueBatch
  | extendSegment => exact leaves _ (leavesTme_extendSegment _)
  | releaseSlots => exact leaves _ (leavesTme_releaseSlots _)
  | abortBatch => exact leaves _ leavesTme_abortBatch
  | resolveDuplicate => exact leaves _ (leavesTme_resolveDuplicate _ _)
  | remark => exact leaves _ (leavesTme_remark _)
  | setParam => exact leaves _ (leavesTme_setParam _ _)
  | getParam => exact readArgs _ _ _
  | identify => exact read _ _
  | readStatus => exact marksOrdered_requestThen _ leavesTme_read.keepsMarks (fun _ => rfl) h
  | reset => exact leaves _ (leavesTme_withArgs fun _ => rfl)
  | _ => exact h

theorem marksOrdered_takeRequest (kind : Byte) (body : List Byte) (h : s.tme.marksOrdered) :
    (s.takeRequest kind body).tme.marksOrdered := by
  unfold State.takeRequest
  split
  · exact h
  · split
    · exact h
    · split
      · exact h
      · exact marksOrdered_runRequest _ h

theorem marksOrdered_takeFrame (kind : Byte) (body : List Byte) (h : s.tme.marksOrdered) :
    (s.takeFrame kind body).tme.marksOrdered := by
  unfold State.takeFrame State.onFrame
  split
  · exact h
  · split
    · exact h
    · exact marksOrdered_takeRequest kind body (s := { s with cli.receiver := .hunt }) h

theorem marksOrdered_receiveData (b : Byte) (h : s.tme.marksOrdered) : (s.receiveData b).tme.marksOrdered := by
  unfold State.receiveData
  split
  case h_7 =>
    unfold State.endFrame
    split
    · exact marksOrdered_takeFrame _ _ h
    · exact h
  case h_1 => split <;> exact h
  case h_3 => split <;> exact h
  all_goals exact h

theorem marksOrdered_receiveByte (b : RxByte) (h : s.tme.marksOrdered) : (State.receiveByte b s).tme.marksOrdered := by
  unfold State.receiveByte
  split
  · exact h
  · split
    · unfold State.receiveFraming
      split <;> exact h
    · exact marksOrdered_receiveData _ h

/-- A run of bytes, each with the end of its event. -/
theorem marksOrdered_takeRun (run : List RxByte) (h : s.tme.marksOrdered) :
    (s.takeRun State.receiveByte run).tme.marksOrdered :=
  marksOrdered_forEach (fun b t ht => by
    rw [(settle_only _).tme]
    exact marksOrdered_receiveByte b ht) run h

end

/-! ### The outcome of a row -/

/-- The next state, if the outcome is one, has its lists ordered. -/
def NextMarksOrdered (o : Outcome) : Prop := ∀ t, o = .next t → t.tme.marksOrdered

@[simp] theorem nextMarksOrdered_done (u : State) : NextMarksOrdered (done u) ↔ u.tme.marksOrdered := by
  have hsettle : u.settle.tme = u.tme := (settle_only u).tme
  refine ⟨fun h => hsettle ▸ h _ rfl, fun h t ht => ?_⟩
  obtain rfl : u.settle = t := Host.Outcome.next.inj ht
  exact hsettle ▸ h

/-- An event whose row ends in one state or in another. -/
theorem nextMarksOrdered_ite {u v : State} {c : Prop} [Decidable c] (hu : u.tme.marksOrdered) (hv : v.tme.marksOrdered) :
    NextMarksOrdered (if c then done u else done v) := by
  split
  · exact (nextMarksOrdered_done u).mpr hu
  · exact (nextMarksOrdered_done v).mpr hv

section
variable {s : State} (h : s.tme.marksOrdered)
include h

theorem nextMarksOrdered_syncEdge : NextMarksOrdered (execSyncEdge s) := by
  have hedge : s.correctToMinute.noteEdge.tme.marksOrdered := marksOrdered_correctToMinute h
  refine nextMarksOrdered_ite ?_ h
  split <;> exact hedge

/-- A row of a request has that request's outcome, and every other keeps the lists ordered. -/
theorem exec_request_or_marksOrdered (i : Instr) : exec i s = done (s.runRequest i) ∨ NextMarksOrdered (exec i s) := by
  have keeps : ∀ {u : State}, u.tme.marksOrdered → NextMarksOrdered (done u) := (nextMarksOrdered_done _).mpr
  have leaves : ∀ {u : State}, u.tme = s.tme → NextMarksOrdered (done u) := fun hu => keeps (by rwa [hu])
  cases i with
  | resetPorts => exact .inr (nextMarksOrdered_ite (marksOrdered_actPorts h) h)
  | resetHall => exact .inr (nextMarksOrdered_ite (marksOrdered_actHall s) h)
  | powerOn rate1 rate0 => exact .inr (keeps (Tme.marksOrdered_of_reset rfl))
  | linkReset => exact .inr (nextMarksOrdered_ite h (marksOrdered_actLinkReset s))
  | lineIdleReturn => exact .inr (leaves rfl)
  | badFrame run => exact .inr (keeps (marksOrdered_takeRun run h))
  | receiveGapTimeout =>
    refine .inr ?_
    dsimp only [exec, execReceiveGapTimeout]
    split <;> exact leaves rfl
  | unknownKind kind body => exact .inr (keeps (marksOrdered_takeFrame kind body h))
  | overrun kind body => exact .inr (keeps (marksOrdered_takeFrame kind body h))
  | hrdyChange level => exact .inr (leaves rfl)
  | frameSent =>
    refine .inr ?_
    dsimp only [exec, execFrameSent]
    split
    · exact leaves (frameSent_tme _ s)
    · exact leaves rfl
  | timebaseSecond => exact .inr (keeps (marksOrdered_tick h))
  | syncEdge => exact .inr (nextMarksOrdered_syncEdge h)
  | syncLost => exact .inr (nextMarksOrdered_ite (by rw [notify_tme]; exact h) h)
  | scheduledStart k => exact .inr (nextMarksOrdered_ite (marksOrdered_startSittingNow _ h) h)
  | sittingSecond k => exact .inr (nextMarksOrdered_ite (marksOrdered_takeSecond _ h) h)
  | readingCompare k => exact .inr (keeps (marksOrdered_atPoint _ _ (marksOrdered_startWriting _ _) h))
  | sittingWarning k => exact .inr (keeps (marksOrdered_atPoint _ _ (marksOrdered_giveWarning _) h))
  | lateCutoff k => exact .inr (keeps (marksOrdered_atPoint _ _ (marksOrdered_takeCutoff _) h))
  | writingCompare k => exact .inr (keeps (marksOrdered_atPoint _ _ (marksOrdered_takeCompare _) h))
  | warnFiring c => exact .inr (keeps (marksOrdered_fireFor _ _ h))
  | endFiring c => exact .inr (keeps (marksOrdered_fireFor _ _ h))
  | restExpiry c => exact .inr (keeps (marksOrdered_fireFor _ _ h))
  | escalation n => exact .inr (nextMarksOrdered_ite h h)
  | handsetAway n => exact .inr (nextMarksOrdered_ite (marksOrdered_handsetGoesAway _ h) h)
  | retryPass =>
    refine .inr ?_
    dsimp only [exec, execRetryPass]
    split
    · exact leaves rfl
    · exact leaves (by simp)
  | relocation =>
    refine .inr ?_
    dsimp only [exec, execRelocation]
    split
    · exact leaves rfl
    · exact leaves (by simp)
  | pollCycleStart l => exact .inr (nextMarksOrdered_ite (by simpa using h) h)
  | pollFrame l => exact .inr (leaves (by simp))
  | pollTimeout l =>
    refine .inr ?_
    dsimp only [exec, execPollTimeout]
    split
    · exact leaves (by simp)
    · exact leaves rfl
  | seatReply l frame => exact .inr (keeps (marksOrdered_onReply _ _ _ _ (fun _ _ _ => marksOrdered_takeSeatReply _ _ _) h))
  | handsetReply frame =>
    exact .inr (keeps (marksOrdered_onReply _ _ _ _ (fun _ _ _ => marksOrdered_takeHandsetReply _ _) h))
  | stationReply frame => exact .inr (keeps (marksOrdered_onReply _ _ _ _ (fun _ _ _ hu => by simpa using hu) h))
  | wallClockReply frame => exact .inr (keeps (marksOrdered_onReply _ _ _ _ (fun _ _ _ => id) h))
  | lateUnitReply l frame => exact .inr (leaves rfl)
  | pollCycleEnd l => exact .inr (nextMarksOrdered_ite (by simpa using h) h)
  | timeCodeBroadcast l => exact .inr (leaves (by simp))
  | timeCodeRepeat l => exact .inr (leaves (by simp))
  | sheetFrameEnd run => exact .inr (leaves (by simp))
  | frameGapTimeout => exact .inr (leaves (by simp))
  | rrdyChange level => exact .inr (leaves (by simp))
  | verdictSent => exact .inr (leaves (by simp))
  | _ => exact .inl rfl

/-- Every row keeps the lists ordered. -/
theorem exec_keeps_marksOrdered (i : Instr) : NextMarksOrdered (exec i s) := by
  rcases exec_request_or_marksOrdered h i with hrequest | hevent
  · rw [hrequest, nextMarksOrdered_done]
    exact marksOrdered_runRequest i h
  · exact hevent

end

/-- Settles O7: with no command waiting the state stands, and the command taken is a row, which keeps the lists ordered. -/
theorem stepKeepsMarkListsOrdered : Obligations.StepKeepsMarkListsOrdered := by
  intro s t h ht
  rw [marksOrdered_iff_tme] at *
  unfold step at ht
  split at ht
  · obtain rfl : s = t := Host.Outcome.next.inj ht
    exact h
  next c rest _ => exact exec_keeps_marksOrdered (s := { s with pending := rest }) h c t ht

end Sys2Proof.Machine
end

