-- ==== Sys2Proof/Proofs/LinkRecords.lean ====
section
/-!
PROOFS. The records of the Unit Link Controller: a link's record, a unit's record and the addresses of a link, and what
starting and stopping a link do to them (R79 to R82).
-/

namespace Sys2Proof.Machine

/-! ### One link -/

/-- Two changes of one link are one change. -/
theorem modLink_modLink (s : State) (l : LinkName) (f g : Link → Link) :
    (s.modLink l f).modLink l g = s.modLink l (fun x => g (f x)) := by
  simp [State.modLink, modAt_modAt]

/-- What a change does to a link's record is what it does to the record as it stands. -/
theorem modLink_congr {s : State} {l : LinkName} {f g : Link → Link} (h : f (s.link l) = g (s.link l)) :
    s.modLink l f = s.modLink l g := by
  unfold State.modLink
  refine congrArg (fun v => { s with ulc.links := v }) (Vector.ext fun j hj => Option.some.inj ?_)
  rw [← Vector.getElem?_eq_getElem hj, ← Vector.getElem?_eq_getElem hj, modAt_getElem?, modAt_getElem?]
  by_cases hjl : j = linkIndex l
  · subst hjl
    have hrec : s.link l = s.ulc.links[linkIndex l] := by simp [State.link, Vector.getElem?_eq_getElem hj]
    simp [← hrec, h, Vector.getElem?_eq_getElem hj]
  · simp [hjl]

@[simp] theorem unit_modLink (s : State) (l m : LinkName) (f : Link → Link) (a : Nat) :
    (s.modLink l f).unit m a = s.unit m a := by
  cases m <;> rfl

/-! ### One unit -/

@[simp] theorem link_modUnit (s : State) (l m : LinkName) (a : Nat) (f : UnitRec → UnitRec) :
    (s.modUnit l a f).link m = s.link m := by
  cases l <;> rfl

/-- Two changes of one unit are one change. -/
theorem modUnit_modUnit (s : State) (l : LinkName) (a : Nat) (f g : UnitRec → UnitRec) :
    (s.modUnit l a f).modUnit l a g = s.modUnit l a (fun u => g (f u)) := by
  cases l <;> simp [State.modUnit, modAt_modAt]

/-- A record outside its table reads as the reset value already, so setting it to that value needs no bound. -/
theorem getD_modAt_reset {n : Nat} (v : Vector UnitRec n) (a b : Nat) :
    ((modAt v a (fun _ => UnitRec.atReset))[b]?).getD UnitRec.atReset =
      if b = a then UnitRec.atReset else (v[b]?).getD UnitRec.atReset := by
  rw [modAt_getElem?]
  split
  · cases v[a]? <;> rfl
  · rfl

/-- A unit after a unit's record took its reset value: the seat links' units share one table, the floor units have
their own. -/
theorem unit_modUnit_reset (s : State) (l m : LinkName) (a b : Nat) :
    (s.modUnit l a (fun _ => UnitRec.atReset)).unit m b =
      if b = a ∧ (l = .floor ↔ m = .floor) then UnitRec.atReset else s.unit m b := by
  cases l <;> cases m <;> simp [State.unit, State.modUnit, getD_modAt_reset]

/-! ### The units of a link -/

@[simp] theorem link_resetUnits (s : State) (l m : LinkName) (p : Nat → Bool) : (s.resetUnits l p).link m = s.link m := by
  unfold State.resetUnits
  generalize (linkAddresses l).filter p = ids
  induction ids generalizing s with
  | nil => rfl
  | cons a ids ih => exact (ih _).trans (link_modUnit s l m a _)

/-- The unit records after those of a link's addresses that pass a test took their reset values. -/
theorem unit_resetUnits (s : State) (l m : LinkName) (p : Nat → Bool) (b : Nat) : (s.resetUnits l p).unit m b =
    if (b ∈ linkAddresses l ∧ p b = true) ∧ (l = .floor ↔ m = .floor) then UnitRec.atReset else s.unit m b := by
  unfold State.resetUnits
  simp only [← List.mem_filter]
  generalize (linkAddresses l).filter p = ids
  induction ids generalizing s with
  | nil => simp [State.forEach]
  | cons a ids ih =>
    refine (ih (s.modUnit l a (fun _ => UnitRec.atReset))).trans ?_
    rw [unit_modUnit_reset]
    by_cases hshare : l = .floor ↔ m = .floor
    · by_cases hids : b ∈ ids <;> simp [hshare, hids]
    · simp [hshare]

/-- Resetting units leaves everything but the Unit Link Controller alone. -/
theorem resetUnits_frame (s : State) (l : LinkName) (p : Nat → Bool) :
    s.resetUnits l p = { s with ulc := (s.resetUnits l p).ulc } := by
  unfold State.resetUnits
  generalize (linkAddresses l).filter p = ids
  induction ids generalizing s with
  | nil => rfl
  | cons a ids ih =>
    refine (ih (s.modUnit l a (fun _ => UnitRec.atReset))).trans ?_
    cases l <;> rfl

/-- Membership is read off the seat table and the parameters, not off the Unit Link Controller. -/
theorem isMember_of_frame {s t : State} (h : t = { s with ulc := t.ulc }) (l : LinkName) : t.isMember l = s.isMember l := by
  rw [h]
  cases l <;> rfl

/-! ### A cycle starts (R82) -/

/-- The record of a link whose cycle starts with these members. -/
def Link.withCycle (x : Link) (members : List Nat) : Link :=
  { x with members := members, toPoll := members, cycleOpen := true, current := none, heardInCycle := false }

theorem beginCycle_eq (s : State) (l : LinkName) : s.beginCycle l = (s.resetUnits l (fun a => !s.isMember l a)).modLink l
    (fun x => x.withCycle ((linkAddresses l).filter (s.isMember l))) := rfl

theorem beginCycle_frame (s : State) (l : LinkName) : s.beginCycle l = { s with ulc := (s.beginCycle l).ulc } := by
  rw [beginCycle_eq, resetUnits_frame]
  rfl

/-! ### A link starts or stops (R80, R81) -/

/-- The record of a link that has just started: the minute broadcast with sequence 0, and a cycle over these members. -/
def Link.started (minute : Nat) (members : List Nat) : Link where
  running := true
  history := [⟨minute, 0⟩]
  sequence := 1
  broadcastPending := false
  repeatPending := false
  silentReported := false
  members := members
  cycleOpen := true
  toPoll := members
  current := none
  heardInCycle := false
  sent := some (.broadcast ⟨minute, 0⟩)

/-- The state in which a starting link has broadcast, before its cycle begins. -/
def State.launched (s : State) (l : LinkName) : State :=
  ((s.resetUnits l (fun _ => true)).modLink l (fun _ => { Link.atReset with running := true })).broadcast l

theorem startLink_eq (s : State) (l : LinkName) : s.startLink l = (s.launched l).beginCycle l := rfl

theorem launched_frame (s : State) (l : LinkName) : s.launched l = { s with ulc := (s.launched l).ulc } := by
  rw [State.launched, resetUnits_frame]
  rfl

theorem unit_launched (s : State) (l m : LinkName) (b : Nat) : (s.launched l).unit m b =
    if b ∈ linkAddresses l ∧ (l = .floor ↔ m = .floor) then UnitRec.atReset else s.unit m b := by
  rw [State.launched, State.broadcast, unit_modLink, unit_modLink, unit_resetUnits]
  simp

theorem startLink_frame (s : State) (l : LinkName) : s.startLink l = { s with ulc := (s.startLink l).ulc } := by
  rw [startLink_eq, beginCycle_frame, launched_frame]

theorem stopLink_frame (s : State) (l : LinkName) : s.stopLink l = { s with ulc := (s.stopLink l).ulc } := by
  rw [State.stopLink, resetUnits_frame]
  rfl

theorem link_startLink (s : State) (l m : LinkName) : (s.startLink l).link m =
    if m = l then Link.started s.tme.hall.minute ((linkAddresses l).filter (s.isMember l)) else s.link m := by
  have hall : (s.resetUnits l (fun _ => true)).tme.hall = s.tme.hall := by rw [resetUnits_frame]
  rw [startLink_eq, beginCycle_eq, link_modLink, link_resetUnits, link_resetUnits, isMember_of_frame (launched_frame s l)]
  by_cases hm : m = l
  · simp [hm, State.launched, State.broadcast, link_modLink, Link.withCycle, Link.started, Link.atReset, nextSequence, hall]
  · simp [hm, State.launched, State.broadcast, link_modLink]

theorem link_stopLink (s : State) (l m : LinkName) : (s.stopLink l).link m = if m = l then Link.atReset else s.link m := by
  rw [State.stopLink, link_modLink, link_resetUnits]

theorem unit_startLink (s : State) (l m : LinkName) (b : Nat) : (s.startLink l).unit m b =
    if b ∈ linkAddresses l ∧ (l = .floor ↔ m = .floor) then UnitRec.atReset else s.unit m b := by
  rw [startLink_eq, beginCycle_eq, unit_modLink, unit_resetUnits, unit_launched]
  by_cases h : b ∈ linkAddresses l ∧ (l = .floor ↔ m = .floor)
  · simp [h]
  · have hout : ¬((b ∈ linkAddresses l ∧ (!(s.launched l).isMember l b) = true) ∧ (l = .floor ↔ m = .floor)) :=
      fun hin => h ⟨hin.1.1, hin.2⟩
    simp only [if_neg h, if_neg hout]

theorem unit_stopLink (s : State) (l m : LinkName) (b : Nat) : (s.stopLink l).unit m b =
    if b ∈ linkAddresses l ∧ (l = .floor ↔ m = .floor) then UnitRec.atReset else s.unit m b := by
  rw [State.stopLink, unit_modLink, unit_resetUnits]
  simp

/-! ### START_LINK and STOP_LINK -/

theorem isLinkOrAll_of_link {b : Byte} {l : LinkName} (h : linkOf b = some l) : isLinkOrAll b = true := by
  simp [isLinkOrAll, h]

/-- A single link is concerned when it passes the test. -/
theorem linksFor_one {s : State} {b : Byte} {l : LinkName} {p : Link → Bool} (h : linkOf b = some l) :
    s.linksFor b p = if p (s.link l) then [l] else [] := by
  have hb : b ≠ 0xFF#8 := by
    rintro rfl
    exact nomatch h
  by_cases hp : p (s.link l) = true <;> simp [State.linksFor, hb, h, hp]

section
variable {b : Byte} {s : State} (hl : s.listening = true) (hb : isLinkOrAll b = true)
include hl hb

theorem exec_startLink : exec (.startLink b) s =
    if s.linksFor b (fun x => !x.running) = [] then s.toHunt.replied 0x1D (refuse .refusedState)
    else ((s.linksFor b (fun x => !x.running)).foldl (fun u l => u.startLink l) s.toHunt).replied 0x1D
      (ok (.links (s.linksFor b (fun x => !x.running)))) := by
  split
  next hnone => exact answerTo_withArgs hl (by simpa using hb) (by simp [hnone])
  next hsome =>
    obtain ⟨l, rest, hids⟩ := List.exists_cons_of_ne_nil hsome
    exact answerTo_withArgs hl (by simpa using hb) (by simp [hids, State.forEach])

theorem exec_stopLink : exec (.stopLink b) s =
    if s.linksFor b (fun x => x.running) = [] then s.toHunt.replied 0x1E (refuse .refusedState)
    else ((s.linksFor b (fun x => x.running)).foldl (fun u l => u.stopLink l) s.toHunt).replied 0x1E
      (ok (.links (s.linksFor b (fun x => x.running)))) := by
  split
  next hnone => exact answerTo_withArgs hl (by simpa using hb) (by simp [hnone])
  next hsome =>
    obtain ⟨l, rest, hids⟩ := List.exists_cons_of_ne_nil hsome
    exact answerTo_withArgs hl (by simpa using hb) (by simp [hids, State.forEach])

end

/-- Settles O44: each request by the links it concerns; a start and a stop by the record of the link and of each unit. -/
theorem linksAreStartedAndStopped : Obligations.LinksAreStartedAndStopped := by
  unfold Obligations.LinksAreStartedAndStopped
  refine ⟨fun b s hl => ⟨fun l hlink => ?_, exec_startLink hl rfl, exec_stopLink hl rfl⟩, fun s l =>
    ⟨startLink_frame s l, stopLink_frame s l, fun m hm => ?_, ?_, ?_, fun a ha => ?_, fun m a h => ?_⟩⟩
  · rw [exec_startLink hl (isLinkOrAll_of_link hlink), exec_stopLink hl (isLinkOrAll_of_link hlink)]
    simp only [linksFor_one hlink]
    refine ⟨fun h => ?_, fun h => ?_, fun h => ?_, fun h => ?_⟩ <;> simp [h]
  · rw [link_startLink, link_stopLink, if_neg hm, if_neg hm]
    exact ⟨rfl, rfl⟩
  · rw [link_startLink, if_pos rfl, Link.started]
  · rw [link_stopLink, if_pos rfl, Link.atReset]
  · rw [unit_startLink, unit_stopLink, if_pos ⟨ha, Iff.rfl⟩]
    exact ⟨rfl, rfl⟩
  · have hout : ¬(a ∈ linkAddresses l ∧ (l = .floor ↔ m = .floor)) := by tauto
    rw [unit_startLink, unit_stopLink, if_neg hout]
    exact ⟨rfl, rfl⟩

end Sys2Proof.Machine
end

