-- ==== Sys2Proof/Proofs/CardReads.lean ====
section
/-!
PROOFS. A card read at a seat: the row of the check-in table that matches (R87), what it changes, and the one-shots (R88).
-/

namespace Sys2Proof.Machine

/-! ### The rows of the check-in table -/

theorem cardOutcome_noRecord {s : State} {number : Nat} (i : Nat) (h : s.activeSlot number = none) :
    s.cardOutcome i number = .refused .unknown := by
  simp [State.cardOutcome, h]

section
variable {s : State} {i number c : Nat} {y : Candidate} (hc : s.activeSlot number = some c) (hy : s.cand? c = some y)
include hc hy

theorem cardOutcome_waiting (hstate : y.state = .waiting) : s.cardOutcome i number = .refused .noSeat := by
  simp [State.cardOutcome, hc, hy, hstate]

theorem cardOutcome_unseated (hstate : y.state ≠ .waiting) (hb : y.bound = none) :
    s.cardOutcome i number = .refused .unknown := by
  simp [State.cardOutcome, hc, hy, hstate, hb]

theorem cardOutcome_elsewhere {b : Nat} (hstate : y.state ≠ .waiting) (hb : y.bound = some b) (hbi : b ≠ i) :
    s.cardOutcome i number = .wrongSeat c b := by
  simp [State.cardOutcome, hc, hy, hstate, hb, hbi]

theorem cardOutcome_expected (hstate : y.state = .expected) (hb : y.bound = some i) :
    s.cardOutcome i number = (s.sitting y.sitting).checkInOutcome c := by
  simp [State.cardOutcome, hc, hy, hstate, hb]

/-- A candidate at its own desk who is past EXPECTED has a card row only when it has been moved there. -/
theorem cardOutcome_checkedIn (hwait : y.state ≠ .waiting) (hexp : y.state ≠ .expected) (hb : y.bound = some i) :
    s.cardOutcome i number = if y.relocating then .relocated c else .nothing := by
  simp [State.cardOutcome, hc, hy, hwait, hexp, hb]

end

/-! ### The check-in of an EXPECTED candidate, by its sitting -/

/-- The sitting has not begun to write. -/
def Sitting.beforeWriting (k : Sitting) : Prop := k.state = .defined ∨ k.state = .armed ∨ k.state = .reading

/-- The sitting still takes late candidates. -/
def Sitting.takesLate (k : Sitting) : Prop := k.state = .writing ∧ k.clock < k.cutoff * 60

theorem checkInOutcome_onTime {k : Sitting} (c : Nat) (h : k.beforeWriting) : k.checkInOutcome c = .onTime c := by
  rcases h with h | h | h <;> simp [Sitting.checkInOutcome, h]

theorem checkInOutcome_late {k : Sitting} (c : Nat) (h : k.takesLate) : k.checkInOutcome c = .late c := by
  simp [Sitting.checkInOutcome, h.1, h.2]

theorem checkInOutcome_refused {k : Sitting} (c : Nat) (hb : ¬k.beforeWriting) (hl : ¬k.takesLate) :
    k.checkInOutcome c = .refused .unknown := by
  unfold Sitting.beforeWriting at hb
  unfold Sitting.takesLate at hl
  cases hk : k.state <;> simp_all [Sitting.checkInOutcome]

/-- The states of a sitting in which an EXPECTED candidate is not checked in. -/
theorem takesNoOne_iff (k : Sitting) : (¬k.beforeWriting ∧ ¬k.takesLate) ↔
    k.state = .empty ∨ k.state = .extended ∨ k.state = .collecting ∨ k.state = .closed ∨
      (k.state = .writing ∧ k.cutoff * 60 ≤ k.clock) := by
  unfold Sitting.beforeWriting Sitting.takesLate
  cases hk : k.state <;> simp

theorem checkInOutcome_shows (k : Sitting) (c : Nat) :
    (k.checkInOutcome c).shows = true ↔ ¬k.beforeWriting ∧ ¬k.takesLate := by
  by_cases hb : k.beforeWriting
  · simp [checkInOutcome_onTime c hb, CardOutcome.shows, hb]
  · by_cases hl : k.takesLate
    · simp [checkInOutcome_late c hl, CardOutcome.shows, hl]
    · simp [checkInOutcome_refused c hb hl, CardOutcome.shows, hb, hl]

/-! ### What a row changes -/

/-- A refusal shows its code at the seat and is noticed. -/
theorem checkIn_refused {s : State} {i number : Nat} {code : RefusedCode} (l : LinkName)
    (h : s.cardOutcome i number = .refused code) : s.checkIn l i number =
      (s.setOneShot l i (.refused code)).notify (.checkinRefused i number code) := by
  simp [State.checkIn, h, State.refuseCheckIn]

/-- A row that shows a one-shot: no record to check in, a candidate with no seat here, or a sitting that takes none. -/
theorem cardOutcome_shows {s : State} {i number c : Nat} {y : Candidate} (hc : s.activeSlot number = some c)
    (hy : s.cand? c = some y) : (s.cardOutcome i number).shows = true ↔ y.state = .waiting ∨ y.bound ≠ some i ∨
      (y.state = .expected ∧ ¬(s.sitting y.sitting).beforeWriting ∧ ¬(s.sitting y.sitting).takesLate) := by
  by_cases hwait : y.state = .waiting
  · simp [cardOutcome_waiting hc hy hwait, CardOutcome.shows, hwait]
  · cases hb : y.bound with
    | none => simp [cardOutcome_unseated hc hy hwait hb, CardOutcome.shows]
    | some b =>
      by_cases hbi : b = i
      · subst hbi
        by_cases hexp : y.state = .expected
        · simp [cardOutcome_expected hc hy hexp hb, checkInOutcome_shows, hexp]
        · rw [cardOutcome_checkedIn hc hy hwait hexp hb]
          cases y.relocating <;> simp [CardOutcome.shows, hwait, hexp]
      · simp [cardOutcome_elsewhere hc hy hwait hb hbi, CardOutcome.shows, hbi]

/-- Settles O48: each row of the table by the rule of its outcome, and which of them show a one-shot. -/
theorem cardReadByTable : Obligations.CardReadByTable := by
  unfold Obligations.CardReadByTable
  intro s l i number
  refine ⟨fun h => checkIn_refused _ (cardOutcome_noRecord i h), fun c y hc hy => ⟨fun hstate =>
    checkIn_refused _ (cardOutcome_waiting hc hy hstate), fun hstate hb =>
    checkIn_refused _ (cardOutcome_unseated hc hy hstate hb), fun b hstate hb hbi => ?_, fun hstate hb =>
    ⟨fun hk => ?_, fun hk hclock => ?_, fun hk => ?_⟩, fun hstate hb => ?_⟩, ?_⟩
  · rw [State.checkIn, cardOutcome_elsewhere hc hy hstate hb hbi]
    rfl
  · rw [State.checkIn, cardOutcome_expected hc hy hstate hb, checkInOutcome_onTime c hk]
    simp only [State.checkInOnTime, hy]
    rfl
  · rw [State.checkIn, cardOutcome_expected hc hy hstate hb, checkInOutcome_late c ⟨hk, hclock⟩]
    simp only [State.checkInLate, hy]
    rfl
  · obtain ⟨hbefore, hlate⟩ := (takesNoOne_iff _).mpr hk
    exact checkIn_refused _ ((cardOutcome_expected hc hy hstate hb).trans (checkInOutcome_refused c hbefore hlate))
  · obtain ⟨hwait, hexp⟩ : y.state ≠ .waiting ∧ y.state ≠ .expected := by rcases hstate with h | h | h <;> simp [h]
    have hrow := cardOutcome_checkedIn hc hy hwait hexp hb
    refine ⟨fun hrel => ?_, fun hrel => ?_⟩
    · rw [State.checkIn, hrow, if_pos hrel]
      simp only [State.checkInRelocated, hy]
      rfl
    · rw [State.checkIn, hrow, if_neg (by simp [hrel])]
  · cases hc : s.activeSlot number with
    | none => simp [cardOutcome_noRecord i hc, CardOutcome.shows]
    | some c =>
      obtain ⟨y, hy, -⟩ := lowestCand_eq_some hc
      simp [cardOutcome_shows hc hy, hy, Sitting.beforeWriting, Sitting.takesLate, and_assoc]

end Sys2Proof.Machine
end

