-- ==== Sys2Proof/Proofs/UnitFrames.lean ====
section
/-!
PROOFS. What the bytes of a unit reply spell (11.4): the frame of R188's check with its CRC (11.2), and the payload of a
seat's, a handset's, a station's and a wall clock's reply.
-/

namespace Sys2Proof.Machine

/-! ### Numbers and codes -/

theorem beNat_two (b1 b0 : Byte) : beNat [b1, b0] = b1.toNat * 256 + b0.toNat := by
  simp [beNat]

theorem beNat_four (b3 b2 b1 b0 : Byte) :
    beNat [b3, b2, b1, b0] = ((b3.toNat * 256 + b2.toNat) * 256 + b1.toNat) * 256 + b0.toNat := by
  simp [beNat]

/-- The codes of a seat's keys (11.4). -/
theorem seatKeyOf_eq_some {b : Byte} {k : Option CallKind} : seatKeyOf b = some k ↔
    (b = 0#8 ∧ k = none) ∨ (b = 1#8 ∧ k = some .query) ∨ (b = 2#8 ∧ k = some .supply) ∨
      (b = 3#8 ∧ k = some .escort) ∨ (b = 4#8 ∧ k = some .rest) := by
  simp only [BitVec.toNat_eq]
  unfold seatKeyOf
  generalize b.toNat = n
  match n with
  | 0 | 1 | 2 | 3 | 4 => simp [eq_comm]
  | n + 5 => simp

/-- The codes of a handset's keys, with the operand of DONE and ALERT (11.4). -/
theorem handsetKeyOf_eq_some {b : Byte} {operand : Nat} {k : HandsetKey} : handsetKeyOf b operand = some k ↔
    (b = 0#8 ∧ k = .none) ∨ (b = 1#8 ∧ k = .take) ∨
      (b = 2#8 ∧ k = .done (if operand = 0xFFFF then none else some operand)) ∨ (b = 3#8 ∧ k = .alert operand) := by
  simp only [BitVec.toNat_eq]
  unfold handsetKeyOf
  generalize b.toNat = n
  match n with
  | 0 | 1 | 2 | 3 => simp [eq_comm]
  | n + 4 => simp

/-- The codes of a station's SKIP byte (11.4); a byte above 1 fails the check (log 15). -/
theorem skipCode_iff {b : Byte} {v : Bool} : (b.toNat ≤ 1 ∧ (b == 1#8) = v) ↔ (b = 0#8 ∧ v = false) ∨ (b = 1#8 ∧ v = true) := by
  constructor
  · rintro ⟨hb, rfl⟩
    obtain h | h : b.toNat = 0 ∨ b.toNat = 1 := by omega
    · exact .inl ⟨BitVec.eq_of_toNat_eq h, by simp [BitVec.eq_of_toNat_eq (y := 0#8) h]⟩
    · exact .inr ⟨BitVec.eq_of_toNat_eq h, by simp [BitVec.eq_of_toNat_eq (y := 1#8) h]⟩
  · rintro (⟨rfl, rfl⟩ | ⟨rfl, rfl⟩) <;> decide

/-! ### The CRC (11.2) -/

/-- A byte is taken by eight shifts. -/
theorem crcByte_eq (c : Half) (b : Byte) :
    crcByte c b = (List.range 8).foldl (fun d _ => crcShift d) (c ^^^ (b ++ 0#8)) := rfl

/-- The two bytes of a half word, most significant first. -/
theorem be2_toNat (c : Half) : be2 c.toNat = [c.extractLsb' 8 8, c.extractLsb' 0 8] := by
  simp [be2, BitVec.extractLsb', Nat.shiftRight_eq_div_pow]

/-! ### The frame of R188's check -/

/-- The bytes the CRC of a reply frame covers: address, type REPLY, the payload's length and the payload (11.4). -/
def replyCovered (addr : Byte) (payload : List Byte) : List Byte :=
  [addr, 0x81#8, BitVec.ofNat 8 payload.length] ++ payload

/-- A frame passes the parts of the check that do not look into the payload when it is spelt so (11.4, R188). -/
theorem checkedPayload_eq_some {a : Nat} {frame payload : List Byte} : checkedPayload a frame = some payload ↔
    payload.length < 256 ∧ ∃ addr : Byte, addr.toNat = a ∧
      frame = [0x7E#8] ++ replyCovered addr payload ++ crcBytes (replyCovered addr payload) := by
  constructor
  · intro h
    unfold checkedPayload at h
    split at h
    next start addr kind n rest =>
      obtain ⟨hpass, hpayload⟩ := Option.ite_none_right_eq_some.mp h
      obtain rfl := Option.some.inj hpayload
      simp only [Bool.and_eq_true, beq_iff_eq] at hpass
      obtain ⟨⟨⟨⟨rfl, haddr⟩, rfl⟩, hcrc⟩, hlen⟩ := hpass
      have hn : BitVec.ofNat 8 (rest.take n.toNat).length = n := by rw [hlen, BitVec.ofNat_toNat, BitVec.setWidth_eq]
      refine ⟨hlen.trans_lt n.isLt, addr, haddr, ?_⟩
      simp only [replyCovered, hn, List.cons_append, List.nil_append, List.cons.injEq, true_and]
      rw [← hcrc, List.take_append_drop]
    next => exact absurd h (by simp)
  · rintro ⟨hlen, addr, rfl, rfl⟩
    have hn : (BitVec.ofNat 8 payload.length).toNat = payload.length := by simpa using Nat.mod_eq_of_lt hlen
    simp [checkedPayload, replyCovered, hn]

/-! ### The payloads -/

theorem seatReplyOf_eq_some {p : List Byte} {r : SeatReply} : seatReplyOf p = some r ↔ ∃ c3 c2 c1 c0 key : Byte,
    p = [c3, c2, c1, c0, key, r.echo] ∧ r.card = beNat [c3, c2, c1, c0] ∧ seatKeyOf key = some r.key := by
  obtain ⟨card, key, echo⟩ := r
  constructor
  · intro h
    unfold seatReplyOf at h
    split at h
    next c3 c2 c1 c0 k e =>
      obtain ⟨q, hq, hr⟩ := Option.map_eq_some_iff.mp h
      obtain ⟨rfl, rfl, rfl⟩ := SeatReply.mk.inj hr
      exact ⟨c3, c2, c1, c0, k, rfl, rfl, hq⟩
    next => exact absurd h (by simp)
  · rintro ⟨c3, c2, c1, c0, k, rfl, rfl, hk⟩
    simp only [seatReplyOf, hk, Option.map_some]

theorem handsetReplyOf_eq_some {p : List Byte} {k : HandsetKey} {echo : Byte} : handsetReplyOf p = some (k, echo) ↔
    ∃ key a1 a0 : Byte, p = [key, a1, a0, echo] ∧ handsetKeyOf key (beNat [a1, a0]) = some k := by
  constructor
  · intro h
    unfold handsetReplyOf at h
    split at h
    next key a1 a0 e =>
      obtain ⟨q, hq, hr⟩ := Option.map_eq_some_iff.mp h
      obtain ⟨rfl, rfl⟩ := Prod.mk.inj hr
      exact ⟨key, a1, a0, rfl, hq⟩
    next => exact absurd h (by simp)
  · rintro ⟨key, a1, a0, rfl, hk⟩
    simp only [handsetReplyOf, hk, Option.map_some]

theorem clockReplyOf_eq_some {p : List Byte} {echo : Byte} : clockReplyOf p = some echo ↔ p = [echo] := by
  unfold clockReplyOf
  split <;> simp_all

/-- One tag read: MISREAD, whose other bytes are not looked at, or GOOD with its tag (11.4, log 15). -/
theorem tagReadOf_eq_some {bytes : List Byte} {g : Option Tag} : tagReadOf bytes = some g ↔
    ∃ status n3 n2 n1 n0 sitting sequence check : Byte, bytes = [status, n3, n2, n1, n0, sitting, sequence, check] ∧
      ((status = 1#8 ∧ g = none) ∨
        (status = 0#8 ∧ g = some ⟨BitVec.ofNat 32 (beNat [n3, n2, n1, n0]), sitting, sequence, check⟩)) := by
  constructor
  · intro h
    unfold tagReadOf at h
    split at h
    next status n3 n2 n1 n0 sitting sequence check =>
      refine ⟨status, n3, n2, n1, n0, sitting, sequence, check, rfl, ?_⟩
      split at h
      next hgood => exact .inr ⟨BitVec.eq_of_toNat_eq hgood, (Option.some.inj h).symm⟩
      next hmisread => exact .inl ⟨BitVec.eq_of_toNat_eq hmisread, (Option.some.inj h).symm⟩
      next => exact absurd h (by simp)
    next => exact absurd h (by simp)
  · rintro ⟨status, n3, n2, n1, n0, sitting, sequence, check, rfl, ⟨rfl, rfl⟩ | ⟨rfl, rfl⟩⟩ <;> rfl

/-- The tag reads of a station, eight bytes each, in order. -/
theorem tagReadsOf_eq_some {t : Nat} {bytes : List Byte} {reads : List (Option Tag)} : tagReadsOf t bytes = some reads ↔
    t = reads.length ∧ ∀ n g, reads[n]? = some g → tagReadOf ((bytes.drop (8 * n)).take 8) = some g := by
  induction t generalizing bytes reads with
  | zero =>
    cases reads <;> simp [tagReadsOf]
  | succ t ih =>
    constructor
    · intro h
      unfold tagReadsOf at h
      split at h
      next r rest hr hrest =>
        obtain rfl := Option.some.inj h
        obtain ⟨hlen, hreads⟩ := ih.mp hrest
        refine ⟨by simp [hlen], fun n g hg => ?_⟩
        cases n with
        | zero => simpa [hr] using hg
        | succ n => simpa [Nat.mul_succ, Nat.add_comm] using hreads n g (by simpa using hg)
      next => exact absurd h (by simp)
    · rintro ⟨hlen, hreads⟩
      obtain ⟨r, rest, rfl⟩ := List.exists_cons_of_length_pos (l := reads) (by omega)
      have hrest : tagReadsOf t (bytes.drop 8) = some rest := ih.mpr ⟨by simpa using hlen, fun n g hg => by
        simpa [Nat.mul_succ, Nat.add_comm] using hreads (n + 1) g (by simpa using hg)⟩
      have hr : tagReadOf (bytes.take 8) = some r := by simpa using hreads 0 r rfl
      simp [tagReadsOf, hr, hrest]

/-- Eight bytes of a run that lie within its first part. -/
theorem take_drop_append {body tail : List Byte} {m k : Nat} (h : m + k ≤ body.length) :
    ((body ++ tail).drop m).take k = (body.drop m).take k := by
  rw [List.drop_append_of_le_length (by omega), List.take_append_of_le_length (by simp; omega)]

theorem stationReplyOf_eq_some {p : List Byte} {r : StationReply} : stationReplyOf p = some r ↔
    ∃ (t skip : Byte) (body : List Byte), p = [t] ++ body ++ [skip, r.echo] ∧ t.toNat = r.reads.length ∧ t.toNat ≤ 4 ∧
      body.length = 8 * t.toNat ∧ ((skip = 0#8 ∧ r.skip = false) ∨ (skip = 1#8 ∧ r.skip = true)) ∧
      ∀ n g, r.reads[n]? = some g → tagReadOf ((body.drop (8 * n)).take 8) = some g := by
  obtain ⟨reads, skipped, echo⟩ := r
  have within {t : Byte} {body : List Byte} {n : Nat} {g : Option Tag} (ht : t.toNat = reads.length)
      (hbody : body.length = 8 * t.toNat) (hg : reads[n]? = some g) (tail : List Byte) :
      ((body ++ tail).drop (8 * n)).take 8 = (body.drop (8 * n)).take 8 := by
    obtain ⟨hn, -⟩ := List.getElem?_eq_some_iff.mp hg
    exact take_drop_append (by omega)
  constructor
  · intro h
    cases p with
    | nil => exact absurd h (by simp [stationReplyOf])
    | cons t rest =>
      unfold stationReplyOf at h
      simp only at h
      split at h
      next hshape =>
        obtain ⟨ht4, hlen⟩ := by simpa using hshape
        split at h
        next reads' skip e hreads htail =>
          obtain ⟨hskip, hr⟩ := Option.ite_none_right_eq_some.mp h
          obtain ⟨rfl, rfl, rfl⟩ := StationReply.mk.inj (Option.some.inj hr)
          obtain ⟨hcount, hall⟩ := tagReadsOf_eq_some.mp hreads
          have hrest : rest = rest.take (8 * t.toNat) ++ [skip, e] := by rw [← htail, List.take_append_drop]
          have hbody : (rest.take (8 * t.toNat)).length = 8 * t.toNat := by simp; omega
          refine ⟨t, skip, rest.take (8 * t.toNat), by simpa using hrest, hcount, ht4, hbody,
            skipCode_iff.mp ⟨hskip, rfl⟩, fun n g hg => ?_⟩
          rw [← within hcount hbody hg [skip, e], ← hrest]
          exact hall n g hg
        next => exact absurd h (by simp)
      next => exact absurd h (by simp)
  · rintro ⟨t, skip, body, rfl, ht, ht4, hbody, hskip, hall⟩
    have hreads : tagReadsOf t.toNat (body ++ [skip, echo]) = some reads :=
      tagReadsOf_eq_some.mpr ⟨ht, fun n g hg => by rw [within ht hbody hg]; exact hall n g hg⟩
    have htail : (body ++ [skip, echo]).drop (8 * t.toNat) = [skip, echo] := by rw [← hbody, List.drop_left]
    obtain ⟨hskip1, rfl⟩ := skipCode_iff.mpr hskip
    simp [stationReplyOf, ht4, hbody, hreads, htail, hskip1]

end Sys2Proof.Machine
end

