-- ==== Sys2Proof/Proofs/UnitReplies.lean ====
section
/-!
PROOFS. A unit reply on its way: discarded with no transaction in progress, a miss when it fails its check, otherwise
counted by its echo and its contents taken (R83, R86, R88, R96, R97, R188).
-/

namespace Sys2Proof.Machine

/-! ### A reply arrives -/

section
variable {α : Type} {s : State} {l : LinkName} {frame : List Byte} {read : Nat → List Byte → Option α} {echo : α → Byte}
  {take : Nat → α → State → State}

/-- With no transaction in progress a reply is discarded. -/
theorem onReply_idle (h : (s.link l).running = false ∨ (s.link l).current = none) : s.onReply l frame read echo take = s := by
  unfold State.onReply
  rcases h with h | h
  · rw [h]
  · rw [h]
    cases (s.link l).running <;> rfl

variable {a : Nat} (hrun : (s.link l).running = true) (ha : (s.link l).current = some a)
include hrun ha

/-- A reply that fails its check is a miss of the unit polled. -/
theorem onReply_failed (h : (checkedPayload (unitAddress l a) frame).bind (read a) = none) :
    s.onReply l frame read echo take = s.endPoll l a .miss := by
  simp [State.onReply, hrun, ha, h]

/-- A reply that passes is counted by its echo, and its contents are then taken. -/
theorem onReply_passed {r : α} (h : (checkedPayload (unitAddress l a) frame).bind (read a) = some r) :
    s.onReply l frame read echo take = take a r (s.endPoll l a ((s.link l).echoOutcome (echo r))) := by
  simp [State.onReply, hrun, ha, h]

end

/-- The address byte of a seat's unit. -/
theorem unitAddress_seatLink (l : SeatLink) (a : Nat) : unitAddress l.link a = a % 96 := by
  cases l <;> rfl

/-- The kind of a floor unit by its address. -/
theorem unitKindOf_handset {a : Nat} : unitKindOf a = .handset ↔ a < 8 := by
  unfold unitKindOf
  split
  · simpa
  · split <;> simp <;> omega

theorem unitKindOf_station {a : Nat} : unitKindOf a = .station ↔ 8 ≤ a ∧ a < 12 := by
  unfold unitKindOf
  split
  · simp; omega
  · split <;> simp <;> omega

theorem unitKindOf_clock {a : Nat} : unitKindOf a = .clock ↔ 12 ≤ a := by
  unfold unitKindOf
  split
  · simp; omega
  · split <;> simp <;> omega

/-- A payload is read as that of a kind of floor unit only when the unit polled is one (log 15). -/
theorem bind_payload_of_kind {α : Type} {kind : UnitKind} {a : Nat} (h : unitKindOf a = kind) (p : Option (List Byte))
    (read : List Byte → Option α) : p.bind (fun b => if unitKindOf a = kind then read b else none) = p.bind read := by
  simp [h]

/-- The check of a floor unit's reply fails for a unit of another kind, and for a payload that is not of its kind. -/
theorem bind_payload_eq_none {α : Type} {kind : UnitKind} {a : Nat} {p : Option (List Byte)} {read : List Byte → Option α}
    (h : unitKindOf a ≠ kind ∨ p.bind read = none) : p.bind (fun b => if unitKindOf a = kind then read b else none) = none := by
  by_cases hk : unitKindOf a = kind
  · simpa [hk] using h
  · simp [hk]

/-! ### The contents of a seat reply (R86, R88) -/

/-- A raise that is refused changes nothing. -/
theorem raise_refused {s : State} {i : Nat} {kind : CallKind} {origin : Option Nat}
    (h : ∀ n, (s.raise i kind origin).2 ≠ .accepted n) : (s.raise i kind origin).1 = s := by
  cases hr : s.raiseOutcome i kind with
  | accepted n =>
    cases hb : s.boundTo i with
    | none => simp [State.raise, hr, hb]
    | some b => exact absurd (by simp [State.raise, hr, hb]) (h n)
  | _ => simp [State.raise, hr]

theorem pressKey_accepted {s : State} {l : LinkName} {i n : Nat} {kind : CallKind} {shown : Bool}
    (h : (s.raise i kind none).2 = .accepted n) : s.pressKey l i kind shown = (s.raise i kind none).1 := by
  simp [State.pressKey, h]

theorem pressKey_refused {s : State} {l : LinkName} {i : Nat} {kind : CallKind} {shown : Bool}
    (h : ∀ n, (s.raise i kind none).2 ≠ .accepted n) :
    s.pressKey l i kind shown = if shown then s else s.setOneShot l i (.refused .call) := by
  simp only [State.pressKey, raise_refused h]

theorem takesContents_iff {s : State} {i : Nat} {x : Seat} (hx : s.seat? i = some x) :
    s.takesContents i = true ↔ x.state ≠ .faulted ∨ x.answering = true := by
  simp [State.takesContents, hx]

/-- A card of 0 is no card. -/
def State.afterCard (s : State) (l : LinkName) (i card : Nat) : State := if card = 0 then s else s.checkIn l i card

theorem takeSeatReply_ignored {s : State} {i : Nat} (l : LinkName) (r : SeatReply) (h : s.takesContents i = false) :
    State.takeSeatReply l i r s = s := by
  simp [State.takeSeatReply, h]

theorem takeSeatReply_cardOnly {s : State} {i : Nat} {l : LinkName} {r : SeatReply} (h : s.takesContents i = true)
    (hkey : r.key = none) : State.takeSeatReply l i r s = s.afterCard l i r.card := by
  simp [State.takeSeatReply, h, hkey, State.afterCard]

theorem takeSeatReply_key {s : State} {i : Nat} {l : LinkName} {r : SeatReply} {kind : CallKind}
    (h : s.takesContents i = true) (hkey : r.key = some kind) : State.takeSeatReply l i r s =
      (s.afterCard l i r.card).pressKey l i kind (r.card != 0 && (s.cardOutcome i r.card).shows) := by
  simp [State.takeSeatReply, h, hkey, State.afterCard]

/-- Settles O46: the reply by its transaction and its check, its bytes by what they spell, its contents by its unit. -/
theorem unitRepliesAreTaken : Obligations.UnitRepliesAreTaken := by
  unfold Obligations.UnitRepliesAreTaken
  refine ⟨⟨fun l frame s a hrun ha => ⟨fun h => ?_, fun r h => ?_⟩, fun frame s a hrun ha => ⟨fun r hk h => ?_,
    fun r h8 h12 h => ?_, fun e hk h => ?_, fun h => ?_, fun h => ?_, fun h => ?_⟩, fun l frame s h => ?_, fun frame s h =>
    ⟨?_, ?_, ?_⟩, fun l frame s => rfl⟩, ⟨fun a frame payload => checkedPayload_eq_some, fun p r => ?_, fun p k echo => ?_,
    fun p r => ?_, fun p echo => clockReplyOf_eq_some, fun bytes => ?_⟩, fun s l i r x hx => ⟨fun hf hans => ?_, fun h =>
    ⟨fun hkey => ?_, fun kind hkey => ⟨fun n hn => ?_, fun hn => ?_⟩⟩⟩, fun s a r => ⟨fun h => ?_, fun h => ?_⟩,
    fun s a r => ⟨fun h => ?_, fun h => ?_⟩⟩
  · exact congrArg done (onReply_failed hrun ha (by rwa [unitAddress_seatLink]))
  · exact congrArg done (onReply_passed hrun ha (by rwa [unitAddress_seatLink]))
  · exact congrArg done (onReply_passed hrun ha ((bind_payload_of_kind (unitKindOf_handset.mpr hk) _ _).trans h))
  · exact congrArg done (onReply_passed hrun ha ((bind_payload_of_kind (unitKindOf_station.mpr ⟨h8, h12⟩) _ _).trans h))
  · exact congrArg done (onReply_passed hrun ha ((bind_payload_of_kind (unitKindOf_clock.mpr hk) _ _).trans h))
  · exact congrArg done (onReply_failed hrun ha (bind_payload_eq_none (h.imp_left fun h8 hk => by
      have := unitKindOf_handset.mp hk
      omega)))
  · exact congrArg done (onReply_failed hrun ha (bind_payload_eq_none ((or_assoc.mpr h).imp_left fun hout hk => by
      have := unitKindOf_station.mp hk
      omega)))
  · exact congrArg done (onReply_failed hrun ha (bind_payload_eq_none (h.imp_left fun h12 hk => by
      have := unitKindOf_clock.mp hk
      omega)))
  · exact congrArg done (onReply_idle h)
  · exact congrArg done (onReply_idle h)
  · exact congrArg done (onReply_idle h)
  · exact congrArg done (onReply_idle h)
  · simp only [seatReplyOf_eq_some, seatKeyOf_eq_some, beNat_four]
  · simp only [handsetReplyOf_eq_some, handsetKeyOf_eq_some, beNat_two]
  · simp only [stationReplyOf_eq_some, tagReadOf_eq_some, beNat_four]
  · exact be2_toNat _
  · exact takeSeatReply_ignored _ r (by simp [State.takesContents, hx, hf, hans])
  · exact takeSeatReply_cardOnly ((takesContents_iff hx).mpr h) hkey
  · rw [takeSeatReply_key ((takesContents_iff hx).mpr h) hkey]
    exact pressKey_accepted hn
  · have hrefused : ∀ n, ((s.afterCard l.link i r.card).raise i kind none).2 ≠ .accepted n := hn
    rw [takeSeatReply_key ((takesContents_iff hx).mpr h) hkey, pressKey_refused hrefused]
    simp [State.afterCard, State.setOneShot]
  · exact if_neg (by simp [h])
  · exact if_pos h
  · exact if_neg (by simp [h])
  · exact if_pos h

end Sys2Proof.Machine
end

