-- ==== Sys2Proof/Proofs/Displays.lean ====
section
/-!
PROOFS. What a poll frame shows (R84, R85, R97, R109): a seat's one-shot or the display derived from the tables, and a
handset's note or top call; and how a one-shot or a note is used up.
-/

namespace Sys2Proof.Machine

/-! ### A one-shot or a note stands for five polls (R85, R109) -/

/-- A change that leaves the entry it reads leaves the table. -/
theorem modAt_same {α : Type} {n : Nat} {v : Vector α n} {i : Nat} {f : α → α} (h : ∀ x, v[i]? = some x → f x = x) :
    modAt v i f = v := by
  refine Vector.ext fun j hj => Option.some.inj ?_
  rw [← Vector.getElem?_eq_getElem hj, ← Vector.getElem?_eq_getElem hj, modAt_getElem?]
  split
  next hji =>
    subst hji
    simp [Vector.getElem?_eq_getElem hj, h _ (Vector.getElem?_eq_getElem hj)]
  next => rfl

/-- A count that each of `n` frames brings down by one. -/
theorem foldl_countdown {spend : State → State} {standing : Nat → State}
    (h : ∀ p, 1 ≤ p → spend (standing (p + 1)) = standing p) {n m : Nat} (hn : n < m) :
    (List.range n).foldl (fun t _ => spend t) (standing m) = standing (m - n) := by
  induction n with
  | zero => rfl
  | succ n ih =>
    rw [List.range_succ, List.foldl_append, ih (by omega)]
    have hstep := h (m - (n + 1)) (by omega)
    rwa [show m - (n + 1) + 1 = m - n by omega] at hstep

/-- The frame after the last poll finds nothing standing. -/
theorem foldl_countdown_last {spend : State → State} {standing : Nat → State} {gone : State}
    (h : ∀ p, 1 ≤ p → spend (standing (p + 1)) = standing p) (hlast : spend (standing 1) = gone) (m : Nat) :
    (List.range (m + 1)).foldl (fun t _ => spend t) (standing (m + 1)) = gone := by
  rw [List.range_succ, List.foldl_append, foldl_countdown h (show m < m + 1 by omega),
    Nat.add_sub_cancel_left]
  exact hlast

/-- A seat unit with a one-shot standing. -/
def State.withOneShot (s : State) (l : LinkName) (i : Nat) (shot : OneShot) (polls : Nat) : State :=
  s.modUnit l i (fun u => { u with oneShot := some ⟨shot, polls⟩ })

theorem spendOneShot_more (s : State) (l : LinkName) (i : Nat) (shot : OneShot) (p : Nat) (hp : 1 ≤ p) :
    (s.withOneShot l i shot (p + 1)).spendOneShot l i = s.withOneShot l i shot p := by
  simp [State.withOneShot, State.spendOneShot, modUnit_modUnit, Nat.one_le_iff_ne_zero.mp hp]

theorem spendOneShot_last (s : State) (l : LinkName) (i : Nat) (shot : OneShot) :
    (s.withOneShot l i shot 1).spendOneShot l i = s.modUnit l i (fun u => { u with oneShot := none }) := by
  simp [State.withOneShot, State.spendOneShot, modUnit_modUnit]

theorem spendOneShot_none {s : State} {l : LinkName} {i : Nat} (h : (s.unit l i).oneShot = none) :
    s.spendOneShot l i = s := by
  have hsame : ∀ u : UnitRec, u.oneShot = none → { u with
      oneShot := u.oneShot.bind (fun o => if o.polls ≤ 1 then none else some { o with polls := o.polls - 1 }) } = u := by
    rintro ⟨_, _, _, _, _⟩ rfl
    rfl
  unfold State.spendOneShot State.modUnit
  unfold State.unit at h
  cases l <;> simp only at h ⊢ <;> rw [modAt_same fun u hu => hsame u (by simpa [hu] using h)]

/-- A handset with a note standing. -/
def State.withNote (s : State) (h : Nat) (note : Note) (polls : Nat) : State :=
  s.modHandset h (fun x => { x with note := some ⟨note, polls⟩ })

theorem spendNote_more (s : State) (h : Nat) (note : Note) (p : Nat) (hp : 1 ≤ p) :
    (s.withNote h note (p + 1)).spendNote h = s.withNote h note p := by
  simp [State.withNote, State.spendNote, State.modHandset, modAt_modAt, Nat.one_le_iff_ne_zero.mp hp]

theorem spendNote_last (s : State) (h : Nat) (note : Note) :
    (s.withNote h note 1).spendNote h = s.modHandset h (fun x => { x with note := none }) := by
  simp [State.withNote, State.spendNote, State.modHandset, modAt_modAt]

theorem spendNote_none {s : State} {h : Nat} (hnote : (s.handset h).note = none) : s.spendNote h = s := by
  have hsame : ∀ x : Handset, x.note = none → { x with
      note := x.note.bind (fun n => if n.polls ≤ 1 then none else some { n with polls := n.polls - 1 }) } = x := by
    rintro ⟨_, _, _, _, _, _⟩ rfl
    rfl
  unfold State.spendNote State.modHandset
  rw [modAt_same fun x hx => hsame x (by simpa [State.handset, hx] using hnote)]

/-! ### The seat display (R84, R85) -/

theorem formPoll_seatLink (s : State) (l : SeatLink) (i : Nat) :
    s.formPoll l.link i = .seatPoll i (s.seatDisplay l.link i) := by
  cases l <;> rfl

/-- The state a display is derived from, for a seat in service and for a FAULTED one. -/
theorem displayState_eq {s : State} {x : Seat} {st : SeatState} (hst : st ≠ .faulted)
    (h : x.state = st ∨ (x.state = .faulted ∧ s.bindingState x = st)) : s.displayState x = st := by
  unfold State.displayState
  rcases h with h | ⟨hf, h⟩
  · rw [h]
    cases st with
    | faulted => exact absurd rfl hst
    | _ => rfl
  · rw [hf]
    exact h

theorem derivedDisplay_unbound {s : State} {i : Nat} {x : Seat} (hx : s.seat? i = some x) (hb : x.bound = none) :
    s.derivedDisplay i = ⟨.blank, 0, .none, false⟩ := by
  simp [State.derivedDisplay, State.seatMode, hx, hb]

section
variable {s : State} {i c : Nat} {x : Seat} {y : Candidate} (hb : x.bound = some c) (hy : s.cand? c = some y)
include hb hy

theorem seatMode_assigned (hst : s.displayState x = .assigned) : s.seatMode x = .welcome (y.number % 10000) := by
  simp [State.seatMode, hb, hy, hst]

theorem seatMode_present (hst : s.displayState x = .occupied) (hp : y.state = .present)
    (hk : (s.sitting y.sitting).state ≠ .reading) : s.seatMode x = .welcome (y.number % 10000) := by
  simp [State.seatMode, hb, hy, hst, hp, hk]

theorem seatMode_reading (hst : s.displayState x = .occupied) (hp : y.state = .present)
    (hk : (s.sitting y.sitting).state = .reading) : s.seatMode x =
      .reading (((s.sitting y.sitting).reading * 60 - (s.sitting y.sitting).clock + 59) / 60) := by
  simp [State.seatMode, hb, hy, hst, hp, hk, ceilDiv]

theorem seatMode_writing (hst : s.displayState x = .occupied) (hw : y.state = .writing) : s.seatMode x =
    .writing ((personalEnd (s.sitting y.sitting) y - (s.sitting y.sitting).clock + 59) / 60) := by
  simp [State.seatMode, hb, hy, hst, hw, ceilDiv, timeLeft, referenceSecond]

theorem seatMode_paused (hst : s.displayState x = .occupied) (hp : y.state = .paused) : s.seatMode x = .paused := by
  simp [State.seatMode, hb, hy, hst, hp]

theorem seatMode_vacated (hst : s.displayState x = .vacated) : s.seatMode x = .finished := by
  simp [State.seatMode, hb, hy, hst]

theorem heldMark_eq : s.heldMark x = (s.sitting y.sitting).held := by
  simp [State.heldMark, hb, hy]

/-- A display that is not BLANK, with its three indicators: the warning stage while the candidate writes or pauses. -/
theorem derivedDisplay_eq {mode : SeatMode} (hx : s.seat? i = some x) (hmode : s.seatMode x = mode) (hne : mode ≠ .blank) :
    s.derivedDisplay i =
      ⟨mode,
        match mode with
        | .writing _ | .paused => warningStage (s.sitting y.sitting) y
        | _ => 0,
        s.callMark i, (s.sitting y.sitting).held⟩ := by
  rw [← heldMark_eq hb hy]
  cases mode with
  | blank => exact absurd rfl hne
  | _ => simp [State.derivedDisplay, State.seatWarning, hx, hmode, hb, hy]

end

/-! ### The floor units' frames (R97, R109) -/

theorem formPoll_handset {s : State} {a : Nat} (h : a < 8) : s.formPoll .floor a = .handsetPoll a (s.handsetDisplay a) := by
  simp [State.formPoll, unitKindOf_handset.mpr h]

theorem formPoll_station {s : State} {a : Nat} (h8 : 8 ≤ a) (h12 : a < 12) : s.formPoll .floor a =
    .stationPoll (a - 8) (s.channel (a - 8)).state
      (if (s.channel (a - 8)).state = .sweep then (s.channel (a - 8)).current else none) := by
  simp [State.formPoll, unitKindOf_station.mpr ⟨h8, h12⟩]

theorem formPoll_clock {s : State} {a : Nat} (h : 12 ≤ a) : s.formPoll .floor a = .clockPoll a s.tme.hall := by
  simp [State.formPoll, unitKindOf_clock.mpr h]

theorem handsetDisplay_off {s : State} {h : Nat} (hoff : (s.handset h).state = .off) : s.handsetDisplay h = ⟨.none, 0, 0⟩ := by
  simp [State.handsetDisplay, hoff]

/-- What an ACTIVE or AWAY handset shows: its note, else its top call, else nothing. -/
def State.handsetShow (s : State) (h : Nat) : HandsetShow :=
  match (s.handset h).note with
  | some ⟨.none, _⟩ => .none
  | some ⟨.cancelled, _⟩ => .cancelled
  | none =>
    match (s.handset h).stack.getLast?.bind (fun n => (s.call? n).map (fun d => (n, d))) with
    | none => .none
    | some (n, d) => .call n d.kind d.level (s.callSeat d) d.seat.isNone

theorem handsetDisplay_on {s : State} {h : Nat} (hon : (s.handset h).state ≠ .off) : s.handsetDisplay h =
    ⟨s.handsetShow h, (s.handset h).stack.length, (s.eligibleCalls h).length⟩ := by
  rcases hnote : (s.handset h).note with _ | ⟨_ | _, p⟩
  · cases htop : (s.handset h).stack.getLast? with
    | none => simp [State.handsetDisplay, State.handsetShow, hon, hnote, htop, State.waitingCount]
    | some n =>
      cases hcall : s.call? n <;>
        simp [State.handsetDisplay, State.handsetShow, hon, hnote, htop, hcall, State.waitingCount]
  · simp [State.handsetDisplay, State.handsetShow, hon, hnote, State.waitingCount]
  · simp [State.handsetDisplay, State.handsetShow, hon, hnote, State.waitingCount]

end Sys2Proof.Machine
end

