-- ==== Sys2Proof/Proofs/PollCycles.lean ====
section
/-!
PROOFS. The poll cycle of a link and its time code (R82, R83, R92 to R94): who is polled, the next poll, the end of a
cycle, and the broadcasts and repeats between transactions.
-/

namespace Sys2Proof.Machine

/-! ### Who is polled (R82) -/

theorem mem_linkAddresses {l : LinkName} {i : Nat} :
    i ∈ linkAddresses l ↔ linkBase l ≤ i ∧ i < linkBase l + linkSize l := by
  simp only [linkAddresses, List.mem_map, List.mem_range]
  exact ⟨by rintro ⟨n, hn, rfl⟩; omega, fun ⟨hlo, hhi⟩ => ⟨i - linkBase l, by omega, by omega⟩⟩

theorem linkAddresses_pairwise (l : LinkName) : (linkAddresses l).Pairwise (· < ·) := by
  rw [linkAddresses, List.pairwise_map]
  exact List.pairwise_lt_range.imp fun h => Nat.add_lt_add_left h _

/-- A seat link polls the positions of kind SEAT. -/
theorem isMember_seatLink (s : State) (l : SeatLink) (i : Nat) :
    s.isMember l.link i = true ↔ ∃ x, s.seat? i = some x ∧ x.kind = .seat := by
  have hdesk : s.isMember l.link i = (s.seat? i).any (fun x => x.kind == .seat) := by cases l <;> rfl
  rw [hdesk]
  cases s.seat? i <;> simp

/-! ### The next poll (R82) -/

section
variable {s : State} {l : LinkName}

theorem mayPoll_iff (x : Link) : x.mayPoll = true ↔
    x.running = true ∧ x.cycleOpen = true ∧ x.current = none ∧ x.broadcastPending = false := by
  simp [Link.mayPoll, and_assoc]

theorem pollNext_polls {a : Nat} {rest : List Nat} (h : (s.link l).mayPoll = true) (hnext : (s.link l).toPoll = a :: rest) :
    s.pollNext l = (s.modLink l (fun y => { y with sent := some (s.formPoll l a), current := some a, toPoll := rest })).spendPoll
      l a := by
  simp [State.pollNext, h, hnext]

theorem pollNext_idle (h : (s.link l).running = false ∨ (s.link l).cycleOpen = false ∨ (s.link l).current ≠ none ∨
    (s.link l).broadcastPending = true ∨ (s.link l).toPoll = []) : s.pollNext l = s := by
  unfold State.pollNext
  split
  next hmay hnext =>
    obtain ⟨hrun, hopen, hcur, hwait⟩ := (mayPoll_iff _).mp hmay
    simp [hrun, hopen, hcur, hwait, hnext] at h
  next => rfl

/-! ### A repeat (R94) -/

theorem repeatDue_iff (x : Link) : x.repeatDue = true ↔ x.running = true ∧ x.repeatPending = true ∧
    x.broadcastPending = false ∧ x.current = none ∧ (x.cycleOpen = false ∨ x.toPoll = []) := by
  simp [Link.repeatDue, and_assoc]

theorem sendRepeat_head {code : TimeCode} {rest : List TimeCode} (hdue : (s.link l).repeatDue = true)
    (hhist : (s.link l).history = code :: rest) : s.sendRepeat l =
      s.modLink l (fun y => { y with repeatPending := false, sent := some (.broadcast code) }) := by
  rw [State.sendRepeat, if_pos hdue]
  exact modLink_congr (by simp [Link.sendRepeat, hhist])

theorem sendRepeat_empty (hdue : (s.link l).repeatDue = true) (hhist : (s.link l).history = []) :
    s.sendRepeat l = s.modLink l (fun y => { y with repeatPending := false }) := by
  rw [State.sendRepeat, if_pos hdue]
  exact modLink_congr (by simp [Link.sendRepeat, hhist])

theorem sendRepeat_idle (hdue : (s.link l).repeatDue ≠ true) : s.sendRepeat l = s := if_neg hdue

/-! ### The end of a cycle (R92) -/

theorem cycleOver_iff (x : Link) : x.cycleOver = true ↔
    x.running = true ∧ x.cycleOpen = true ∧ x.toPoll = [] ∧ x.current = none := by
  simp [Link.cycleOver, and_assoc]

theorem silent_iff (x : Link) : x.silent = true ↔
    x.members ≠ [] ∧ x.heardInCycle = false ∧ x.silentReported = false := by
  simp [Link.silent, and_assoc]

theorem endCycle_silent (h : (s.link l).silent = true) : s.endCycle l =
    (((s.modLink l (fun y => { y with silentReported := true })).notify
      (.linkSilent l (s.link l).members.length)).sendRepeat l).modLink l (fun y => { y with cycleOpen := false }) := by
  rw [State.endCycle, if_pos h]

theorem endCycle_heard (h : (s.link l).silent ≠ true) :
    s.endCycle l = (s.sendRepeat l).modLink l (fun y => { y with cycleOpen := false }) := by
  rw [State.endCycle, if_neg h]

theorem exec_pollCycleEnd (h : (s.link l).cycleOver = true) : exec (.pollCycleEnd l) s = .next (s.endCycle l).settle :=
  if_pos h

theorem exec_pollCycleEnd_idle (h : (s.link l).cycleOver ≠ true) : exec (.pollCycleEnd l) s = .next s.settle := if_neg h

/-! ### A broadcast (R93) -/

theorem broadcastDue_iff (x : Link) : (x.running && x.broadcastPending && x.current.isNone) = true ↔
    (x.running = true ∧ x.current = none) ∧ x.broadcastPending = true := by
  simp [and_right_comm]

theorem sendBroadcast_due (h : ((s.link l).running = true ∧ (s.link l).current = none) ∧ (s.link l).broadcastPending = true) :
    s.sendBroadcast l = s.modLink l (fun y => { y with
      broadcastPending := false
      repeatPending := false
      history := (⟨s.tme.hall.minute, (s.link l).sequence⟩ :: y.history).take 2
      sequence := (y.sequence + 1) % 4
      sent := some (.broadcast ⟨s.tme.hall.minute, (s.link l).sequence⟩) }) :=
  (if_pos ((broadcastDue_iff _).mpr h)).trans (modLink_congr rfl)

theorem sendBroadcast_idle
    (h : ¬(((s.link l).running = true ∧ (s.link l).current = none) ∧ (s.link l).broadcastPending = true)) :
    s.sendBroadcast l = s := if_neg fun hdue => h ((broadcastDue_iff _).mp hdue)

end

/-! ### The rows of the cycle -/

/-- A cycle starts on a RUNNING link between cycles. -/
theorem exec_pollCycleStart {s : State} {l : LinkName} (hrun : (s.link l).running = true)
    (hopen : (s.link l).cycleOpen = false) : exec (.pollCycleStart l) s = .next (s.beginCycle l).settle :=
  if_pos (by simp [hrun, hopen])

theorem exec_pollCycleStart_idle {s : State} {l : LinkName} (h : (s.link l).running = false ∨ (s.link l).cycleOpen = true) :
    exec (.pollCycleStart l) s = .next s.settle :=
  if_neg (by rcases h with h | h <;> simp [h])

theorem exec_pollTimeout {s : State} {l : LinkName} {a : Nat} (hrun : (s.link l).running = true)
    (ha : (s.link l).current = some a) : exec (.pollTimeout l) s = .next (s.endPoll l a .miss).settle := by
  simp only [exec, execPollTimeout, hrun, ha]
  rfl

theorem exec_pollTimeout_idle {s : State} {l : LinkName} (h : (s.link l).running = false ∨ (s.link l).current = none) :
    exec (.pollTimeout l) s = .next s.settle := by
  unfold exec execPollTimeout
  rcases h with h | h
  · simp only [h]
    rfl
  · simp only [h]
    cases (s.link l).running <;> rfl

/-- Settles O45: each row by the state of its link, each display by the rules above. -/
theorem pollCycles : Obligations.PollCycles := by
  unfold Obligations.PollCycles
  refine ⟨fun l s => ⟨exec_pollCycleStart, exec_pollCycleStart_idle, fun a rest hrun hopen hcur hwait hnext => ?_, fun h =>
    congrArg done (pollNext_idle h)⟩, ⟨fun s i => ⟨isMember_seatLink s .a i, isMember_seatLink s .b i,
    isMember_seatLink s .c i, isMember_seatLink s .d i, Iff.rfl⟩, fun i => ?_, linkAddresses_pairwise, fun s l =>
    ⟨fun head rest hdue => sendRepeat_head ((repeatDue_iff _).mpr hdue), fun hdue =>
    sendRepeat_empty ((repeatDue_iff _).mpr hdue), fun h => sendRepeat_idle fun hdue => h ((repeatDue_iff _).mp hdue)⟩⟩,
    fun l s => ⟨fun a => exec_pollTimeout, exec_pollTimeout_idle, fun hover hsilent => ?_, fun hover hsilent => ?_, fun h =>
    exec_pollCycleEnd_idle fun hover => h ((cycleOver_iff _).mp hover)⟩, fun l s => ⟨fun hfree hwait =>
    congrArg done (sendBroadcast_due ⟨hfree, hwait⟩), fun h => congrArg done (sendBroadcast_idle h), fun head rest hdue hhist =>
    ?_, fun hdue hhist => ?_, fun h => ?_⟩, ⟨fun s l i => ?_, fun s i x hx => ⟨derivedDisplay_unbound hx, fun c y hb hy =>
    ?_⟩, fun s x => ⟨bindingState_unbound, fun c y hb hy => ?_⟩, fun s l i shot hi => ⟨fun n hn => ?_, ?_, spendOneShot_none⟩,
    fun s h note hh => ⟨fun n hn => ?_, ?_, spendNote_none⟩, fun s a => ⟨formPoll_station, formPoll_clock, fun ha => ?_⟩⟩⟩
  · refine congrArg done ((pollNext_polls ((mayPoll_iff _).mpr ⟨hrun, hopen, hcur, hwait⟩) hnext).trans ?_)
    cases l <;> rfl
  · simp [mem_linkAddresses, linkBase, linkSize, linkIndex]
  · rw [exec_pollCycleEnd ((cycleOver_iff _).mpr hover), endCycle_silent ((silent_iff _).mpr hsilent)]
  · rw [exec_pollCycleEnd ((cycleOver_iff _).mpr hover), endCycle_heard fun h => hsilent ((silent_iff _).mp h)]
  · obtain ⟨⟨hrun, hcur⟩, hrep, hwait, hover⟩ := hdue
    exact congrArg done (sendRepeat_head ((repeatDue_iff _).mpr ⟨hrun, hrep, hwait, hcur, hover⟩) hhist)
  · obtain ⟨⟨hrun, hcur⟩, hrep, hwait, hover⟩ := hdue
    exact congrArg done (sendRepeat_empty ((repeatDue_iff _).mpr ⟨hrun, hrep, hwait, hcur, hover⟩) hhist)
  · refine congrArg done (sendRepeat_idle fun hdue => h ?_)
    obtain ⟨hrun, hrep, hwait, hcur, hover⟩ := (repeatDue_iff _).mp hdue
    exact ⟨⟨hrun, hcur⟩, hrep, hwait, hover⟩
  · rw [formPoll_seatLink, State.seatDisplay]
    rcases (s.unit l.link i).oneShot with _ | ⟨_ | _, _⟩ <;> rfl
  · have shows {mode : SeatMode} (hmode : s.seatMode x = mode) (hne : mode ≠ .blank) := derivedDisplay_eq hb hy hx hmode hne
    exact ⟨fun h => shows (seatMode_assigned hb hy (displayState_eq (by decide) h)) (by simp),
      fun h hp hk => shows (seatMode_present hb hy (displayState_eq (by decide) h) hp hk) (by simp),
      fun h hp hk => shows (seatMode_reading hb hy (displayState_eq (by decide) h) hp hk) (by simp),
      fun h hw => shows (seatMode_writing hb hy (displayState_eq (by decide) h) hw) (by simp),
      fun h hp => shows (seatMode_paused hb hy (displayState_eq (by decide) h) hp) (by simp),
      fun h => shows (seatMode_vacated hb hy (displayState_eq (by decide) h)) (by simp)⟩
  · rw [bindingState_bound hb hy]
    refine ⟨?_, ?_, ?_⟩
    · rintro (h | ⟨h | h | h, hrel⟩) <;> simp [*]
    · rintro (h | h | h) hrel <;> simp [*]
    · rintro (h | h) <;> simp [*]
  · exact foldl_countdown (spend := fun t => t.spendOneShot l.link i) (standing := s.withOneShot l.link i shot)
      (spendOneShot_more s l.link i shot) hn
  · exact foldl_countdown_last (spend := fun t => t.spendOneShot l.link i) (standing := s.withOneShot l.link i shot)
      (spendOneShot_more s l.link i shot) (spendOneShot_last s l.link i shot) 4
  · exact foldl_countdown (spend := fun t => t.spendNote h) (standing := s.withNote h note) (spendNote_more s h note) hn
  · exact foldl_countdown_last (spend := fun t => t.spendNote h) (standing := s.withNote h note)
      (spendNote_more s h note) (spendNote_last s h note) 4
  · rw [formPoll_handset ha]
    refine ⟨fun hoff => by rw [handsetDisplay_off hoff], fun hon => ?_⟩
    rw [handsetDisplay_on hon]
    refine ⟨fun p hnote => ?_, fun p hnote => ?_, fun hnote htop => ?_, fun n d hnote htop hcall => ?_⟩
    · simp [State.handsetShow, hnote]
    · simp [State.handsetShow, hnote]
    · simp [State.handsetShow, hnote, htop]
    · simp [State.handsetShow, hnote, htop, hcall]

end Sys2Proof.Machine
end

