-- ==== Sys2Proof/Proofs/ResumeAll.lean ====
section
/-!
PROOFS. No candidate is left PAUSED by the reset of the hall's calls (R117): no firing pauses a candidate, and a resume ends
the pause of the candidate it is for.
-/

namespace Sys2Proof.Machine

/-- The slot holds a PAUSED candidate. -/
def State.pausedAt (s : State) (c : Nat) : Prop := ∃ x, s.cand? c = some x ∧ x.state = .paused

/-- Every candidate PAUSED in `t` was PAUSED in `s`. -/
def NoNewPause (s t : State) : Prop := ∀ c, t.pausedAt c → s.pausedAt c

theorem NoNewPause.refl (s : State) : NoNewPause s s := fun _ => id

theorem NoNewPause.trans {s t u : State} (h : NoNewPause s t) (k : NoNewPause t u) : NoNewPause s u := fun c hc =>
  h c (k c hc)

/-- An operation that does not write the candidate table pauses no one. -/
theorem Only.noNewPause {l : List Part} {s t : State} (h : Only l s t) (hl : .cands ∉ l := by decide) : NoNewPause s t := by
  rintro c ⟨x, hx, hpaused⟩
  have hcands : t.htu.cands = s.htu.cands := h.same .cands hl
  exact ⟨x, by rwa [State.cand?, hcands] at hx, hpaused⟩

/-- A change of one candidate that gives it a state other than PAUSED. -/
theorem pausedAt_modCand {s : State} {c d : Nat} {f : Candidate → Candidate} (hf : ∀ x, (f x).state ≠ .paused) :
    (s.modCand c f).pausedAt d ↔ s.pausedAt d ∧ d ≠ c := by
  unfold State.pausedAt
  simp only [cand?_modCand]
  by_cases hd : d = c
  · simp [hd, hf]
  · simp [hd]

/-! ### Firing (R68 to R70, R74) -/

theorem noNewPause_finishClaim (s : State) (c : Nat) : NoNewPause s (s.finishClaim c) := by
  rintro d ⟨x, hx, hpaused⟩
  cases hy : s.cand? c with
  | none =>
    have hsame : s.finishClaim c = s := by simp [State.finishClaim, hy]
    exact ⟨x, hsame ▸ hx, hpaused⟩
  | some y =>
    by_cases hw : y.state = .writing
    · rw [finishClaim_of_writing hy hw, askRetryIf_cand?, cand?_retire .finished d hy] at hx
      split at hx
      · obtain rfl := Option.some.inj hx
        exact absurd hpaused (by simp)
      · exact ⟨x, hx, hpaused⟩
    · exact ⟨x, finishClaim_of_not_writing hy hw ▸ hx, hpaused⟩

/-- A resume leaves its own candidate not PAUSED. -/
theorem pausedAt_resumeFor {s : State} {c d n : Nat} (h : (s.resumeFor c n).pausedAt d) : s.pausedAt d ∧ d ≠ c := by
  have hkept : NoNewPause (s.modCand c _) (s.resumeFor c n) := (addWritingEntry_only _ c).noNewPause
  exact (pausedAt_modCand (fun _ => CandState.noConfusion)).mp (hkept d h)

theorem noNewPause_fireRest (s : State) (c : Nat) : NoNewPause s (s.fireRest c) := by
  unfold State.fireRest
  split
  · exact .refl s
  next y _ =>
    split
    · refine NoNewPause.trans (t := s.resumeFor c y.restLeft) (fun d hd => (pausedAt_resumeFor hd).1)
        (.trans ?_ (notify_only _ _).noNewPause)
      split
      · exact (modCall_only _ _ _).noNewPause
      · exact .refl _
    · exact .refl s

theorem noNewPause_fireEntry (s : State) (e : MarkEntry) : NoNewPause s (s.fireEntry e) := by
  unfold State.fireEntry
  split
  · exact (addWritingEntry_only _ _).noNewPause
  · unfold State.fireEnd
    split
    · exact (noNewPause_finishClaim s e.slot).trans (noteCandEnd_only _ _).noNewPause
    · exact .refl s
  · exact noNewPause_fireRest s e.slot

theorem noNewPause_fireHead (s : State) (k : Nat) : NoNewPause s (s.fireHead k) := by
  cases hmarks : (s.sitting k).marks with
  | nil => simpa only [State.fireHead, hmarks] using NoNewPause.refl s
  | cons e rest =>
    rw [fireHead_cons hmarks]
    exact ((modSitting_only _ _ _).noNewPause.trans (noNewPause_fireEntry _ e)).trans (collectIfEmpty_only _ k).noNewPause

theorem noNewPause_fireUpTo (k n : Nat) (s : State) : NoNewPause s (State.fireUpTo k n s) := by
  induction n generalizing s with
  | zero => exact .refl s
  | succ n ih =>
    unfold State.fireUpTo
    split
    · exact (noNewPause_fireHead s k).trans (ih _)
    · exact .refl s

theorem noNewPause_fireInserted (s : State) (k : Nat) : NoNewPause s (s.fireInserted k) := by
  unfold State.fireInserted
  split
  · exact noNewPause_fireUpTo k _ s
  · exact .refl s

/-! ### Resumes (R73, R117) -/

/-- After a resume claim its own candidate is not PAUSED, and no other one is that was not. -/
theorem pausedAt_resumeClaim {s : State} {c d : Nat} (h : (s.resumeClaim c).pausedAt d) : s.pausedAt d ∧ d ≠ c := by
  unfold State.resumeClaim at h
  split at h
  next hnone =>
    refine ⟨h, ?_⟩
    rintro rfl
    obtain ⟨x, hx, -⟩ := h
    exact nomatch hnone.symm.trans hx
  next y hy =>
    split at h
    · obtain ⟨hbefore, hne⟩ := pausedAt_resumeFor (noNewPause_fireInserted _ _ d h)
      have hkept : NoNewPause s (s.dropMark y.sitting c) := (dropMark_only _ _ _).noNewPause
      exact ⟨hkept d hbefore, hne⟩
    next hstate =>
      refine ⟨h, ?_⟩
      rintro rfl
      obtain ⟨x, hx, hpaused⟩ := h
      exact hstate (Option.some.inj (hy.symm.trans hx) ▸ hpaused)

theorem pausedAt_foldl_resumeClaim (slots : List Nat) {s : State} {c : Nat}
    (h : (slots.foldl (fun t c => t.resumeClaim c) s).pausedAt c) : s.pausedAt c ∧ c ∉ slots := by
  induction slots generalizing s with
  | nil => exact ⟨h, List.not_mem_nil⟩
  | cons d slots ih =>
    obtain ⟨hafter, hnot⟩ := ih h
    obtain ⟨hbefore, hne⟩ := pausedAt_resumeClaim hafter
    exact ⟨hbefore, by simp [hne, hnot]⟩

theorem mem_pausedSlots {s : State} {c : Nat} : c ∈ s.slotsWhere (fun x => x.state == .paused) ↔ s.pausedAt c := by
  simp [mem_slotsWhere, State.pausedAt]

/-- Every PAUSED candidate is resumed, so that none is left (R117). -/
theorem not_pausedAt_resumeAll (s : State) (c : Nat) : ¬s.resumeAll.pausedAt c := fun h => by
  obtain ⟨hbefore, hnot⟩ := pausedAt_foldl_resumeClaim _ h
  exact hnot (mem_pausedSlots.mpr hbefore)

end Sys2Proof.Machine
end

