-- ==== Sys2Proof/Proofs/Resets.lean ====
section
/-!
PROOFS. RESET with its wait, RESET_PORTS and RESET_HALL, POWER_ON and LINK_RESET (R184 to R186), and what both scopes of
RESET do in the hall: calls (R117), links (R79) and the reader port (R150).
-/

namespace Sys2Proof.Machine

/-! ### RESET waits for its reply (R186) -/

/-- No frame is begun while a reset is about to act. -/
theorem settle_sending {s : State} (h : s.cli.resetDue ≠ none) : s.settle.cli.sending = s.cli.sending := by
  have hcli : s.beginVerdict.cli = s.cli := by
    unfold State.beginVerdict
    split <;> rfl
  have hdue : s.cli.resetDue.isNone = false := by simpa [Option.isSome_iff_ne_none] using h
  simp [State.settle, State.beginFrame, hcli, hdue]

/-- The reply of a RESET sent, the reset is about to act. -/
theorem frameSent_reset {s : State} {scope : ResetScope} (r : Reply) (h : s.cli.resetTaken = some scope) :
    (s.frameSent (.reply r)).cli.sending = none ∧ (s.frameSent (.reply r)).cli.resetTaken = none ∧
      (s.frameSent (.reply r)).cli.resetDue = some scope := by
  simp [State.frameSent, State.releaseReset, State.markOverrun, h]

theorem exec_frameSent_reset {s : State} {scope : ResetScope} {r : Reply} (hsend : s.cli.sending = some (.reply r))
    (h : s.cli.resetTaken = some scope) : ∃ u : State, exec .frameSent s = .next u ∧
      u.cli.sending = none ∧ u.cli.resetTaken = none ∧ u.cli.resetDue = some scope := by
  obtain ⟨hsending, htaken, hdue⟩ := frameSent_reset r h
  have hkept := settle_only (s.frameSent (.reply r))
  refine ⟨(s.frameSent (.reply r)).settle, ?_, ?_, (hkept.same .resetTaken).trans htaken, (hkept.same .resetDue).trans hdue⟩
  · simp only [exec, execFrameSent, hsend]
    rfl
  · rw [settle_sending (by simp [hdue]), hsending]

/-! ### The calls (R117) -/

theorem handset_clearCalls (s : State) {h : Nat} (hh : h < 8) : s.clearCalls.handset h =
    ⟨if s.cli.params.floorUnits.getLsbD h then .active else .off, (s.handset h).zones, [], 0, none, false⟩ := by
  simp [State.clearCalls, State.handset, hh]

theorem call?_clearCalls (s : State) (n : Nat) : s.clearCalls.call? n = none := by
  by_cases hn : n < 48 <;> simp [State.clearCalls, State.call?, hn]

/-! ### The links (R79) -/

/-- The record of a link restarted in the state it is in. -/
def State.restarted (s : State) (l : LinkName) : Link :=
  if (s.link l).running then Link.started s.tme.hall.minute ((linkAddresses l).filter (s.isMember l)) else Link.atReset

theorem restartLink_frame (l : LinkName) (s : State) :
    State.restartLink l s = { s with ulc := (State.restartLink l s).ulc } := by
  unfold State.restartLink
  split
  · exact startLink_frame s l
  · exact stopLink_frame s l

theorem link_restartLink (s : State) (l m : LinkName) :
    (State.restartLink l s).link m = if m = l then s.restarted l else s.link m := by
  unfold State.restartLink State.restarted
  split
  · exact link_startLink s l m
  · exact link_stopLink s l m

theorem unit_restartLink (s : State) (l m : LinkName) (b : Nat) : (State.restartLink l s).unit m b =
    if b ∈ linkAddresses l ∧ (l = .floor ↔ m = .floor) then UnitRec.atReset else s.unit m b := by
  unfold State.restartLink
  split
  · exact unit_startLink s l m b
  · exact unit_stopLink s l m b

/-- A restart leaves every link in the state it is in, so it does not change what a restart makes of any. -/
theorem restarted_restartLink (s : State) (l m : LinkName) : (State.restartLink l s).restarted m = s.restarted m := by
  have hrun : ((State.restartLink l s).link m).running = (s.link m).running := by
    rw [link_restartLink]
    split
    next hm =>
      subst hm
      cases hr : (s.link m).running <;> simp [State.restarted, hr, Link.started, Link.atReset]
    next => rfl
  have hhall : (State.restartLink l s).tme.hall = s.tme.hall := by rw [restartLink_frame]
  rw [State.restarted, State.restarted, hrun, hhall, isMember_of_frame (restartLink_frame l s)]

theorem link_forEach_restartLink (ls : List LinkName) (s : State) (m : LinkName) :
    (s.forEach ls State.restartLink).link m = if m ∈ ls then s.restarted m else s.link m := by
  induction ls generalizing s with
  | nil => simp [State.forEach]
  | cons l ls ih =>
    refine (ih (State.restartLink l s)).trans ?_
    rw [restarted_restartLink, link_restartLink]
    by_cases hm : m = l
    · simp [hm]
    · simp [hm]

theorem unit_forEach_restartLink (ls : List LinkName) (s : State) (m : LinkName) (b : Nat)
    (h : s.unit m b = UnitRec.atReset ∨ ∃ l ∈ ls, b ∈ linkAddresses l ∧ (l = .floor ↔ m = .floor)) :
    (s.forEach ls State.restartLink).unit m b = UnitRec.atReset := by
  induction ls generalizing s with
  | nil => simpa [State.forEach] using h
  | cons l ls ih =>
    refine ih (State.restartLink l s) ?_
    rw [unit_restartLink]
    by_cases hl : b ∈ linkAddresses l ∧ (l = .floor ↔ m = .floor)
    · exact .inl (if_pos hl)
    · rw [if_neg hl]
      refine h.imp_right fun ⟨n, hn, hb⟩ => ⟨n, ?_, hb⟩
      rcases List.mem_cons.mp hn with rfl | hn
      · exact absurd hb hl
      · exact hn

theorem mem_allLinks (l : LinkName) : l ∈ allLinks := by
  cases l <;> decide

theorem link_restartLinks (s : State) (l : LinkName) : s.restartLinks.link l = s.restarted l := by
  rw [State.restartLinks, link_forEach_restartLink, if_pos (mem_allLinks l)]

/-- Every seat id is an address of a seat link. -/
theorem mem_seatLinkAddresses {b : Nat} (hb : b < 384) : ∃ l, l ≠ LinkName.floor ∧ b ∈ linkAddresses l := by
  simp only [mem_linkAddresses]
  rcases (by omega : b < 96 ∨ 96 ≤ b ∧ b < 192 ∨ 192 ≤ b ∧ b < 288 ∨ 288 ≤ b) with h | h | h | h
  · exact ⟨.a, by decide, by simp [linkBase, linkSize, linkIndex]; omega⟩
  · exact ⟨.b, by decide, by simp [linkBase, linkSize, linkIndex]; omega⟩
  · exact ⟨.c, by decide, by simp [linkBase, linkSize, linkIndex]; omega⟩
  · exact ⟨.d, by decide, by simp [linkBase, linkSize, linkIndex]; omega⟩

/-- Every address within a table of units is that of a link; beyond it the record reads as its reset value. -/
theorem unit_or_linkAddresses (s : State) (m : LinkName) (b : Nat) :
    s.unit m b = UnitRec.atReset ∨ ∃ l ∈ allLinks, b ∈ linkAddresses l ∧ (l = .floor ↔ m = .floor) := by
  cases m
  case floor =>
    by_cases hb : b < 20
    · exact .inr ⟨.floor, mem_allLinks _, by simp [mem_linkAddresses, linkBase, linkSize, hb]⟩
    · exact .inl (by simp [State.unit, hb])
  all_goals
    by_cases hb : b < 384
    · obtain ⟨l, hl, hmem⟩ := mem_seatLinkAddresses hb
      exact .inr ⟨l, mem_allLinks l, hmem, by simp [hl]⟩
    · exact .inl (by simp [State.unit, hb])

theorem unit_restartLinks (s : State) (l : LinkName) (a : Nat) : s.restartLinks.unit l a = UnitRec.atReset :=
  unit_forEach_restartLink allLinks s l a (unit_or_linkAddresses s l a)

theorem forEach_restartLink_frame (ls : List LinkName) (s : State) :
    ∃ u : Ulc, s.forEach ls State.restartLink = { s with ulc := u } := by
  induction ls generalizing s with
  | nil => exact ⟨s.ulc, rfl⟩
  | cons l ls ih =>
    obtain ⟨u, hu⟩ := ih (State.restartLink l s)
    exact ⟨u, hu.trans (by rw [restartLink_frame])⟩

theorem restartLinks_frame (s : State) : s.restartLinks = { s with ulc := s.restartLinks.ulc } := by
  obtain ⟨u, hu⟩ := forEach_restartLink_frame allLinks s
  rw [State.restartLinks, hu]

/-! ### The reader port (R150) -/

/-- The verdict list with a REJECT for a feed, when there is room (R148). -/
def withReject (l : List Verdict) (feed : Byte) : List Verdict := if l.length < 4 then l ++ [⟨feed, .reject⟩] else l

theorem formVerdict_reject (s : State) (feed : Byte) : ∃ n : ReaderCounts, s.formVerdict feed .reject =
    { s with srp.verdicts := withReject s.srp.verdicts feed, srp.counts := n } := by
  unfold State.formVerdict withReject
  split
  · exact ⟨s.srp.counts, rfl⟩
  · exact ⟨_, rfl⟩

/-- The verdicts once a frame in assembly is abandoned: a REJECT when it is addressed. -/
def Srp.abandonedVerdicts (x : Srp) : List Verdict :=
  match x.assembler with
  | .assemble (_ :: feed :: _) => withReject x.verdicts feed
  | _ => x.verdicts

theorem abandonFrame_eq (s : State) : ∃ n : ReaderCounts, s.abandonFrame =
    { s with srp.verdicts := s.srp.abandonedVerdicts, srp.counts := n } := by
  unfold State.abandonFrame Srp.abandonedVerdicts
  rcases s.srp.assembler with _ | ⟨_ | ⟨_, _ | ⟨feed, _⟩⟩⟩ | _
  case assemble.cons.cons => exact formVerdict_reject s feed
  all_goals exact ⟨s.srp.counts, rfl⟩

theorem rejectParked_eq (s : State) : ∃ n : ReaderCounts, s.rejectParked =
    { s with
      srp.parked := none
      srp.verdicts := s.srp.parked.elim s.srp.verdicts (fun p => withReject s.srp.verdicts p.sheet.feed)
      srp.counts := n } := by
  unfold State.rejectParked
  cases hp : s.srp.parked with
  | none =>
    have hsame : s = { s with srp.parked := none } := by
      rw [← hp]
    exact ⟨s.srp.counts, hsame⟩
  | some p => exact formVerdict_reject { s with srp.parked := none } p.sheet.feed

theorem resyncReader_eq (s : State) : s.resyncReader = { s with
    srp.assembler := .hunt
    srp.parked := none
    srp.verdicts := s.srp.parked.elim s.srp.abandonedVerdicts (fun p => withReject s.srp.abandonedVerdicts p.sheet.feed)
    srp.lastFault := none
    srp.counts := ReaderCounts.zero } := by
  obtain ⟨n, hn⟩ := abandonFrame_eq s
  obtain ⟨m, hm⟩ := rejectParked_eq s.abandonFrame
  rw [State.resyncReader, hm, hn]

/-! ### The two scopes -/

/-- What both scopes do in the hall after the resumes is within the links, the calls and the reader port. -/
theorem clearCalls_to_resyncReader_frame (u : State) : u.clearCalls.restartLinks.resyncReader = { u with
    ulc := u.clearCalls.restartLinks.resyncReader.ulc
    cdp := u.clearCalls.restartLinks.resyncReader.cdp
    srp := u.clearCalls.restartLinks.resyncReader.srp } := by
  rw [resyncReader_eq, restartLinks_frame]
  rfl

/-- What both scopes do in the hall leaves the batch, the hall clock and the reset cause record as they are. -/
theorem hallPorts_keeps {s u : State} (h : s.resumeAll.clearCalls.restartLinks.resyncReader = u) :
    u.mke.batch = s.mke.batch ∧ u.tme.hall = s.tme.hall ∧ u.cli.resets = s.cli.resets := by
  have hkept := resumeAll_only s
  rw [← h, clearCalls_to_resyncReader_frame]
  exact ⟨hkept.same .batch, hkept.same .hall, hkept.same .resets⟩

theorem exec_resetPorts_due {s : State} (h : s.cli.resetDue = some .ports) : exec .resetPorts s = .next s.actPorts.settle :=
  if_pos h

theorem exec_resetHall_due {s : State} (h : s.cli.resetDue = some .hall) : exec .resetHall s = .next s.actHall.settle :=
  if_pos h

theorem exec_linkReset_due {s : State} (h : s.cli.lineHeld = false) : exec .linkReset s = .next s.actLinkReset.settle :=
  if_neg (by simp [h])

/-- Settles O59: RESET by its wait, each scope by its rules, and the other resets as they write the state. -/
theorem resetsActAsTheirScope : Obligations.ResetsActAsTheirScope := by
  unfold Obligations.ResetsActAsTheirScope
  refine ⟨fun b scope s => ⟨?_, fun r => exec_frameSent_reset, settle_sending, ?_⟩, ⟨?_, ?_, ?_, ?_⟩, ?_⟩
  · exact fun hl hscope => answerTo_withArgs hl (by simp [hscope]) (by simp [hscope])
  · refine ⟨fun h => ?_, fun h => if_neg h, fun h => ?_, fun h => if_neg h⟩
    · rw [exec_resetPorts_due h, State.actPorts, State.resetHallPorts]
      generalize hu : s.resumeAll.clearCalls.restartLinks.resyncReader = u
      obtain ⟨hbatch, hhall, hresets⟩ := hallPorts_keeps hu
      rw [← hbatch, ← hhall, ← hresets]
      rfl
    · rw [exec_resetHall_due h, State.actHall, State.resetHallPorts]
      generalize hu : s.resumeAll.clearCalls.restartLinks.resyncReader = u
      obtain ⟨-, hhall, hresets⟩ := hallPorts_keeps hu
      rw [← hhall, ← hresets]
      rfl
  · exact fun s => ⟨rfl, indexesWhere_pairwise _ _, fun c => mem_pausedSlots,
      fun c x hx hpaused => not_pausedAt_resumeAll s c ⟨x, hx, hpaused⟩⟩
  · exact fun s => ⟨rfl, call?_clearCalls s, fun h hh => handset_clearCalls s hh⟩
  · exact fun s => ⟨restartLinks_frame s, unit_restartLinks s,
      fun l hrun => (link_restartLinks s l).trans (if_neg (by simp [hrun])),
      fun l hrun => (link_restartLinks s l).trans (if_pos hrun)⟩
  · intro s
    refine (resyncReader_eq s).trans ?_
    unfold Srp.abandonedVerdicts withReject
    cases s.srp.parked <;> rfl
  · refine fun rate1 rate0 s => ⟨rfl, fun h => if_pos h, fun h => ?_, rfl⟩
    rw [exec_linkReset_due h, State.actLinkReset]
    generalize hu : s.resyncReader = u
    have hsending : u.srp.verdictSending = s.srp.verdictSending := hu ▸ (resyncReader_only s).same .verdictSending
    rw [← hsending]
    rfl

end Sys2Proof.Machine
end

