-- ==== Sys2Proof/Proofs/PendingOrder.lean ====
section
/-!
PROOFS. The pending order (R102) and dispatch (R105, R110): the list of the PENDING calls is ordered and misses none, and the
calls eligible for a handset are a part of it in its order.
-/

namespace Sys2Proof.Machine

/-! ### The pending order (R102) -/

theorem pendingBefore_iff (a b : Nat × Call) : pendingBefore a b = true ↔ a.2.level < b.2.level ∨
    (a.2.level = b.2.level ∧ (a.2.raisedAt < b.2.raisedAt ∨ (a.2.raisedAt = b.2.raisedAt ∧ a.1 < b.1))) := by
  simp [pendingBefore]

theorem pendingBefore_eq_false_iff (a b : Nat × Call) : pendingBefore a b = false ↔ b.2.level < a.2.level ∨
    (b.2.level = a.2.level ∧ (b.2.raisedAt < a.2.raisedAt ∨ (b.2.raisedAt = a.2.raisedAt ∧ b.1 ≤ a.1))) := by
  rw [← Bool.not_eq_true, pendingBefore_iff]
  omega

/-- Neither of two calls is before the other only when they have one id. -/
theorem pendingBefore_of_not {a b : Nat × Call} (hid : a.1 < b.1 ∨ b.1 < a.1) (h : pendingBefore b a = false) :
    pendingBefore a b = true := by
  rw [pendingBefore_eq_false_iff] at h
  rw [pendingBefore_iff]
  omega

/-- A call before one that a third is not before: nor is the third before it. -/
theorem not_pendingBefore_trans {e a b : Nat × Call} (he : pendingBefore e a = true) (hb : pendingBefore b a = false) :
    pendingBefore b e = false := by
  rw [pendingBefore_iff] at he
  rw [pendingBefore_eq_false_iff] at *
  omega

/-! ### A call takes its place -/

theorem perm_insertPending (e : Nat × Call) (l : List (Nat × Call)) : (insertPending e l).Perm (e :: l) := by
  induction l with
  | nil => exact .refl _
  | cons a l ih =>
    unfold insertPending
    split
    · exact .refl _
    · exact (ih.cons a).trans (.swap e a l)

theorem pairwise_insertPending (e : Nat × Call) {l : List (Nat × Call)}
    (h : l.Pairwise (fun a b => pendingBefore b a = false)) :
    (insertPending e l).Pairwise (fun a b => pendingBefore b a = false) := by
  induction l with
  | nil => exact List.pairwise_singleton _ _
  | cons a l ih =>
    obtain ⟨hfirst, hrest⟩ := List.pairwise_cons.mp h
    unfold insertPending
    split
    next hbefore =>
      have hself : pendingBefore a a = false := (pendingBefore_eq_false_iff a a).mpr (.inr ⟨rfl, .inr ⟨rfl, le_refl _⟩⟩)
      exact List.pairwise_cons.mpr ⟨List.forall_mem_cons.mpr ⟨not_pendingBefore_trans hbefore hself, fun b hb =>
        not_pendingBefore_trans hbefore (hfirst b hb)⟩, h⟩
    next hnot =>
      refine List.pairwise_cons.mpr ⟨fun b hb => ?_, ih hrest⟩
      rcases List.mem_cons.mp ((perm_insertPending e l).mem_iff.mp hb) with rfl | hb
      · exact Bool.eq_false_iff.mpr hnot
      · exact hfirst b hb

/-- Calls that take their places one after the other. -/
theorem perm_foldl_insertPending (es l : List (Nat × Call)) :
    (es.foldl (fun l e => insertPending e l) l).Perm (es ++ l) := by
  induction es generalizing l with
  | nil => exact .refl _
  | cons e es ih => exact (ih _).trans (((perm_insertPending e l).append_left es).trans List.perm_middle)

theorem pairwise_foldl_insertPending (es : List (Nat × Call)) {l : List (Nat × Call)}
    (h : l.Pairwise (fun a b => pendingBefore b a = false)) :
    (es.foldl (fun l e => insertPending e l) l).Pairwise (fun a b => pendingBefore b a = false) := by
  induction es generalizing l with
  | nil => exact h
  | cons e es ih => exact ih (pairwise_insertPending e h)

/-! ### The PENDING calls -/

/-- The ids listed are those of the outstanding calls that pass the test. -/
theorem mem_callsWhere {s : State} {p : Call → Bool} {n : Nat} :
    n ∈ s.callsWhere p ↔ ∃ c, s.call? n = some c ∧ p c = true := by
  unfold State.callsWhere State.call?
  rw [mem_indexesWhere]
  rcases s.cdp.calls[n]? with _ | _ | c <;> simp

/-- The PENDING calls with their ids, in ascending id: the calls that the pending order puts in order. -/
def State.pendingById (s : State) : List (Nat × Call) :=
  (s.callsWhere (fun c => c.state == .pending)).filterMap (fun i => (s.call? i).map (fun c => (i, c)))

theorem mem_pendingById {s : State} {i : Nat} {c : Call} :
    (i, c) ∈ s.pendingById ↔ s.call? i = some c ∧ c.state = .pending := by
  simp only [State.pendingById, List.mem_filterMap, mem_callsWhere, Option.map_eq_some_iff, Prod.mk.injEq, beq_iff_eq]
  constructor
  · rintro ⟨j, ⟨d, hd, hpending⟩, e, he, rfl, rfl⟩
    obtain rfl := Option.some.inj (hd.symm.trans he)
    exact ⟨hd, hpending⟩
  · rintro ⟨hc, hpending⟩
    exact ⟨i, ⟨c, hc, hpending⟩, c, hc, rfl, rfl⟩

theorem pendingById_pairwise (s : State) : s.pendingById.Pairwise (fun a b => a.1 < b.1) := by
  refine (indexesWhere_pairwise _ s.cdp.calls).filterMap _ fun i j hij a ha b hb => ?_
  obtain ⟨c, -, rfl⟩ := Option.map_eq_some_iff.mp ha
  obtain ⟨d, -, rfl⟩ := Option.map_eq_some_iff.mp hb
  exact hij

theorem perm_pendingCalls (s : State) : s.pendingCalls.Perm s.pendingById :=
  (perm_foldl_insertPending s.pendingById []).trans (by rw [List.append_nil])

theorem mem_pendingCalls {s : State} {i : Nat} {c : Call} :
    (i, c) ∈ s.pendingCalls ↔ s.call? i = some c ∧ c.state = .pending :=
  (perm_pendingCalls s).mem_iff.trans mem_pendingById

/-- None of the PENDING calls stands after one it is before. -/
theorem pendingCalls_pairwise_not (s : State) : s.pendingCalls.Pairwise (fun a b => pendingBefore b a = false) :=
  pairwise_foldl_insertPending s.pendingById .nil

/-- Each of the PENDING calls is before all that stand after it, as no two have one id. -/
theorem pendingCalls_pairwise (s : State) : s.pendingCalls.Pairwise (fun a b => pendingBefore a b = true) := by
  have hids : s.pendingCalls.Pairwise (fun a b => a.1 < b.1 ∨ b.1 < a.1) :=
    (perm_pendingCalls s).symm.pairwise ((pendingById_pairwise s).imp .inl) Or.symm
  exact hids.imp₂ (fun _ _ => pendingBefore_of_not) (pendingCalls_pairwise_not s)

/-! ### Dispatch (R105) -/

theorem isQuiet_iff (x : Sitting) : x.isQuiet = true ↔
    x.state = .extended ∨ (x.state = .writing ∧ 0 < x.quiet ∧ (x.writing - x.quiet) * 60 ≤ x.clock) := by
  cases h : x.state <;> simp [Sitting.isQuiet, h]

theorem dispatchable_iff {s : State} {c : Call} : s.dispatchable c = true ↔ ∃ y, s.cand? c.slot = some y ∧
    (¬(s.sitting y.sitting).isQuiet = true ∨ c.level ≤ (s.sitting y.sitting).threshold) := by
  cases h : s.cand? c.slot <;> simp [State.dispatchable, h]

/-! ### The calls eligible for a handset (R110) -/

section
variable {s : State} {c : Call}

theorem callSeat_eq {y : Candidate} (hy : s.cand? c.slot = some y) :
    s.callSeat c = if c.seat = none then y.finish else c.seat := by
  cases hs : c.seat <;> simp [State.callSeat, hs, hy]

theorem zoneCovers_iff {h : Handset} : s.zoneCovers h c = true ↔
    ∃ j z, s.callSeat c = some j ∧ s.seat? j = some z ∧ h.zones.getLsbD z.zone = true := by
  cases hj : s.callSeat c with
  | none => simp [State.zoneCovers, hj]
  | some j => cases hz : s.seat? j <;> simp [State.zoneCovers, hj, hz]

theorem belowTop_iff {h : Handset} : s.belowTop h c = true ↔
    ∀ t d, h.stack.getLast? = some t → s.call? t = some d → c.level < d.level := by
  unfold State.belowTop
  cases ht : h.stack.getLast? with
  | none => simp
  | some t =>
    have htop : (∀ u d, some t = some u → s.call? u = some d → c.level < d.level) ↔
        ∀ d, s.call? t = some d → c.level < d.level :=
      ⟨fun h d => h t d rfl, fun h u d hu => Option.some.inj hu ▸ h d⟩
    rw [htop]
    cases hd : s.call? t <;> simp [hd]

end

theorem mem_eligibleCalls {s : State} {h i : Nat} : i ∈ s.eligibleCalls h ↔
    ∃ c, s.call? i = some c ∧ c.state = .pending ∧ s.eligible (s.handset h) c = true := by
  simp [State.eligibleCalls, mem_pendingCalls, and_assoc]

/-- They stand in the pending order. -/
theorem eligibleCalls_pairwise (s : State) (h : Nat) : (s.eligibleCalls h).Pairwise (fun a b => ∀ c d,
    s.call? a = some c → s.call? b = some d → pendingBefore (b, d) (a, c) = false) := by
  refine List.pairwise_map.mpr (((pendingCalls_pairwise_not s).filter _).imp_of_mem ?_)
  rintro ⟨a, x⟩ ⟨b, y⟩ ha hb hab c d hc hd
  obtain ⟨hx, -⟩ := mem_pendingCalls.mp (List.mem_of_mem_filter ha)
  obtain ⟨hy, -⟩ := mem_pendingCalls.mp (List.mem_of_mem_filter hb)
  obtain rfl := Option.some.inj (hc.symm.trans hx)
  obtain rfl := Option.some.inj (hd.symm.trans hy)
  exact hab

end Sys2Proof.Machine
end

