-- ==== Sys2Proof/Proofs/Handsets.lean ====
section
/-!
PROOFS. The handsets and the calls they serve: SET_HANDSET_ZONES (R107), the two timers' rows ESCALATION and HANDSET_AWAY
(R103, R108), TAKE (R110) and DONE (R111).
-/

namespace Sys2Proof.Machine

/-! ### SET_HANDSET_ZONES (R107) -/

/-- Settles O42: the address is the one argument checked, and the answer does not look at the handset's state. -/
theorem setHandsetZonesReplacesSet : Obligations.SetHandsetZonesReplacesSet := by
  unfold Obligations.SetHandsetZonesReplacesSet
  intro handset zones s hl
  refine ⟨fun h8 => answerTo_withArgs hl ?_ rfl, fun h8 => answerTo_badArgument hl ?_⟩
  · simpa [isEighth] using h8
  · have hout : isEighth handset = false := decide_eq_false (Nat.not_lt.mpr h8)
    rw [hout, firstBad_cons_false]

/-! ### ESCALATION (R103) -/

theorem escalates_iff {limit : Nat} {c : Call} : c.escalates limit = true ↔
    c.state = .pending ∧ 0 < c.level ∧ c.escalationDue = true ∧ 0 < limit ∧ limit ≤ c.timer := by
  simp [Call.escalates, and_assoc]

theorem exec_escalation_due {n : Fin 48} {s : State} {c : Call} (hc : s.call? n.val = some c)
    (hdue : c.escalates s.cli.params.escalateTime = true) : exec (.escalation n) s = .next (s.modCall n.val (fun x =>
      { x with level := x.level - 1, timer := 0, escalationDue := false })).settle :=
  if_pos (by rwa [hc])

theorem exec_escalation_idle {n : Fin 48} {s : State}
    (h : (s.call? n.val).any (Call.escalates s.cli.params.escalateTime) = false) :
    exec (.escalation n) s = .next s.settle :=
  if_neg (by simp [h])

/-! ### HANDSET_AWAY (R108) -/

theorem goesAway_iff {limit : Nat} {x : Handset} : x.goesAway limit = true ↔
    x.state = .active ∧ x.awayDue = true ∧ 0 < limit ∧ limit ≤ x.timer := by
  simp [Handset.goesAway, and_assoc]

/-- Not a live REST call: one of another kind, or an expired one. -/
theorem not_liveRest {c : Call} (h : c.kind ≠ .rest ∨ c.expired = true) : ¬(c.kind = .rest ∧ c.expired = false) := by
  rintro ⟨hkind, hexpired⟩
  exact h.elim (· hkind) fun he => Bool.noConfusion (he.symm.trans hexpired)

theorem returnCall_live {s : State} {i : Nat} {c : Call} (hc : s.call? i = some c) (hkind : c.kind = .rest)
    (hlive : c.expired = false) :
    State.returnCall i s = (s.resumeClaim c.slot).modCall i (fun x => { x with state := .pending }) := by
  simp [State.returnCall, hc, hkind, hlive]

theorem returnCall_other {s : State} {i : Nat} {c : Call} (hc : s.call? i = some c)
    (h : c.kind ≠ .rest ∨ c.expired = true) :
    State.returnCall i s = s.modCall i (fun x => { x with state := .pending }) := by
  simp only [State.returnCall, hc, if_neg (not_liveRest h)]

/-- Settles O40: each row acts when its timer's event is due, and a returned call first ends its pause when it has one. -/
theorem escalationAndHandsetAway : Obligations.EscalationAndHandsetAway := by
  unfold Obligations.EscalationAndHandsetAway
  refine ⟨fun n s => ⟨fun c hc hdue => exec_escalation_due hc (escalates_iff.mpr hdue), fun h =>
    exec_escalation_idle ?_⟩, fun n s => ⟨fun hnot => if_neg (goesAway_iff.not.mpr hnot), fun hdue =>
    if_pos (goesAway_iff.mpr hdue), fun i c hc => ⟨returnCall_live hc, returnCall_other hc⟩⟩⟩
  rcases h with hnone | ⟨c, hc, hnot⟩
  · rw [hnone, Option.any_none]
  · rw [hc, Option.any_some]
    exact Bool.eq_false_iff.mpr (escalates_iff.not.mpr hnot)

/-! ### TAKE (R110) -/

section
variable {s : State} {h : Nat} (hon : (s.handset h).state ≠ .off)
include hon

theorem take_full (hfull : 3 ≤ (s.handset h).stack.length) :
    s.take h = s.setNote h .none := by
  simp [State.take, hon, hfull]

theorem take_nothing (hnone : s.eligibleCalls h = []) : s.take h = s.setNote h .none := by
  simp [State.take, hon, hnone]

/-- The first eligible call goes into service, on top of the stack. -/
theorem take_first {i : Nat} {rest : List Nat} {c : Call} (hroom : (s.handset h).stack.length < 3)
    (hfirst : s.eligibleCalls h = i :: rest) (hc : s.call? i = some c) : s.take h =
      (let s1 := (s.modCall i (fun y => { y with state := .inService h, escalationDue := false })).modHandset h
        (fun y => { y with stack := y.stack ++ [i] })
      if c.kind = .rest ∧ c.expired = false then s1.pauseClaim c.slot else s1) := by
  simp only [State.take, if_neg hon, if_neg (Nat.not_le.mpr hroom), hfirst, hc]

end

/-- What a call has to be, for a handset to be given it. -/
theorem mem_eligibleCalls_iff {s : State} {h i : Nat} : i ∈ s.eligibleCalls h ↔ ∃ c, s.call? i = some c ∧
    c.state = .pending ∧ s.dispatchable c = true ∧
    (∃ j z, s.callSeat c = some j ∧ s.seat? j = some z ∧ (s.handset h).zones.getLsbD z.zone = true) ∧
    (∀ t d, (s.handset h).stack.getLast? = some t → s.call? t = some d → c.level < d.level) := by
  simp only [mem_eligibleCalls, State.eligible, Bool.and_eq_true, zoneCovers_iff, belowTop_iff, and_assoc]

/-! ### DONE (R111) -/

theorem any_cancelled_iff {n : Option NoteLeft} :
    n.any (fun x => x.note == .cancelled) = true ↔ ∃ p, n = some ⟨.cancelled, p⟩ := by
  rcases n with _ | ⟨_ | _, p⟩ <;> simp

section
variable {s : State} {h : Nat}

theorem doneCall_top_ignored (hnone : (s.handset h).stack = [] ∨ ∃ p, (s.handset h).note = some ⟨.cancelled, p⟩) :
    s.doneCall h none = s := by
  rcases hnone with hempty | hnote
  · simp [State.doneCall, hempty]
  · exact if_pos (any_cancelled_iff.mpr hnote)

theorem doneCall_top {i : Nat} (htop : (s.handset h).stack.getLast? = some i)
    (hnote : ∀ p, (s.handset h).note ≠ some ⟨.cancelled, p⟩) : s.doneCall h none = s.finishCall h i := by
  have hclear : ¬(s.handset h).note.any (fun x => x.note == .cancelled) = true := fun hany => by
    obtain ⟨p, hp⟩ := any_cancelled_iff.mp hany
    exact hnote p hp
  simp only [State.doneCall, if_neg hclear, htop]

end

section
variable {s : State} {i : Nat} {c : Call}

theorem finishCall_eq (h : Nat) (hc : s.call? i = some c) :
    s.finishCall h i = ((s.unstack h i).putCall i none).doneEffect i c := by
  simp only [State.finishCall, hc]

theorem doneEffect_rest (hkind : c.kind = .rest) :
    s.doneEffect i c = if c.expired then s else s.resumeClaim c.slot := by
  simp only [State.doneEffect, hkind]

theorem doneEffect_none (hkind : c.kind = .query ∨ c.kind = .escort ∨ c.kind = .alert) : s.doneEffect i c = s := by
  rcases hkind with hk | hk | hk <;> simp only [State.doneEffect, hk]

variable {y : Candidate} (hkind : c.kind = .supply) (hy : s.cand? c.slot = some y)
include hkind hy

theorem doneEffect_supply_unseated (hseated : y.state.seated = false) : s.doneEffect i c = s := by
  simp [State.doneEffect, hkind, hy, hseated]

theorem doneEffect_supply_issues (hseated : y.state.seated = true) (hroom : y.issued < 8) :
    s.doneEffect i c = s.modCand c.slot (fun z => { z with issued := z.issued + 1 }) := by
  simp [State.doneEffect, State.issueClaim, hkind, hy, hseated, hroom]

theorem doneEffect_supply_limit (hseated : y.state.seated = true) (hlimit : 8 ≤ y.issued) :
    s.doneEffect i c = s.notify (.issueLimit c.seat c.slot y.number i) := by
  simp [State.doneEffect, State.issueClaim, hkind, hy, hseated, Nat.not_lt.mpr hlimit]

end

/-- Settles O43: TAKE by the handset's state, its stack and the eligible calls, DONE by the call it names and that call's
kind. -/
theorem takeAndDone : Obligations.TakeAndDone := by
  unfold Obligations.TakeAndDone
  refine ⟨fun s h _ => ⟨fun hoff => if_pos hoff, take_full, fun hon _ => take_nothing hon, fun i rest c hon hroom hfirst hc =>
    take_first hon hroom hfirst hc, fun i => mem_eligibleCalls_iff, fun c y hy => callSeat_eq hy,
    eligibleCalls_pairwise s h⟩, fun s h => ⟨doneCall_top_ignored, fun i => doneCall_top, fun i hi => if_pos hi,
    fun i hi => if_neg hi, fun i c hc => ?_⟩⟩
  rw [finishCall_eq h hc]
  refine ⟨fun hkind hlive => ?_, fun hkind hexpired => ?_, doneEffect_none, fun y hkind hy =>
    ⟨doneEffect_supply_unseated hkind hy, doneEffect_supply_issues hkind hy, doneEffect_supply_limit hkind hy⟩⟩
  · exact (doneEffect_rest hkind).trans (if_neg (by simp [hlive]))
  · exact (doneEffect_rest hkind).trans (if_pos hexpired)

end Sys2Proof.Machine
end

