-- ==== Sys2Proof/Proofs/CallRaising.lean ====
section
/-!
PROOFS. How a call is raised and cancelled (R99 to R101): the conditions of a raise in their order, RAISE_ALERT (R104) and
CANCEL_CALL (R112).
-/

namespace Sys2Proof.Machine

/-! ### The lowest entry of a table, by what the test means -/

section
variable {α : Type} {m : Nat} {p : α → Bool} {v : Vector α m} {holds : Nat → Prop}
  (hp : ∀ j, holds j ↔ ∃ x, v[j]? = some x ∧ p x = true)
include hp

/-- The entry found is the lowest that passes the test. -/
theorem lowestWhere_eq_some_iff {n : Nat} : lowestWhere p v = some n ↔ holds n ∧ ∀ j, j < n → ¬holds j := by
  rw [lowestWhere_eq_some]
  constructor
  · rintro ⟨x, hx, hpx, hlow⟩
    refine ⟨(hp n).mpr ⟨x, hx, hpx⟩, fun j hj hholds => ?_⟩
    obtain ⟨y, hy, hpy⟩ := (hp j).mp hholds
    exact Bool.noConfusion ((hlow j hj y hy).symm.trans hpy)
  · rintro ⟨hholds, hlow⟩
    obtain ⟨x, hx, hpx⟩ := (hp n).mp hholds
    exact ⟨x, hx, hpx, fun j hj y hy => Bool.eq_false_iff.mpr fun hpy => hlow j hj ((hp j).mpr ⟨y, hy, hpy⟩)⟩

/-- None is found when no entry passes the test. -/
theorem lowestWhere_eq_none_of (h : ∀ j, ¬holds j) : lowestWhere p v = none :=
  Option.eq_none_iff_forall_ne_some.mpr fun j hj => h j ((lowestWhere_eq_some_iff hp).mp hj).1

end

/-! ### A seat's call, and the lowest free id (R99) -/

/-- The call with id `n` is a call of seat `i`. -/
def State.callsFrom (s : State) (i n : Nat) : Prop := ∃ c, s.call? n = some c ∧ c.seat = some i

/-- The id `n` has no call. -/
def State.idFree (s : State) (n : Nat) : Prop := n < 48 ∧ s.call? n = none

section
variable {s : State} {i n : Nat}

theorem callsFrom_iff : s.callsFrom i n ↔
    ∃ o, s.cdp.calls[n]? = some o ∧ o.any (fun (c : Call) => c.seat == some i) = true := by
  unfold State.callsFrom State.call?
  rcases s.cdp.calls[n]? with _ | _ | c <;> simp

theorem idFree_iff : s.idFree n ↔ ∃ o, s.cdp.calls[n]? = some o ∧ o.isNone = true := by
  unfold State.idFree State.call?
  by_cases hn : n < 48
  · cases ho : s.cdp.calls[n] <;> simp [hn, ho]
  · simp [hn]

theorem callOfSeat_eq_some : s.callOfSeat i = some n ↔ s.callsFrom i n ∧ ∀ m, m < n → ¬s.callsFrom i m :=
  lowestWhere_eq_some_iff fun _ => callsFrom_iff

theorem callOfSeat_eq_none (h : ∀ m, ¬s.callsFrom i m) : s.callOfSeat i = none :=
  lowestWhere_eq_none_of (fun _ => callsFrom_iff) h

theorem lowestIdFree_eq (hfree : s.idFree n) (hlow : ∀ m, m < n → ¬s.idFree m) :
    lowestWhere (fun o => o.isNone) s.cdp.calls = some n :=
  (lowestWhere_eq_some_iff fun _ => idFree_iff).mpr ⟨hfree, hlow⟩

/-- When some id is free there is a lowest one. -/
theorem exists_lowestIdFree (h : ∃ n, s.idFree n) : ∃ n, s.idFree n ∧ ∀ m, m < n → ¬s.idFree m := by
  classical exact ⟨Nat.find h, Nat.find_spec h, fun _ => Nat.find_min h⟩

end

/-! ### A raise (R101) -/

section
variable {s : State} {i : Nat} {kind : CallKind} {origin : Option Nat}

theorem raise_seatBusy {n : Nat} (hn : s.callsFrom i n) (hlow : ∀ m, m < n → ¬s.callsFrom i m) :
    s.raise i kind origin = (s, .seatBusy n) := by
  simp only [State.raise, State.raiseOutcome, callOfSeat_eq_some.mpr ⟨hn, hlow⟩]

variable (hquiet : ∀ n, ¬s.callsFrom i n)
include hquiet

theorem raise_listFull (hfull : ∀ n, ¬s.idFree n) : s.raise i kind origin = (s, .listFull) := by
  have hid : lowestWhere (fun o => o.isNone) s.cdp.calls = none := lowestWhere_eq_none_of (fun _ => idFree_iff) hfull
  simp only [State.raise, State.raiseOutcome, callOfSeat_eq_none hquiet, hid]

variable {n : Nat} (hfree : s.idFree n) (hlow : ∀ m, m < n → ¬s.idFree m)
include hfree hlow

theorem raise_unbound (hb : s.boundTo i = none) : s.raise i kind origin = (s, .noCandidate) := by
  simp only [State.raise, State.raiseOutcome, callOfSeat_eq_none hquiet, lowestIdFree_eq hfree hlow, hb]

variable {c : Nat} {y : Candidate} (hb : s.boundTo i = some (c, y))
include hb

theorem raise_unseated (hseated : y.state.seated = false) : s.raise i kind origin = (s, .noCandidate) := by
  simp [State.raise, State.raiseOutcome, callOfSeat_eq_none hquiet, lowestIdFree_eq hfree hlow, hb, hseated]

variable (hseated : y.state.seated = true)
include hseated

theorem raise_kindRefused (hkind : s.kindAllows kind y = false) : s.raise i kind origin = (s, .kindRefused) := by
  simp [State.raise, State.raiseOutcome, callOfSeat_eq_none hquiet, lowestIdFree_eq hfree hlow, hb, hseated, hkind]

theorem raise_accepted (hkind : s.kindAllows kind y = true) : s.raise i kind origin =
    (let u := s.putCall n (some (s.newCall i c kind))
    (if kind = .alert then u.notify (.alertRaised n i c y.number (s.cli.params.level kind) origin) else u,
      .accepted n)) := by
  simp [State.raise, State.raiseOutcome, callOfSeat_eq_none hquiet, lowestIdFree_eq hfree hlow, hb, hseated, hkind]

end

theorem seated_iff (x : CandState) : x.seated = true ↔ x = .present ∨ x = .writing ∨ x = .paused := by
  cases x <;> simp [CandState.seated]

/-- The condition of each kind (R101). -/
theorem kindAllows_iff {s : State} {kind : CallKind} {y : Candidate} : s.kindAllows kind y = true ↔
    match kind with
    | .query | .supply | .escort => y.state = .present ∨ y.state = .writing
    | .rest => y.state = .writing ∧ ((s.sitting y.sitting).state = .writing ∨ (s.sitting y.sitting).state = .extended) ∧
        y.restUsed < y.restBudget
    | .alert => True := by
  cases kind <;> simp [State.kindAllows, ← writes_iff, and_assoc]

/-! ### RAISE_ALERT (R104) -/

section
variable {seat : Half} {s : State} (hl : s.listening = true) (hi : seat.toNat < 384)
include hl hi

/-- RAISE_ALERT is answered by what its raise comes to. -/
theorem exec_raiseAlert {u : State} {o : RaiseOutcome} (h : s.toHunt.raise seat.toNat .alert none = (u, o)) :
    exec (.raiseAlert seat) s = u.replied 0x20 (s.alertAnswer seat.toNat o) :=
  answerTo_withArgs hl (by simpa [isSeat] using hi) (by simp only [h, toHunt_alertAnswer])

theorem exec_raiseAlert_seatBusy {n : Nat} {c : Call} (hc : s.call? n = some c) (hseat : c.seat = some seat.toNat)
    (hlow : ∀ m, m < n → ¬s.callsFrom seat.toNat m) :
    exec (.raiseAlert seat) s = s.toHunt.replied 0x20 (refuse .busy .none (.call n c.kind c.state)) := by
  rw [exec_raiseAlert hl hi (raise_seatBusy ⟨c, hc, hseat⟩ hlow)]
  simp only [State.alertAnswer, hc]

theorem exec_raiseAlert_listFull (h : s.toHunt.raise seat.toNat .alert none = (s.toHunt, .listFull)) :
    exec (.raiseAlert seat) s = s.toHunt.replied 0x20 (refuse .full) := by
  rw [exec_raiseAlert hl hi h, State.alertAnswer]

/-- With no candidate to raise it for, the answer gives the seat's state and that of the candidate bound to it. -/
theorem exec_raiseAlert_noCandidate (h : s.toHunt.raise seat.toNat .alert none = (s.toHunt, .noCandidate)) :
    exec (.raiseAlert seat) s = s.toHunt.replied 0x20 (refuse .refusedState .none
      (.seatAndCand (s.seatState seat.toNat) ((s.boundTo seat.toNat).map (·.2.state)))) := by
  rw [exec_raiseAlert hl hi h, State.alertAnswer, State.alertDetail]

theorem exec_raiseAlert_accepted {n c : Nat} {y : Candidate} (hquiet : ∀ m, ¬s.callsFrom seat.toNat m)
    (hfree : s.idFree n) (hlow : ∀ m, m < n → ¬s.idFree m) (hb : s.boundTo seat.toNat = some (c, y))
    (hseated : y.state.seated = true) : exec (.raiseAlert seat) s =
      ((s.toHunt.putCall n (some (s.newCall seat.toNat c .alert))).notify
        (.alertRaised n seat.toNat c y.number s.cli.params.levelAlert none)).replied 0x20
        (ok (.alert n s.cli.params.levelAlert)) := by
  have h := raise_accepted (s := s.toHunt) (kind := .alert) (origin := none) hquiet hfree hlow hb hseated rfl
  dsimp only at h
  rw [if_pos rfl] at h
  rw [exec_raiseAlert hl hi h, State.alertAnswer, toHunt_newCall, toHunt_cli_params, Params.level]

end

/-! ### CANCEL_CALL (R112) -/

theorem modHandset_modHandset (s : State) (h : Nat) (f g : Handset → Handset) :
    (s.modHandset h f).modHandset h g = s.modHandset h (fun x => g (f x)) := by
  simp only [State.modHandset, modAt_modAt]

theorem cancelCall_pending {s : State} (i : Nat) {c : Call} (hp : c.state = .pending) :
    s.cancelCall i c = s.putCall i none := by
  simp only [State.cancelCall, hp]

section
variable {s : State} (i : Nat) {c : Call} {h : Nat} (hserved : c.state = .inService h)
include hserved

/-- A live REST call in service leaves its stack with the note CANCELLED and ends its pause before it leaves the list. -/
theorem cancelCall_live (hkind : c.kind = .rest) (hlive : c.expired = false) : s.cancelCall i c =
    ((s.modHandset h (fun x =>
      { x with stack := x.stack.filter (· != i), note := some ⟨.cancelled, 5⟩ })).resumeClaim c.slot).putCall i none := by
  simp only [State.cancelCall, hserved, State.unstack, State.setNote, modHandset_modHandset, if_pos (And.intro hkind hlive)]

theorem cancelCall_other (hother : c.kind ≠ .rest ∨ c.expired = true) : s.cancelCall i c =
    (s.modHandset h (fun x =>
      { x with stack := x.stack.filter (· != i), note := some ⟨.cancelled, 5⟩ })).putCall i none := by
  simp only [State.cancelCall, hserved, State.unstack, State.setNote, modHandset_modHandset, if_neg (not_liveRest hother)]

end

theorem exec_cancelCall {call : Byte} {s : State} (hl : s.listening = true) (hi : call.toNat < 48) {c : Call}
    (hc : s.call? call.toNat = some c) : exec (.cancelCall call) s =
      (s.toHunt.cancelCall call.toNat c).replied 0x22 (ok (.cancelled c.kind c.seat c.state)) :=
  answerTo_withArgs hl (by simpa using hi) (by simp only [toHunt_call?, hc])

theorem exec_cancelCall_free {call : Byte} {s : State} (hl : s.listening = true) (hi : call.toNat < 48)
    (hfree : s.call? call.toNat = none) : exec (.cancelCall call) s = s.toHunt.replied 0x22 notFound :=
  answerTo_withArgs hl (by simpa using hi) (by simp only [toHunt_call?, hfree])

/-- Settles O41: RAISE_ALERT by what its raise comes to, CANCEL_CALL by the call's state, a raise by its conditions in turn,
and the pending order by the order of the list built from it. -/
theorem callsAreRaisedAndCancelled : Obligations.CallsAreRaisedAndCancelled := by
  unfold Obligations.CallsAreRaisedAndCancelled
  refine ⟨fun seat s hl hi => ⟨fun n c hc hseat hlow => exec_raiseAlert_seatBusy hl hi hc hseat hlow, fun hquiet hfull =>
    exec_raiseAlert_listFull hl hi (raise_listFull hquiet hfull), fun hquiet hfree => ?_, fun hquiet n hfree hlow c y hb hseated =>
    exec_raiseAlert_accepted hl hi hquiet hfree hlow hb ((seated_iff _).mpr hseated)⟩,
    fun call s hl hi => ⟨exec_cancelCall_free hl hi, fun c hc => ?_⟩,
    fun s i kind origin => ⟨fun n => raise_seatBusy, raise_listFull, fun hquiet n hfree hlow =>
      ⟨raise_unbound hquiet hfree hlow, fun c y hb => ?_⟩⟩, fun s i n => callOfSeat_eq_some, fun s c => ?_,
    pendingBefore_iff, fun s => ⟨fun i c => mem_pendingCalls, pendingCalls_pairwise s⟩⟩
  · obtain ⟨n, hn, hlow⟩ := exists_lowestIdFree hfree
    refine ⟨fun c y hb hpresent hwriting hpaused => ?_, fun hb => ?_⟩
    · have hseated : y.state.seated = false :=
        Bool.eq_false_iff.mpr fun h => by simp [seated_iff, hpresent, hwriting, hpaused] at h
      rw [exec_raiseAlert_noCandidate hl hi (raise_unseated hquiet hn hlow hb hseated), hb]
      rfl
    · rw [exec_raiseAlert_noCandidate hl hi (raise_unbound hquiet hn hlow hb), hb]
      rfl
  · rw [exec_cancelCall hl hi hc]
    exact ⟨fun hpending => congrArg (State.replied · _ _) (cancelCall_pending _ hpending), fun h hserved =>
      ⟨fun hkind hlive => congrArg (State.replied · _ _) (cancelCall_live _ hserved hkind hlive), fun hother =>
        congrArg (State.replied · _ _) (cancelCall_other _ hserved hother)⟩⟩
  · refine ⟨fun hnot => ?_, fun hseated hnot => ?_, fun hseated hallowed => ?_⟩
    · exact raise_unseated hquiet hfree hlow hb (Bool.eq_false_iff.mpr ((seated_iff _).not.mpr hnot))
    · exact raise_kindRefused hquiet hfree hlow hb ((seated_iff _).mpr hseated)
        (Bool.eq_false_iff.mpr (kindAllows_iff.not.mpr hnot))
    · exact raise_accepted hquiet hfree hlow hb ((seated_iff _).mpr hseated) (kindAllows_iff.mpr hallowed)
  · simp only [dispatchable_iff, isQuiet_iff]

end Sys2Proof.Machine
end

