-- ==== Sys2Proof/Proofs/InOrder.lean ====
section
/-!
PROOFS. The state after power-up has every property the invariants keep (R184).
-/

namespace Sys2Proof.Machine

/-- Every record of the sittings after power-up is that of an EMPTY sitting. -/
theorem eq_atReset_of_mem_sittings {x : Sitting} (h : x ∈ State.reset.tme.sittings.toList) : x = Sitting.atReset := by
  obtain ⟨k, -, rfl⟩ := mem_sittings.mp h
  exact sitting_reset k

/-- A seat after power-up is FREE and unbound. -/
theorem free_of_seat?_reset {i : Nat} {x : Seat} (h : State.reset.seat? i = some x) :
    x.state = .free ∧ x.bound = none := by
  rw [seat?_reset] at h
  split at h
  · obtain rfl := Option.some.inj h
    exact ⟨rfl, rfl⟩
  · exact nomatch h

/-- No slot of the table after power-up holds a record. -/
theorem not_cand?_reset {c : Nat} {x : Candidate} : State.reset.cand? c ≠ some x := by
  simp [cand?_reset]

theorem reset_withinCapacity : State.reset.withinCapacity :=
  ⟨Nat.zero_le _, Nat.zero_le _, Nat.zero_le _, Nat.zero_le _, Nat.zero_le _⟩

theorem reset_oneReplyOfEach : State.reset.oneReplyOfEach := ⟨Nat.zero_le _, Nat.zero_le _, Nat.zero_le _⟩

theorem reset_lineInOrder : State.reset.lineInOrder := ⟨fun _ h => (nomatch h), fun _ => rfl⟩

theorem reset_heldOnlyRunning : State.reset.heldOnlyRunning := fun x hx hheld => by
  rw [eq_atReset_of_mem_sittings hx] at hheld
  exact nomatch hheld

/-- No seat names a candidate, and no candidate a seat. -/
theorem reset_paired : State.reset.paired := fun i c => by
  have hseat : (State.reset.seat? i).bind (·.bound) = none := by
    cases h : State.reset.seat? i with
    | none => rfl
    | some x => exact (free_of_seat?_reset h).2
  simp [hseat, cand?_reset]

theorem reset_seatsInOrder : State.reset.seatsInOrder := by
  refine ⟨reset_paired, fun i x hx hbound => ?bound, fun i x hx hstate => ?state, fun c x hx => absurd hx not_cand?_reset,
    List.nodup_nil, fun c => ?queue⟩
  case bound => exact absurd (free_of_seat?_reset hx).2 hbound
  case state => simp [(free_of_seat?_reset hx).1] at hstate
  case queue => exact ⟨fun h => absurd h List.not_mem_nil, fun ⟨_, hx, _⟩ => absurd hx not_cand?_reset⟩

theorem reset_sittingsSettled : State.reset.sittingsSettled := by
  refine ⟨fun x hx => ?_, fun c y hy => absurd hy not_cand?_reset⟩
  rw [eq_atReset_of_mem_sittings hx]
  exact ⟨Nat.le_refl _, fun _ => rfl, fun h => nomatch h⟩

theorem reset_safeStep : State.reset.safeStep := ⟨State.reset, rfl⟩

/-- Settles O4: each property of the state after power-up in turn. -/
theorem stateAfterPowerUpIsInOrder : Obligations.StateAfterPowerUpIsInOrder := by
  unfold Obligations.StateAfterPowerUpIsInOrder
  exact ⟨reset_withinCapacity, reset_oneReplyOfEach, reset_lineInOrder, Tme.marksOrdered_of_reset rfl, rfl,
    reset_heldOnlyRunning, reset_paired, reset_seatsInOrder, reset_sittingsSettled, reset_safeStep⟩

end Sys2Proof.Machine
end

