-- ==== Sys2Proof/Proofs/Queues.lean ====
section
/-!
PROOFS. The lists that take an entry only while there is room: the notice queue (R178), the exception list (R127) and the
verdict list (R148).
-/

namespace Sys2Proof.Machine

section
variable (s : State)

theorem notify_of_room (b : NoticeBody) (h : s.cli.notices.length < 64) :
    s.notify b = { s with cli.notices := s.cli.notices ++ [⟨s.tme.hall, b⟩] } :=
  if_pos h

theorem notify_of_full (b : NoticeBody) (h : 64 ≤ s.cli.notices.length) :
    s.notify b = { s with cli.flags.noticesLost := true } :=
  if_neg (Nat.not_lt.mpr h)

theorem addException_of_room (kind : ExceptionKind) (station : Nat) (tag : Option Tag) (seat : Option Nat)
    (h : s.scu.exceptions.length < 64) : s.addException kind station tag seat =
      { s with scu.exceptions := s.scu.exceptions ++ [⟨kind, station, tag, seat, s.tme.hall⟩] } :=
  if_pos h

theorem addException_of_full (kind : ExceptionKind) (station : Nat) (tag : Option Tag) (seat : Option Nat)
    (h : 64 ≤ s.scu.exceptions.length) :
    s.addException kind station tag seat = { s with cli.flags.exceptionsLost := true } :=
  if_neg (Nat.not_lt.mpr h)

theorem formVerdict_of_room (feed : Byte) (bin : Bin) (h : s.srp.verdicts.length < 4) :
    s.formVerdict feed bin = { s with srp.verdicts := s.srp.verdicts ++ [⟨feed, bin⟩] } :=
  if_pos h

theorem formVerdict_of_full (feed : Byte) (bin : Bin) (h : 4 ≤ s.srp.verdicts.length) :
    s.formVerdict feed bin = { s with srp.counts.lost := heldAdd 65535 s.srp.counts.lost } :=
  if_neg (Nat.not_lt.mpr h)

theorem verdictSent_of_sending (h : s.srp.verdictSending = true) : s.verdictSent = { s with
    srp.verdicts := s.srp.verdicts.tail
    srp.verdictSending := false
    srp.counts.sent := heldAdd 65535 s.srp.counts.sent } :=
  if_pos h

theorem verdictSent_of_idle (h : s.srp.verdictSending = false) : s.verdictSent = s :=
  if_neg (Bool.eq_false_iff.mp h)

theorem exec_verdictSent : exec .verdictSent s = .next s.verdictSent.settle := rfl

end

/-- Settles O53: each list by whether it has room, and VERDICT_SENT by whether a VERDICT is on the line. -/
theorem verdictsNoticesAndExceptionsQueue : Obligations.VerdictsNoticesAndExceptionsQueue := by
  unfold Obligations.VerdictsNoticesAndExceptionsQueue
  refine ⟨fun s => ⟨formVerdict_of_room s, formVerdict_of_full s, fun h => ?_, fun h => ?_⟩,
    fun s => ⟨notify_of_room s, notify_of_full s, addException_of_room s, addException_of_full s⟩⟩
  · rw [exec_verdictSent, verdictSent_of_sending s h]
    rfl
  · rw [exec_verdictSent, verdictSent_of_idle s h]

end Sys2Proof.Machine
end

