-- ==== Sys2Proof/Proofs/Booklets.lean ====
section
/-!
PROOFS. ISSUE_BOOKLET (R121) and TAKE_EXCEPTIONS (R128).
-/

namespace Sys2Proof.Machine

/-! ### The issue of a booklet (R121) -/

theorem issueClaim_of_room {s : State} {c : Nat} {y : Candidate} (hy : s.cand? c = some y) (h : y.issued < 8) :
    s.issueClaim c = (s.modCand c (fun z => { z with issued := z.issued + 1 }), true) := by
  simp [State.issueClaim, hy, h]

theorem issueClaim_of_limit {s : State} {c : Nat} {y : Candidate} (hy : s.cand? c = some y) (h : 8 ≤ y.issued) :
    s.issueClaim c = (s, false) := by
  simp [State.issueClaim, hy, Nat.not_lt.mpr h]

section
variable {slot : Half} {s : State} (hl : s.listening = true)
include hl

theorem exec_issueBooklet_noSlot (hslot : 512 ≤ slot.toNat) :
    exec (.issueBooklet slot) s = s.toHunt.replied 0x24 (badArgument 1) :=
  answerTo_badArgument hl (by simp [isSlot, Nat.not_lt.mpr hslot])

variable (hslot : slot.toNat < 512)
include hslot

theorem exec_issueBooklet_freeSlot (hy : s.cand? slot.toNat = none) :
    exec (.issueBooklet slot) s = s.toHunt.replied 0x24 notFound :=
  answerTo_withArgs hl (by simp [isSlot, hslot]) (by simp [hy])

variable {y : Candidate} (hy : s.cand? slot.toNat = some y)
include hy

theorem exec_issueBooklet_unseated (hs : y.state.seated = false) : exec (.issueBooklet slot) s =
    s.toHunt.replied 0x24 (refuse .refusedState .none (.candState y.state)) :=
  answerTo_withArgs hl (by simp [isSlot, hslot]) (by simp [hy, hs])

theorem exec_issueBooklet_limit (hs : y.state.seated = true) (hfull : 8 ≤ y.issued) :
    exec (.issueBooklet slot) s = s.toHunt.replied 0x24 (refuse .full) :=
  answerTo_withArgs hl (by simp [isSlot, hslot]) (by simp [hy, hs, issueClaim_of_limit (s := s.toHunt) hy hfull])

theorem exec_issueBooklet_taken (hs : y.state.seated = true) (hroom : y.issued < 8) : exec (.issueBooklet slot) s =
    (s.toHunt.modCand slot.toNat (fun z => { z with issued := z.issued + 1 })).replied 0x24
      (ok (.issued slot.toNat (y.issued + 1))) :=
  answerTo_withArgs hl (by simp [isSlot, hslot]) (by simp [hy, hs, issueClaim_of_room (s := s.toHunt) hy hroom])

end

/-- Settles O49: ISSUE_BOOKLET by the first of its checks that refuses. -/
theorem issueBookletCountsOne : Obligations.IssueBookletCountsOne := by
  unfold Obligations.IssueBookletCountsOne
  exact fun slot s hl => ⟨exec_issueBooklet_noSlot hl, exec_issueBooklet_freeSlot hl, fun y hslot hy =>
    ⟨fun hnot => exec_issueBooklet_unseated hl hslot hy (Bool.eq_false_iff.mpr (mt (seated_iff _).mp hnot)),
      fun hs => exec_issueBooklet_limit hl hslot hy ((seated_iff _).mpr hs),
      fun hs => exec_issueBooklet_taken hl hslot hy ((seated_iff _).mpr hs)⟩⟩

/-! ### The oldest exceptions (R128) -/

section
variable {count : Byte} {s : State} (hl : s.listening = true)
include hl

theorem exec_takeExceptions_taken (h1 : 1 ≤ count.toNat) (h32 : count.toNat ≤ 32) :
    exec (.takeExceptions count) s =
      ({ s.toHunt with scu.exceptions := s.scu.exceptions.drop count.toNat } : State).replied 0x25
        (ok (.exceptions (s.scu.exceptions.take count.toNat) (s.scu.exceptions.length - count.toNat))) :=
  answerTo_withArgs hl (by simp [h1, h32]) (by simp only [toHunt_scu, List.length_drop])

theorem exec_takeExceptions_badCount (h : count.toNat = 0 ∨ 32 < count.toNat) :
    exec (.takeExceptions count) s = s.toHunt.replied 0x25 (badArgument 1) := by
  have hcheck : (decide (1 ≤ count.toNat) && decide (count.toNat ≤ 32)) = false := by
    rw [← Bool.decide_and, decide_eq_false_iff_not]
    omega
  exact answerTo_badArgument hl (by rw [hcheck, firstBad_cons_false])

end

/-- Settles O50: TAKE_EXCEPTIONS by whether its count is 1 to 32. -/
theorem takeExceptionsRemovesOldest : Obligations.TakeExceptionsRemovesOldest := by
  unfold Obligations.TakeExceptionsRemovesOldest
  exact fun count s hl => ⟨exec_takeExceptions_taken hl, exec_takeExceptions_badCount hl⟩

end Sys2Proof.Machine
end

