-- ==== Sys2Proof/Proofs/Sweeps.lean ====
section
/-!
PROOFS. The sweep of a channel: which seats need collection and which an advance looks at (R130), the advance and the end
of a channel (R130, R135), START_SWEEP (R131) and STOP_SWEEP (R135).
-/

namespace Sys2Proof.Machine

/-! ### What needs collection (R130) -/

theorem needsCollection_iff {s : State} {i : Nat} : s.needsCollection i = true ↔ ∃ c y, s.boundTo i = some (c, y) ∧
    (y.state = .finished ∨ y.state = .withdrawn) ∧ y.collectedCount < y.issued := by
  simp [State.needsCollection, Option.any_eq_true, Prod.exists, Candidate.owes]

/-! ### The seats an advance looks at (R130) -/

/-- What is kept of a list sorted by `R` when it is cut at the first member past a bound: the members within the bound. -/
theorem takeWhile_eq_filter {α : Type} {R : α → α → Prop} {within : α → Bool}
    (hback : ∀ a b, R a b → within b = true → within a = true) {l : List α} (hl : l.Pairwise R) :
    l.takeWhile within = l.filter within := by
  induction l with
  | nil => rfl
  | cons a l ih =>
    obtain ⟨ha, hl⟩ := List.pairwise_cons.mp hl
    cases hw : within a with
    | true => rw [List.takeWhile_cons_of_pos hw, List.filter_cons_of_pos hw, ih hl]
    | false =>
      have hnone : l.filter within = [] :=
        List.filter_eq_nil_iff.mpr fun b hb hin => Bool.noConfusion (hw.symm.trans (hback a b (ha b hb) hin))
      rw [List.takeWhile_cons_of_neg (by simp [hw]), List.filter_cons_of_neg (by simp [hw]), hnone]

section
variable {R : Nat → Nat → Prop} {n : Nat} {place : Nat → Nat} {within : Nat → Bool}
  (hplace : ∀ a b, a < b → b < n → R (place a) (place b))
include hplace

/-- Places taken at growing distances are in the order of the direction. -/
theorem pairwise_places : ((List.range n).map place).Pairwise R :=
  List.pairwise_map.mpr (List.pairwise_lt_range.imp_of_mem fun _ hb hab => hplace _ _ hab (List.mem_range.mp hb))

theorem pairwise_places_within : (((List.range n).map place).takeWhile within).Pairwise R :=
  (pairwise_places hplace).sublist (List.takeWhile_sublist _)

/-- The places looked at are those of some distance that are not past the end. -/
theorem mem_places_within (hback : ∀ i j, R i j → within j = true → within i = true) {j : Nat} :
    j ∈ ((List.range n).map place).takeWhile within ↔ (∃ a, a < n ∧ place a = j) ∧ within j = true := by
  simp [takeWhile_eq_filter hback (pairwise_places hplace), List.mem_filter]

end

/-- The four directions are increasing or decreasing in the seat id. -/
theorem seatsAfter_pairwise (i e : Nat) :
    (seatsAfter .right i e).Pairwise (· < ·) ∧ (seatsAfter .down i e).Pairwise (· < ·) ∧
      (seatsAfter .left i e).Pairwise (· > ·) ∧ (seatsAfter .up i e).Pairwise (· > ·) :=
  ⟨pairwise_places_within fun _ _ _ _ => by omega, pairwise_places_within fun _ _ _ _ => by omega,
    pairwise_places_within fun _ _ _ _ => by omega, pairwise_places_within fun _ _ _ _ => by omega⟩

section
variable {n e j : Nat} {place : Nat → Nat}

theorem mem_places_upTo (hplace : ∀ a b, a < b → b < n → place a < place b) :
    j ∈ ((List.range n).map place).takeWhile (fun j => decide (j ≤ e)) ↔ (∃ a, a < n ∧ place a = j) ∧ j ≤ e := by
  rw [mem_places_within hplace fun a b hab => by simpa only [decide_eq_true_iff] using hab.le.trans, decide_eq_true_iff]

theorem mem_places_downTo (hplace : ∀ a b, a < b → b < n → place a > place b) :
    j ∈ ((List.range n).map place).takeWhile (fun j => decide (e ≤ j)) ↔ (∃ a, a < n ∧ place a = j) ∧ e ≤ j := by
  rw [mem_places_within hplace fun a b hab => by simpa only [decide_eq_true_iff] using (le_trans · hab.le),
    decide_eq_true_iff]

end

section
variable {i e j : Nat}

theorem mem_seatsAfter_right (he : e < 384) : j ∈ seatsAfter .right i e ↔ i < j ∧ j ≤ e :=
  (mem_places_upTo fun _ _ _ _ => by omega).trans
    ⟨fun ⟨⟨a, _, ha⟩, hj⟩ => by omega, fun ⟨hij, hj⟩ => ⟨⟨j - i - 1, by omega, by omega⟩, hj⟩⟩

theorem mem_seatsAfter_left : j ∈ seatsAfter .left i e ↔ j < i ∧ e ≤ j :=
  (mem_places_downTo fun _ _ _ _ => by omega).trans
    ⟨fun ⟨⟨a, _, ha⟩, hj⟩ => by omega, fun ⟨hij, hj⟩ => ⟨⟨i - j - 1, by omega, by omega⟩, hj⟩⟩

theorem mem_seatsAfter_down (he : e < 384) : j ∈ seatsAfter .down i e ↔ i < j ∧ j ≤ e ∧ j % 16 = i % 16 :=
  (mem_places_upTo fun _ _ _ _ => by omega).trans
    ⟨fun ⟨⟨a, _, ha⟩, hj⟩ => by omega,
      fun ⟨hij, hj, hcolumn⟩ => ⟨⟨(j - i) / 16 - 1, by omega, by omega⟩, hj⟩⟩

theorem mem_seatsAfter_up : j ∈ seatsAfter .up i e ↔ j < i ∧ e ≤ j ∧ j % 16 = i % 16 :=
  (mem_places_downTo fun _ _ _ _ => by omega).trans
    ⟨fun ⟨⟨a, _, ha⟩, hj⟩ => by omega,
      fun ⟨hij, hj, hcolumn⟩ => ⟨⟨(i - j) / 16 - 1, by omega, by omega⟩, hj⟩⟩

end

/-! ### The advance and the end of a channel (R130, R135) -/

theorem modChannel_modChannel (s : State) (k : Nat) (f g : Channel → Channel) :
    (s.modChannel k f).modChannel k g = s.modChannel k (fun x => g (f x)) := by
  simp only [State.modChannel, modAt_modAt]

/-- The end of an order names no last seat unless a SWEEP is stopped. -/
theorem endChannel_done (s : State) (k : Nat) : s.endChannel k false =
    (s.modChannel k (fun y => { y with state := .idle, current := none })).notify
      (.sweepDone k (s.channel k).state false (s.channel k).start (s.channel k).finish (s.channel k).stride none
        (s.channel k).completed (s.channel k).skipped (s.channel k).outOfOrder) :=
  rfl

theorem endChannel_stopped (s : State) (k : Nat) : s.endChannel k true =
    (s.modChannel k (fun y => { y with state := .idle, current := none })).notify
      (.sweepDone k (s.channel k).state true (s.channel k).start (s.channel k).finish (s.channel k).stride
        (if (s.channel k).state = .sweep then (s.channel k).current else none)
        (s.channel k).completed (s.channel k).skipped (s.channel k).outOfOrder) := by
  simp [State.endChannel]

section
variable {s : State} {k : Nat} {st : Stride} {i e : Nat} (hst : (s.channel k).stride = some st)
  (hi : (s.channel k).current = some i) (he : (s.channel k).finish = some e)
include hst hi he

theorem advance_moves {j : Nat} (hj : (seatsAfter st i e).find? s.needsCollection = some j) :
    s.advance k = s.modChannel k (fun y => { y with current := some j }) := by
  simp only [State.advance, State.nextSeat, hst, hi, he, hj]

theorem advance_ends (hnone : (seatsAfter st i e).find? s.needsCollection = none) :
    s.advance k = s.endChannel k false := by
  simp only [State.advance, State.nextSeat, hst, hi, he, hnone]

end

theorem currentDone_iff {s : State} {k : Nat} : s.currentDone k = true ↔ (s.channel k).state = .sweep ∧
    ∃ i, (s.channel k).current = some i ∧ s.needsCollection i = false := by
  simp [State.currentDone, Option.any_eq_true]

theorem advanceIfDone_of_done {s : State} {k : Nat} (h : s.currentDone k = true) :
    s.advanceIfDone k = (s.modChannel k (fun y => { y with completed := y.completed + 1 })).advance k :=
  if_pos h

theorem advanceIfDone_of_not_done {s : State} {k : Nat} (h : ¬s.currentDone k = true) : s.advanceIfDone k = s :=
  if_neg h

/-- Looking at a channel leaves the candidates alone. -/
@[simp] theorem advanceIfDone_cands (s : State) (k : Nat) : (s.advanceIfDone k).htu.cands = s.htu.cands :=
  (advanceIfDone_only s k).same .cands

@[simp] theorem cand?_advanceIfDone (s : State) (k c : Nat) : (s.advanceIfDone k).cand? c = s.cand? c := by
  simp only [State.cand?, advanceIfDone_cands]

@[simp] theorem lookup_advanceIfDone (s : State) (k number : Nat) (sitting : Option Nat) :
    (s.advanceIfDone k).lookup number sitting = s.lookup number sitting := by
  simp only [lookup_eq, State.lowestCand, advanceIfDone_cands]

@[simp] theorem cand?_advanceAll (s : State) (c : Nat) : s.advanceAll.cand? c = s.cand? c := by
  simp only [State.advanceAll, State.forEach, List.foldl_cons, List.foldl_nil, cand?_advanceIfDone]

/-! ### START_SWEEP (R131) -/

/-- The first seat of a sweep is the first that needs collection, from the start on. -/
theorem firstSeat_eq (s : State) (st : Stride) (start finish : Nat) : s.firstSeat st start finish =
    (start :: seatsAfter st start finish).find? s.needsCollection := by
  cases h : s.needsCollection start <;> simp [State.firstSeat, State.nextSeat, h]

theorem startSweep_of_some {s : State} {k : Nat} {st : Stride} {start finish i : Nat}
    (h : s.firstSeat st start finish = some i) : s.startSweep k st start finish =
      (s.modChannel k (fun _ => sweepChannel st start finish (some i)), ok (.sweepStarted (some i))) := by
  simp only [State.startSweep, h, Option.isSome_some, if_true]

/-- A SWEEP that finds no seat is done at once, with its counts at 0. -/
theorem startSweep_of_none {s : State} {k : Nat} {st : Stride} {start finish : Nat} (hk : k < 4)
    (h : s.firstSeat st start finish = none) : s.startSweep k st start finish =
      ((s.modChannel k (fun _ => { sweepChannel st start finish none with state := .idle })).notify
        (.sweepDone k .sweep false (some start) (some finish) (some st) none 0 0 0), ok (.sweepStarted none)) := by
  have hread : (s.modChannel k (fun _ => sweepChannel st start finish none)).channel k =
      sweepChannel st start finish none := by
    rw [channel_modChannel _ _ _ _ hk, if_pos rfl]
  simp only [State.startSweep, h, Option.isSome_none, Bool.false_eq_true, if_false, endChannel_done, hread,
    modChannel_modChannel]
  rfl

theorem startSweepChecks_desk {b : Byte} (start finish : Half) (step' : Byte) (hb : b.toNat < 4) :
    ∀ c ∈ startSweepChecks b 2#8 start finish step', c = true := by
  simp [startSweepChecks, sweepModeOf, isChannel, hb]

theorem startSweepChecks_sweep {b : Byte} {start finish : Half} {step' : Byte} {st : Stride} (hb : b.toNat < 4)
    (hstart : start.toNat < 384) (hfinish : finish.toNat < 384) (hst : strideOf step' = some st)
    (hleads : stepLeads st start.toNat finish.toNat = true) :
    ∀ c ∈ startSweepChecks b 1#8 start finish step', c = true := by
  simp [startSweepChecks, sweepModeOf, isChannel, isSeat, hb, hstart, hfinish, hst, hleads]

section
variable {b mode : Byte} {start finish : Half} {step' : Byte} {s : State} (hl : s.listening = true)
include hl

theorem exec_startSweep_busy (hchecks : ∀ c ∈ startSweepChecks b mode start finish step', c = true)
    (hbusy : (s.channel b.toNat).state ≠ .idle) : exec (.startSweep b mode start finish step') s =
      s.toHunt.replied 0x26 (refuse .busy .none (.channelState (s.channel b.toNat).state)) :=
  answerTo_withArgs hl hchecks (if_pos hbusy)

theorem exec_startSweep_desk (hb : b.toNat < 4) (hidle : (s.channel b.toNat).state = .idle) :
    exec (.startSweep b 2#8 start finish step') s =
      (s.toHunt.modChannel b.toNat (fun _ => ⟨.desk, none, none, none, none, 0, 0, 0⟩)).replied 0x26 (ok .none) :=
  answerTo_withArgs hl (startSweepChecks_desk start finish step' hb) ((if_neg (not_not.mpr hidle)).trans (if_pos rfl))

/-- START_SWEEP with SWEEP at an IDLE channel is answered by what the start of the sweep comes to. -/
theorem exec_startSweep_sweep {st : Stride} {u : State} {a : Answer}
    (hchecks : ∀ c ∈ startSweepChecks b 1#8 start finish step', c = true)
    (hidle : (s.channel b.toNat).state = .idle) (hst : strideOf step' = some st)
    (hstarted : s.toHunt.startSweep b.toNat st start.toNat finish.toNat = (u, a)) :
    exec (.startSweep b 1#8 start finish step') s = u.replied 0x26 a := by
  refine answerTo_withArgs hl hchecks ((if_neg (not_not.mpr hidle)).trans ((if_neg (by decide)).trans ?_))
  rw [hst, Option.getD_some, hstarted]

end

/-! ### STOP_SWEEP (R135) -/

section
variable {b : Byte} {s : State} (hl : s.listening = true) (hb : b.toNat < 4)
include hl hb

theorem exec_stopSweep_idle (hidle : (s.channel b.toNat).state = .idle) :
    exec (.stopSweep b) s = s.toHunt.replied 0x27 (refuse .refusedState) :=
  answerTo_withArgs hl (by simpa [isChannel] using hb) (if_pos hidle)

theorem exec_stopSweep_taken (hbusy : (s.channel b.toNat).state ≠ .idle) : exec (.stopSweep b) s =
    (s.toHunt.endChannel b.toNat true).replied 0x27 (ok (.sweepCounts (s.channel b.toNat).completed
      (s.channel b.toNat).skipped (s.channel b.toNat).outOfOrder)) :=
  answerTo_withArgs hl (by simpa [isChannel] using hb) (if_neg hbusy)

end

end Sys2Proof.Machine
end

