-- ==== Sys2Proof/Proofs/Tags.lean ====
section
/-!
PROOFS. A tag read and a SKIP from a station (R122 to R125, R132, R133).
-/

namespace Sys2Proof.Machine

/-! ### The checks of a GOOD read (R122, 11.6) -/

/-- The check byte goes by the four bytes of the number. -/
theorem tagCheck_eq {number : Word} (sitting sequence : Byte) {n3 n2 n1 n0 : Byte}
    (h : number.toNat = ((n3.toNat * 256 + n2.toNat) * 256 + n1.toNat) * 256 + n0.toNat) :
    tagCheck number sitting sequence =
      255 - (n3.toNat + n2.toNat + n1.toNat + n0.toNat + sitting.toNat + sequence.toNat) % 256 := by
  have b3 : number.toNat / 16777216 % 256 = n3.toNat := by omega
  have b2 : number.toNat / 65536 % 256 = n2.toNat := by omega
  have b1 : number.toNat / 256 % 256 = n1.toNat := by omega
  have b0 : number.toNat % 256 = n0.toNat := by omega
  simp only [tagCheck, b3, b2, b1, b0]

theorem valid_iff {t : Tag} : t.valid = true ↔ t.check.toNat = tagCheck t.number t.sitting t.sequence ∧
    1 ≤ t.number.toNat ∧ t.number.toNat ≤ 99999999 ∧ t.sitting.toNat < 8 ∧ 1 ≤ t.sequence.toNat ∧
      t.sequence.toNat ≤ 8 := by
  simp [Tag.valid, isNumber, and_assoc]

/-! ### The collected set (11.1) -/

/-- A set with one number more has that number and those it had. -/
theorem getLsbD_addCollected (set : Collected) {m : Nat} (h1 : 1 ≤ m) (h8 : m ≤ 8) (n : Nat) :
    (addCollected set m).getLsbD n = (set.getLsbD n || decide (n + 1 = m)) := by
  have hbit : (1#8 <<< (m - 1)).getLsbD n = decide (n + 1 = m) := by
    rw [BitVec.getLsbD_shiftLeft, BitVec.getLsbD_one, Bool.eq_iff_iff]
    simp only [Bool.and_eq_true, Bool.not_eq_true', decide_eq_true_iff, decide_eq_false_iff_not]
    omega
  rw [addCollected, BitVec.getLsbD_or, hbit]

/-! ### What stands in the candidate table and at the channel through an exception (R127) -/

@[simp] theorem addException_cand? (s : State) (kind : ExceptionKind) (station : Nat) (tag : Option Tag)
    (seat : Option Nat) (c : Nat) : (s.addException kind station tag seat).cand? c = s.cand? c := by
  rw [State.cand?, (addException_only s kind station tag seat).same .cands]
  rfl

@[simp] theorem addException_channel (s : State) (kind : ExceptionKind) (station : Nat) (tag : Option Tag)
    (seat : Option Nat) (k : Nat) : (s.addException kind station tag seat).channel k = s.channel k := by
  rw [State.channel, (addException_only s kind station tag seat).same .channels]
  rfl

/-! ### The order check (R132) -/

/-- A recorded tag is in order when its candidate's seat is the channel's, or the channel is in no sweep. -/
def State.inOrder (s : State) (k : Nat) (y : Candidate) : Prop :=
  (s.channel k).state ≠ .sweep ∨ y.bound = (s.channel k).current ∨ y.finish = (s.channel k).current

section
variable {s : State} {k c : Nat} {y : Candidate} {t : Tag} (hy : s.cand? c = some y)
include hy

theorem orderCheck_inOrder (h : s.inOrder k y) : s.orderCheck k c t = s := by
  unfold State.orderCheck
  split
  next hsweep =>
    simp only [hy]
    exact if_pos (by simpa [State.inOrder, hsweep] using h)
  next => rfl

theorem orderCheck_outOfOrder (h : ¬s.inOrder k y) : s.orderCheck k c t =
    (s.addException .outOfOrder k (some t) y.seat).modChannel k
      (fun x => { x with outOfOrder := heldAdd 65535 x.outOfOrder }) := by
  obtain ⟨hsweep, hseat⟩ := not_or.mp h
  simp only [State.orderCheck, if_pos (not_not.mp hsweep), hy]
  exact if_neg (by simpa using hseat)

end

/-- The order check leaves the candidates alone. -/
@[simp] theorem orderCheck_cand? (s : State) (k c : Nat) (t : Tag) (d : Nat) :
    (s.orderCheck k c t).cand? d = s.cand? d := by
  rw [State.cand?, (orderCheck_only s k c t).same .cands]
  rfl

/-! ### A booklet recorded (R124) -/

/-- The candidate's record with a booklet more. -/
def Candidate.withBooklet (y : Candidate) (k : Nat) (t : Tag) : Candidate :=
  { y with collected := addCollected y.collected t.sequence.toNat, lastStation := some k }

/-- The booklet in the record, with EARLY for a candidate that has not finished. -/
def State.bookletNoted (s : State) (k c : Nat) (y : Candidate) (t : Tag) : State :=
  let s1 := s.modCand c (·.withBooklet k t)
  if y.state.seated then s1.addException .early k (some t) y.seat else s1

/-- Is this booklet the last of a closed candidate (R125)? -/
def Candidate.completedBy (y : Candidate) (k : Nat) (t : Tag) : Bool :=
  (y.state == .finished || y.state == .absent || y.state == .withdrawn) && (y.withBooklet k t).collectedCount == y.issued

section
variable {s : State} {k c : Nat} {y : Candidate} {t : Tag}

theorem recordBooklet_eq : s.recordBooklet k c y t = if y.completedBy k t then
    ((s.bookletNoted k c y t).orderCheck k c t).completeCollection c
    else (s.bookletNoted k c y t).orderCheck k c t :=
  rfl

theorem cand?_bookletNoted (hy : s.cand? c = some y) : (s.bookletNoted k c y t).cand? c = some (y.withBooklet k t) := by
  unfold State.bookletNoted
  split <;> simp [cand?_modCand, hy]

@[simp] theorem channel_bookletNoted (j : Nat) : (s.bookletNoted k c y t).channel j = s.channel j := by
  unfold State.bookletNoted
  split <;> simp

theorem completedBy_iff : y.completedBy k t = true ↔
    (y.state = .finished ∨ y.state = .absent ∨ y.state = .withdrawn) ∧ (y.withBooklet k t).collectedCount = y.issued := by
  simp [Candidate.completedBy, or_assoc]

/-- The order check of a booklet just noted is that of the record before it. -/
theorem orderCheck_bookletNoted {_ : Decidable (s.inOrder k y)} (hy : s.cand? c = some y) :
    (s.bookletNoted k c y t).orderCheck k c t = if s.inOrder k y then s.bookletNoted k c y t else
      ((s.bookletNoted k c y t).addException .outOfOrder k (some t) y.seat).modChannel k
        (fun x => { x with outOfOrder := heldAdd 65535 x.outOfOrder }) := by
  have hsame : (s.bookletNoted k c y t).inOrder k (y.withBooklet k t) ↔ s.inOrder k y := by
    simp only [State.inOrder, channel_bookletNoted]
    rfl
  split
  next h => exact orderCheck_inOrder (cand?_bookletNoted hy) (hsame.mpr h)
  next h => exact orderCheck_outOfOrder (y := y.withBooklet k t) (cand?_bookletNoted hy) (mt hsame.mp h)

/-- The candidate keeps its record but for the booklet, and for its seat when the collection is complete. -/
theorem cand?_recordBooklet (hy : s.cand? c = some y) : (s.recordBooklet k c y t).cand? c =
    some { y.withBooklet k t with bound := if y.completedBy k t then none else y.bound } := by
  rw [recordBooklet_eq]
  split
  · simp [State.completeCollection, cand?_clearBinding, cand?_bookletNoted hy]
  · simp [cand?_bookletNoted hy, Candidate.withBooklet]

end

/-! ### A tag read (R123, R124) -/

section
variable {s : State} {k : Nat} {t : Tag}

theorem tagRead_misread : State.tagRead k none s = (s.advanceIfDone k).addException .misread k none none := rfl

theorem tagRead_invalid (h : t.valid = false) :
    State.tagRead k (some t) s = (s.advanceIfDone k).addException .misread k (some t) none := by
  simp [State.tagRead, h]

variable (hvalid : t.valid = true)
include hvalid

theorem tagRead_unknown (hslot : s.lookup t.number.toNat (some t.sitting.toNat) = none) :
    State.tagRead k (some t) s = (s.advanceIfDone k).addException .unknown k (some t) none := by
  simp [State.tagRead, State.processTag, hvalid, hslot]

variable {c : Nat} {y : Candidate} (hslot : s.lookup t.number.toNat (some t.sitting.toNat) = some c)
  (hy : s.cand? c = some y)
include hslot hy

theorem tagRead_overIssue (hover : y.issued < t.sequence.toNat) :
    State.tagRead k (some t) s = (s.advanceIfDone k).addException .overIssue k (some t) y.seat := by
  simp [State.tagRead, State.processTag, hvalid, hslot, hy, hover]

variable (hissued : t.sequence.toNat ≤ y.issued)
include hissued

theorem tagRead_duplicate (hin : y.collected.getLsbD (t.sequence.toNat - 1) = true) :
    State.tagRead k (some t) s = (s.advanceIfDone k).addException .duplicate k (some t) y.seat := by
  simp [State.tagRead, State.processTag, inCollected, hvalid, hslot, hy, Nat.not_lt.mpr hissued, hin]

theorem tagRead_recorded (hnew : y.collected.getLsbD (t.sequence.toNat - 1) = false) :
    State.tagRead k (some t) s = (s.advanceIfDone k).recordBooklet k c y t := by
  simp [State.tagRead, State.processTag, inCollected, hvalid, hslot, hy, Nat.not_lt.mpr hissued, hnew]

end

/-! ### A SKIP (R133) -/

section
variable {s : State} {k : Nat}

theorem skip_outsideSweep (h : ((s.advanceIfDone k).channel k).state ≠ .sweep) : s.skip k = s.advanceIfDone k :=
  if_neg h

theorem skip_inSweep (h : ((s.advanceIfDone k).channel k).state = .sweep) : s.skip k =
    (((s.advanceIfDone k).addException .missing k none ((s.advanceIfDone k).channel k).current).modChannel k
      (fun x => { x with skipped := x.skipped + 1 })).advance k :=
  if_pos h

end

/-! ### START_SWEEP, STOP_SWEEP, the tags and the advance together -/

/-- Settles O51: the two requests by the channel's state, a tag read by the first of its checks that fails, a recorded tag
by the order check and the completion, a SKIP and the advance by the channel's, and the seats of each direction. -/
theorem sweepsTagsAndSkips : Obligations.SweepsTagsAndSkips := by
  unfold Obligations.SweepsTagsAndSkips
  refine ⟨fun b mode start finish step' s hl hb => ⟨?desk, ?sweep, exec_stopSweep_idle hl hb, ?stop⟩, ?checks,
    fun s k hk => ⟨tagRead_misread, fun t => tagRead_invalid, fun t hvalid => ⟨tagRead_unknown hvalid,
      fun c y hslot hy => ⟨tagRead_overIssue hvalid hslot hy, tagRead_duplicate hvalid hslot hy, ?record⟩⟩,
      skip_outsideSweep, skip_inSweep⟩,
    ?recorded, fun s k hk => ⟨?stays, ?leaves, fun st i e hst hi he => ⟨fun j => advance_moves hst hi he, ?ends⟩⟩,
    fun i e j _ he => ⟨mem_seatsAfter_right he, mem_seatsAfter_left, mem_seatsAfter_down he, mem_seatsAfter_up,
      seatsAfter_pairwise i e⟩,
    fun s i => needsCollection_iff⟩
  case desk =>
    rintro rfl
    exact ⟨exec_startSweep_busy hl (startSweepChecks_desk _ _ _ hb), exec_startSweep_desk hl hb⟩
  case sweep =>
    rintro st rfl hstart hfinish hst hleads
    have hchecks := startSweepChecks_sweep hb hstart hfinish hst hleads
    refine ⟨exec_startSweep_busy hl hchecks, fun i hidle hfirst => ?_, fun hidle hfirst => ?_⟩
    · exact exec_startSweep_sweep hl hchecks hidle hst (startSweep_of_some ((firstSeat_eq _ _ _ _).trans hfirst))
    · exact exec_startSweep_sweep hl hchecks hidle hst (startSweep_of_none hb ((firstSeat_eq _ _ _ _).trans hfirst))
  case stop =>
    intro hbusy
    rw [exec_stopSweep_taken hl hb hbusy, endChannel_stopped]
    rfl
  case checks =>
    intro t n3 n2 n1 n0 hnumber
    rw [valid_iff, tagCheck_eq _ _ hnumber]
  case record =>
    intro hissued hnew
    obtain ⟨-, -, -, -, h1, h8⟩ := valid_iff.mp hvalid
    refine ⟨{ y.withBooklet k t with bound := if y.completedBy k t then none else y.bound }, ?_, rfl,
      getLsbD_addCollected y.collected h1 h8, rfl, fun hclosed hall => ?_, fun hleft => ?_⟩
    · rw [tagRead_recorded hvalid hslot hy hissued hnew]
      exact cand?_recordBooklet ((cand?_advanceIfDone s k c).trans hy)
    · exact if_pos (completedBy_iff.mpr ⟨hclosed, hall⟩)
    · exact if_neg (mt completedBy_iff.mp fun h => hleft h.2)
  case recorded =>
    intro s k c t y hk hvalid hslot hy hissued hnew n cur inOrder early complete s1 s2 s3 r
    have hearly : s2 = (s.advanceIfDone k).bookletNoted k c y t := if_congr (seated_iff _).symm rfl rfl
    have horder : s3 = ((s.advanceIfDone k).bookletNoted k c y t).orderCheck k c t := by
      simp only [s3, hearly]
      exact (orderCheck_bookletNoted ((cand?_advanceIfDone s k c).trans hy)).symm
    rw [tagRead_recorded hvalid hslot hy hissued hnew, recordBooklet_eq, ← horder]
    exact if_congr completedBy_iff rfl rfl
  case stays => exact fun hstays => advanceIfDone_of_not_done (mt currentDone_iff.mp hstays)
  case leaves => exact fun hleft => advanceIfDone_of_done (currentDone_iff.mpr hleft)
  case ends =>
    intro hnone
    rw [advance_ends hst hi he hnone, endChannel_done]

end Sys2Proof.Machine
end

