-- ==== Sys2Proof/Proofs/Transmitters.lean ====
section
/-!
PROOFS. The two transmitters at the end of an event, and the end of a control frame (R148, R174, R175, R186).
-/

namespace Sys2Proof.Machine

/-! ### What the transmitters begin -/

section
variable (s : State)

/-- A VERDICT is on the line once RRDY is asserted and the list is not empty (R148). -/
theorem beginVerdict_eq : s.beginVerdict = { s with
    srp.verdictSending := s.srp.verdictSending || (s.srp.rrdy && !s.srp.verdicts.isEmpty) } := by
  unfold State.beginVerdict
  split
  next h => rw [h, Bool.or_true]
  next h => rw [Bool.eq_false_iff.mpr h, Bool.or_false]

/-- A frame is begun when the line is free, HRDY is asserted and no reset is about to act (R175, R186). -/
theorem beginFrame_eq : s.beginFrame = { s with
    cli.sending := if s.cli.hrdy = true ∧ s.cli.sending = none ∧ s.cli.resetDue = none then s.nextFrame
      else s.cli.sending } := by
  have free : (s.cli.hrdy && s.cli.sending.isNone && s.cli.resetDue.isNone) = true ↔
      s.cli.hrdy = true ∧ s.cli.sending = none ∧ s.cli.resetDue = none := by
    simp [and_assoc]
  unfold State.beginFrame
  simp only [free]
  split <;> rfl

/-- Neither transmitter looks at what the other has begun. -/
theorem settle_eq : s.settle = { s with
    srp.verdictSending := s.srp.verdictSending || (s.srp.rrdy && !s.srp.verdicts.isEmpty)
    cli.sending := if s.cli.hrdy = true ∧ s.cli.sending = none ∧ s.cli.resetDue = none then s.nextFrame
      else s.cli.sending } := by
  rw [State.settle, beginFrame_eq, beginVerdict_eq]
  rfl

end

/-! ### The end of a frame -/

section
variable {s : State}

theorem exec_hrdyChange (level : Bool) : exec (.hrdyChange level) s = .next ({ s with cli.hrdy := level } : State).settle :=
  rfl

theorem exec_frameSent_idle (h : s.cli.sending = none) : exec .frameSent s = .next s.settle := by
  simp only [exec, execFrameSent, h]
  rfl

theorem exec_frameSent_of_sending {f : OutFrame} (h : s.cli.sending = some f) :
    exec .frameSent s = .next (s.frameSent f).settle := by
  simp only [exec, execFrameSent, h]
  rfl

/-- The end of a wait releases the RESET it was for (R186). -/
theorem releaseReset_eq : s.releaseReset = { s with
    cli.resetTaken := none
    cli.resetDue := if s.cli.resetTaken = none then s.cli.resetDue else s.cli.resetTaken } := by
  unfold State.releaseReset
  split
  next scope h => simp [h]
  next h => rw [if_pos h, ← h]

/-- A request's reply sent ends the wait: the OVERRUN reply joins when frames were discarded during it (R174, R175). -/
theorem frameSent_reply (r : Reply) : s.frameSent (.reply r) = { s with
    cli.sending := none
    cli.replies := if s.cli.discarded = true ∧ s.cli.replies.tail.any ReplyEntry.isOverrun = false
      then s.cli.replies.tail ++ [.overrun] else s.cli.replies.tail
    cli.discarded := false
    cli.resetTaken := none
    cli.resetDue := if s.cli.resetTaken = none then s.cli.resetDue else s.cli.resetTaken } := by
  rw [State.frameSent, releaseReset_eq]
  rfl

end

/-- Settles O13: the transmitters by what each may begin, and FRAME_SENT by the frame on the line. -/
theorem transmittersBeginAndEndFrames : Obligations.TransmittersBeginAndEndFrames := by
  unfold Obligations.TransmittersBeginAndEndFrames
  refine ⟨⟨fun s => ?begins, fun s kind a => rfl⟩, fun s => ⟨exec_hrdyChange, exec_frameSent_idle, fun r h => ?reply,
    fun f n e h => exec_frameSent_of_sending h, fun f n h => exec_frameSent_of_sending h,
    fun f n h => exec_frameSent_of_sending h⟩⟩
  case begins =>
    rw [settle_eq]
    rcases hreplies : s.cli.replies with _ | ⟨r | _ | _, _⟩ <;> rcases hnotices : s.cli.notices with _ | _ <;>
      simp [State.nextFrame, hreplies, hnotices]
  case reply => rw [exec_frameSent_of_sending h, frameSent_reply]

end Sys2Proof.Machine
end

