-- ==== Sys2Proof/Proofs/SheetFrames.lean ====
section
/-!
PROOFS. A sheet frame on the reader's line (chapter 8): what its bytes spell (R141, R146, 11.5), which byte ends it and
how (R141, R143), its end as one event (R143 to R146), and the assembler (R139, R142).
-/

namespace Sys2Proof.Machine

/-! ### What the bytes of a frame spell -/

/-- The counts the header allows (R141). -/
theorem countAllowed_iff {h : Byte} : countAllowed h = true ↔ 1 ≤ h.toNat ∧ h.toNat ≤ 15 := by
  simp [countAllowed]

theorem countAllowed_eq_false_iff {h : Byte} : countAllowed h = false ↔ h.toNat = 0 ∨ 15 < h.toNat := by
  rw [← Bool.not_eq_true, countAllowed_iff]
  omega

theorem headerFault_iff {taken : List Byte} :
    headerFault taken = true ↔ ∃ h, taken[0]? = some h ∧ (h.toNat = 0 ∨ 15 < h.toNat) := by
  simp [headerFault, frameCount, Option.any_eq_true, countAllowed_eq_false_iff]

/-- The rows of a form (R141). -/
theorem formRows_eq {form : Nat} (h : form ≤ 3) : formRows form = 40 * (form + 1) := by
  match form with
  | 0 | 1 | 2 | 3 => rfl
  | _ + 4 => omega

section
variable {taken : List Byte} {h : Byte}

/-- A frame whose count is faulty, or that has not come to the end of its ID block, has none. -/
theorem idBytes_eq_none (hcount : taken[0]? = some h)
    (hshort : h.toNat = 0 ∨ 15 < h.toNat ∨ taken.length < headerLength h + 6) : idBytes taken = none := by
  have hcut : (countAllowed h && ((taken.drop (headerLength h)).take 6).length == 6) = false := by
    rw [Bool.and_eq_false_iff, countAllowed_eq_false_iff, beq_eq_false_iff_ne, List.length_take, List.length_drop]
    omega
  simp only [idBytes, frameCount, hcount, hcut]
  rfl

/-- The ID block is the six bytes after the header. -/
theorem idBytes_eq_some (hcount : taken[0]? = some h) (hallowed : countAllowed h = true)
    (hlong : headerLength h + 6 ≤ taken.length) : idBytes taken = some ((taken.drop (headerLength h)).take 6) := by
  have hfull : ((taken.drop (headerLength h)).take 6).length = 6 := by
    rw [List.length_take, List.length_drop]
    omega
  simp [idBytes, frameCount, hcount, hallowed, hfull]

/-- The last byte of the ID block is the form. -/
theorem formOf_idBytes {form : Byte} (hform : taken[headerLength h + 5]? = some form) :
    formOf ((taken.drop (headerLength h)).take 6) = form.toNat := by
  simp [formOf, List.getElem?_drop, hform]

end

/-- Bits 5 and 6 of a mark row byte are its quality; the fourth code is taken as UNREADABLE (11.5). -/
theorem qualityOf_eq (b : Byte) : qualityOf b =
    if b.extractLsb' 5 2 = 0#2 then .clean else if b.extractLsb' 5 2 = 1#2 then .corrected else .unreadable := by
  have hcode : (b.extractLsb' 5 2).toNat = b.toNat / 32 % 4 := by
    simp [BitVec.extractLsb'_toNat, Nat.shiftRight_eq_div_pow]
  simp only [BitVec.toNat_eq, hcode]
  unfold qualityOf
  generalize b.toNat / 32 % 4 = code
  match code with
  | 0 | 1 | _ + 2 => simp

theorem rowOf_eq (b : Byte) : rowOf b =
    { options := b.extractLsb' 0 5
      quality := if b.extractLsb' 5 2 = 0#2 then .clean else if b.extractLsb' 5 2 = 1#2 then .corrected else .unreadable
      erased := b.getLsbD 7 } := by
  have hoptions : b.truncate 5 = b.extractLsb' 0 5 := BitVec.eq_of_toNat_eq (by simp)
  rw [rowOf, qualityOf_eq, hoptions]

/-! ### The frame cut at its ID block (11.5) -/

section
variable {h : Byte} {taken before id after : List Byte}

theorem idBytes_eq_some_of_split (hcount : taken[0]? = some h) (hallowed : countAllowed h = true)
    (htaken : taken = before ++ id ++ after) (hbefore : before.length = headerLength h) (hid : id.length = 6) :
    idBytes taken = some id := by
  have hlong : headerLength h + 6 ≤ taken.length := by
    simp only [htaken, List.length_append]
    omega
  rw [idBytes_eq_some hcount hallowed hlong, htaken, List.append_assoc, List.drop_left' hbefore, List.take_left' hid]

/-- The rows are the bytes after the ID block, as many as the form has. -/
theorem sheetOf_eq_of_split (htaken : taken = before ++ id ++ after) (hbefore : before.length = headerLength h)
    (hid : id.length = 6) (hform : formOf id ≤ 3) : sheetOf h id taken =
      { number := beNat (id.take 4)
        sitting := ((id[4]?).getD 0).toNat
        form := formOf id
        rows := (after.take (40 * (formOf id + 1))).map rowOf
        feed := (feedOf taken).getD 0
        further := furtherOf h taken } := by
  have hafter : taken.drop (headerLength h + 6) = after := by
    rw [htaken, List.drop_left' (by rw [List.length_append, hbefore, hid])]
  rw [sheetOf, hafter, formRows_eq hform]

end

/-! ### Which byte ends a frame, and how (R141, R143) -/

/-- Before the feed sequence nothing ends a frame. -/
theorem progress_unaddressed {taken : List Byte} (h : taken.length < 2) : progress taken = .more := by
  have hfeed : feedOf taken = none := List.getElem?_eq_none (by omega)
  unfold progress
  rw [hfeed]
  split
  next hsome => cases hsome
  next => rfl

section
variable {h feed : Byte} {rest : List Byte}

/-- The feed sequence ends a frame whose count is faulty. -/
theorem progress_header (hfaulty : countAllowed h = false) : progress (h :: feed :: rest) = .ended (some .header) := by
  simp [progress, frameCount, feedOf, hfaulty]

/-- Between the feed sequence and the end of the ID block nothing ends a frame. -/
theorem progress_transport (hallowed : countAllowed h = true)
    (hshort : (h :: feed :: rest).length < headerLength h + 6) : progress (h :: feed :: rest) = .more := by
  have hid : idBytes (h :: feed :: rest) = none := idBytes_eq_none rfl (.inr (.inr hshort))
  simp [progress, frameCount, feedOf, hallowed, hid]

/-- From the ID block on, its form decides: one above 3 ends the frame, and the others say where its last byte is. -/
theorem progress_form {form : Byte} (hallowed : countAllowed h = true)
    (hform : (h :: feed :: rest)[headerLength h + 5]? = some form) : progress (h :: feed :: rest) =
      if 3 < form.toNat then .ended (some .length)
      else if (h :: feed :: rest).length < headerLength h + 6 + formRows form.toNat + 3 then .more
      else .ended (frameVerdict h (formRows form.toNat) (h :: feed :: rest)) := by
  obtain ⟨hlong, -⟩ := List.getElem?_eq_some_iff.mp hform
  have hid := idBytes_eq_some (taken := h :: feed :: rest) rfl hallowed hlong
  simp [progress, frameCount, feedOf, hallowed, hid, formOf_idBytes hform]

/-- Up to the byte before its last nothing ends a frame whose form is one of the four. -/
theorem progress_rows {form : Byte} (hallowed : countAllowed h = true)
    (hform : (h :: feed :: rest)[headerLength h + 5]? = some form) (hgood : form.toNat ≤ 3)
    (hshort : (h :: feed :: rest).length ≤ headerLength h + 6 + 40 * (form.toNat + 1) + 2) :
    progress (h :: feed :: rest) = .more := by
  rw [progress_form hallowed hform, if_neg (Nat.not_lt.mpr hgood), formRows_eq hgood]
  exact if_pos (Nat.lt_succ_of_le hshort)

/-- The last byte ends it: the end marker is looked at first, then the checksum. -/
theorem progress_last {form b : Byte} (hallowed : countAllowed h = true)
    (hform : (h :: feed :: rest)[headerLength h + 5]? = some form) (hgood : form.toNat ≤ 3)
    (hlast : (h :: feed :: rest)[headerLength h + 6 + 40 * (form.toNat + 1) + 2]? = some b) :
    progress (h :: feed :: rest) = .ended (if b ≠ 0x5D#8 then some .length
      else if ((h :: feed :: rest).drop (headerLength h + 6 + 40 * (form.toNat + 1))).take 2 =
          crcBytes (((h :: feed :: rest).drop (headerLength h)).take (6 + 40 * (form.toNat + 1))) then none
      else some .check) := by
  obtain ⟨hlong, -⟩ := List.getElem?_eq_some_iff.mp hlast
  rw [progress_form hallowed hform, if_neg (Nat.not_lt.mpr hgood), formRows_eq hgood, if_neg (by omega), frameVerdict, hlast]
  simp

end

/-! ### The end of a frame (R143 to R146) -/

/-- The counts after a frame's end: each is one more, held at its top, when the ending is its own. -/
theorem addEnd_eq (n : ReaderCounts) (f : Option FrameFault) (addressed : Bool) : n.addEnd f addressed =
    { ended := heldAdd 65535 n.ended
      wellFormed := if f = none then heldAdd 65535 n.wellFormed else n.wellFormed
      check := if f = some .check then heldAdd 65535 n.check else n.check
      length := if f = some .length then heldAdd 65535 n.length else n.length
      header := if f = some .header then heldAdd 65535 n.header else n.header
      torn := if f = some .torn then heldAdd 65535 n.torn else n.torn
      stray := n.stray
      unaddressed := if addressed then n.unaddressed else heldAdd 65535 n.unaddressed
      sent := n.sent
      lost := n.lost } := by
  rcases f with _ | _ | _ | _ | _ <;> rfl

/-- A frame is addressed when its feed sequence has been received. -/
theorem isSome_feedOf (taken : List Byte) : (feedOf taken).isSome = true ↔ ¬taken.length < 2 := by
  rw [feedOf, Option.isSome_iff_ne_none, ne_eq, List.getElem?_eq_none_iff]
  omega

section
variable {s : State} {taken : List Byte} {f : Option FrameFault} {feed : Byte}

theorem endSheetFrame_unaddressed (h : taken.length < 2) : s.endSheetFrame taken f = s.recordEnd taken f := by
  have hfeed : feedOf taken = none := List.getElem?_eq_none (by omega)
  simp only [State.endSheetFrame, hfeed]

theorem endSheetFrame_stray (hfeed : feedOf taken = some feed) (hbatch : s.mke.batch.state ≠ .active) :
    s.endSheetFrame taken f = (s.recordEnd taken f).takeStray taken feed f := by
  simp only [State.endSheetFrame, hfeed]
  exact if_neg hbatch

theorem endSheetFrame_active (hfeed : feedOf taken = some feed) (hbatch : s.mke.batch.state = .active) :
    s.endSheetFrame taken f = (s.recordEnd taken f).handFrame taken feed f := by
  simp only [State.endSheetFrame, hfeed]
  exact if_pos hbatch

/-- A well-formed frame is a checked sheet, and its bin is the verdict; a parked sheet has none yet (R146). -/
theorem handFrame_sheet {h : Byte} {id : List Byte} (hcount : taken[0]? = some h) (hid : idBytes taken = some id) :
    s.handFrame taken feed none = ((s.takeSheet (sheetOf h id taken)).2).elim (s.takeSheet (sheetOf h id taken)).1
      ((s.takeSheet (sheetOf h id taken)).1.formVerdict feed) := by
  simp only [State.handFrame, frameCount, hcount, hid]
  cases (s.takeSheet (sheetOf h id taken)).2 <;> rfl

end

/-! ### The assembler (R139, R141, R142) -/

section
variable {s : State} {b : Byte} {taken : List Byte}

theorem takeSheetByte_low (h : s.srp.rrdy = false) : s.takeSheetByte b = s := by
  simp [State.takeSheetByte, h]

theorem takeSheetByte_hunt (h : s.srp.rrdy = true) (ha : s.srp.assembler = .hunt) :
    s.takeSheetByte b = if b = 0x5B#8 then s.setAssembler (.assemble []) else s := by
  simp [State.takeSheetByte, h, ha]

theorem takeSheetByte_drain (h : s.srp.rrdy = true) (ha : s.srp.assembler = .drain taken) :
    s.takeSheetByte b = s.setAssembler (.drain (taken ++ [b])) := by
  simp [State.takeSheetByte, h, ha]

theorem takeSheetByte_more (h : s.srp.rrdy = true) (ha : s.srp.assembler = .assemble taken)
    (hp : progress (taken ++ [b]) = .more) : s.takeSheetByte b = s.setAssembler (.assemble (taken ++ [b])) := by
  simp [State.takeSheetByte, h, ha, hp]

theorem takeSheetByte_ended {f : Option FrameFault} (h : s.srp.rrdy = true) (ha : s.srp.assembler = .assemble taken)
    (hp : progress (taken ++ [b]) = .ended f) : s.takeSheetByte b =
      (s.endSheetFrame (taken ++ [b]) f).setAssembler (afterEnd (taken ++ [b]) f) := by
  simp [State.takeSheetByte, h, ha, hp]

/-- After a LENGTH or HEADER fault the rest of the frame is discarded (R143). -/
theorem afterEnd_eq (taken : List Byte) (f : Option FrameFault) :
    afterEnd taken f = if f = some .length ∨ f = some .header then .drain taken else .hunt := by
  rcases f with _ | _ | _ | _ | _ <;> rfl

/-- Each byte of a run is taken, and after it the transmitters begin what they may (log 11). -/
theorem exec_sheetFrameEnd_cons (run : List Byte) (s : State) : exec (.sheetFrameEnd (b :: run)) s = .next
    (run.foldl (fun t c => (t.takeSheetByte c).settle) (s.takeSheetByte b).settle) :=
  done_takeRun State.takeSheetByte s b run

/-- RRDY that does not fall leaves the assembler alone. -/
theorem setRrdy_kept {level : Bool} (h : s.srp.rrdy = false ∨ level = true) :
    s.setRrdy level = { s with srp.rrdy := level } := by
  rcases h with h | rfl <;> simp [State.setRrdy, *]

theorem setRrdy_fallen (h : s.srp.rrdy = true) :
    s.setRrdy false = ({ s with srp.rrdy := false } : State).cutFrame .torn := by
  simp [State.setRrdy, h]

end

/-! ### Sheet frames on the line, from byte to hand-over -/

/-- Settles O52: a byte by the assembler's state, the end of a frame by its feed sequence and the batch's state, the byte
that ends a frame by how far its bytes go, what they spell by cutting them at the ID block, and the gap and the pin by the
assembler's state. -/
theorem sheetFramesAreAssembled : Obligations.SheetFramesAreAssembled := by
  unfold Obligations.SheetFramesAreAssembled
  refine ⟨⟨fun s => rfl, fun b run s => exec_sheetFrameEnd_cons run s, fun b s => ⟨takeSheetByte_low, fun hr =>
      ⟨takeSheetByte_hunt hr, fun taken => takeSheetByte_drain hr, fun taken => takeSheetByte_more hr, ?ended⟩⟩⟩,
    fun s taken f => ?frameEnd, fun taken => ⟨progress_unaddressed, ?progress⟩,
    ⟨fun taken => ⟨rfl, headerFault_iff⟩, ?spell, ?noId⟩, fun s => ⟨?gap, ?kept, ?fallen⟩⟩
  case ended =>
    intro taken f ha hp
    rw [takeSheetByte_ended hr ha hp, afterEnd_eq]
    rfl
  case frameEnd =>
    intro top n recorded
    have hrecorded : s.recordEnd taken f = recorded := by
      simp only [State.recordEnd, addEnd_eq, isSome_feedOf, ite_not]
      cases f <;> rfl
    refine ⟨fun h => (endSheetFrame_unaddressed h).trans hrecorded, fun feed hfeed => ⟨?_, ?_, ?_⟩⟩
    · intro hbatch
      rw [endSheetFrame_stray hfeed hbatch, hrecorded]
      rfl
    · rintro k hbatch rfl
      rw [endSheetFrame_active hfeed hbatch, hrecorded]
      rfl
    · rintro h id hbatch rfl hcount hid
      have hsheet := (endSheetFrame_active (f := none) hfeed hbatch).trans (handFrame_sheet hcount hid)
      rw [hrecorded] at hsheet
      refine ⟨fun u bin hu => ?_, fun u hu => ?_⟩
      · rw [hsheet, hu]
        rfl
      · rw [hsheet, hu]
        rfl
  case progress =>
    rintro h feed rest rfl header
    refine ⟨fun hfaulty => progress_header (countAllowed_eq_false_iff.mpr hfaulty), fun hlow hhigh => ?_⟩
    have hallowed := countAllowed_iff.mpr ⟨hlow, hhigh⟩
    refine ⟨progress_transport hallowed, fun form hform => ?_⟩
    intro rows last
    refine ⟨fun hbad => (progress_form hallowed hform).trans (if_pos hbad), progress_rows hallowed hform,
      fun b hgood hb => ?_⟩
    rw [progress_last hallowed hform hgood hb]
    exact ⟨fun hne => by rw [if_pos hne], fun heq => by rw [if_neg (not_not.mpr heq)]; rfl⟩
  case spell =>
    intro h feed n3 n2 n1 n0 sitting form rest before after header taken number id hlow hhigh htaken hbefore
    have hnumber : beNat (id.take 4) = number := beNat_four n3 n2 n1 n0
    have hid : idBytes taken = some id :=
      idBytes_eq_some_of_split rfl (countAllowed_iff.mpr ⟨hlow, hhigh⟩) htaken hbefore rfl
    refine ⟨hid, ?_, fun hform => ?_⟩
    · rw [idBlockOf, hid, Option.map_some, hnumber]
      rfl
    · have hrow : rowOf = _ := funext rowOf_eq
      rw [sheetOf_eq_of_split htaken hbefore rfl hform, hnumber, hrow]
      rfl
  case noId =>
    intro h taken hcount hshort
    have hid := idBytes_eq_none hcount hshort
    exact ⟨hid, by rw [idBlockOf, hid]; rfl⟩
  case gap =>
    simp only [exec, execFrameGapTimeout, State.cutFrame]
    cases s.srp.assembler <;> rfl
  case kept =>
    intro level h
    exact congrArg (fun t : State => Host.Outcome.next t.settle) (setRrdy_kept h)
  case fallen =>
    intro h
    simp only [exec, execRrdyChange, setRrdy_fallen h, State.cutFrame]
    cases s.srp.assembler <;> rfl

end Sys2Proof.Machine
end

