-- ==== Sys2Proof/Proofs/SheetVerdicts.lean ====
section
/-!
PROOFS. A checked sheet of a batch: its verdict (R158), its storing (R161), the block steps (R164), and a sheet or a fault
report taken into the batch (R145, R146, R164).
-/

namespace Sys2Proof.Machine

/-! ### The verdict table (R158) -/

section
variable {s : State} {x : Sheet}

theorem isNumber_iff {n : Nat} : isNumber n = true ↔ 1 ≤ n ∧ n ≤ 99999999 := by
  simp [isNumber]

theorem judge_noNumber (h : isNumber x.number = false) : s.judge x = .reject .idNotFound := by
  simp [State.judge, h]

theorem judge_otherSitting (h : isNumber x.number = true) (hsitting : x.sitting ≠ s.mke.batch.sitting) :
    s.judge x = .reject .wrongSitting := by
  simp [State.judge, h, hsitting]

/-- A number the sitting does not have is looked for in every sitting. -/
theorem judge_unmatched (h : isNumber x.number = true) (hsitting : x.sitting = s.mke.batch.sitting)
    (hlookup : s.lookup x.number (some s.mke.batch.sitting) = none) :
    s.judge x = if s.lookup x.number none = none then .reject .idNotFound else .reject .wrongSitting := by
  cases hany : s.lookup x.number none <;> simp [State.judge, h, hsitting, hlookup, hany]

/-- The sheet of a candidate of the sitting: the form, the candidate's state, the rows that cannot be read. -/
theorem judge_matched {c : Nat} {y : Candidate} (h : isNumber x.number = true)
    (hsitting : x.sitting = s.mke.batch.sitting) (hlookup : s.lookup x.number (some s.mke.batch.sitting) = some c)
    (hy : s.cand? c = some y) : s.judge x =
      if x.form ≠ (s.key s.mke.batch.key).form then .reject .formMismatch
      else if y.state = .absent then .reject .notSat
      else if s.mke.batch.tolerance < (scoreSheet (s.key s.mke.batch.key) x.rows).unreadable then .reject .tooUnreadable
      else .store c (resultFor (s.key s.mke.batch.key) x.rows y false) := by
  simp only [State.judge, h, hsitting, hlookup, hy]
  rw [if_neg (show ¬(!true) = true from Bool.false_ne_true), if_neg (not_not.mpr rfl)]
  rfl

end

/-! ### Storing (R158, R160, R161) -/

section
variable {s : State}

theorem resultSlot_eq {c : Nat} {y : Candidate} (hy : s.cand? c = some y) :
    s.resultSlot c = y.summary.bind (·.store) := by
  simp [State.resultSlot, hy]

/-- Has the candidate in a slot a result slot (R160)? -/
theorem storingKind_eq (s : State) (c : Nat) :
    s.storingKind c = if (s.resultSlot c).isSome then .duplicate else .filled := by
  unfold State.storingKind State.resultSlot
  cases (s.cand? c).bind (·.summary) <;> rfl

theorem isSome_resultSlot {c : Nat} : (s.resultSlot c).isSome = true ↔
    ∃ y m j, s.cand? c = some y ∧ y.summary = some m ∧ m.store = some j := by
  cases hy : s.cand? c with
  | none => simp [State.resultSlot, hy]
  | some y => cases hm : y.summary <;> simp [State.resultSlot, hy, hm, Option.isSome_iff_exists]

/-- The bin the reader is told. -/
theorem binFor_eq (kind : StoreKind) (r : Result) : binFor kind r = if kind = .duplicate then .review else r.verdict := by
  cases kind <;> rfl

theorem storeSheet_filled (i : Nat) {p : Parked} (hkind : p.kind = .filled) : s.storeSheet i p =
    (s.putStore i (some ⟨p.kind, some p.slot, p.sheet, p.result, p.erasures⟩)).modCand p.slot
      (fun z => { z with summary := some ⟨p.result, some i⟩ }) := by
  simp [State.storeSheet, hkind]

theorem storeSheet_duplicate (i : Nat) {p : Parked} {y : Candidate} (hkind : p.kind = .duplicate)
    (hy : s.cand? p.slot = some y) : s.storeSheet i p =
      (s.putStore i (some ⟨p.kind, some p.slot, p.sheet, p.result, p.erasures⟩)).notify
        (.dupSheet p.slot y.number i (y.summary.bind (·.store)) p.sheet.feed) := by
  simp [State.storeSheet, hkind, hy, resultSlot_eq hy]

/-- An EMPTY slot listed lies in the segment and holds nothing. -/
theorem mem_emptySlots {i : Nat} : i ∈ s.emptySlots ↔
    i < 64 ∧ s.stored? i = none ∧ s.mke.batch.segStart ≤ i ∧ i ≤ s.mke.batch.segEnd := by
  have hempty : (∃ o, s.mke.store[i]? = some o ∧ o.isNone = true) ↔ i < 64 ∧ s.stored? i = none := by
    unfold State.stored?
    by_cases hi : i < 64
    · simp [hi]
    · simp [hi]
  rw [State.emptySlots, List.mem_filter, mem_indexesWhere, hempty, Bool.and_eq_true, decide_eq_true_iff,
    decide_eq_true_iff, and_assoc]

theorem emptySlots_pairwise (s : State) : s.emptySlots.Pairwise (· < ·) := (indexesWhere_pairwise _ _).filter _

end

/-! ### The block steps (R164) -/

@[simp] theorem notify_mke (s : State) (b : NoticeBody) : (s.notify b).mke = s.mke := by
  unfold State.notify; split <;> rfl

section
variable {s : State}

/-- A block ends when its tallies add up to the block size, or with the batch's last sheet. -/
theorem blockEnds_iff {b : Batch} : b.blockEnds = true ↔
    b.block.accepted + b.block.review + b.block.rejected + b.block.duplicate = b.blockSize ∨ b.remaining = 0 := by
  simp [Batch.blockEnds, Tally.sum]

/-- The batch with its next block begun. -/
def Batch.nextBlock (b : Batch) : Batch :=
  { b with blockNumber := b.blockNumber + 1, block := Tally.zero, rejects := Rejects.zero }

/-- BLOCK_DONE, of the block as it stands. -/
def State.tellBlock (s : State) : State :=
  s.notify (.blockDone s.mke.batch.blockNumber s.mke.batch.block s.mke.batch.rejects s.mke.batch.remaining)

theorem blockSteps_within (h : s.mke.batch.blockEnds = false) : s.blockSteps = s := by
  have hleft : s.mke.batch.remaining ≠ 0 := fun h0 => by simp [Batch.blockEnds, h0] at h
  simp [State.blockSteps, h, hleft]

/-- The block steps at a block end. -/
theorem blockSteps_ended (h : s.mke.batch.blockEnds = true) : s.blockSteps =
    if s.mke.batch.remaining = 0 then
      ({ s.tellBlock with mke.batch := { s.mke.batch.nextBlock with
        state := .idle, endCause := .complete, haltPending := false } } : State).notify
          (.batchEnd s.mke.batch.sitting s.mke.batch.totals s.mke.batch.count s.mke.batch.haltPending)
    else if s.mke.batch.haltPending then
      ({ s.tellBlock with mke.batch := { s.mke.batch.nextBlock with state := .halted } } : State).notify
        (.batchHalted s.mke.batch.blockNumber s.mke.batch.remaining s.mke.batch.totals)
    else { s.tellBlock with mke.batch := s.mke.batch.nextBlock } := by
  simp [State.blockSteps, h, State.modBatch, State.tellBlock, Batch.nextBlock]

end

/-! ### A sheet taken into the batch (R145, R146, R161, R164) -/

section
variable {s : State} {x : Sheet}

/-- The verdict does not look at how many sheets remain. -/
theorem judge_countSheet : s.countSheet.judge x = s.judge x := rfl

theorem takeSheet_rejected {reason : RejectReason} (h : s.judge x = .reject reason) : s.takeSheet x =
    ((s.countSheet.modBatch (·.countReject reason)).blockSteps, some .reject) := by
  simp only [State.takeSheet, judge_countSheet, h]

/-- A fault report is a reject under line fault, which sets halt pending (R145). -/
theorem takeFaultReport_eq (s : State) : s.takeFaultReport = State.blockSteps { s with mke.batch := { s.mke.batch with
    remaining := s.mke.batch.remaining - 1
    block := { s.mke.batch.block with rejected := s.mke.batch.block.rejected + 1 }
    totals := { s.mke.batch.totals with rejected := s.mke.batch.totals.rejected + 1 }
    rejects := { s.mke.batch.rejects with lineFault := s.mke.batch.rejects.lineFault + 1 }
    haltPending := true } } := by
  have hhalt : (s.mke.batch.haltPending || RejectReason.lineFault == .lineFault) = true := Bool.or_true _
  rw [← hhalt]
  rfl

/-- What a sheet to be stored counts as: duplicate, or accepted or review by its verdict (R164). -/
theorem countStored_eq (b : Batch) (kind : StoreKind) (r : Result) : b.countStored kind r = b.count1 (fun t =>
    if kind = .duplicate then { t with duplicate := t.duplicate + 1 }
    else if r.verdict = .accept then { t with accepted := t.accepted + 1 } else { t with review := t.review + 1 }) := by
  cases kind <;> rfl

/-- A sheet to be stored, as the store and the port hold it. -/
def State.scored (s : State) (x : Sheet) (slot : Nat) (r : Result) : Parked :=
  ⟨x, slot, r, erasureCount x.rows, s.storingKind slot, binFor (s.storingKind slot) r⟩

/-- The batch with a sheet to be stored counted. -/
def State.countScored (s : State) (slot : Nat) (r : Result) : State :=
  s.countSheet.modBatch (·.countStored (s.storingKind slot) r)

theorem takeSheet_stored {slot i : Nat} {rest : List Nat} {r : Result} (h : s.judge x = .store slot r)
    (hroom : s.emptySlots = i :: rest) : s.takeSheet x =
      (((s.countScored slot r).storeSheet i (s.scored x slot r)).blockSteps, some (s.scored x slot r).bin) := by
  have hempty : (s.countScored slot r).emptySlots = i :: rest := hroom
  unfold State.countScored at hempty ⊢
  simp only [State.takeSheet, judge_countSheet, h]
  rw [show s.countSheet.storingKind slot = s.storingKind slot from rfl, hempty]
  rfl

theorem takeSheet_parked {slot : Nat} {r : Result} (h : s.judge x = .store slot r) (hfull : s.emptySlots = []) :
    s.takeSheet x = ((s.countScored slot r).park (s.scored x slot r), none) := by
  have hempty : (s.countScored slot r).emptySlots = [] := hfull
  unfold State.countScored at hempty ⊢
  simp only [State.takeSheet, judge_countSheet, h]
  rw [show s.countSheet.storingKind slot = s.storingKind slot from rfl, hempty]
  rfl

end

/-! ### The resume from WAIT_SPACE (R166) -/

section
variable {s : State}

theorem resumeBatch_of_room {p : Parked} {i : Nat} {rest : List Nat} (hstate : s.mke.batch.state = .waitSpace)
    (hparked : s.srp.parked = some p) (hroom : s.emptySlots = i :: rest) : s.resumeBatch =
      ((({ s.storeSheet i p with srp.parked := none } : State).formVerdict p.sheet.feed p.bin).modBatch
        (fun b => { b with state := .active })).blockSteps := by
  simp only [State.resumeBatch, if_pos hstate, hparked, hroom]

theorem resumeBatch_kept (h : s.mke.batch.state ≠ .waitSpace ∨ s.srp.parked = none ∨ s.emptySlots = []) :
    s.resumeBatch = s := by
  unfold State.resumeBatch
  split
  next hstate =>
    split
    next p i rest hparked hroom => simp [hstate, hparked, hroom] at h
    next => rfl
  next => rfl

end

end Sys2Proof.Machine
end

