-- ==== Sys2Proof/Proofs/StoreRequests.lean ====
section
/-!
PROOFS. The requests that make room in the store and resume a batch that waits for it: EXTEND_SEGMENT, RELEASE_SLOTS and
RESOLVE_DUPLICATE (R166, R167, R169).
-/

namespace Sys2Proof.Machine

/-! ### The emptying of store slots (R160, R167) -/

/-- A test that holds of one number more counts one more. -/
theorem countP_range_of_one_more {n i : Nat} {p q : Nat → Bool} (hi : i < n) (hp : p i = true) (hq : q i = false)
    (hrest : ∀ j, j ≠ i → p j = q j) : (List.range n).countP p = (List.range n).countP q + 1 := by
  have hperm := List.perm_cons_erase (List.mem_range.mpr hi)
  have hsame : ((List.range n).erase i).countP p = ((List.range n).erase i).countP q :=
    List.countP_congr fun j hj => by rw [hrest j ((List.nodup_range.mem_erase_iff).mp hj).1]
  rw [hperm.countP_eq, hperm.countP_eq, List.countP_cons_of_pos hp, hsame, List.countP_cons_of_neg (by simp [hq])]

section
variable {s : State} {i : Nat}

theorem emptyStore_frame (s : State) (i : Nat) :
    s.emptyStore i = { s with htu.cands := (s.emptyStore i).htu.cands, mke.store := (s.emptyStore i).mke.store } :=
  rfl

theorem stored?_emptyStore (hi : i < 64) (j : Nat) :
    (s.emptyStore i).stored? j = if j = i then none else s.stored? j :=
  stored?_putStore s i j none hi

theorem cand?_emptyStore (c : Nat) : (s.emptyStore i).cand? c = (s.cand? c).map (fun y => { y with
    summary := y.summary.map (fun m => { m with store := if m.store = some i then none else m.store }) }) := by
  unfold State.emptyStore State.cand?
  dsimp only
  rw [join_mapAll _ _ rfl]
  rcases (s.htu.cands[c]?).join with _ | y
  · rfl
  · rcases hm : y.summary with _ | m
    · simp [hm]
    · by_cases hi : m.store = some i <;> simp [hm, hi]

end

/-- Does a slot of the list hold a sheet: is it one that RELEASE_SLOTS makes EMPTY (R167)? -/
def State.releases (s : State) (ids : List Nat) (i : Nat) : Bool := ids.contains i && (s.stored? i).isSome

/-- One slot of RELEASE_SLOTS. -/
def State.releaseOne (r : State × Nat) (i : Nat) : State × Nat :=
  if (r.1.stored? i).isSome then (r.1.emptyStore i, r.2 + 1) else r

section
variable {s : State} {i : Nat} {ids : List Nat}

/-- A slot EMPTY already is passed over. -/
theorem releases_cons_empty (h : (s.stored? i).isSome = false) : s.releases (i :: ids) = s.releases ids := by
  funext j
  by_cases hj : j = i
  · subst hj
    simp [State.releases, h]
  · simp [State.releases, hj]

/-- Once emptied, a slot holds no sheet to be released. -/
theorem releases_emptyStore_same (hi : i < 64) : (s.emptyStore i).releases ids i = false := by
  simp [State.releases, stored?_emptyStore hi]

theorem releases_emptyStore_other (hi : i < 64) {j : Nat} (hj : j ≠ i) :
    s.releases (i :: ids) j = (s.emptyStore i).releases ids j := by
  simp [State.releases, stored?_emptyStore hi, hj]

/-- The slot emptied is one more of those the list releases. -/
theorem countP_releases (hi : i < 64) (h : (s.stored? i).isSome = true) :
    (List.range 64).countP (s.releases (i :: ids)) = (List.range 64).countP ((s.emptyStore i).releases ids) + 1 :=
  countP_range_of_one_more hi (by simp [State.releases, h]) (releases_emptyStore_same hi)
    fun _ hj => releases_emptyStore_other hi hj

/-- A summary's result slot after the first slot of a list is emptied and then the others. -/
theorem filter_releases (hi : i < 64) (h : (s.stored? i).isSome = true) (store : Option Nat) :
    (if store = some i then none else store).filter (fun j => !(s.emptyStore i).releases ids j) =
      store.filter (fun j => !s.releases (i :: ids) j) := by
  rcases store with _ | j
  · rfl
  · by_cases hj : j = i
    · subst hj
      simp [State.releases, Option.isSome_iff_ne_none.mp h, Option.filter_some]
    · simp [hj, releases_emptyStore_other hi hj, Option.filter_some]

end

/-- What RELEASE_SLOTS over a list comes to: only the store and the candidates change, every slot listed is EMPTY, and no
summary names a slot that held a sheet. -/
structure Released (s : State) (ids : List Nat) (u : State) : Prop where
  frame : u = { s with htu.cands := u.htu.cands, mke.store := u.mke.store }
  store : ∀ i, u.stored? i = if i ∈ ids then none else s.stored? i
  cands : ∀ c, u.cand? c = (s.cand? c).map (fun y => { y with
    summary := y.summary.map (fun m => { m with store := m.store.filter (fun i => !s.releases ids i) }) })

theorem released_nil (s : State) : Released s [] s where
  frame := rfl
  store _ := by simp
  cands c := by
    have hall : ∀ o : Option Nat, o.filter (fun i => !s.releases [] i) = o := fun o => by
      cases o <;> simp [State.releases]
    simp [hall]

section
variable {s u : State} {i : Nat} {ids : List Nat}

/-- A slot EMPTY already, and then the others. -/
theorem Released.cons_empty (h : (s.stored? i).isSome = false) (hr : Released s ids u) : Released s (i :: ids) u where
  frame := hr.frame
  store j := by
    rw [hr.store j]
    by_cases hj : j = i
    · subst hj
      simp [Option.isNone_iff_eq_none.mp (Option.isSome_eq_false_iff.mp h)]
    · simp [hj]
  cands c := by rw [hr.cands c, releases_cons_empty h]

/-- A slot that held a sheet, and then the others. -/
theorem Released.cons_full (hi : i < 64) (h : (s.stored? i).isSome = true) (hr : Released (s.emptyStore i) ids u) :
    Released s (i :: ids) u where
  frame := hr.frame
  store j := by
    rw [hr.store j, stored?_emptyStore hi]
    by_cases hj : j = i <;> simp [hj]
  cands c := by
    rw [hr.cands c, cand?_emptyStore, Option.map_map]
    simp only [Function.comp_def, Option.map_map, filter_releases hi h]

end

/-- The slots of a list, one after the other: those that held a sheet are counted. -/
theorem foldl_releaseOne (ids : List Nat) (hids : ∀ i ∈ ids, i < 64) (s : State) (n : Nat) :
    Released s ids (ids.foldl State.releaseOne (s, n)).1 ∧
      (ids.foldl State.releaseOne (s, n)).2 = n + (List.range 64).countP (s.releases ids) := by
  induction ids generalizing s n with
  | nil => exact ⟨released_nil s, by simp [State.releases]⟩
  | cons i ids ih =>
    have hrest := fun j hj => hids j (List.mem_cons_of_mem i hj)
    rw [List.foldl_cons, State.releaseOne]
    cases h : (s.stored? i).isSome with
    | true =>
      have hi := hids i List.mem_cons_self
      obtain ⟨hreleased, hcount⟩ := ih hrest (s.emptyStore i) (n + 1)
      refine ⟨hreleased.cons_full hi h, hcount.trans ?_⟩
      rw [countP_releases hi h]
      omega
    | false =>
      obtain ⟨hreleased, hcount⟩ := ih hrest s n
      exact ⟨hreleased.cons_empty h, by rw [releases_cons_empty h]; exact hcount⟩

theorem released_releaseSlots {s : State} {ids : List Nat} (hids : ∀ i ∈ ids, i < 64) :
    Released s ids (s.releaseSlots ids).1 := (foldl_releaseOne ids hids s 0).1

theorem releaseSlots_count {s : State} {ids : List Nat} (hids : ∀ i ∈ ids, i < 64) :
    (s.releaseSlots ids).2 = (List.range 64).countP (s.releases ids) :=
  (foldl_releaseOne ids hids s 0).2.trans (Nat.zero_add _)

/-! ### EXTEND_SEGMENT (R166) -/

section
variable {s : State} {b : Byte}

theorem exec_extendSegment_refused (hl : s.listening = true) (hb : b.toNat < s.mke.batch.segEnd) :
    exec (.extendSegment b) s = s.toHunt.replied 0x34 (badArgument 1) := by
  have hchecks : firstBad [isStoreSlot b && s.mke.batch.segEnd ≤ b.toNat] = some 1 := by
    simp [Nat.not_le.mpr hb]
  exact answerTo_eq hl (withArgs_of_bad hchecks)

theorem extendSegment_checks (hb : b.toNat < 64) (hend : s.mke.batch.segEnd ≤ b.toNat) :
    ∀ c ∈ [isStoreSlot b && decide (s.mke.batch.segEnd ≤ b.toNat)], c = true := by
  simp [isStoreSlot, hb, hend]

theorem exec_extendSegment_idle (hl : s.listening = true) (hb : b.toNat < 64) (hend : s.mke.batch.segEnd ≤ b.toNat)
    (hidle : s.mke.batch.state = .idle) : exec (.extendSegment b) s = s.toHunt.replied 0x34 (refuse .refusedState) :=
  answerTo_eq hl ((withArgs_of_all (extendSegment_checks hb hend)).trans (if_pos hidle))

theorem exec_extendSegment_taken (hl : s.listening = true) (hb : b.toNat < 64) (hend : s.mke.batch.segEnd ≤ b.toNat)
    (hbusy : s.mke.batch.state ≠ .idle) {u : State}
    (hu : (s.toHunt.modBatch (fun x => { x with segEnd := b.toNat })).resumeBatch = u) :
    exec (.extendSegment b) s = u.replied 0x34
      (ok (.segment u.mke.batch.segStart u.mke.batch.segEnd u.emptySlots.length u.mke.batch.state)) := by
  subst hu
  exact answerTo_eq hl ((withArgs_of_all (extendSegment_checks hb hend)).trans (if_neg hbusy))

end

/-! ### RELEASE_SLOTS (R167) -/

section
variable {s : State} {stores : List Byte}

theorem exec_releaseSlots_refused (hl : s.listening = true)
    (h : stores = [] ∨ 64 < stores.length ∨ ∃ i ∈ stores, 64 ≤ i.toNat) :
    exec (.releaseSlots stores) s = s.toHunt.replied 0x35 (badArgument 1) := by
  have hfails : (1 ≤ stores.length && stores.length ≤ 64 && stores.all isStoreSlot) = false := by
    simp only [Bool.and_eq_false_iff, decide_eq_false_iff_not, List.all_eq_false, isStoreSlot, decide_eq_true_iff, not_le,
      not_lt, Nat.lt_one_iff, List.length_eq_zero_iff, or_assoc]
    exact h
  exact answerTo_badArgument hl (by rw [hfails]; rfl)

theorem exec_releaseSlots_taken (hl : s.listening = true) (hfew : 1 ≤ stores.length) (hmany : stores.length ≤ 64)
    (hslots : ∀ i ∈ stores, i.toNat < 64) : exec (.releaseSlots stores) s =
      (s.toHunt.releaseSlots (stores.map (·.toNat))).1.resumeBatch.replied 0x35
        (ok (.emptied (s.toHunt.releaseSlots (stores.map (·.toNat))).2)) :=
  answerTo_withArgs hl (by simpa [isStoreSlot, hmany, ← List.length_pos_iff] using ⟨hfew, hslots⟩) rfl

end

/-! ### RESOLVE_DUPLICATE (R169) -/

/-- A slot resolved: refused unless it is DUPLICATE, then adopted or discarded. -/
def State.resolve (s : State) (i : Nat) (adopts : Bool) : State × Answer :=
  match s.stored? i with
  | none => (s, refuse .refusedState)
  | some x =>
    if x.kind ≠ .duplicate then (s, refuse .refusedState)
    else if adopts then s.tryAdopt i x
    else ((s.putStore i none).resumeBatch, ok (.resolved none (some i)))

section
variable {s : State} {i : Nat} {x : Stored} {adopts : Bool}

theorem exec_resolveDuplicate {b action : Byte} {u : State} {a : Answer} (hl : s.listening = true) (hb : b.toNat < 64)
    (hact : adoptOf action = some adopts) (hu : s.toHunt.resolve b.toNat adopts = (u, a)) :
    exec (.resolveDuplicate b action) s = u.replied 0x37 a := by
  refine answerTo_withArgs hl (by simp [isStoreSlot, hb, hact]) (Eq.trans ?_ hu)
  unfold State.resolve
  cases adopts <;> simp [hact] <;> rfl

theorem resolve_refused (h : ∀ y, s.stored? i = some y → y.kind ≠ .duplicate) :
    s.resolve i adopts = (s, refuse .refusedState) := by
  unfold State.resolve
  cases hx : s.stored? i with
  | none => rfl
  | some x => exact if_pos (h x hx)

theorem resolve_adopt (hx : s.stored? i = some x) (hkind : x.kind = .duplicate) :
    s.resolve i true = s.tryAdopt i x := by
  simp [State.resolve, hx, hkind]

theorem resolve_discard (hx : s.stored? i = some x) (hkind : x.kind = .duplicate) :
    s.resolve i false = ((s.putStore i none).resumeBatch, ok (.resolved none (some i))) := by
  simp [State.resolve, hx, hkind]

theorem tryAdopt_noCandidate (href : x.ref = none) : s.tryAdopt i x = (s, refuse .refusedState .noCandidate) := by
  simp [State.tryAdopt, href]

theorem parkedFor_iff {c : Nat} : s.parkedFor c = true ↔ ∃ p, s.srp.parked = some p ∧ p.slot = c := by
  simp [State.parkedFor, Option.any_eq_true]

theorem tryAdopt_busy {c : Nat} (href : x.ref = some c) (h : s.parkedFor c = true) : s.tryAdopt i x = (s, refuse .busy) := by
  simp [State.tryAdopt, href, h]

theorem tryAdopt_adopted {c : Nat} (href : x.ref = some c) (h : s.parkedFor c = false) :
    s.tryAdopt i x = ((s.adopt i c x).resumeBatch, ok (.resolved (some .filled) (s.resultSlot c))) := by
  simp [State.tryAdopt, href, h]

end

/-! ### Sheets judged, stored and parked, and the store requests, together -/

/-- Settles O56: a sheet by the first row of the verdict table that matches and by the room in the segment, the block steps
by whether the block and the batch end, and each store request by its refusals, its own change and the resume. -/
theorem sheetsAreJudgedAndStored : Obligations.SheetsAreJudgedAndStored := by
  unfold Obligations.SheetsAreJudgedAndStored
  refine ⟨⟨?verdict, ?kind, fun s i p y hy => ⟨storeSheet_filled i, fun hkind => storeSheet_duplicate i hkind hy⟩, ?steps,
      fun s => ⟨fun i => mem_emptySlots, emptySlots_pairwise s⟩⟩,
    fun s x => ⟨fun reason => takeSheet_rejected, ?stored⟩, ⟨takeFaultReport_eq, fun r => ⟨rfl, rfl, rfl, rfl, rfl, rfl⟩⟩,
    fun b action stores s hl => ⟨fun hb hend => ⟨exec_extendSegment_idle hl hb hend, fun hbusy => ?extended⟩,
      exec_extendSegment_refused hl, ?released, exec_releaseSlots_refused hl, ?resolved,
      fun p i rest => resumeBatch_of_room, resumeBatch_kept, fun c y => resultSlot_eq,
      fun i hi => ⟨emptyStore_frame s i, stored?_emptyStore hi, cand?_emptyStore⟩⟩⟩
  case verdict =>
    intro s x b key number
    refine ⟨fun h => judge_noNumber (Bool.eq_false_iff.mpr (mt isNumber_iff.mp h)),
      fun h => judge_otherSitting (isNumber_iff.mpr h), fun h hsitting hlookup => ⟨fun hany => ?_, fun hany => ?_⟩, ?_⟩
    · exact (judge_unmatched (isNumber_iff.mpr h) hsitting hlookup).trans (if_neg hany)
    · exact (judge_unmatched (isNumber_iff.mpr h) hsitting hlookup).trans (if_pos hany)
    · intro c y h hsitting hlookup hy r
      rw [judge_matched (isNumber_iff.mpr h) hsitting hlookup hy]
      refine ⟨fun hform => if_pos hform, fun hform habsent => ?_, fun hform hsat hover => ?_, fun hform hsat hwithin => ?_⟩
      · rw [if_neg (not_not.mpr hform), if_pos habsent]
      · rw [if_neg (not_not.mpr hform), if_neg hsat, if_pos hover]
      · rw [if_neg (not_not.mpr hform), if_neg hsat, if_neg (Nat.not_lt.mpr hwithin)]
        rfl
  case kind =>
    intro s c scored
    rw [storingKind_eq]
    exact ⟨fun h => if_pos (isSome_resultSlot.mpr h), fun h => if_neg (mt isSome_resultSlot.mp h)⟩
  case steps =>
    intro s b ends next told
    refine ⟨fun h => blockSteps_within (Bool.eq_false_iff.mpr (mt blockEnds_iff.mp h)), fun hlast => ?_,
      fun h hleft hhalt => ?_, fun h hleft hgo => ?_⟩
    · exact (blockSteps_ended (blockEnds_iff.mpr (.inr hlast))).trans (if_pos hlast)
    · exact (blockSteps_ended (blockEnds_iff.mpr h)).trans ((if_neg hleft).trans (if_pos hhalt))
    · exact (blockSteps_ended (blockEnds_iff.mpr h)).trans ((if_neg hleft).trans (if_neg (Bool.eq_false_iff.mp hgo)))
  case stored =>
    intro slot r h p add s2
    have hp : s.scored x slot r = p := by
      simp only [State.scored, binFor_eq]
      rfl
    have hs2 : s.countScored slot r = s2 :=
      congrArg (fun z : Batch => { s with mke.batch := z }) (countStored_eq _ (s.storingKind slot) r)
    rw [← hp, ← hs2]
    exact ⟨fun i rest => takeSheet_stored h, takeSheet_parked h⟩
  case extended => exact exec_extendSegment_taken hl hb hend hbusy rfl
  case released =>
    intro hfew hmany hslots
    have hids : ∀ i ∈ stores.map (·.toNat), i < 64 := by simpa using hslots
    have hreleased := released_releaseSlots (s := s.toHunt) hids
    exact ⟨_, _, exec_releaseSlots_taken hl hfew hmany hslots, hreleased.frame, hreleased.store, releaseSlots_count hids,
      hreleased.cands⟩
  case resolved =>
    intro hb i answered
    refine ⟨fun hact hother => ?_, fun y hy hkind => ?_⟩
    · rcases hact with rfl | rfl <;> exact exec_resolveDuplicate hl hb rfl (resolve_refused hother)
    · have hadopt : s.toHunt.resolve i true = s.toHunt.tryAdopt i y := resolve_adopt hy hkind
      refine ⟨?_, ?_, ?_⟩
      · rintro rfl
        exact exec_resolveDuplicate hl hb rfl (resolve_discard hy hkind)
      · rintro rfl href
        exact exec_resolveDuplicate hl hb rfl (hadopt.trans (tryAdopt_noCandidate href))
      · rintro c rfl href
        refine ⟨fun hparked => ?_, fun hfree => ?_⟩
        · exact exec_resolveDuplicate hl hb rfl (hadopt.trans (tryAdopt_busy href (parkedFor_iff.mpr hparked)))
        · have hother : s.toHunt.parkedFor c = false :=
            Bool.eq_false_iff.mpr (mt parkedFor_iff.mp fun ⟨p, hp, hslot⟩ => hfree p hp hslot)
          exact exec_resolveDuplicate hl hb rfl (hadopt.trans (tryAdopt_adopted href hother))

end Sys2Proof.Machine
end

