-- ==== Sys2Proof/Proofs/KeyEdits.lean ====
section
/-!
PROOFS. The key edits: KEY_BEGIN, KEY_PART, KEY_END and WITHDRAW_QUESTION (R152 to R156).
-/

namespace Sys2Proof.Machine

/-! ### A key's record -/

/-- Two changes that agree on the key as it stands are one change. -/
theorem modKey_congr {s : State} {k : Nat} {f g : Key → Key} (h : f (s.key k) = g (s.key k)) :
    s.modKey k f = s.modKey k g := by
  unfold State.modKey
  refine congrArg (fun v => { s with mke.keys := v }) (Vector.ext fun j hj => Option.some.inj ?_)
  rw [← Vector.getElem?_eq_getElem hj, ← Vector.getElem?_eq_getElem hj, modAt_getElem?, modAt_getElem?]
  by_cases hjk : j = k
  · subst hjk
    have hrec : s.key j = s.mke.keys[j] := by simp [State.key, Vector.getElem?_eq_getElem hj]
    simp [← hrec, h, Vector.getElem?_eq_getElem hj]
  · simp [hjk]

theorem keyInUse_iff {s : State} {k : Nat} :
    s.keyInUse k = true ↔ s.mke.batch.state ≠ .idle ∧ s.mke.batch.key = k := by
  simp [State.keyInUse]

/-! ### KEY_BEGIN (R153) -/

section
variable {s : State} {key : Byte}

theorem ansKeyBegin_eq {form questions penalty : Byte} (hk : key.toNat < 8) (hform : form.toNat < 4)
    (hfew : 1 ≤ questions.toNat) (hmany : questions.toNat ≤ 40 * (form.toNat + 1)) (hpenalty : penalty.toNat ≤ 2) :
    ansKeyBegin key form questions penalty s = if s.keyInUse key.toNat then (s, s.keyBusy)
      else (s.modKey key.toNat (fun _ => freshKey form.toNat questions.toNat penalty.toNat),
        ok (.keyLoading key.toNat form.toNat questions.toNat)) :=
  withArgs_of_all (by
    simp [keyBeginChecks, isEighth, hk, hform, hfew, formRows_eq (Nat.le_of_lt_succ hform), hmany, hpenalty])

/-! ### KEY_PART (R154) -/

theorem questionModeOf_eq {b : Byte} (h : b.toNat < 2) : questionModeOf b = some (if b = 0#8 then .single else .any) := by
  have hcases : b = 0#8 ∨ b = 1#8 := by bv_omega
  rcases hcases with rfl | rfl <;> rfl

theorem isKeyEntry_of_valid {e : KeyEntry} (h : 1 ≤ e.answers.toNat ∧ e.answers.toNat < 32 ∧ e.mode.toNat < 2 ∧
    1 ≤ e.weight.toNat ∧ e.weight.toNat ≤ 4) : isKeyEntry e = true := by
  obtain ⟨hsome, hset, hmode, hlight, hheavy⟩ := h
  simp [isKeyEntry, hsome, hset, questionModeOf_eq hmode, hlight, hheavy]

theorem questionOf_eq {e : KeyEntry} (hmode : e.mode.toNat < 2) : questionOf e =
    ⟨true, e.answers.truncate 5, if e.mode = 0#8 then .single else .any, e.weight.toNat, false⟩ := by
  simp [questionOf, questionModeOf_eq hmode]

theorem ansKeyPart_eq {first : Byte} {entries : List KeyEntry} (hk : key.toNat < 8) (hfirst : 1 ≤ first.toNat)
    (hfew : 1 ≤ entries.length) (hmany : entries.length ≤ 40)
    (hlast : first.toNat + entries.length - 1 ≤ (s.key key.toNat).questions.length)
    (hentries : ∀ e ∈ entries, isKeyEntry e = true) {qs : List Question}
    (hqs : defineQuestions first.toNat entries (s.key key.toNat).questions = qs) :
    ansKeyPart key first entries s = if s.keyInUse key.toNat then (s, s.keyBusy)
      else if (s.key key.toNat).state ≠ .loading then (s, refuse .refusedState)
      else (s.modKey key.toNat (fun y => { y with questions := qs }), ok (.keyDefined (qs.countP (·.defined)))) := by
  have hchecks : ∀ c ∈ keyPartChecks (s.key key.toNat).questions.length key first entries, c = true := by
    simpa [keyPartChecks, isEighth, hk, hfirst, hmany, ← List.length_pos_iff, and_assoc] using ⟨hfew, by omega, hentries⟩
  have hdefined : s.modKey key.toNat (fun x => { x with questions := defineQuestions first.toNat entries x.questions }) =
      s.modKey key.toNat (fun y => { y with questions := qs }) := modKey_congr (by rw [hqs])
  rw [ansKeyPart, withArgs_of_all hchecks]
  dsimp only
  rw [hdefined, key_modKey _ _ _ _ hk, if_pos rfl]

/-! ### KEY_END (R155) -/

/-- KEY_END of a key that is not in use: the state of the key, and its first question not defined. -/
theorem ansKeyEnd_eq (hk : key.toNat < 8) : ansKeyEnd key s = if s.keyInUse key.toNat then (s, s.keyBusy)
    else if (s.key key.toNat).state ≠ .loading then (s, refuse .refusedState)
    else ((s.key key.toNat).questions.findIdx? (fun q => !q.defined)).elim
      (s.modKey key.toNat (fun y => { y with state := .ready }), ok (.keyReady (s.key key.toNat).questions.length
        (s.key key.toNat).maxScore ((s.key key.toNat).questions.countP (·.withdrawn))))
      (fun i => (s, refuse .refusedState .none (.question (i + 1)))) := by
  rw [ansKeyEnd, withArgs_of_all (by simp [isEighth, hk])]
  dsimp only
  cases (s.key key.toNat).questions.findIdx? (fun q => !q.defined) <;> rfl

/-- The lowest question not defined is the one that the search finds. -/
theorem findIdx?_notDefined {qs : List Question} {i : Nat} {q : Question} (hq : qs[i]? = some q)
    (hnot : q.defined = false) (hlower : ∀ j p, j < i → qs[j]? = some p → p.defined = true) :
    qs.findIdx? (fun q => !q.defined) = some i := by
  obtain ⟨hi, rfl⟩ := List.getElem?_eq_some_iff.mp hq
  refine List.findIdx?_eq_some_iff_getElem.mpr ⟨hi, by simp [hnot], fun j hj => ?_⟩
  simp [hlower j qs[j] hj (List.getElem?_eq_getElem _)]

/-! ### WITHDRAW_QUESTION (R156) -/

theorem ansWithdrawQuestion_eq {question : Byte} (hk : key.toNat < 8) (hfirst : 1 ≤ question.toNat)
    (hlast : question.toNat ≤ (s.key key.toNat).questions.length) {qs : List Question}
    (hqs : (s.key key.toNat).questions.modify (question.toNat - 1) (fun q => { q with withdrawn := true }) = qs) :
    ansWithdrawQuestion key question s = if s.keyInUse key.toNat then (s, s.keyBusy)
      else if (s.key key.toNat).lacks question.toNat then (s, refuse .refusedState)
      else (s.modKey key.toNat (fun y => { y with questions := qs }),
        ok (.keyMax ({ s.key key.toNat with questions := qs } : Key).maxScore)) := by
  have hwithdrawn : s.modKey key.toNat (fun x => x.withdraw question.toNat) =
      s.modKey key.toNat (fun y => { y with questions := qs }) := modKey_congr (by rw [Key.withdraw, hqs])
  rw [ansWithdrawQuestion, withArgs_of_all (by simp [withdrawQuestionChecks, isEighth, hk, hfirst, hlast]), hwithdrawn,
    Key.withdraw, hqs]

theorem lacks_iff {x : Key} {n : Nat} {q : Question} (hq : x.questions[n - 1]? = some q) :
    x.lacks n = true ↔ x.state = .loading ∧ q.defined = false := by
  simp [Key.lacks, hq]

end

/-! ### The key edits, together -/

/-- Settles O54: each edit by whether the key is in use, and then by the branches of its answer. -/
theorem keyEditsAreTaken : Obligations.KeyEditsAreTaken := by
  unfold Obligations.KeyEditsAreTaken
  intro b b1 b2 b3 entries s hl hk k x inUse busy max
  have used : inUse → s.toHunt.keyInUse k = true := keyInUse_iff.mpr
  have free : ¬inUse → ¬s.toHunt.keyInUse k = true := mt keyInUse_iff.mp
  refine ⟨?begin, ?part, ?ending, ?withdraw⟩
  case begin =>
    intro hform hfew hmany hpenalty
    have hans := ansKeyBegin_eq (s := s.toHunt) hk hform hfew hmany hpenalty
    exact ⟨fun h => answerTo_eq hl (hans.trans (if_pos (used h))),
      fun h => answerTo_eq hl (hans.trans (if_neg (free h)))⟩
  case part =>
    intro hfirst hfew hmany hlast hentries taken qs
    have htaken : entries.map questionOf = taken :=
      List.map_congr_left fun e he => by
        obtain ⟨-, -, hmode, -⟩ := hentries e he
        exact questionOf_eq hmode
    have hqs : defineQuestions b1.toNat entries (s.toHunt.key k).questions = qs := by
      rw [defineQuestions, htaken]
      rfl
    have hvalid : ∀ e ∈ entries, isKeyEntry e = true := fun e he => isKeyEntry_of_valid (hentries e he)
    have hans := ansKeyPart_eq (s := s.toHunt) hk hfirst hfew hmany hlast hvalid hqs
    exact ⟨fun h => answerTo_eq hl (hans.trans (if_pos (used h))),
      fun h hstate => answerTo_eq hl (hans.trans ((if_neg (free h)).trans (if_pos hstate))),
      fun h hstate => answerTo_eq hl (hans.trans ((if_neg (free h)).trans (if_neg (not_not.mpr hstate))))⟩
  case ending =>
    have hans := ansKeyEnd_eq (s := s.toHunt) hk
    refine ⟨fun h => answerTo_eq hl (hans.trans (if_pos (used h))),
      fun h hstate => answerTo_eq hl (hans.trans ((if_neg (free h)).trans (if_pos hstate))),
      fun i q h hstate hq hnot hlower => ?_, fun h hstate hall => ?_⟩
    · have hfound : (s.toHunt.key k).questions.findIdx? (fun q => !q.defined) = some i :=
        findIdx?_notDefined hq hnot hlower
      refine answerTo_eq hl (hans.trans ((if_neg (free h)).trans ((if_neg (not_not.mpr hstate)).trans ?_)))
      rw [hfound]
      rfl
    · have hnone : (s.toHunt.key k).questions.findIdx? (fun q => !q.defined) = none :=
        List.findIdx?_eq_none_iff.mpr fun q hq => by simp [hall q hq]
      refine answerTo_eq hl (hans.trans ((if_neg (free h)).trans ((if_neg (not_not.mpr hstate)).trans ?_)))
      rw [hnone]
      rfl
  case withdraw =>
    intro hfirst hlast qs
    have hans := ansWithdrawQuestion_eq (s := s.toHunt) hk hfirst hlast (qs := qs) rfl
    exact ⟨fun h => answerTo_eq hl (hans.trans (if_pos (used h))),
      fun q h hq hstate hnot =>
        answerTo_eq hl (hans.trans ((if_neg (free h)).trans (if_pos ((lacks_iff hq).mpr ⟨hstate, hnot⟩)))),
      fun q h hq hkept => answerTo_eq hl (hans.trans ((if_neg (free h)).trans (if_neg fun hlacks => by
        obtain ⟨hstate, hnot⟩ := (lacks_iff hq).mp hlacks
        simp [hstate, hnot] at hkept)))⟩

end Sys2Proof.Machine
end

