-- ==== Sys2Proof/Proofs/BatchRequests.lean ====
section
/-!
PROOFS. START_BATCH, CONTINUE_BATCH and ABORT_BATCH (R163, R165, R168).
-/

namespace Sys2Proof.Machine

/-! ### START_BATCH (R163) -/

/-- An ascending list of the numbers below `n` that pass a test. -/
theorem eq_filter_range {l : List Nat} {n : Nat} {p : Nat → Bool} (hl : l.Pairwise (· < ·))
    (h : ∀ i, i ∈ l ↔ i < n ∧ p i = true) : l = (List.range n).filter p :=
  eq_of_ascending hl (List.pairwise_lt_range.filter p) fun i => by rw [h, List.mem_filter, List.mem_range]

section
variable {s : State} {sitting count first last : Byte}

theorem length_emptySlots (s : State) : s.emptySlots.length = (List.range 64).countP (fun i =>
    decide (s.mke.batch.segStart ≤ i) && decide (i ≤ s.mke.batch.segEnd) && (s.stored? i).isNone) := by
  rw [List.countP_eq_length_filter]
  refine congrArg List.length (eq_filter_range (emptySlots_pairwise s) fun i => mem_emptySlots.trans ?_)
  simp only [Bool.and_eq_true, decide_eq_true_iff, Option.isNone_iff_eq_none]
  tauto

theorem marks_iff {x : SittingState} : x.marks = true ↔ x = .collecting ∨ x = .closed := by
  cases x <;> simp [SittingState.marks]

theorem startBatch_checks (hk : sitting.toNat < 8) (hsegment : first.toNat ≤ last.toNat) (hlast : last.toNat < 64) :
    ∀ c ∈ startBatchChecks sitting first last, c = true := by
  simp [startBatchChecks, isSitting, isStoreSlot, hk, hlast, hsegment, hsegment.trans_lt hlast]

/-- The state once a batch of a sitting and its key is started. -/
def State.withBatch (s : State) (sitting key : Nat) (count first last : Byte) : State :=
  s.modBatch (fun _ => freshBatch s.cli.params sitting key count first last)

/-- START_BATCH with its segment in range: by the batch that stands, then by the sitting and its key. -/
theorem ansStartBatch_eq (hk : sitting.toNat < 8) (hsegment : first.toNat ≤ last.toNat) (hlast : last.toNat < 64) :
    ansStartBatch sitting count first last s =
      if s.mke.batch.state ≠ .idle then (s, s.keyBusy)
      else if ¬(s.sitting sitting.toNat).state.marks = true then
        (s, refuse .refusedState .sittingState (.sittingState (s.sitting sitting.toNat).state))
      else (s.sitting sitting.toNat).keyId.elim (s, refuse .refusedState .noKey) (fun key =>
        if (s.key key).state ≠ .ready then (s, refuse .refusedState .keyState)
        else (s.withBatch sitting.toNat key count first last, ok (.batchStarted (batchCount count) first.toNat last.toNat
          (s.withBatch sitting.toNat key count first last).emptySlots.length))) := by
  rw [ansStartBatch, withArgs_of_all (startBatch_checks hk hsegment hlast)]
  cases hkey : (s.sitting sitting.toNat).keyId <;> simp [hkey, State.withBatch]

end

/-! ### CONTINUE_BATCH (R165) -/

section
variable {s : State}

theorem exec_continueBatch_halted (hl : s.listening = true) (h : s.mke.batch.state = .halted) :
    exec .continueBatch s = State.replied
      { s.toHunt with mke.batch := { s.mke.batch with state := .active, haltPending := false } } 0x33
      (ok (.remaining s.mke.batch.remaining)) :=
  answerTo_eq hl (if_pos h)

theorem exec_continueBatch_refused (hl : s.listening = true) (h : s.mke.batch.state ≠ .halted) :
    exec .continueBatch s = s.toHunt.replied 0x33 (refuse .refusedState .none (.batchState s.mke.batch.state)) :=
  answerTo_eq hl (if_neg h)

/-! ### ABORT_BATCH (R168) -/

/-- The reject of a parked sheet leaves the Marking Engine as it stands. -/
theorem rejectParked_mke (s : State) : s.rejectParked.mke = s.mke := by
  obtain ⟨n, hn⟩ := rejectParked_eq s
  rw [hn]

theorem modBatch_rejectParked (s : State) (f : Batch → Batch) :
    s.rejectParked.modBatch f = { s.rejectParked with mke.batch := f s.mke.batch } :=
  congrArg (fun m : Mke => { s.rejectParked with mke.batch := f m.batch }) (rejectParked_mke s)

theorem exec_abortBatch_refused (hl : s.listening = true) (h : s.mke.batch.state = .idle) :
    exec .abortBatch s = s.toHunt.replied 0x36 (refuse .refusedState) :=
  answerTo_eq hl (if_pos h)

theorem exec_abortBatch_aborted (hl : s.listening = true) (h : s.mke.batch.state ≠ .idle) :
    exec .abortBatch s = (({ s.toHunt.rejectParked with
      mke.batch := { s.mke.batch with state := .idle, endCause := .aborted, haltPending := false } } : State).notify
        (.batchAborted s.mke.batch.sitting s.mke.batch.totals s.mke.batch.remaining)).replied 0x36
          (ok (.remaining s.mke.batch.remaining)) := by
  refine answerTo_eq hl ((if_neg h).trans ?_)
  rw [modBatch_rejectParked]
  rfl

end

/-! ### The batch requests, together -/

/-- Settles O55: START_BATCH by the batch that stands, the sitting and its key, in that order; CONTINUE_BATCH and ABORT_BATCH
by the state of the batch. -/
theorem batchesAreStartedContinuedAborted : Obligations.BatchesAreStartedContinuedAborted := by
  unfold Obligations.BatchesAreStartedContinuedAborted
  refine ⟨?start, fun s hl => ⟨fun h => ⟨exec_continueBatch_halted hl h, rfl⟩, exec_continueBatch_refused hl⟩,
    fun s hl => ⟨exec_abortBatch_refused hl, ?abort⟩⟩
  case start =>
    intro sitting count first last s hl hk hsegment hlast x answered n marks
    have hans := ansStartBatch_eq (s := s.toHunt) (count := count) hk hsegment hlast
    have marking : marks → ¬¬x.state.marks = true := fun h => not_not.mpr (marks_iff.mpr h)
    refine ⟨fun hbusy => answerTo_eq hl (hans.trans (if_pos hbusy)), fun hidle hnot => ?_, fun hidle hmarks hnone => ?_,
      fun key hidle hmarks hkey => ?_⟩
    · exact answerTo_eq hl (hans.trans ((if_neg (not_not.mpr hidle)).trans (if_pos (mt marks_iff.mp hnot))))
    · refine answerTo_eq hl (hans.trans ((if_neg (not_not.mpr hidle)).trans ((if_neg (marking hmarks)).trans ?_)))
      rw [show (s.toHunt.sitting sitting.toNat).keyId = none from hnone]
      rfl
    · rw [show (s.toHunt.sitting sitting.toNat).keyId = some key from hkey] at hans
      have hbykey := hans.trans ((if_neg (not_not.mpr hidle)).trans (if_neg (marking hmarks)))
      refine ⟨fun hstate => answerTo_eq hl (hbykey.trans (if_pos hstate)), fun hready => ?_⟩
      refine answerTo_eq hl ((hbykey.trans (if_neg (not_not.mpr hready))).trans ?_)
      rw [length_emptySlots]
      rfl
  case abort =>
    intro h s1 u
    have hhold : u.hold = true := by
      rw [State.hold, notify_mke]
      rfl
    exact ⟨exec_abortBatch_aborted hl h, hhold⟩

end Sys2Proof.Machine
end

