-- ==== Sys2Proof/Proofs/Scoring.lean ====
section
/-!
PROOFS. The class of a row judged by a question, and the score of a sheet under a key (R157).
-/

namespace Sys2Proof.Machine

/-! ### The class of a row -/

section
variable {q : Question} {row : MarkRow}

theorem classify_unreadable (h : row.quality = .unreadable) : classify q row = .unreadable := if_pos h

theorem classify_blank (hread : row.quality ≠ .unreadable) (h : row.options = 0) : classify q row = .blank :=
  (if_neg hread).trans (if_pos h)

theorem classify_single (hread : row.quality ≠ .unreadable) (hmarked : row.options ≠ 0) (hmode : q.mode = .single) :
    classify q row = if row.options = q.answers then .correct else .wrong := by
  rw [classify, if_neg hread, if_neg hmarked, hmode]

/-- Exactly one option is marked. -/
theorem countBits_eq_one_iff : ∀ options : Options, countBits options = 1 ↔ ∃ n, n < 5 ∧ options = 1#5 <<< n := by
  decide

/-- One option lies in a set of options when its bit stands there. -/
theorem oneBit_and_eq_iff {w n : Nat} (hn : n < w) (a : BitVec w) : (1#w <<< n &&& a) = 1#w <<< n ↔ a.getLsbD n = true := by
  rw [← BitVec.twoPow_eq, BitVec.twoPow_and]
  have hbit : BitVec.twoPow w n ≠ 0#w := fun h => by simpa [hn] using congrArg (BitVec.getLsbD · n) h
  cases a.getLsbD n <;> simp [hbit.symm]

theorem classify_any (hread : row.quality ≠ .unreadable) (hmarked : row.options ≠ 0) (hmode : q.mode = .any) :
    classify q row =
      if countBits row.options = 1 ∧ (row.options &&& q.answers) = row.options then .correct else .wrong := by
  rw [classify, if_neg hread, if_neg hmarked, hmode]

/-- ANY is correct with one option marked that is in the answer set. -/
theorem classify_any_correct (hread : row.quality ≠ .unreadable) (hmarked : row.options ≠ 0) (hmode : q.mode = .any)
    (h : ∃ n, n < 5 ∧ row.options = 1#5 <<< n ∧ q.answers.getLsbD n = true) : classify q row = .correct := by
  obtain ⟨n, hn, hone, hin⟩ := h
  have hand : (row.options &&& q.answers) = row.options := by
    rw [hone]
    exact (oneBit_and_eq_iff hn _).mpr hin
  exact (classify_any hread hmarked hmode).trans (if_pos ⟨(countBits_eq_one_iff _).mpr ⟨n, hn, hone⟩, hand⟩)

/-- ANY is wrong with several options marked, or with one that is not in the answer set. -/
theorem classify_any_wrong (hread : row.quality ≠ .unreadable) (hmarked : row.options ≠ 0) (hmode : q.mode = .any)
    (h : ∀ n, n < 5 → row.options = 1#5 <<< n → q.answers.getLsbD n = false) : classify q row = .wrong := by
  refine (classify_any hread hmarked hmode).trans (if_neg ?_)
  rintro ⟨hcount, hand⟩
  obtain ⟨n, hn, hone⟩ := (countBits_eq_one_iff _).mp hcount
  rw [hone] at hand
  exact absurd ((oneBit_and_eq_iff hn _).mp hand) (Bool.eq_false_iff.mp (h n hn hone))

end

/-! ### The questions used -/

/-- How many questions there are is how many there are in the four classes. -/
theorem countClass_sum (used : List (Question × AnswerClass)) :
    countClass used .correct + countClass used .wrong + countClass used .blank + countClass used .unreadable =
      used.length := by
  induction used with
  | nil => rfl
  | cons p used ih =>
    simp only [countClass, List.countP_cons, List.length_cons] at ih ⊢
    cases p.2 <;> simp <;> omega

theorem gained_le_sum (used : List (Question × AnswerClass)) : gained used ≤ (used.map (·.1.weight)).sum :=
  (List.filter_sublist.map _).sum_le_sum fun _ _ => Nat.zero_le _

section
variable (key : Key) (rows : List MarkRow)

/-- The questions used that are in a class, each with its row. -/
def usedInClass (a : AnswerClass) : List (Question × MarkRow) :=
  (key.questions.zip rows).filter (fun p => !p.1.withdrawn && classify p.1 p.2 == a)

/-- The questions used that are in a class, with the class for the row. -/
theorem filter_usedQuestions (a : AnswerClass) : (usedQuestions key rows).filter (fun p => p.2 == a) =
    (usedInClass key rows a).map (fun p => (p.1, classify p.1 p.2)) := by
  simp [usedQuestions, usedInClass, List.filter_map, List.filter_filter, Function.comp_def, Bool.and_comm]

theorem countClass_usedQuestions (a : AnswerClass) :
    countClass (usedQuestions key rows) a = (usedInClass key rows a).length := by
  rw [countClass, List.countP_eq_length_filter, filter_usedQuestions, List.length_map]

theorem gained_usedQuestions :
    gained (usedQuestions key rows) = ((usedInClass key rows .correct).map (·.1.weight)).sum := by
  rw [gained, filter_usedQuestions, List.map_map]
  rfl

/-- With a row for every question, the questions used are those not withdrawn. -/
theorem map_fst_usedQuestions (h : key.questions.length ≤ rows.length) :
    (usedQuestions key rows).map (·.1) = key.questions.filter (fun q => !q.withdrawn) := by
  conv_rhs => rw [← List.map_fst_zip h, List.filter_map]
  rw [usedQuestions, List.map_map]
  rfl

end

/-! ### The score -/

section
variable {key : Key} {rows : List MarkRow}

/-- The four counts add up to the questions used. -/
theorem scoreSheet_counts (h : key.questions.length ≤ rows.length) :
    (scoreSheet key rows).correct + (scoreSheet key rows).wrong + (scoreSheet key rows).blank +
      (scoreSheet key rows).unreadable = key.questions.countP (fun q => !q.withdrawn) := by
  rw [List.countP_eq_length_filter, ← map_fst_usedQuestions key rows h, List.length_map]
  exact countClass_sum _

theorem scoreSheet_max (h : key.questions.length ≤ rows.length) : (scoreSheet key rows).max = key.maxScore := by
  rw [Key.maxScore, ← map_fst_usedQuestions key rows h, List.map_map]
  rfl

theorem scoreSheet_score_le_max (key : Key) (rows : List MarkRow) : (scoreSheet key rows).score ≤ (scoreSheet key rows).max :=
  (Nat.sub_le _ _).trans (gained_le_sum _)

theorem scoreSheet_score (key : Key) (rows : List MarkRow) : (scoreSheet key rows).score =
    ((usedInClass key rows .correct).map (·.1.weight)).sum - (usedInClass key rows .wrong).length * key.penalty := by
  rw [← gained_usedQuestions, ← countClass_usedQuestions]
  rfl

end

end Sys2Proof.Machine
end

