-- ==== Sys2Proof/Proofs/Remark.lean ====
section
/-!
PROOFS. REMARK: the stored sheets of a sitting rescored one after the other (R160, R170).
-/

namespace Sys2Proof.Machine

/-! ### A candidate's summary under REMARK (R160) -/

/-- A summary with the new result of the sheet in a slot: a result slot that stands is kept. -/
def takeResult (m : Option Summary) (p : Nat × Result) : Option Summary :=
  some ⟨p.2, (m.map (·.store)).getD (some p.1)⟩

/-- A candidate with the new results of a list taken in turn, each with the slot of its sheet. -/
def Candidate.retake (y : Candidate) (results : List (Nat × Result)) : Candidate :=
  { y with summary := results.foldl takeResult y.summary }

section
variable (y : Candidate)

@[simp] theorem retake_nil : y.retake [] = y := rfl

theorem retake_retake (l m : List (Nat × Result)) : (y.retake l).retake m = y.retake (l ++ m) := by
  simp [Candidate.retake]

/-- A result looks at the candidate's state and the booklets collected alone. -/
theorem resultFor_retake (l : List (Nat × Result)) (key : Key) (rows : List MarkRow) (remarked : Bool) :
    resultFor key rows (y.retake l) remarked = resultFor key rows y remarked :=
  rfl

end

/-- A result slot that stands stays through all results. -/
theorem foldl_takeResult_some (l : List (Nat × Result)) (m : Summary) :
    ∃ r, l.foldl takeResult (some m) = some ⟨r, m.store⟩ := by
  induction l generalizing m with
  | nil => exact ⟨m.result, rfl⟩
  | cons p l ih => exact ih ⟨p.2, m.store⟩

/-- The last result stands, with the result slot there was, or else with the first slot of the list. -/
theorem foldl_takeResult_concat (l : List (Nat × Result)) (i : Nat) (r : Result) (m : Option Summary) :
    ∃ slot : Option Nat, (l ++ [(i, r)]).foldl takeResult m = some ⟨r, slot⟩ ∧ (∀ n, m = some n → slot = n.store) ∧
      (m = none → ∃ p ∈ l ++ [(i, r)], slot = some p.1) := by
  rw [List.foldl_concat, takeResult]
  refine ⟨_, rfl, ?_, ?_⟩
  · rintro n rfl
    obtain ⟨last, hlast⟩ := foldl_takeResult_some l n
    rw [hlast]
    rfl
  · rintro rfl
    rcases l with _ | ⟨p, l⟩
    · exact ⟨(i, r), by simp, rfl⟩
    · obtain ⟨last, hlast⟩ := foldl_takeResult_some l ⟨p.2, some p.1⟩
      refine ⟨p, by simp, ?_⟩
      rw [List.foldl_cons, show takeResult none p = some ⟨p.2, some p.1⟩ from rfl, hlast]
      rfl

/-! ### One stored sheet -/

/-- Slot `i` holds a sheet `x` of the candidate `c` in slot `slot`. -/
structure State.Holds (s : State) (i : Nat) (x : Stored) (slot : Nat) (c : Candidate) : Prop where
  stored : s.stored? i = some x
  ref : x.ref = some slot
  cand : s.cand? slot = some c

/-- A stored sheet after REMARK: rescored when its candidate has a record and its form is the key's. -/
def State.rescored (s : State) (key : Key) (x : Stored) : Stored :=
  if x.sheet.form = key.form then
    (x.ref.bind s.cand?).elim x (fun c => { x with result := resultFor key x.sheet.rows c true })
  else x

/-- The new result of a candidate by the FILLED sheet in a slot, if that holds one of the key's form. -/
def State.newResult (s : State) (key : Key) (slot : Nat) (y : Candidate) (i : Nat) : Option (Nat × Result) :=
  ((s.stored? i).filter (fun x => x.kind == .filled && x.ref == some slot && x.sheet.form == key.form)).map
    (fun x => (i, resultFor key x.sheet.rows y true))

/-- Does a slot hold a sheet with a candidate that passes the test? -/
def State.counts (s : State) (p : Stored → Bool) (i : Nat) : Bool :=
  (s.stored? i).any (fun x => x.ref.any (fun c => (s.cand? c).isSome) && p x)

/-- What REMARK counts in a list of slots: FILLED, DUPLICATE, mismatched. -/
def State.remarkCounts (s : State) (key : Key) (ids : List Nat) : Nat × Nat × Nat :=
  (ids.countP (s.counts (fun x => x.kind == .filled && x.sheet.form == key.form)),
    ids.countP (s.counts (fun x => x.kind == .duplicate && x.sheet.form == key.form)),
    ids.countP (s.counts (fun x => x.sheet.form != key.form)))

section
variable {s : State} {key : Key} {i slot : Nat} {x : Stored} {c : Candidate}

theorem State.Holds.slot_lt (h : s.Holds i x slot c) : i < 64 :=
  (Vector.getElem?_eq_some_iff.mp (join_getElem?_eq_some.mp h.stored)).1

theorem rescored_sameForm (h : s.Holds i x slot c) (hform : x.sheet.form = key.form) :
    s.rescored key x = { x with result := resultFor key x.sheet.rows c true } := by
  simp [State.rescored, hform, h.ref, h.cand]

/-- A sheet with no candidate, or of another form, is not rescored. -/
theorem rescored_kept (hx : s.stored? i = some x) (h : ∀ slot c, s.Holds i x slot c → x.sheet.form ≠ key.form) :
    s.rescored key x = x := by
  unfold State.rescored
  split
  next hform =>
    have hnone : x.ref.bind s.cand? = none := by
      rw [Option.bind_eq_none_iff]
      intro slot href
      exact Option.eq_none_iff_forall_not_mem.mpr fun c hc => h slot c ⟨hx, href, hc⟩ hform
    rw [hnone]
    rfl
  next => rfl

/-- The slot holds a FILLED sheet of the candidate slot, of the key's form. -/
theorem newResult_eq_some {y : Candidate} {p : Nat × Result} : s.newResult key slot y i = some p ↔
    ∃ x, s.stored? i = some x ∧ (x.kind = .filled ∧ x.ref = some slot ∧ x.sheet.form = key.form) ∧
      (i, resultFor key x.sheet.rows y true) = p := by
  simp [State.newResult, Option.filter_eq_some_iff, and_assoc]

theorem newResult_eq_none {y : Candidate} (h : ∀ x, s.stored? i = some x →
    ¬(x.kind = .filled ∧ x.ref = some slot ∧ x.sheet.form = key.form)) : s.newResult key slot y i = none :=
  Option.eq_none_iff_forall_ne_some.mpr fun _ hp => by
    obtain ⟨x, hx, hfilled, -⟩ := newResult_eq_some.mp hp
    exact h x hx hfilled

theorem counts_of_holds (h : s.Holds i x slot c) (p : Stored → Bool) : s.counts p i = p x := by
  simp [State.counts, h.stored, h.ref, h.cand]

theorem counts_of_none (h : ∀ x slot c, ¬s.Holds i x slot c) (p : Stored → Bool) : s.counts p i = false := by
  refine Bool.eq_false_iff.mpr fun hcounts => ?_
  simp only [State.counts, Option.any_eq_true, Bool.and_eq_true, Option.isSome_iff_exists] at hcounts
  obtain ⟨x, hx, ⟨slot, href, c, hc⟩, -⟩ := hcounts
  exact h x slot c ⟨hx, href, hc⟩

theorem remarkCounts_cons (ids : List Nat) : s.remarkCounts key (i :: ids) =
    s.remarkCounts key [i] + s.remarkCounts key ids := by
  simp [State.remarkCounts, List.countP_cons, Nat.add_comm]

end

/-! ### The slots of REMARK, one after the other (R170) -/

/-- What REMARK over a list of slots comes to: only the store and the candidates change, each sheet listed is rescored, each
candidate takes the new results of its FILLED sheets, and the counts rise. -/
structure Remarked (key : Key) (ids : List Nat) (r u : State × Nat × Nat × Nat) : Prop where
  frame : u.1 = { r.1 with htu.cands := u.1.htu.cands, mke.store := u.1.mke.store }
  store : ∀ i, u.1.stored? i = if i ∈ ids then (r.1.stored? i).map (r.1.rescored key) else r.1.stored? i
  cands : ∀ slot, u.1.cand? slot =
    (r.1.cand? slot).map (fun y => y.retake (ids.filterMap (r.1.newResult key slot y)))
  counts : u.2 = r.2 + r.1.remarkCounts key ids

section
variable {key : Key} {i slot : Nat} {ids : List Nat} {r t u : State × Nat × Nat × Nat} {x : Stored} {c : Candidate}

theorem remarked_nil (key : Key) (r : State × Nat × Nat × Nat) : Remarked key [] r r where
  frame := rfl
  store _ := by simp
  cands _ := by simp
  counts := rfl

/-- A slot whose sheet is not rescored leaves the state as it is. -/
theorem remarked_kept (h : ∀ x slot c, r.1.Holds i x slot c → x.sheet.form ≠ key.form) {n : Nat × Nat × Nat}
    (hn : n = r.2 + r.1.remarkCounts key [i]) : Remarked key [i] r (r.1, n) where
  frame := rfl
  store j := by
    split
    next hj =>
      obtain rfl := List.mem_singleton.mp hj
      cases hx : r.1.stored? j with
      | none => rfl
      | some x => exact congrArg some (rescored_kept hx (h x)).symm
    next => rfl
  cands slot := by
    cases hc : r.1.cand? slot with
    | none => rfl
    | some y =>
      have hnone : r.1.newResult key slot y i = none :=
        newResult_eq_none fun x hx ⟨_, href, hform⟩ => h x slot y ⟨hx, href, hc⟩ hform
      simp [hnone]
  counts := hn

theorem remarkSlot_unmatched (h : ∀ x slot c, ¬r.1.Holds i x slot c) : State.remarkSlot key i r = r := by
  unfold State.remarkSlot
  split
  next => rfl
  next x hx =>
    split
    next => rfl
    next slot href =>
      split
      next => rfl
      next c hc => exact absurd ⟨hx, href, hc⟩ (h x slot c)

theorem remarkSlot_otherForm (h : r.1.Holds i x slot c) (hform : x.sheet.form ≠ key.form) :
    State.remarkSlot key i r = (r.1, r.2.1, r.2.2.1, r.2.2.2 + 1) := by
  simp [State.remarkSlot, h.stored, h.ref, h.cand, hform]

theorem remarkSlot_duplicate (h : r.1.Holds i x slot c) (hform : x.sheet.form = key.form) (hkind : x.kind = .duplicate) :
    State.remarkSlot key i r = (r.1.putStore i (some { x with result := resultFor key x.sheet.rows c true }),
      r.2.1, r.2.2.1 + 1, r.2.2.2) := by
  simp [State.remarkSlot, h.stored, h.ref, h.cand, hform, hkind]

theorem remarkSlot_filled (h : r.1.Holds i x slot c) (hform : x.sheet.form = key.form) (hkind : x.kind = .filled) :
    State.remarkSlot key i r =
      ((r.1.putStore i (some { x with result := resultFor key x.sheet.rows c true })).modCand slot
        (fun y => y.retake [(i, resultFor key x.sheet.rows c true)]), r.2.1 + 1, r.2.2.1, r.2.2.2) := by
  simp [State.remarkSlot, h.stored, h.ref, h.cand, hform, hkind, Candidate.retake, takeResult]

/-- The slot of a rescored sheet, whatever its kind. -/
theorem stored?_rescored (h : r.1.Holds i x slot c) (hform : x.sheet.form = key.form) (j : Nat) :
    (r.1.putStore i (some { x with result := resultFor key x.sheet.rows c true })).stored? j =
      if j ∈ [i] then (r.1.stored? j).map (r.1.rescored key) else r.1.stored? j := by
  rw [stored?_putStore _ _ _ _ h.slot_lt]
  by_cases hj : j = i
  · rw [if_pos hj, if_pos (List.mem_singleton.mpr hj), hj, h.stored, Option.map_some, rescored_sameForm h hform]
  · rw [if_neg hj, if_neg (mt List.mem_singleton.mp hj)]

/-- One slot of REMARK. -/
theorem remarked_remarkSlot (key : Key) (i : Nat) (r : State × Nat × Nat × Nat) :
    Remarked key [i] r (State.remarkSlot key i r) := by
  by_cases hholds : ∃ x slot c, r.1.Holds i x slot c
  case neg =>
    have hnone : ∀ x slot c, ¬r.1.Holds i x slot c := fun x slot c h => hholds ⟨x, slot, c, h⟩
    rw [remarkSlot_unmatched hnone]
    exact remarked_kept (fun x slot c h => absurd h (hnone x slot c))
      (by simp [State.remarkCounts, counts_of_none hnone])
  obtain ⟨x, slot, c, h⟩ := hholds
  by_cases hform : x.sheet.form = key.form
  case neg =>
    have hother : ∀ z d y, r.1.Holds i z d y → z.sheet.form ≠ key.form := fun z d y hz => by
      obtain rfl := Option.some.inj (h.stored.symm.trans hz.stored)
      exact hform
    rw [remarkSlot_otherForm h hform]
    exact remarked_kept hother (by simp [State.remarkCounts, counts_of_holds h, hform, Prod.ext_iff])
  cases hkind : x.kind with
  | duplicate =>
    rw [remarkSlot_duplicate h hform hkind]
    refine ⟨rfl, stored?_rescored h hform, fun d => ?_, by
      simp [State.remarkCounts, counts_of_holds h, hform, hkind, Prod.ext_iff]⟩
    have hnone : ∀ y, r.1.newResult key d y i = none := fun y => newResult_eq_none fun z hz hfilled => by
      obtain rfl := Option.some.inj (h.stored.symm.trans hz)
      simp [hkind] at hfilled
    simp [hnone]
  | filled =>
    rw [remarkSlot_filled h hform hkind]
    refine ⟨rfl, stored?_rescored h hform, fun d => ?_, by
      simp [State.remarkCounts, counts_of_holds h, hform, hkind, Prod.ext_iff]⟩
    rw [cand?_modCand, putStore_cand?, putStore_cand?]
    by_cases hd : d = slot
    · have hsome : r.1.newResult key slot c i = some (i, resultFor key x.sheet.rows c true) :=
        newResult_eq_some.mpr ⟨x, h.stored, ⟨hkind, h.ref, hform⟩, rfl⟩
      rw [if_pos hd, hd, h.cand]
      simp [hsome]
    · have hnone : ∀ y, r.1.newResult key d y i = none := fun y => newResult_eq_none fun z hz ⟨_, href, _⟩ => by
        obtain rfl := Option.some.inj (h.stored.symm.trans hz)
        exact hd (Option.some.inj (href.symm.trans h.ref))
      simp [hd, hnone]

/-- A slot that is not listed holds, after REMARK over the list, what it held; its candidate differs in the summary. -/
theorem Remarked.newResult_eq (h : Remarked key ids r t) (hi : i ∉ ids) (y : Candidate) (l : List (Nat × Result)) :
    t.1.newResult key slot (y.retake l) i = r.1.newResult key slot y i := by
  simp only [State.newResult, h.store i, if_neg hi, resultFor_retake]

theorem Remarked.rescored_eq (h : Remarked key ids r t) (x : Stored) : t.1.rescored key x = r.1.rescored key x := by
  unfold State.rescored
  cases x.ref with
  | none => rfl
  | some slot => cases hc : r.1.cand? slot <;> simp [h.cands slot, hc, resultFor_retake]

theorem Remarked.counts_eq (h : Remarked key ids r t) (hi : i ∉ ids) (p : Stored → Bool) :
    t.1.counts p i = r.1.counts p i := by
  simp [State.counts, h.store i, hi, h.cands]

theorem Remarked.remarkCounts_eq (h : Remarked key [i] r t) (hi : i ∉ ids) :
    t.1.remarkCounts key ids = r.1.remarkCounts key ids := by
  have hsame : ∀ p, ids.countP (t.1.counts p) = ids.countP (r.1.counts p) := fun p =>
    List.countP_congr fun j hj => by
      rw [h.counts_eq (fun hmem => hi (List.mem_singleton.mp hmem ▸ hj)) p]
  simp only [State.remarkCounts, hsame]

/-- One slot, and then others that are not it. -/
theorem Remarked.cons (hi : i ∉ ids) (hfirst : Remarked key [i] r t) (hrest : Remarked key ids t u) :
    Remarked key (i :: ids) r u where
  frame := by
    rw [hrest.frame, hfirst.frame]
  store j := by
    rw [hrest.store j, hfirst.store j, funext hfirst.rescored_eq]
    by_cases hj : j = i
    · subst hj
      simp [hi]
    · simp [hj]
  cands slot := by
    have hsame : ∀ y l, ids.filterMap (t.1.newResult key slot (Candidate.retake y l)) =
        ids.filterMap (r.1.newResult key slot y) := fun y l => List.filterMap_congr fun j hj =>
      hfirst.newResult_eq (fun hmem => hi (List.mem_singleton.mp hmem ▸ hj)) y l
    rw [hrest.cands slot, hfirst.cands slot, Option.map_map]
    refine congrArg (Option.map · _) (funext fun y => ?_)
    rw [Function.comp_apply, hsame, retake_retake, ← List.filterMap_append, List.singleton_append]
  counts := by
    rw [hrest.counts, hfirst.counts, hfirst.remarkCounts_eq hi, remarkCounts_cons ids, add_assoc]

/-- Slots that are all different. -/
theorem remarked_foldl (key : Key) (hids : ids.Nodup) (r : State × Nat × Nat × Nat) :
    Remarked key ids r (ids.foldl (fun r i => State.remarkSlot key i r) r) := by
  induction ids generalizing r with
  | nil => exact remarked_nil key r
  | cons i ids ih =>
    obtain ⟨hi, hrest⟩ := List.nodup_cons.mp hids
    exact (remarked_remarkSlot key i r).cons hi (ih hrest _)

end

/-! ### The candidates after REMARK (R160) -/

/-- The entries of an ascending list up to the last that gives a value end in that value. -/
theorem filterMap_eq_concat {β : Type} {f : Nat → Option β} {ids : List Nat} {i : Nat} {p : β}
    (hascending : ids.Pairwise (· < ·)) (hi : i ∈ ids) (hp : f i = some p) (hlast : ∀ j ∈ ids, i < j → f j = none) :
    ∃ l, ids.filterMap f = l ++ [p] := by
  obtain ⟨before, after, rfl⟩ := List.append_of_mem hi
  obtain ⟨-, hfrom, -⟩ := List.pairwise_append.mp hascending
  obtain ⟨hafter, -⟩ := List.pairwise_cons.mp hfrom
  have hnone : after.filterMap f = [] :=
    List.filterMap_eq_nil_iff.mpr fun j hj => hlast j (by simp [hj]) (hafter j hj)
  exact ⟨before.filterMap f, by rw [List.filterMap_append, List.filterMap_cons_some hp, hnone]⟩

section
variable {key : Key} {i c : Nat} {ids : List Nat} {r u : State × Nat × Nat × Nat} {y : Candidate}

/-- A candidate with no FILLED sheet listed is as before. -/
theorem Remarked.cand?_kept (h : Remarked key ids r u)
    (hnone : ∀ y, ∀ i ∈ ids, r.1.newResult key c y i = none) : u.1.cand? c = r.1.cand? c := by
  have hempty : ∀ y, ids.filterMap (r.1.newResult key c y) = [] := fun y => List.filterMap_eq_nil_iff.mpr (hnone y)
  simp [h.cands c, hempty]

/-- A candidate's summary takes the result of the last FILLED sheet listed. -/
theorem Remarked.cand?_filled (h : Remarked key ids r u) (hascending : ids.Pairwise (· < ·))
    (hy : r.1.cand? c = some y) (hi : i ∈ ids) {result : Result} (hresult : r.1.newResult key c y i = some (i, result))
    (hlast : ∀ j ∈ ids, i < j → r.1.newResult key c y j = none) :
    ∃ slot : Option Nat, u.1.cand? c = some { y with summary := some ⟨result, slot⟩ } ∧
      (∀ m, y.summary = some m → slot = m.store) ∧
      (y.summary = none → ∃ j ∈ ids, ∃ p, r.1.newResult key c y j = some p ∧ slot = some j) := by
  obtain ⟨l, hl⟩ := filterMap_eq_concat hascending hi hresult hlast
  obtain ⟨slot, hsummary, hkept, hfirst⟩ := foldl_takeResult_concat l i result y.summary
  refine ⟨slot, ?_, hkept, fun hnone => ?_⟩
  · rw [h.cands c, hy, Option.map_some, hl, Candidate.retake, hsummary]
  · obtain ⟨p, hp, hslot⟩ := hfirst hnone
    obtain ⟨j, hj, hjp⟩ := List.mem_filterMap.mp (hl ▸ hp)
    obtain ⟨x, -, -, rfl⟩ := newResult_eq_some.mp hjp
    exact ⟨j, hj, _, hjp, hslot⟩

end

/-! ### The request -/

section
variable {s : State} {sitting : Byte}

/-- The slots of a sitting's stored sheets. -/
theorem mem_storedOf {k i : Nat} : i ∈ s.storedOf k ↔ ∃ x, s.stored? i = some x ∧ x.sheet.sitting = k := by
  rw [State.storedOf, mem_indexesWhere]
  constructor
  · rintro ⟨_ | x, ho, hk⟩
    · exact absurd hk (by simp)
    · exact ⟨x, join_getElem?_eq_some.mpr ho, by simpa using hk⟩
  · rintro ⟨x, hx, hk⟩
    exact ⟨some x, join_getElem?_eq_some.mp hx, by simpa using hk⟩

theorem storedOf_pairwise (s : State) (k : Nat) : (s.storedOf k).Pairwise (· < ·) := indexesWhere_pairwise _ _

/-- A count over the slots of a sitting is one over the store. -/
theorem countP_storedOf (k : Nat) (p : Stored → Bool) : (s.storedOf k).countP (s.counts p) =
    (List.range 64).countP (fun i => (s.stored? i).any (fun x =>
      x.sheet.sitting == k && x.ref.any (fun c => (s.cand? c).isSome) && p x)) := by
  have hslots : s.storedOf k = (List.range 64).filter (fun i => (s.stored? i).any (·.sheet.sitting == k)) :=
    eq_filter_range (storedOf_pairwise s k) fun i => by
      rw [mem_storedOf]
      constructor
      · rintro ⟨x, hx, hk⟩
        exact ⟨(Vector.getElem?_eq_some_iff.mp (join_getElem?_eq_some.mp hx)).1, by simp [hx, hk]⟩
      · rintro ⟨-, hk⟩
        simpa [Option.any_eq_true] using hk
  rw [hslots, List.countP_filter]
  refine List.countP_congr fun i _ => ?_
  cases hx : s.stored? i with
  | none => simp [State.counts, hx]
  | some x => simp [State.counts, hx]; tauto

/-- The slots of a sitting rescored under a key. -/
def State.remarked (s : State) (key : Key) (k : Nat) : State × Nat × Nat × Nat :=
  (s.storedOf k).foldl (fun r i => State.remarkSlot key i r) (s, 0, 0, 0)

theorem remarked_remarked (s : State) (key : Key) (k : Nat) :
    Remarked key (s.storedOf k) (s, 0, 0, 0) (s.remarked key k) :=
  remarked_foldl key ((storedOf_pairwise s k).imp Nat.ne_of_lt) _

theorem remarked_counts (key : Key) (k : Nat) : (s.remarked key k).2 = s.remarkCounts key (s.storedOf k) :=
  (remarked_remarked s key k).counts.trans (zero_add _)

section
variable {key : Key} {k i slot c : Nat} {x : Stored} {y : Candidate}

/-- A sheet of the sitting with a candidate and the key's form is rescored. -/
theorem stored?_remarked_sameForm (h : s.Holds i x slot y) (hk : x.sheet.sitting = k) (hform : x.sheet.form = key.form) :
    (s.remarked key k).1.stored? i = some { x with result := resultFor key x.sheet.rows y true } := by
  rw [(remarked_remarked s key k).store i, if_pos (mem_storedOf.mpr ⟨x, h.stored, hk⟩), h.stored, Option.map_some,
    rescored_sameForm h hform]

/-- Every other slot holds what it held. -/
theorem stored?_remarked_kept (h : ∀ x slot y, s.Holds i x slot y → x.sheet.sitting = k → x.sheet.form ≠ key.form) :
    (s.remarked key k).1.stored? i = s.stored? i := by
  rw [(remarked_remarked s key k).store i]
  split
  next hi =>
    obtain ⟨x, hx, hk⟩ := mem_storedOf.mp hi
    rw [hx, Option.map_some, rescored_kept hx fun slot y hholds => h x slot y hholds hk]
  next => rfl

/-- Slot `i` holds a FILLED sheet of the sitting and of the key's form, for candidate slot `c`. -/
def State.FilledFor (s : State) (key : Key) (k c i : Nat) (x : Stored) : Prop :=
  (s.stored? i = some x ∧ x.sheet.sitting = k) ∧ x.kind = .filled ∧ x.ref = some c ∧ x.sheet.form = key.form

theorem filledFor_of_newResult {p : Nat × Result} (hi : i ∈ s.storedOf k) (hp : s.newResult key c y i = some p) :
    ∃ x, s.FilledFor key k c i x := by
  obtain ⟨x, hx, hfilled, -⟩ := newResult_eq_some.mp hp
  obtain ⟨z, hz, hk⟩ := mem_storedOf.mp hi
  obtain rfl := Option.some.inj (hx.symm.trans hz)
  exact ⟨x, ⟨hx, hk⟩, hfilled⟩

/-- The last FILLED sheet of a candidate gives the summary its result. -/
theorem cand?_remarked_filled (hy : s.cand? c = some y) (h : s.FilledFor key k c i x)
    (hlast : ∀ j w, s.FilledFor key k c j w → j ≤ i) : ∃ slot : Option Nat,
      (s.remarked key k).1.cand? c = some { y with summary := some ⟨resultFor key x.sheet.rows y true, slot⟩ } ∧
      (∀ m, y.summary = some m → slot = m.store) ∧
      (y.summary = none → ∃ j w, s.FilledFor key k c j w ∧ slot = some j) := by
  obtain ⟨⟨hx, hk⟩, hfilled⟩ := h
  obtain ⟨slot, hcand, hkept, hfirst⟩ := (remarked_remarked s key k).cand?_filled (storedOf_pairwise s k) hy
    (mem_storedOf.mpr ⟨x, hx, hk⟩) (newResult_eq_some.mpr ⟨x, hx, hfilled, rfl⟩) fun j hj hlater =>
      Option.eq_none_iff_forall_ne_some.mpr fun p hp => by
        obtain ⟨w, hw⟩ := filledFor_of_newResult hj hp
        exact absurd (hlast j w hw) (Nat.not_le.mpr hlater)
  refine ⟨slot, hcand, hkept, fun hnone => ?_⟩
  obtain ⟨j, hj, p, hp, hslot⟩ := hfirst hnone
  obtain ⟨w, hw⟩ := filledFor_of_newResult hj hp
  exact ⟨j, w, hw, hslot⟩

theorem cand?_remarked_kept (h : ∀ i x, ¬s.FilledFor key k c i x) : (s.remarked key k).1.cand? c = s.cand? c :=
  (remarked_remarked s key k).cand?_kept fun y i hi => Option.eq_none_iff_forall_ne_some.mpr fun p hp => by
    obtain ⟨x, hx⟩ := filledFor_of_newResult hi hp
    exact h i x hx

end

/-- REMARK: by the batch, then by the sitting's key. -/
theorem ansRemark_eq (hk : sitting.toNat < 8) : ansRemark sitting s =
    if s.mke.batch.state ≠ .idle then (s, refuse .busy)
    else (s.sitting sitting.toNat).keyId.elim (s, refuse .refusedState) (fun key =>
      if (s.key key).state ≠ .ready then (s, refuse .refusedState)
      else ((s.remarked (s.key key) sitting.toNat).1, ok (.remarked (s.remarked (s.key key) sitting.toNat).2.1
        (s.remarked (s.key key) sitting.toNat).2.2.1 (s.remarked (s.key key) sitting.toNat).2.2.2))) := by
  rw [ansRemark, withArgs_of_all (by simp [isSitting, hk])]
  cases (s.sitting sitting.toNat).keyId <;> simp [State.remarked]

end

/-! ### Scoring and REMARK, together -/

/-- Settles O57: the class of a row by the tests in their order, the score by the questions of each class, and REMARK by its
refusals or by what the rescoring of the sitting's slots comes to. -/
theorem scoringAndRemark : Obligations.ScoringAndRemark := by
  unfold Obligations.ScoringAndRemark
  refine ⟨⟨fun q row => ⟨classify_unreadable, classify_blank, classify_single, fun hread hmarked hmode =>
      ⟨classify_any_correct hread hmarked hmode, classify_any_wrong hread hmarked hmode⟩⟩,
    fun key rows h => ⟨scoreSheet_counts h, scoreSheet_max h, scoreSheet_score_le_max key rows,
      countClass_usedQuestions key rows .correct, countClass_usedQuestions key rows .wrong,
      countClass_usedQuestions key rows .blank, countClass_usedQuestions key rows .unreadable, ?above, ?below⟩⟩, ?remark⟩
  case above =>
    intro hle
    rw [scoreSheet_score]
    exact Nat.sub_add_cancel hle
  case below =>
    intro hlt
    rw [scoreSheet_score]
    exact Nat.sub_eq_zero_of_le hlt.le
  case remark =>
    intro sitting s hl hk answered
    have hans := ansRemark_eq (s := s.toHunt) hk
    refine ⟨fun hbusy => answerTo_eq hl (hans.trans (if_pos hbusy)), fun hidle hnone => ?_, fun key hidle hkey => ?_⟩
    · refine answerTo_eq hl (hans.trans ((if_neg (not_not.mpr hidle)).trans ?_))
      rw [show (s.toHunt.sitting sitting.toNat).keyId = none from hnone]
      rfl
    rw [show (s.toHunt.sitting sitting.toNat).keyId = some key from hkey] at hans
    have hbykey := hans.trans (if_neg (not_not.mpr hidle))
    refine ⟨fun hstate => answerTo_eq hl (hbykey.trans (if_pos hstate)), fun hready => ?_⟩
    refine ⟨(s.toHunt.remarked (s.key key) sitting.toNat).1, ?_⟩
    intro marked rescored counted
    refine ⟨?_, (remarked_remarked s.toHunt (s.key key) sitting.toNat).frame,
      fun i x slot c ⟨hx, hsitting⟩ href hc hform => stored?_remarked_sameForm ⟨hx, href, hc⟩ hsitting hform,
      fun i h => stored?_remarked_kept fun x slot c hholds hsitting =>
        h x slot c ⟨hholds.stored, hsitting⟩ hholds.ref hholds.cand,
      fun c i x y => cand?_remarked_filled (s := s.toHunt) (key := s.key key) (k := sitting.toNat),
      fun c => cand?_remarked_kept (s := s.toHunt) (key := s.key key) (k := sitting.toNat)⟩
    refine answerTo_eq hl ((hbykey.trans (if_neg (not_not.mpr hready))).trans ?_)
    have hcounts := remarked_counts (s := s.toHunt) (s.key key) sitting.toNat
    simp only [State.remarkCounts, countP_storedOf] at hcounts
    rw [show s.toHunt.key key = s.key key from rfl, hcounts]
    rfl

end Sys2Proof.Machine
end

