-- ==== Sys2Proof/Proofs/LineKept.lean ====
section
/-!
PROOFS. What the shared operations of the other blocks do to the control link (R175, R178): none touches the reply list, the
frame on the line or a reset about to act, and a notice joins its queue at the tail.
-/

namespace Sys2Proof.Machine

/-! ### The control link left to itself -/

/-- The reply list, the frame on the line and a reset about to act are as they were, and what stood in the notice queue still
stands at its head. -/
structure State.LineKept (s t : State) : Prop where
  replies : t.cli.replies = s.cli.replies
  sending : t.cli.sending = s.cli.sending
  resetDue : t.cli.resetDue = s.cli.resetDue
  notices : s.cli.notices <+: t.cli.notices

/-- A change outside the control link. -/
theorem State.LineKept.of_cli {s t u : State} (h : s.LineKept t) (hcli : u.cli = t.cli) : s.LineKept u :=
  ⟨hcli ▸ h.replies, hcli ▸ h.sending, hcli ▸ h.resetDue, hcli ▸ h.notices⟩

/-- The parts of the state that `State.LineKept` speaks of. -/
def lineParts : List Part := [.replies, .sending, .resetDue, .notices]

@[simp] theorem lineKept_refl (s : State) : s.LineKept s := ⟨rfl, rfl, rfl, List.prefix_refl _⟩

theorem State.LineKept.trans {s t u : State} (h : s.LineKept t) (k : t.LineKept u) : s.LineKept u :=
  ⟨k.replies.trans h.replies, k.sending.trans h.sending, k.resetDue.trans h.resetDue, h.notices.trans k.notices⟩

/-- An operation that writes none of these parts may be taken off. -/
theorem Only.lineKept {l : List Part} {s t u : State} (h : Only l t u) (hl : ∀ p ∈ lineParts, p ∉ l := by decide) :
    s.LineKept u ↔ s.LineKept t := by
  have hreplies : u.cli.replies = t.cli.replies := h .replies (hl _ (by decide))
  have hsending : u.cli.sending = t.cli.sending := h .sending (hl _ (by decide))
  have hdue : u.cli.resetDue = t.cli.resetDue := h .resetDue (hl _ (by decide))
  have hnotices : u.cli.notices = t.cli.notices := h .notices (hl _ (by decide))
  constructor <;> rintro ⟨h1, h2, h3, h4⟩
  · exact ⟨hreplies ▸ h1, hsending ▸ h2, hdue ▸ h3, hnotices ▸ h4⟩
  · exact ⟨hreplies.trans h1, hsending.trans h2, hdue.trans h3, hnotices ▸ h4⟩

@[simp] theorem lineKept_ite (c : Prop) [Decidable c] (s a b : State) :
    s.LineKept (if c then a else b) ↔ if c then s.LineKept a else s.LineKept b :=
  Iff.of_eq (apply_ite s.LineKept c a b)

/-- An operation applied for each member of a list. -/
theorem lineKept_forEach {α : Type} {f : α → State → State} {s t : State} (hf : ∀ x u, s.LineKept u → s.LineKept (f x u))
    (xs : List α) (h : s.LineKept t) : s.LineKept (t.forEach xs f) := by
  induction xs generalizing t with
  | nil => exact h
  | cons x xs ih => exact ih (hf x t h)

/-! ### Operations that send no notice -/

/-- One entry of a table changed. -/
@[simp] theorem lineKept_update (s t : State) :
    (∀ i f, s.LineKept (t.modSeat i f) ↔ s.LineKept t) ∧ (∀ c f, s.LineKept (t.modCand c f) ↔ s.LineKept t) ∧
    (∀ c x, s.LineKept (t.putCand c x) ↔ s.LineKept t) ∧ (∀ k f, s.LineKept (t.modSitting k f) ↔ s.LineKept t) ∧
    (∀ l a f, s.LineKept (t.modUnit l a f) ↔ s.LineKept t) ∧ (∀ l f, s.LineKept (t.modLink l f) ↔ s.LineKept t) ∧
    (∀ i f, s.LineKept (t.modCall i f) ↔ s.LineKept t) ∧ (∀ i x, s.LineKept (t.putCall i x) ↔ s.LineKept t) ∧
    (∀ h f, s.LineKept (t.modHandset h f) ↔ s.LineKept t) ∧ (∀ k f, s.LineKept (t.modChannel k f) ↔ s.LineKept t) ∧
    (∀ k f, s.LineKept (t.modKey k f) ↔ s.LineKept t) ∧ (∀ i x, s.LineKept (t.putStore i x) ↔ s.LineKept t) ∧
    (∀ f, s.LineKept (t.modBatch f) ↔ s.LineKept t) ∧ (∀ a, s.LineKept (t.setAssembler a) ↔ s.LineKept t) :=
  ⟨fun i f => (modSeat_only t i f).lineKept, fun c f => (modCand_only t c f).lineKept,
    fun c x => (putCand_only t c x).lineKept, fun k f => (modSitting_only t k f).lineKept,
    fun l a f => (modUnit_only t l a f).lineKept, fun l f => (modLink_only t l f).lineKept,
    fun i f => (modCall_only t i f).lineKept, fun i x => (putCall_only t i x).lineKept,
    fun h f => (modHandset_only t h f).lineKept, fun k f => (modChannel_only t k f).lineKept,
    fun k f => (modKey_only t k f).lineKept, fun i x => (putStore_only t i x).lineKept,
    fun f => (modBatch_only t f).lineKept, fun a => (setAssembler_only t a).lineKept⟩

/-- Seats, candidates and their bindings, the waiting queue and the passes asked for (chapters 1 and 2). -/
@[simp] theorem lineKept_binding (s t : State) :
    (s.LineKept t.askRetry ↔ s.LineKept t) ∧ (∀ b, s.LineKept (t.askRetryIf b) ↔ s.LineKept t) ∧
    (∀ c, s.LineKept (t.leaveQueue c) ↔ s.LineKept t) ∧ (∀ c i, s.LineKept (t.bindSeat c i) ↔ s.LineKept t) ∧
    (∀ c, s.LineKept (t.clearBinding c).1 ↔ s.LineKept t) ∧ (∀ l, s.LineKept (t.clearBindings l).1 ↔ s.LineKept t) ∧
    (∀ c i, s.LineKept (t.moveBinding c i) ↔ s.LineKept t) ∧ (∀ c x, s.LineKept (t.retire c x).1 ↔ s.LineKept t) ∧
    (∀ c, s.LineKept (t.finishClaim c) ↔ s.LineKept t) ∧ (∀ k, s.LineKept (t.absenceClaim k).1 ↔ s.LineKept t) ∧
    (∀ k, s.LineKept (t.closingClaim k).1 ↔ s.LineKept t) ∧ (∀ k, s.LineKept (t.freeSlotsOf k).1 ↔ s.LineKept t) ∧
    (∀ i b, s.LineKept (t.answeringClaim i b) ↔ s.LineKept t) ∧ (∀ i, s.LineKept (t.occupy i) ↔ s.LineKept t) :=
  ⟨(askRetry_only t).lineKept, fun b => (askRetryIf_only t b).lineKept, fun c => (leaveQueue_only t c).lineKept,
    fun c i => (bindSeat_only t c i).lineKept, fun c => (clearBinding_only t c).lineKept,
    fun l => (clearBindings_only t l).lineKept, fun c i => (moveBinding_only t c i).lineKept,
    fun c x => (retire_only t c x).lineKept, fun c => (finishClaim_only t c).lineKept,
    fun k => (absenceClaim_only t k).lineKept, fun k => (closingClaim_only t k).lineKept,
    fun k => (freeSlotsOf_only t k).lineKept, fun i b => (answeringClaim_only t i b).lineKept,
    fun i => (occupy_only t i).lineKept⟩

/-- Mark lists, the writing clock and time codes asked for (chapters 3 and 4). -/
@[simp] theorem lineKept_marks (s t : State) :
    (s.LineKept t.askBroadcast ↔ s.LineKept t) ∧ (∀ k e, s.LineKept (t.addMark k e) ↔ s.LineKept t) ∧
    (∀ k c, s.LineKept (t.dropMark k c) ↔ s.LineKept t) ∧ (∀ c, s.LineKept (t.addWritingEntry c) ↔ s.LineKept t) ∧
    (∀ c d, s.LineKept (t.resumeFor c d) ↔ s.LineKept t) ∧ (∀ c, s.LineKept (t.fireWarn c) ↔ s.LineKept t) ∧
    (∀ c, s.LineKept (State.beginWriting c t) ↔ s.LineKept t) ∧ (∀ k, s.LineKept (t.advanceClock k) ↔ s.LineKept t) :=
  ⟨(askBroadcast_only t).lineKept, fun k e => (addMark_only t k e).lineKept, fun k c => (dropMark_only t k c).lineKept,
    fun c => (addWritingEntry_only t c).lineKept, fun c d => (resumeFor_only t c d).lineKept,
    fun c => (fireWarn_only t c).lineKept, fun c => (beginWriting_only t c).lineKept,
    fun k => (advanceClock_only t k).lineKept⟩

/-- Units and links (chapter 5). -/
@[simp] theorem lineKept_units (s t : State) :
    (∀ l, s.LineKept (t.beginCycle l) ↔ s.LineKept t) ∧ (∀ l i o, s.LineKept (t.setOneShot l i o) ↔ s.LineKept t) ∧
    (∀ l, s.LineKept (t.pollNext l) ↔ s.LineKept t) ∧ (∀ l, s.LineKept (t.sendBroadcast l) ↔ s.LineKept t) ∧
    (∀ l, s.LineKept (t.sendRepeat l) ↔ s.LineKept t) ∧ (∀ l, s.LineKept (t.startLink l) ↔ s.LineKept t) ∧
    (∀ l, s.LineKept (t.stopLink l) ↔ s.LineKept t) ∧ (s.LineKept t.restartLinks ↔ s.LineKept t) :=
  ⟨fun l => (beginCycle_only t l).lineKept, fun l i o => (setOneShot_only t l i o).lineKept,
    fun l => (pollNext_only t l).lineKept, fun l => (sendBroadcast_only t l).lineKept,
    fun l => (sendRepeat_only t l).lineKept, fun l => (startLink_only t l).lineKept,
    fun l => (stopLink_only t l).lineKept, (restartLinks_only t).lineKept⟩

/-- Calls, handsets and the exception list (chapters 6 and 7). -/
@[simp] theorem lineKept_calls (s t : State) :
    (∀ h n, s.LineKept (t.setNote h n) ↔ s.LineKept t) ∧ (∀ c, s.LineKept (t.issueClaim c).1 ↔ s.LineKept t) ∧
    (∀ h i, s.LineKept (t.unstack h i) ↔ s.LineKept t) ∧ (∀ k, s.LineKept (t.cancelSittingCalls k).1 ↔ s.LineKept t) ∧
    (∀ h, s.LineKept (t.handsetHeard h) ↔ s.LineKept t) ∧ (s.LineKept t.clearCalls ↔ s.LineKept t) ∧
    (∀ e k g i, s.LineKept (t.addException e k g i) ↔ s.LineKept t) ∧
    (∀ k c g, s.LineKept (t.orderCheck k c g) ↔ s.LineKept t) :=
  ⟨fun h n => (setNote_only t h n).lineKept, fun c => (issueClaim_only t c).lineKept,
    fun h i => (unstack_only t h i).lineKept, fun k => (cancelSittingCalls_only t k).lineKept,
    fun h => (handsetHeard_only t h).lineKept, (clearCalls_only t).lineKept,
    fun e k g i => (addException_only t e k g i).lineKept, fun k c g => (orderCheck_only t k c g).lineKept⟩

/-- Verdicts, the end of a sheet frame and the store (chapters 8 and 9). -/
@[simp] theorem lineKept_marking (s t : State) :
    (∀ f b, s.LineKept (t.formVerdict f b) ↔ s.LineKept t) ∧ (s.LineKept t.countSheet ↔ s.LineKept t) ∧
    (∀ l, s.LineKept (t.releaseSlots l).1 ↔ s.LineKept t) ∧ (∀ i c x, s.LineKept (t.adopt i c x) ↔ s.LineKept t) ∧
    (∀ b f, s.LineKept (t.recordEnd b f) ↔ s.LineKept t) ∧ (s.LineKept t.verdictSent ↔ s.LineKept t) ∧
    (s.LineKept t.rejectParked ↔ s.LineKept t) ∧ (s.LineKept t.resyncReader ↔ s.LineKept t) :=
  ⟨fun f b => (formVerdict_only t f b).lineKept, (countSheet_only t).lineKept, fun l => (releaseSlots_only t l).lineKept,
    fun i c x => (adopt_only t i c x).lineKept, fun b f => (recordEnd_only t b f).lineKept, (verdictSent_only t).lineKept,
    (rejectParked_only t).lineKept, (resyncReader_only t).lineKept⟩

/-! ### Notices (R178) -/

section
variable {s t : State}

@[simp] theorem lineKept_notify (b : NoticeBody) (h : s.LineKept t) : s.LineKept (t.notify b) := by
  unfold State.notify
  split
  · exact ⟨h.replies, h.sending, h.resetDue, h.notices.trans (List.prefix_append _ _)⟩
  · exact h.trans ⟨rfl, rfl, rfl, List.prefix_refl _⟩

/-! ### The seat search and relocation (chapter 2) -/

@[simp] theorem lineKept_noteRouteMiss (k c : Nat) (h : s.LineKept t) : s.LineKept (t.noteRouteMiss k c) := by
  unfold State.noteRouteMiss
  split <;> simp [h]

@[simp] theorem lineKept_noteRunMiss (k : Nat) (places : List (Nat × Placement)) (h : s.LineKept t) :
    s.LineKept (t.noteRunMiss k places) := by
  unfold State.noteRunMiss
  split <;> simp [h]

theorem lineKept_retryOne (c : Nat) (h : s.LineKept t) : s.LineKept (State.retryOne c t) := by
  unfold State.retryOne
  split
  · exact h
  · split <;> simp [h]

theorem lineKept_retryWalk (h : s.LineKept t) : s.LineKept t.retryWalk :=
  lineKept_forEach (fun c _ => lineKept_retryOne c) _ h

theorem lineKept_relocate (c i : Nat) (h : s.LineKept t) : s.LineKept (t.relocate c i) := by
  unfold State.relocate
  split
  · exact h
  · split
    · split <;> simp [h]
    · exact h

@[simp] theorem lineKept_faultClaim (i : Nat) (q : FaultKind) (h : s.LineKept t) : s.LineKept (t.faultClaim i q) := by
  unfold State.faultClaim
  split
  · exact h
  · dsimp only
    split
    · exact h
    · have hnoticed (f : Seat → Seat) (b : NoticeBody) : s.LineKept ((t.modSeat i f).notify b) := by simp [h]
      split
      · split
        · exact (hnoticed _ _).of_cli rfl
        · exact hnoticed _ _
      · exact hnoticed _ _

/-! ### Personal time (chapters 3 and 4) -/

@[simp] theorem lineKept_notePhase (k : Nat) (c : PhaseCause) (h : s.LineKept t) : s.LineKept (t.notePhase k c) :=
  lineKept_notify _ h

@[simp] theorem lineKept_collectIfEmpty (k : Nat) (h : s.LineKept t) : s.LineKept (t.collectIfEmpty k) := by
  simp [State.collectIfEmpty, h]

@[simp] theorem lineKept_noteCandEnd (c : Nat) (h : s.LineKept t) : s.LineKept (t.noteCandEnd c) := by
  unfold State.noteCandEnd
  split <;> simp [h]

@[simp] theorem lineKept_fireEnd (c : Nat) (h : s.LineKept t) : s.LineKept (t.fireEnd c) := by
  simp [State.fireEnd, h]

@[simp] theorem lineKept_fireRest (c : Nat) (h : s.LineKept t) : s.LineKept (t.fireRest c) := by
  unfold State.fireRest
  split
  · exact h
  · split
    · refine lineKept_notify _ ?_
      split <;> simp [h]
    · exact h

@[simp] theorem lineKept_fireEntry (e : MarkEntry) (h : s.LineKept t) : s.LineKept (t.fireEntry e) := by
  unfold State.fireEntry
  split <;> simp [h]

@[simp] theorem lineKept_fireHead (k : Nat) (h : s.LineKept t) : s.LineKept (t.fireHead k) := by
  unfold State.fireHead
  split <;> simp [h]

@[simp] theorem lineKept_fireDue (k : Nat) (h : s.LineKept t) : s.LineKept (t.fireDue k) := by
  have upTo : ∀ (n : Nat) (u : State), s.LineKept u → s.LineKept (State.fireUpTo k n u) := by
    intro n
    induction n with
    | zero => exact fun u hu => hu
    | succ n ih =>
      intro u hu
      unfold State.fireUpTo
      split
      · exact ih _ (lineKept_fireHead k hu)
      · exact hu
  exact upTo _ t h

@[simp] theorem lineKept_fireInserted (k : Nat) (h : s.LineKept t) : s.LineKept (t.fireInserted k) := by
  simp [State.fireInserted, h]

@[simp] theorem lineKept_resumeClaim (c : Nat) (h : s.LineKept t) : s.LineKept (t.resumeClaim c) := by
  unfold State.resumeClaim
  split <;> simp [h]

@[simp] theorem lineKept_pauseClaim (c : Nat) (h : s.LineKept t) : s.LineKept (t.pauseClaim c) := by
  unfold State.pauseClaim
  split <;> simp [h]

/-! ### The points of a second, and the start of a sitting (chapter 3) -/

@[simp] theorem lineKept_giveWarning (k : Nat) (h : s.LineKept t) : s.LineKept (t.giveWarning k) := by
  simp [State.giveWarning, h]

@[simp] theorem lineKept_takeCutoff (k : Nat) (h : s.LineKept t) : s.LineKept (t.takeCutoff k) := by
  simp [State.takeCutoff, h]

@[simp] theorem lineKept_cutoffIfReached (k : Nat) (h : s.LineKept t) : s.LineKept (t.cutoffIfReached k) := by
  simp [State.cutoffIfReached, h]

@[simp] theorem lineKept_takeCompare (k : Nat) (h : s.LineKept t) : s.LineKept (t.takeCompare k) := by
  simp [State.takeCompare, h]

@[simp] theorem lineKept_compareIfReached (k : Nat) (h : s.LineKept t) : s.LineKept (t.compareIfReached k) := by
  simp [State.compareIfReached, h]

@[simp] theorem lineKept_startWriting (k : Nat) (cause : PhaseCause) (h : s.LineKept t) :
    s.LineKept (t.startWriting k cause) := by
  have hphase (f : Sitting → Sitting) : s.LineKept ((t.modSitting k f).notePhase k cause) := by simp [h]
  exact lineKept_fireInserted k (lineKept_cutoffIfReached k (lineKept_giveWarning k
    (lineKept_forEach (fun c u hu => (beginWriting_only u c).lineKept.mpr hu) _ (hphase _))))

theorem lineKept_secondWork (k : Nat) (h : s.LineKept t) : s.LineKept (t.secondWork k) :=
  lineKept_compareIfReached k (lineKept_fireDue k (lineKept_cutoffIfReached k (lineKept_giveWarning k h)))

@[simp] theorem lineKept_takeSecond (k : Nat) (h : s.LineKept t) : s.LineKept (t.takeSecond k) := by
  simp [State.takeSecond, h, lineKept_secondWork]

/-- A point within a second, when what takes it leaves the control link to itself. -/
theorem lineKept_atPoint (k : Nat) (reached : Sitting → Bool) {take : State → State} (htake : s.LineKept (take t))
    (h : s.LineKept t) : s.LineKept (t.atPoint k reached take) := by
  simp [State.atPoint, h, htake]

@[simp] theorem lineKept_startSittingNow (k : Nat) (h : s.LineKept t) : s.LineKept (t.startSittingNow k) := by
  simp [State.startSittingNow, h]

theorem lineKept_clockJump (time : HallTime) (carried : Bool) (h : s.LineKept t) :
    s.LineKept (t.clockJump time carried).1 :=
  lineKept_forEach (fun k _ => lineKept_startSittingNow k) _ (h.of_cli rfl)

/-! ### Calls and handsets (chapter 6) -/

@[simp] theorem lineKept_raise (i : Nat) (q : CallKind) (o : Option Nat) (h : s.LineKept t) :
    s.LineKept (t.raise i q o).1 := by
  unfold State.raise
  split
  · split <;> simp [h]
  · exact h

@[simp] theorem lineKept_take (n : Nat) (h : s.LineKept t) : s.LineKept (t.take n) := by
  unfold State.take
  split
  · exact h
  · split
    · simp [h]
    · split
      · simp [h]
      · dsimp only
        split <;> simp [h]

theorem lineKept_doneEffect (i : Nat) (c : Call) (h : s.LineKept t) : s.LineKept (t.doneEffect i c) := by
  unfold State.doneEffect
  split
  · simp [h]
  · split <;> simp [h]
  all_goals exact h

theorem lineKept_finishCall (n i : Nat) (h : s.LineKept t) : s.LineKept (t.finishCall n i) := by
  unfold State.finishCall
  split
  · exact h
  · exact lineKept_doneEffect _ _ (by simp [h])

@[simp] theorem lineKept_doneCall (n : Nat) (i : Option Nat) (h : s.LineKept t) : s.LineKept (t.doneCall n i) := by
  unfold State.doneCall
  split
  · split
    · exact h
    · split
      · exact h
      · exact lineKept_finishCall _ _ h
  · split
    · exact lineKept_finishCall _ _ h
    · exact h

theorem lineKept_cancelCall (i : Nat) (c : Call) (h : s.LineKept t) : s.LineKept (t.cancelCall i c) := by
  unfold State.cancelCall
  split <;> simp [h]

theorem lineKept_returnCall (i : Nat) (h : s.LineKept t) : s.LineKept (State.returnCall i t) := by
  unfold State.returnCall
  split <;> simp [h]

theorem lineKept_handsetGoesAway (n : Nat) (h : s.LineKept t) : s.LineKept (t.handsetGoesAway n) := by
  simp [State.handsetGoesAway, lineKept_forEach (fun i _ => lineKept_returnCall i) _ h]

theorem lineKept_resumeAll (h : s.LineKept t) : s.LineKept t.resumeAll :=
  lineKept_forEach (fun c _ => lineKept_resumeClaim c) _ h

/-! ### Sweeps and tags (chapter 7) -/

@[simp] theorem lineKept_endChannel (k : Nat) (b : Bool) (h : s.LineKept t) : s.LineKept (t.endChannel k b) := by
  simp [State.endChannel, h]

@[simp] theorem lineKept_advance (k : Nat) (h : s.LineKept t) : s.LineKept (t.advance k) := by
  unfold State.advance
  dsimp only
  split
  · split <;> simp [h]
  · exact h

@[simp] theorem lineKept_advanceIfDone (k : Nat) (h : s.LineKept t) : s.LineKept (t.advanceIfDone k) := by
  simp [State.advanceIfDone, h]

@[simp] theorem lineKept_advanceAll (h : s.LineKept t) : s.LineKept t.advanceAll :=
  lineKept_forEach (fun k _ => lineKept_advanceIfDone k) _ h

theorem lineKept_completeCollection (c : Nat) (h : s.LineKept t) : s.LineKept (t.completeCollection c) := by
  simp [State.completeCollection, h]

theorem lineKept_recordBooklet (k c : Nat) (x : Candidate) (g : Tag) (h : s.LineKept t) :
    s.LineKept (t.recordBooklet k c x g) := by
  simp [State.recordBooklet, h, lineKept_completeCollection]

theorem lineKept_processTag (k : Nat) (g : Tag) (h : s.LineKept t) : s.LineKept (t.processTag k g) := by
  unfold State.processTag
  split
  · simp [h]
  · split <;> simp [h, lineKept_recordBooklet]

theorem lineKept_tagRead (k : Nat) (r : Option Tag) (h : s.LineKept t) : s.LineKept (State.tagRead k r t) := by
  unfold State.tagRead
  split <;> simp [h, lineKept_processTag]

theorem lineKept_skip (k : Nat) (h : s.LineKept t) : s.LineKept (t.skip k) := by
  simp [State.skip, h]

/-! ### Marking and the reader port (chapters 8 and 9) -/

@[simp] theorem lineKept_storeSheet (i : Nat) (x : Parked) (h : s.LineKept t) : s.LineKept (t.storeSheet i x) := by
  unfold State.storeSheet
  split <;> simp [h]

theorem lineKept_park (x : Parked) (h : s.LineKept t) : s.LineKept (t.park x) :=
  lineKept_notify _ ((modBatch_only _ _).lineKept.mpr (h.of_cli rfl))

@[simp] theorem lineKept_blockSteps (h : s.LineKept t) : s.LineKept t.blockSteps := by
  simp [State.blockSteps, h]

theorem lineKept_takeFaultReport (h : s.LineKept t) : s.LineKept t.takeFaultReport := by
  simp [State.takeFaultReport, h]

theorem lineKept_takeSheet (x : Sheet) (h : s.LineKept t) : s.LineKept (t.takeSheet x).1 := by
  unfold State.takeSheet
  dsimp only
  split
  · simp [h]
  · split <;> simp [h, lineKept_park]

@[simp] theorem lineKept_resumeBatch (h : s.LineKept t) : s.LineKept t.resumeBatch := by
  unfold State.resumeBatch
  split
  · split
    · next p i _ _ _ =>
      have hstored : s.LineKept (t.storeSheet i p) := by simp [h]
      have hcleared : s.LineKept { t.storeSheet i p with srp.parked := none } := hstored.of_cli rfl
      simpa using lineKept_blockSteps (by simpa using hcleared)
    · exact h
  · exact h

theorem lineKept_takeStray (b : List Byte) (x : Byte) (f : Option FrameFault) (h : s.LineKept t) :
    s.LineKept (t.takeStray b x f) :=
  lineKept_notify _ ((formVerdict_only _ _ _).lineKept.mpr (h.of_cli rfl))

theorem lineKept_handFrame (b : List Byte) (x : Byte) (f : Option FrameFault) (h : s.LineKept t) :
    s.LineKept (t.handFrame b x f) := by
  unfold State.handFrame
  split
  · dsimp only
    split <;> simp [h, lineKept_takeSheet]
  · simp [h, lineKept_takeFaultReport]

theorem lineKept_endSheetFrame (b : List Byte) (f : Option FrameFault) (h : s.LineKept t) :
    s.LineKept (t.endSheetFrame b f) := by
  unfold State.endSheetFrame
  split <;> simp [h, lineKept_handFrame, lineKept_takeStray]

theorem lineKept_takeSheetByte (b : Byte) (h : s.LineKept t) : s.LineKept (State.takeSheetByte b t) := by
  unfold State.takeSheetByte
  split
  · split
    · simp [h]
    · simp [h]
    · split <;> simp [h, lineKept_endSheetFrame]
  · exact h

theorem lineKept_cutFrame (f : FrameFault) (h : s.LineKept t) : s.LineKept (t.cutFrame f) := by
  unfold State.cutFrame
  split <;> simp [h, lineKept_endSheetFrame]

theorem lineKept_setRrdy (b : Bool) (h : s.LineKept t) : s.LineKept (t.setRrdy b) := by
  have hpin : s.LineKept { t with srp.rrdy := b } := h.of_cli rfl
  unfold State.setRrdy
  dsimp only
  split
  · exact lineKept_cutFrame _ hpin
  · exact hpin

/-! ### Unit links (chapter 5) -/

@[simp] theorem lineKept_endPoll (l : LinkName) (a : Nat) (o : PollOutcome) (h : s.LineKept t) :
    s.LineKept (t.endPoll l a o) := by
  unfold State.endPoll State.countUnit
  split
  · unfold State.countFloor
    dsimp only
    split <;> simp [h]
  · unfold State.countSeat
    dsimp only
    split <;> simp [h]

theorem lineKept_checkIn (l : LinkName) (i m : Nat) (h : s.LineKept t) : s.LineKept (t.checkIn l i m) := by
  unfold State.checkIn
  split
  · simp [State.refuseCheckIn, h]
  · simp [h]
  · unfold State.checkInOnTime
    split <;> simp [h]
  · unfold State.checkInLate
    split <;> simp [h]
  · unfold State.checkInRelocated
    split <;> simp [h]
  · exact h

theorem lineKept_pressKey (l : LinkName) (i : Nat) (q : CallKind) (b : Bool) (h : s.LineKept t) :
    s.LineKept (t.pressKey l i q b) := by
  unfold State.pressKey
  dsimp only
  split <;> simp [h]

theorem lineKept_takeSeatReply (l : LinkName) (i : Nat) (r : SeatReply) (h : s.LineKept t) :
    s.LineKept (State.takeSeatReply l i r t) := by
  unfold State.takeSeatReply
  dsimp only
  split
  · split <;> simp [h, lineKept_checkIn, lineKept_pressKey]
  · exact h

theorem lineKept_takeHandsetReply (a : Nat) (r : HandsetKey × Byte) (h : s.LineKept t) :
    s.LineKept (State.takeHandsetReply a r t) := by
  unfold State.takeHandsetReply State.handsetKey
  split
  · split <;> simp [h]
  · exact h

theorem lineKept_takeStationReply (a : Nat) (r : StationReply) (h : s.LineKept t) :
    s.LineKept (State.takeStationReply a r t) := by
  have hreads := lineKept_forEach (fun g _ => lineKept_tagRead (a - 8) g) r.reads h
  simp [State.takeStationReply, h, hreads, lineKept_skip]

theorem lineKept_onReply {α : Type} (l : LinkName) (frame : List Byte) (read : Nat → List Byte → Option α)
    (echo : α → Byte) {take : Nat → α → State → State} (htake : ∀ a r u, s.LineKept u → s.LineKept (take a r u))
    (h : s.LineKept t) : s.LineKept (t.onReply l frame read echo take) := by
  unfold State.onReply
  split
  · split
    · simp [h]
    · exact htake _ _ _ (lineKept_endPoll _ _ _ h)
  · exact h

theorem lineKept_endCycle (l : LinkName) (h : s.LineKept t) : s.LineKept (t.endCycle l) := by
  simp [State.endCycle, h]

end

end Sys2Proof.Machine
end

