-- ==== Sys2Proof/Proofs/Answers.lean ====
section
/-!
PROOFS. What a block's answer to a request may do, block by block: it leaves the control link to itself, and a refusal
changes nothing (R173, R175, R176, R187). The request rows then have one form.
-/

namespace Sys2Proof.Machine

/-! ### An answer, and the state it leaves -/

/-- The request is taken, if only in part; every other status refuses it (R176). -/
def Answer.Takes (a : Answer) : Prop := a.status = .ok ∨ a.status = .queued ∨ a.status = .isPartial

/-- An answer given in `s`: the control link is left to itself, and a refusal leaves the state as it was. -/
structure State.Answered (s : State) (r : State × Answer) : Prop where
  lineKept : s.LineKept r.1
  refused : ¬r.2.Takes → r.1 = s

/-- A block's answers are so given, whatever the state. -/
def Answers (handle : State → State × Answer) : Prop := ∀ s : State, s.Answered (handle s)

@[simp] theorem takes_ok (b : ReplyBody) : (ok b).Takes := .inl rfl

/-- A refusal or a read. -/
@[simp] theorem answered_same (s : State) (a : Answer) : s.Answered (s, a) := ⟨lineKept_refl s, fun _ => rfl⟩

theorem answered_taken {s t : State} {a : Answer} (h : s.LineKept t) (ha : a.Takes) : s.Answered (t, a) :=
  ⟨h, fun hn => absurd ha hn⟩

@[simp] theorem answered_ok {s t : State} (b : ReplyBody) (h : s.LineKept t) : s.Answered (t, ok b) :=
  answered_taken h (takes_ok b)

@[simp] theorem answered_ite (c : Prop) [Decidable c] (s : State) (a b : State × Answer) :
    s.Answered (if c then a else b) ↔ if c then s.Answered a else s.Answered b :=
  Iff.of_eq (apply_ite s.Answered c a b)

/-- Arguments checked against the state itself. -/
theorem answered_withArgs {checks : List Bool} {take : State → State × Answer} {s : State} (h : s.Answered (take s)) :
    s.Answered (withArgs checks take s) := by
  unfold withArgs
  split
  · exact answered_same s _
  · exact h

theorem answers_withArgs {checks : List Bool} {take : State → State × Answer} (h : Answers take) :
    Answers (withArgs checks take) := fun s => answered_withArgs (h s)

/-- A read changes nothing. -/
theorem answers_read {answer : State → Answer} : Answers (fun s => (s, answer s)) := fun s => answered_same s _

/-! ### The hall tables (chapter 1) -/

theorem answers_defineSeats (first last : Half) (kind zone attrs : Byte) :
    Answers (ansDefineSeats first last kind zone attrs) :=
  answers_withArgs fun s => by
    dsimp only
    split
    · simp
    · have hdefined (f : Nat → Seat → Seat) (ids : List Nat) : s.LineKept (s.forEach ids (fun i t => t.modSeat i (f i))) :=
        lineKept_forEach (fun i t ht => by simpa using ht) ids (lineKept_refl s)
      simp [hdefined]

theorem answers_holdSeat (seat : Half) : Answers (ansHoldSeat seat) := answers_withArgs fun s => by simp

theorem answers_freeSeat (seat : Half) : Answers (ansFreeSeat seat) := answers_withArgs fun s => by simp

theorem answers_repairSeat (seat : Half) : Answers (ansRepairSeat seat) :=
  answers_withArgs fun s => by split <;> simp

theorem lineKept_withdrawAs {s t : State} (c : Nat) (x : Candidate) (h : s.LineKept t) :
    s.LineKept (t.withdrawAs c x).1 := by
  unfold State.withdrawAs
  split <;> simp [h]

theorem answers_withdraw (slot : Half) : Answers (ansWithdraw slot) :=
  answers_withArgs fun s => by
    split
    · simp
    · dsimp only
      split
      · exact answered_ok _ (lineKept_collectIfEmpty _ (by simp [lineKept_withdrawAs]))
      · simp

theorem answers_readCandidate (slot : Half) (number : Word) (sitting : Byte) :
    Answers (ansReadCandidate slot number sitting) :=
  answers_withArgs fun s => by
    split
    · simp
    · split <;> simp

/-! ### Seat allocation (chapter 2) -/

theorem answers_setRoute (paper : Paper) (home : Byte) (overflow : List Byte) : Answers (ansSetRoute paper home overflow) :=
  answers_withArgs fun s => by
    split
    · simp
    · next routes _ =>
      have hrouted : s.LineKept { s with sal.routes := routes } := (lineKept_refl s).of_cli rfl
      simp [hrouted]

theorem answers_clearRoute (paper : Paper) : Answers (ansClearRoute paper) :=
  answers_withArgs fun s => by
    have hcleared (routes : List Route) : s.LineKept { s with sal.routes := routes } := (lineKept_refl s).of_cli rfl
    simp [hcleared, notFound]

/-- A candidate created joins a table and, it may be, the waiting queue. -/
theorem lineKept_createCandidate {s t u : State} {number c : Nat} {e : Entry} {p : Placement} (h : s.LineKept t)
    (hu : t.createCandidate number e = .ok (u, c, p)) : s.LineKept u := by
  unfold State.createCandidate at hu
  split at hu
  · exact nomatch hu
  · split at hu
    · exact nomatch hu
    · split at hu
      · exact nomatch hu
      · dsimp only at hu
        split at hu
        · obtain ⟨rfl, -⟩ := Prod.mk.inj (Except.ok.inj hu)
          simpa using h
        · split at hu
          · obtain ⟨rfl, -⟩ := Prod.mk.inj (Except.ok.inj hu)
            exact h.of_cli rfl
          · exact nomatch hu

theorem lineKept_createRun (e : Entry) (n number : Nat) {s t : State} (h : s.LineKept t) :
    s.LineKept (State.createRun e n number t).1 := by
  induction n generalizing number t with
  | zero => exact h
  | succ n ih =>
    unfold State.createRun
    split
    · exact h
    · next hu => exact ih _ (lineKept_createCandidate h hu)

theorem answers_allocate (number : Word) (sitting needs allowance rest : Byte) :
    Answers (ansAllocate number sitting needs allowance rest) :=
  answers_withArgs fun s => by
    split
    · simp
    · next p hu =>
      refine answered_taken (lineKept_noteRouteMiss _ _ (lineKept_createCandidate (lineKept_refl s) hu)) ?_
      cases p
      · exact .inl rfl
      · exact .inr (.inl rfl)

theorem answers_allocateRun (base : Word) (count sitting needs allowance rest : Byte) :
    Answers (ansAllocateRun base count sitting needs allowance rest) :=
  answers_withArgs fun s => by
    refine answered_taken (lineKept_noteRunMiss _ _ (lineKept_createRun _ _ _ (lineKept_refl s))) ?_
    unfold Answer.Takes
    dsimp only
    split <;> simp

theorem answers_move (slot seat : Half) : Answers (ansMove slot seat) :=
  answers_withArgs fun s => by split <;> simp

/-! ### The timebase and the sittings (chapters 3 and 4) -/

theorem answers_setTimebase (source : Byte) (frequency : Half) (prescale syncMode : Byte) :
    Answers (ansSetTimebase source frequency prescale syncMode) :=
  answers_withArgs fun s => by
    split
    · simp
    · exact answered_ok _ ⟨rfl, rfl, rfl, List.prefix_refl _⟩

theorem answers_setHallTime (hour minute second : Byte) : Answers (ansSetHallTime hour minute second) :=
  answers_withArgs fun s => by simp [lineKept_clockJump]

theorem answers_defineSitting (sitting : Byte) (paper : Paper) (reading : Byte) (writing cutoff opening closing : Half)
    (warnings : List Byte) (quiet threshold scriptKind keyId : Byte) :
    Answers (ansDefineSitting sitting paper reading writing cutoff opening closing warnings quiet threshold scriptKind
      keyId) :=
  answers_withArgs fun s => by
    unfold State.defineSitting
    split <;> simp

theorem answers_startSitting (sitting hour minute second : Byte) : Answers (ansStartSitting sitting hour minute second) :=
  answers_withArgs fun s => by simp [State.armSitting]

theorem answers_cancelStart (sitting : Byte) : Answers (ansCancelStart sitting) := answers_withArgs fun s => by simp

theorem answers_holdSitting (sitting : Byte) : Answers (ansHoldSitting sitting) :=
  answers_withArgs fun s => by
    split
    · simp
    · exact answered_ok _ (lineKept_forEach (fun k t ht => by simp [State.holdOne, ht]) _ (lineKept_refl s))

theorem answers_resumeSitting (sitting : Byte) : Answers (ansResumeSitting sitting) :=
  answers_withArgs fun s => by
    split
    · simp
    · exact answered_ok _ (lineKept_forEach (fun k t ht => by simp [State.resumeOne, ht]) _ (lineKept_refl s))

theorem lineKept_closeSitting {s t : State} (k : Nat) (h : s.LineKept t) : s.LineKept (t.closeSitting k).1 := by
  simp [State.closeSitting, h]

theorem answers_closeSitting (sitting : Byte) : Answers (ansCloseSitting sitting) :=
  answers_withArgs fun s => by
    dsimp only
    split
    · simp
    · split
      · exact answered_ok _ (lineKept_notePhase _ _ (lineKept_closeSitting _ (lineKept_refl s)))
      · simp

theorem answers_forceClose (sitting : Byte) : Answers (ansForceClose sitting) :=
  answers_withArgs fun s => by
    dsimp only
    split
    · simp
    · split
      · simp
      · exact answered_ok _ (lineKept_notePhase _ _ (lineKept_closeSitting _
          (lineKept_forEach (fun c u hu => by simpa using hu) _ (by simp))))

theorem answers_clearSitting (sitting : Byte) : Answers (ansClearSitting sitting) := answers_withArgs fun s => by simp

theorem answers_leave (slot : Half) : Answers (ansLeave slot) :=
  answers_withArgs fun s => by
    split
    · simp
    · split <;> simp [State.takeLeave]

/-! ### Links, calls and collection (chapters 5 to 7) -/

theorem answers_startLink (link : Byte) : Answers (ansStartLink link) :=
  answers_withArgs fun s => by
    split
    · simp
    · exact answered_ok _ (lineKept_forEach (fun l t ht => by simpa using ht) _ (lineKept_refl s))

theorem answers_stopLink (link : Byte) : Answers (ansStopLink link) :=
  answers_withArgs fun s => by
    split
    · simp
    · exact answered_ok _ (lineKept_forEach (fun l t ht => by simpa using ht) _ (lineKept_refl s))

/-- A raise that is not accepted changes nothing (R101). -/
theorem answers_raiseAlert (seat : Half) : Answers (ansRaiseAlert seat) :=
  answers_withArgs fun s => by
    refine ⟨lineKept_raise _ _ _ (lineKept_refl s), fun hn => ?_⟩
    dsimp only at hn ⊢
    unfold State.raise at hn ⊢
    split
    next i hi =>
      rw [hi] at hn
      split
      · rfl
      next hb =>
        rw [hb] at hn
        exact absurd (takes_ok _) hn
    · rfl

theorem answers_setHandsetZones (handset zones : Byte) : Answers (ansSetHandsetZones handset zones) :=
  answers_withArgs fun s => by simp

theorem answers_cancelCall (call : Byte) : Answers (ansCancelCall call) :=
  answers_withArgs fun s => by split <;> simp [lineKept_cancelCall]

theorem answers_issueBooklet (slot : Half) : Answers (ansIssueBooklet slot) :=
  answers_withArgs fun s => by split <;> simp

theorem answers_takeExceptions (count : Byte) : Answers (ansTakeExceptions count) :=
  answers_withArgs fun s => answered_ok _ ((lineKept_refl s).of_cli rfl)

theorem answers_startSweep (channel mode : Byte) (start finish : Half) (stride : Byte) :
    Answers (ansStartSweep channel mode start finish stride) :=
  answers_withArgs fun s => by simp [State.startSweep]

theorem answers_stopSweep (channel : Byte) : Answers (ansStopSweep channel) := answers_withArgs fun s => by simp

/-! ### Marking (chapter 9) -/

theorem answers_keyBegin (key form questions penalty : Byte) : Answers (ansKeyBegin key form questions penalty) :=
  answers_withArgs fun s => by simp

theorem answers_keyPart (key first : Byte) (entries : List KeyEntry) : Answers (ansKeyPart key first entries) :=
  fun s => answered_withArgs (by simp)

theorem answers_keyEnd (key : Byte) : Answers (ansKeyEnd key) :=
  answers_withArgs fun s => by
    dsimp only
    split
    · simp
    · split
      · simp
      · split <;> simp

theorem answers_withdrawQuestion (key question : Byte) : Answers (ansWithdrawQuestion key question) :=
  fun s => answered_withArgs (by simp)

theorem answers_readKey (key first count : Byte) : Answers (ansReadKey key first count) :=
  fun s => answered_withArgs (take := fun t => (t, _)) (answered_same s _)

theorem answers_startBatch (sitting count segStart segEnd : Byte) : Answers (ansStartBatch sitting count segStart segEnd) :=
  answers_withArgs fun s => by
    dsimp only
    split
    · simp
    · split
      · simp
      · split <;> simp

theorem answers_continueBatch : Answers ansContinueBatch := fun s => by simp [ansContinueBatch]

theorem answers_extendSegment (segEnd : Byte) : Answers (ansExtendSegment segEnd) :=
  fun s => answered_withArgs (by simp)

theorem answers_releaseSlots (stores : List Byte) : Answers (ansReleaseSlots stores) :=
  answers_withArgs fun s => by simp

theorem answers_abortBatch : Answers ansAbortBatch := fun s => by simp [ansAbortBatch]

theorem answers_resolveDuplicate (store action : Byte) : Answers (ansResolveDuplicate store action) :=
  answers_withArgs fun s => by
    split
    · simp
    · split
      · simp
      · split
        · unfold State.tryAdopt
          split <;> simp
        · simp

/-- Remarking writes results, to the store and to the candidates. -/
theorem lineKept_remarkSlot {s : State} (key : Key) (i : Nat) (r : State × Nat × Nat × Nat) (h : s.LineKept r.1) :
    s.LineKept (State.remarkSlot key i r).1 := by
  unfold State.remarkSlot
  split
  · exact h
  · split
    · exact h
    · split
      · exact h
      · split
        · exact h
        · dsimp only
          split <;> simp [h]

theorem answers_remark (sitting : Byte) : Answers (ansRemark sitting) :=
  answers_withArgs fun s => by
    have hfold (key : Key) (l : List Nat) : ∀ r : State × Nat × Nat × Nat, s.LineKept r.1 →
        s.LineKept (l.foldl (fun r i => State.remarkSlot key i r) r).1 := by
      induction l with
      | nil => exact fun r hr => hr
      | cons i l ih => exact fun r hr => ih _ (lineKept_remarkSlot key i r hr)
    split
    · simp
    · split
      · simp
      · split
        · simp
        · exact answered_ok _ (hfold _ _ _ (lineKept_refl s))

/-! ### The control link's own requests (chapter 10) -/

theorem answers_setParam (param : Byte) (value : Word) : Answers (ansSetParam param value) :=
  fun s => answered_withArgs (by
    split
    · simp
    · next p _ =>
      have happlied : s.LineKept (s.applyParams p) := ⟨rfl, rfl, rfl, List.prefix_refl _⟩
      simp [happlied])

theorem answers_reset (scope : Byte) : Answers (ansReset scope) :=
  answers_withArgs fun _ => answered_ok _ ⟨rfl, rfl, rfl, List.prefix_refl _⟩

theorem lineKept_clearStatus (s : State) : s.LineKept s.clearStatus := ⟨rfl, rfl, rfl, List.prefix_refl _⟩

/-! ### The form of a request row (R173) -/

/-- A row is a request of a kind: its frame, when it is received and not discarded, is answered by a block, and what follows
the forming of the reply leaves the control link to itself. Only a request that is always taken has anything to follow. -/
def IsRequest (i : Instr) (kind : Byte) : Prop :=
  ∃ (handle : State → State × Answer) (after : State → State), Answers handle ∧ (∀ t : State, t.LineKept (after t)) ∧
    (after = id ∨ ∀ s, (handle s).2.Takes) ∧ ∀ s : State, s.runRequest i = s.requestThen kind handle after

/-- A request with nothing to do once its reply is formed. -/
theorem isRequest_of_answers {i : Instr} {kind : Byte} {handle : State → State × Answer} (h : Answers handle)
    (hi : ∀ s : State, s.runRequest i = s.request kind handle) : IsRequest i kind :=
  ⟨handle, id, h, fun t => lineKept_refl t, .inl rfl, hi⟩

/-- A read. -/
theorem isRequest_of_read {i : Instr} {kind : Byte} {checks : List Bool} {answer : State → Answer}
    (hi : ∀ s : State, s.runRequest i = s.request kind (withArgs checks (fun t => (t, answer t)))) : IsRequest i kind :=
  isRequest_of_answers (answers_withArgs answers_read) hi

/-- A read with no arguments. -/
theorem isRequest_of_readAll {i : Instr} {kind : Byte} {answer : State → Answer}
    (hi : ∀ s : State, s.runRequest i = s.request kind (fun t => (t, answer t))) : IsRequest i kind :=
  isRequest_of_answers answers_read hi

/-- Every row with an encoding is a request of the kind it encodes to. -/
theorem isRequest_of_encode {i : Instr} {kind : Byte} {body : List Byte} (h : encodeRequest i = some (kind, body)) :
    IsRequest i kind := by
  cases i with
  | defineSeats => cases h; exact isRequest_of_answers (answers_defineSeats _ _ _ _ _) fun _ => rfl
  | holdSeat => cases h; exact isRequest_of_answers (answers_holdSeat _) fun _ => rfl
  | freeSeat => cases h; exact isRequest_of_answers (answers_freeSeat _) fun _ => rfl
  | repairSeat => cases h; exact isRequest_of_answers (answers_repairSeat _) fun _ => rfl
  | readSeat => cases h; exact isRequest_of_read fun _ => rfl
  | withdraw => cases h; exact isRequest_of_answers (answers_withdraw _) fun _ => rfl
  | readCandidate => cases h; exact isRequest_of_answers (answers_readCandidate _ _ _) fun _ => rfl
  | setRoute => cases h; exact isRequest_of_answers (answers_setRoute _ _ _) fun _ => rfl
  | clearRoute => cases h; exact isRequest_of_answers (answers_clearRoute _) fun _ => rfl
  | readRoutes => cases h; exact isRequest_of_readAll fun _ => rfl
  | allocate => cases h; exact isRequest_of_answers (answers_allocate _ _ _ _ _) fun _ => rfl
  | allocateRun => cases h; exact isRequest_of_answers (answers_allocateRun _ _ _ _ _ _) fun _ => rfl
  | readQueue => cases h; exact isRequest_of_readAll fun _ => rfl
  | move => cases h; exact isRequest_of_answers (answers_move _ _) fun _ => rfl
  | setTimebase => cases h; exact isRequest_of_answers (answers_setTimebase _ _ _ _) fun _ => rfl
  | setHallTime => cases h; exact isRequest_of_answers (answers_setHallTime _ _ _) fun _ => rfl
  | readClock => cases h; exact isRequest_of_readAll fun _ => rfl
  | defineSitting => cases h; exact isRequest_of_answers (answers_defineSitting _ _ _ _ _ _ _ _ _ _ _ _) fun _ => rfl
  | startSitting => cases h; exact isRequest_of_answers (answers_startSitting _ _ _ _) fun _ => rfl
  | cancelStart => cases h; exact isRequest_of_answers (answers_cancelStart _) fun _ => rfl
  | holdSitting => cases h; exact isRequest_of_answers (answers_holdSitting _) fun _ => rfl
  | resumeSitting => cases h; exact isRequest_of_answers (answers_resumeSitting _) fun _ => rfl
  | closeSitting => cases h; exact isRequest_of_answers (answers_closeSitting _) fun _ => rfl
  | forceClose => cases h; exact isRequest_of_answers (answers_forceClose _) fun _ => rfl
  | clearSitting => cases h; exact isRequest_of_answers (answers_clearSitting _) fun _ => rfl
  | readSitting => cases h; exact isRequest_of_read fun _ => rfl
  | leave => cases h; exact isRequest_of_answers (answers_leave _) fun _ => rfl
  | readMarks => cases h; exact isRequest_of_read fun _ => rfl
  | startLink => cases h; exact isRequest_of_answers (answers_startLink _) fun _ => rfl
  | stopLink => cases h; exact isRequest_of_answers (answers_stopLink _) fun _ => rfl
  | readLink => cases h; exact isRequest_of_read fun _ => rfl
  | raiseAlert => cases h; exact isRequest_of_answers (answers_raiseAlert _) fun _ => rfl
  | setHandsetZones => cases h; exact isRequest_of_answers (answers_setHandsetZones _ _) fun _ => rfl
  | cancelCall => cases h; exact isRequest_of_answers (answers_cancelCall _) fun _ => rfl
  | readCalls => cases h; exact isRequest_of_readAll fun _ => rfl
  | issueBooklet => cases h; exact isRequest_of_answers (answers_issueBooklet _) fun _ => rfl
  | takeExceptions => cases h; exact isRequest_of_answers (answers_takeExceptions _) fun _ => rfl
  | startSweep => cases h; exact isRequest_of_answers (answers_startSweep _ _ _ _ _) fun _ => rfl
  | stopSweep => cases h; exact isRequest_of_answers (answers_stopSweep _) fun _ => rfl
  | readScripts => cases h; exact isRequest_of_read fun _ => rfl
  | readSweep => cases h; exact isRequest_of_read fun _ => rfl
  | readReader => cases h; exact isRequest_of_readAll fun _ => rfl
  | keyBegin => cases h; exact isRequest_of_answers (answers_keyBegin _ _ _ _) fun _ => rfl
  | keyPart => cases h; exact isRequest_of_answers (answers_keyPart _ _ _) fun _ => rfl
  | keyEnd => cases h; exact isRequest_of_answers (answers_keyEnd _) fun _ => rfl
  | withdrawQuestion => cases h; exact isRequest_of_answers (answers_withdrawQuestion _ _) fun _ => rfl
  | readKey => cases h; exact isRequest_of_answers (answers_readKey _ _ _) fun _ => rfl
  | readSheet => cases h; exact isRequest_of_read fun _ => rfl
  | readBatch => cases h; exact isRequest_of_readAll fun _ => rfl
  | startBatch => cases h; exact isRequest_of_answers (answers_startBatch _ _ _ _) fun _ => rfl
  | continueBatch => cases h; exact isRequest_of_answers answers_continueBatch fun _ => rfl
  | extendSegment => cases h; exact isRequest_of_answers (answers_extendSegment _) fun _ => rfl
  | releaseSlots => cases h; exact isRequest_of_answers (answers_releaseSlots _) fun _ => rfl
  | abortBatch => cases h; exact isRequest_of_answers answers_abortBatch fun _ => rfl
  | resolveDuplicate => cases h; exact isRequest_of_answers (answers_resolveDuplicate _ _) fun _ => rfl
  | remark => cases h; exact isRequest_of_answers (answers_remark _) fun _ => rfl
  | setParam => cases h; exact isRequest_of_answers (answers_setParam _ _) fun _ => rfl
  | getParam => cases h; exact isRequest_of_read fun _ => rfl
  | identify => cases h; exact isRequest_of_readAll fun _ => rfl
  | readStatus =>
    cases h
    exact ⟨ansReadStatus, State.clearStatus, answers_read, lineKept_clearStatus, .inr fun _ => takes_ok _, fun _ => rfl⟩
  | reset => cases h; exact isRequest_of_answers (answers_reset _) fun _ => rfl
  | _ => exact nomatch h

/-- A row with an encoding ends when its request has been dealt with. -/
theorem exec_of_encode {i : Instr} {kind : Byte} {body : List Byte} (h : encodeRequest i = some (kind, body)) (s : State) :
    exec i s = done (s.runRequest i) := by
  cases i with
  | resetPorts | resetHall | powerOn | linkReset | badFrame | receiveGapTimeout | unknownKind | overrun | hrdyChange
  | frameSent | timebaseSecond | syncEdge | syncLost | scheduledStart | sittingSecond | readingCompare | sittingWarning
  | lateCutoff | writingCompare | warnFiring | endFiring | restExpiry | escalation | handsetAway | retryPass | relocation
  | pollCycleStart | pollFrame | pollTimeout | seatReply | handsetReply | stationReply | wallClockReply | lateUnitReply
  | pollCycleEnd | timeCodeBroadcast | timeCodeRepeat | sheetFrameEnd | frameGapTimeout | rrdyChange | verdictSent
  | lineIdleReturn => exact nomatch h
  | _ => rfl

/-! ### A request in each of the states its frame may find (R172, R174) -/

section
variable {s : State} {kind : Byte} {handle : State → State × Answer} {after : State → State}

theorem requestThen_listening (h : s.listening = true) : s.requestThen kind handle after =
    after ((handle s.toHunt).1.pushReply (kind + 0x80#8) (handle s.toHunt).2) := by
  obtain ⟨hline, hwaiting⟩ := listening_iff.mp h
  simp [State.requestThen, State.onFrame, hline, hwaiting, State.toHunt]

theorem onFrame_held {take : State → State} (h : s.cli.lineHeld = true) : s.onFrame take = s := if_pos h

theorem onFrame_waiting {take : State → State} (h : s.cli.lineHeld = false) (hw : s.waiting = true) :
    s.onFrame take = s.discardFrame := by
  simp [State.onFrame, h, hw]

theorem onFrame_listening {take : State → State} (h : s.listening = true) : s.onFrame take = take s.toHunt := by
  obtain ⟨hline, hwaiting⟩ := listening_iff.mp h
  simp [State.onFrame, hline, hwaiting, State.toHunt]

end

/-- Settles O10: the request by the block that answers it, the reply by what follows its forming. -/
theorem everyRequestGetsOneReply : Obligations.EveryRequestGetsOneReply := by
  unfold Obligations.EveryRequestGetsOneReply
  intro i kind body s hi hl
  obtain ⟨handle, after, hanswers, hafter, htaken, hrun⟩ := isRequest_of_encode hi
  obtain ⟨hline, hrefused⟩ := hanswers s.toHunt
  refine ⟨s.runRequest i, ⟨kind + 0x80#8, (handle s.toHunt).2.status, (handle s.toHunt).1.cli.flags,
    (handle s.toHunt).2.body⟩, exec_of_encode hi s, rfl, ?joins, fun hok hqueued hpartial => ?refused⟩
  all_goals rw [hrun, requestThen_listening hl]
  case joins =>
    refine (hafter _).replies.trans ?_
    rw [State.pushReply, hline.replies]
    rfl
  case refused =>
    have hno : ¬(handle s.toHunt).2.Takes := fun h => h.elim hok fun h => h.elim hqueued hpartial
    obtain rfl : after = id := htaken.resolve_right fun h => hno (h _)
    rw [hrefused hno]
    rfl

end Sys2Proof.Machine
end

