-- ==== Sys2Proof/Proofs/RequestCodes.lean ====
section
/-!
PROOFS. The encodings of the requests (11.1, 11.2, R173): a field is spelt by its bytes and read back from them, a list by its
count and its bytes; and the request of each kind is read back from its body, and from no other.
-/

namespace Sys2Proof

/-! ### The fields -/

section
variable {m n : Nat} (a : BitVec m) (b : BitVec n)

/-- A field cut from the low one of two fields put together. -/
theorem extractLsb'_append_low {k l : Nat} (h : k + l ≤ n) : (a ++ b).extractLsb' k l = b.extractLsb' k l := by
  ext i hi
  simp only [BitVec.getElem_extractLsb', BitVec.getLsbD_append]
  rw [if_pos (by omega)]

/-- A field cut from the high one. -/
theorem extractLsb'_append_high (k l : Nat) : (a ++ b).extractLsb' (n + k) l = a.extractLsb' k l := by
  ext i hi
  simp only [BitVec.getElem_extractLsb', BitVec.getLsbD_append]
  rw [if_neg (by omega), Nat.add_assoc, Nat.add_sub_cancel_left]

end

@[simp] theorem halfBytes_half (hi lo : Byte) : halfBytes (half hi lo) = [hi, lo] := by
  have high : (half hi lo).extractLsb' 8 8 = hi :=
    (extractLsb'_append_high hi lo 0 8).trans BitVec.extractLsb'_eq_self
  have low : (half hi lo).extractLsb' 0 8 = lo :=
    (extractLsb'_append_low hi lo (Nat.le_refl 8)).trans BitVec.extractLsb'_eq_self
  rw [halfBytes, high, low]

@[simp] theorem half_halfBytes (v : Half) : half (v.extractLsb' 8 8) (v.extractLsb' 0 8) = v := by
  refine BitVec.eq_of_getLsbD_eq fun i hi => ?_
  refine (BitVec.getLsbD_append ..).trans ?_
  simp only [BitVec.getLsbD_extractLsb']
  grind

@[simp] theorem wordBytes_word (b3 b2 b1 b0 : Byte) : wordBytes (word b3 b2 b1 b0) = [b3, b2, b1, b0] := by
  have high (k : Nat) : (word b3 b2 b1 b0).extractLsb' (16 + k) 8 = (half b3 b2).extractLsb' k 8 :=
    extractLsb'_append_high (half b3 b2) (half b1 b0) k 8
  have low (k : Nat) (h : k + 8 ≤ 16) : (word b3 b2 b1 b0).extractLsb' k 8 = (half b1 b0).extractLsb' k 8 :=
    extractLsb'_append_low (half b3 b2) (half b1 b0) h
  have upper := halfBytes_half b3 b2
  have lower := halfBytes_half b1 b0
  simp only [halfBytes, List.cons.injEq, and_true] at upper lower
  obtain ⟨h3, h2⟩ := upper
  obtain ⟨h1, h0⟩ := lower
  simp only [wordBytes, List.cons.injEq, and_true]
  exact ⟨(high 8).trans h3, (high 0).trans h2, (low 8 (by omega)).trans h1, (low 0 (by omega)).trans h0⟩

@[simp] theorem word_wordBytes (v : Word) :
    word (v.extractLsb' 24 8) (v.extractLsb' 16 8) (v.extractLsb' 8 8) (v.extractLsb' 0 8) = v := by
  refine BitVec.eq_of_getLsbD_eq fun i hi => ?_
  refine (BitVec.getLsbD_append ..).trans ?_
  simp only [BitVec.getLsbD_append, BitVec.getLsbD_extractLsb']
  grind

/-- A paper code is six characters. -/
theorem exists_paper (p : Paper) : ∃ p0 p1 p2 p3 p4 p5, p = #v[p0, p1, p2, p3, p4, p5] := by
  refine ⟨p[0], p[1], p[2], p[3], p[4], p[5], Vector.ext fun i hi => ?_⟩
  match i with
  | 0 | 1 | 2 | 3 | 4 | 5 => rfl

/-- A byte is the one that spells its number. -/
theorem byte_eq {b : Byte} {n : Nat} (h : b.toNat = n) : b = BitVec.ofNat 8 n :=
  BitVec.eq_of_toNat_eq (by rw [BitVec.toNat_ofNat, ← h, Nat.mod_eq_of_lt b.isLt])

/-! ### The lists -/

/-- A list's count, at most 255, is spelt by a byte (11.2). -/
theorem toNat_count {n : Nat} (h : n ≤ 255) : (BitVec.ofNat 8 n).toNat = n :=
  (BitVec.toNat_ofNat ..).trans (Nat.mod_eq_of_lt (by omega))

theorem count_le (n : Byte) : n.toNat ≤ 255 := Nat.le_of_lt_succ n.isLt

@[simp] theorem entriesOf_entryBytes : ∀ entries : List KeyEntry, entriesOf (entryBytes entries) = some entries
  | [] => rfl
  | e :: entries => congrArg (Option.map (fun l => e :: l)) (entriesOf_entryBytes entries)

theorem entryBytes_of_entriesOf {bytes : List Byte} {entries : List KeyEntry} (h : entriesOf bytes = some entries) :
    entryBytes entries = bytes := by
  fun_induction entriesOf bytes generalizing entries with
  | case1 =>
    obtain rfl := Option.some.inj h
    rfl
  | case2 a m w rest ih =>
    obtain ⟨entries, hrest, rfl⟩ := Option.map_eq_some_iff.mp h
    exact congrArg (fun l => a :: m :: w :: l) (ih hrest)
  | case3 => exact nomatch h

theorem defineSittingTail_append {build : List Byte → Byte → Byte → Byte → Byte → Instr} {n : Nat} {warnings : List Byte}
    (h : warnings.length = n) (q t s k : Byte) :
    defineSittingTail build n (warnings ++ [q, t, s, k]) = some (build warnings q t s k) := by
  subst h
  simp [defineSittingTail]

/-- What follows the count of the warnings is read only as the warnings it counts and the four fields of R45. -/
theorem defineSittingTail_eq_some {build : List Byte → Byte → Byte → Byte → Byte → Instr} {n : Nat} {rest : List Byte}
    {i : Instr} (h : defineSittingTail build n rest = some i) :
    ∃ warnings q t s k, rest = warnings ++ [q, t, s, k] ∧ warnings.length = n ∧ i = build warnings q t s k := by
  unfold defineSittingTail at h
  split at h
  case h_1 q t s k hdrop =>
    have hlen := congrArg List.length hdrop
    simp only [List.length_drop, List.length_cons, List.length_nil] at hlen
    refine ⟨rest.take n, q, t, s, k, ?_, ?_, (Option.some.inj h).symm⟩
    · rw [← hdrop, List.take_append_drop]
    · rw [List.length_take]
      omega
  case h_2 => exact nomatch h

/-! ### The requests -/

/-- The request an encoding spells is read back from it. -/
theorem decode_encode {i : Instr} {kind : Byte} {body : List Byte} (hw : i.wellFormed = true)
    (h : encodeRequest i = some (kind, body)) : decodeRequest kind body = some i := by
  cases i with
  | setRoute paper home zones =>
    obtain ⟨p0, p1, p2, p3, p4, p5, rfl⟩ := exists_paper paper
    cases h
    exact if_pos (toNat_count (of_decide_eq_true hw)).symm
  | clearRoute paper =>
    obtain ⟨p0, p1, p2, p3, p4, p5, rfl⟩ := exists_paper paper
    cases h
    rfl
  | defineSitting i paper r w c o l warnings q t s k =>
    obtain ⟨p0, p1, p2, p3, p4, p5, rfl⟩ := exists_paper paper
    cases h
    have tail := defineSittingTail_append (build := .defineSitting i #v[p0, p1, p2, p3, p4, p5] r w c o l)
      (toNat_count (of_decide_eq_true hw)).symm q t s k
    simpa [decodeRequest, defineSittingOf, halfBytes] using tail
  | keyPart k f entries =>
    cases h
    have count : (entryBytes entries).length = 3 * (BitVec.ofNat 8 entries.length).toNat := by
      rw [toNat_count (of_decide_eq_true hw), Laws.Encoding.length_entryBytes, Nat.mul_comm]
    exact (if_pos count).trans (congrArg (Option.map (Instr.keyPart k f)) (entriesOf_entryBytes entries))
  | releaseSlots ids =>
    cases h
    exact if_pos (toNat_count (of_decide_eq_true hw)).symm
  | resetPorts | resetHall | powerOn | linkReset | badFrame | receiveGapTimeout | unknownKind | overrun | hrdyChange
  | frameSent | timebaseSecond | syncEdge | syncLost | scheduledStart | sittingSecond | readingCompare | sittingWarning
  | lateCutoff | writingCompare | warnFiring | endFiring | restExpiry | escalation | handsetAway | retryPass | relocation
  | pollCycleStart | pollFrame | pollTimeout | seatReply | handsetReply | stationReply | wallClockReply | lateUnitReply
  | pollCycleEnd | timeCodeBroadcast | timeCodeRepeat | sheetFrameEnd | frameGapTimeout | rrdyChange | verdictSent
  | lineIdleReturn => exact nomatch h
  | _ =>
    cases h
    simp [decodeRequest, halfBytes, wordBytes]

/-- A kind and a body spell `i`: it is well formed and has them for its encoding, the kind is one 11.2 names, and the body is no
longer than a control frame's (11.1). -/
structure SpeltBy (i : Instr) (kind : Byte) (body : List Byte) : Prop where
  wellFormed : i.wellFormed = true
  encode : encodeRequest i = some (kind, body)
  low : 1 ≤ kind.toNat
  high : kind.toNat ≤ 0x3D
  short : body.length ≤ 1024

/-- A kind and a body are read as the request they spell, and as no other. -/
theorem speltBy_of_decode {i : Instr} {kind : Byte} {body : List Byte} (h : decodeRequest kind body = some i) :
    SpeltBy i kind body := by
  unfold decodeRequest at h
  split at h
  case h_8 hk =>
    obtain rfl := byte_eq hk
    split at h
    next p0 p1 p2 p3 p4 p5 home n zones =>
      split at h
      next hn =>
        cases h
        have hle : zones.length ≤ 255 := hn ▸ count_le n
        refine ⟨decide_eq_true hle, (rfl : encodeRequest _ = some (_, _)).trans ?_, by decide, by decide, ?_⟩
        · simp [hn]
        · simp only [List.length_cons]
          omega
      next => exact nomatch h
    next => exact nomatch h
  case h_9 hk =>
    obtain rfl := byte_eq hk
    split at h
    next p0 p1 p2 p3 p4 p5 =>
      cases h
      exact ⟨rfl, rfl, by decide, by decide, by simp⟩
    next => exact nomatch h
  case h_18 hk =>
    obtain rfl := byte_eq hk
    unfold defineSittingOf at h
    split at h
    next n rest =>
      obtain ⟨warnings, q, t, s, k, rfl, hn, rfl⟩ := defineSittingTail_eq_some h
      have hle : warnings.length ≤ 255 := hn ▸ count_le n
      refine ⟨decide_eq_true hle, (rfl : encodeRequest _ = some (_, _)).trans ?_, by decide, by decide, ?_⟩
      · simp [hn]
      · simp only [List.length_cons, List.length_append, List.length_nil]
        omega
    next => exact nomatch h
  case h_44 hk =>
    obtain rfl := byte_eq hk
    split at h
    next k f n rest =>
      split at h
      next hn =>
        obtain ⟨entries, hrest, rfl⟩ := Option.map_eq_some_iff.mp h
        obtain rfl := entryBytes_of_entriesOf hrest
        have hcount : entries.length = n.toNat := by
          rw [Laws.Encoding.length_entryBytes] at hn
          omega
        have hle : entries.length ≤ 255 := hcount ▸ count_le n
        refine ⟨decide_eq_true hle, (rfl : encodeRequest _ = some (_, _)).trans ?_, by decide, by decide, ?_⟩
        · simp [hcount]
        · simp only [List.length_cons, Laws.Encoding.length_entryBytes]
          omega
      next => exact nomatch h
    next => exact nomatch h
  case h_53 hk =>
    obtain rfl := byte_eq hk
    split at h
    next n ids =>
      split at h
      next hn =>
        cases h
        have hle : ids.length ≤ 255 := hn ▸ count_le n
        refine ⟨decide_eq_true hle, (rfl : encodeRequest _ = some (_, _)).trans ?_, by decide, by decide, ?_⟩
        · simp [hn]
        · simp only [List.length_cons]
          omega
      next => exact nomatch h
    next => exact nomatch h
  case h_62 => exact nomatch h
  all_goals
    next hk =>
      obtain rfl := byte_eq hk
      split at h
      · cases h
        exact ⟨rfl, (rfl : encodeRequest _ = some (_, _)).trans (by simp), by decide, by decide, by simp⟩
      · exact nomatch h

/-- Settles O9: a request's fields are spelt by their bytes and read back from them, and the list a body ends in has the length
its count gives. -/
theorem requestEncodingRoundTrip : Obligations.RequestEncodingRoundTrip := by
  intro i kind body
  refine ⟨fun hw h => ?_, fun h => ?_⟩
  · have hd := decode_encode hw h
    exact ⟨hd, (speltBy_of_decode hd).short⟩
  · have hs := speltBy_of_decode h
    exact ⟨hs.wellFormed, hs.encode⟩

end Sys2Proof
end

