-- ==== Sys2Proof/Proofs/ReplyList.lean ====
section
/-!
PROOFS. The reply list and the frame on the line through a step (R173 to R175, R185, R186). An event changes them in six ways
only; what each of the six keeps, every step keeps.
-/

namespace Sys2Proof.Machine

/-! ### The changes of the control link -/

/-- A reset empties the reply list (R184 to R186). The frame on the line stands only if the reset is a RESET that was due. -/
structure State.LineEmptied (s t : State) : Prop where
  replies : t.cli.replies = []
  resetDue : t.cli.resetDue = none
  sending : t.cli.sending = none ∨ s.cli.resetDue ≠ none ∧ t.cli.sending = s.cli.sending

/-- What no change of the control link ends: the other blocks' work, a request's reply, a bad frame, a frame sent, a reset, and
the next frame begun. -/
structure LineInvariant (P : State → Prop) : Prop where
  kept : ∀ {s t : State}, s.LineKept t → P s → P t
  replied : ∀ {s : State} (kind : Byte) (a : Answer), s.waiting = false → P s → P (s.pushReply kind a)
  badFrame : ∀ {s : State} (ending : BadEnding), P s → P (s.badFrame ending)
  sent : ∀ {s : State} {f : OutFrame}, s.cli.sending = some f → P s → P (s.frameSent f)
  emptied : ∀ {s t : State}, s.LineEmptied t → P s → P t
  begun : ∀ {s : State}, P s → P s.settle

/-- The next state, where there is one, has the property. -/
def NextHas (P : State → Prop) (o : Outcome) : Prop := ∀ t, o = .next t → P t

@[simp] theorem nextHas_ite (P : State → Prop) (c : Prop) [Decidable c] (a b : Outcome) :
    NextHas P (if c then a else b) ↔ if c then NextHas P a else NextHas P b :=
  Iff.of_eq (apply_ite (NextHas P) c a b)

theorem lineKept_resetHallPorts (s : State) : s.LineKept s.resetHallPorts := by
  have hported : s.LineKept s.resumeAll.clearCalls.restartLinks.resyncReader := by
    simpa using lineKept_resumeAll (lineKept_refl s)
  unfold State.resetHallPorts
  generalize s.resumeAll.clearCalls.restartLinks.resyncReader = t at hported ⊢
  exact hported.of_cli rfl

theorem lineKept_clearHall {s t : State} (h : s.LineKept t) : s.LineKept t.clearHall := h.of_cli rfl

/-- A RESET acts on the control link in one way, whatever else it resets. -/
theorem lineEmptied_resetControl {s t : State} (h : s.cli.resetDue ≠ none) (ht : s.LineKept t) (cause : ResetCause) :
    s.LineEmptied (t.resetControl cause) :=
  ⟨rfl, rfl, .inr ⟨h, ht.sending⟩⟩

theorem lineEmptied_actPorts {s : State} (h : s.cli.resetDue ≠ none) : s.LineEmptied s.actPorts :=
  lineEmptied_resetControl h ((modBatch_only _ _).lineKept.mpr (lineKept_resetHallPorts s)) .ports

theorem lineEmptied_actHall {s : State} (h : s.cli.resetDue ≠ none) : s.LineEmptied s.actHall :=
  lineEmptied_resetControl h (lineKept_clearHall (lineKept_resetHallPorts s)) .hall

/-- Only the receiver and the count of discarded frames change. -/
theorem lineKept_discardFrame (s : State) : s.LineKept s.discardFrame := ⟨rfl, rfl, rfl, List.prefix_refl s.cli.notices⟩

theorem lineKept_setReceiver (s : State) (r : Receiver) : s.LineKept (s.setReceiver r) :=
  ⟨rfl, rfl, rfl, List.prefix_refl s.cli.notices⟩

theorem lineKept_tickHall (s : State) : s.LineKept s.tickHall := by
  refine (lineKept_refl s).of_cli ?_
  unfold State.tickHall
  dsimp only
  split <;> rfl

theorem lineKept_tickSync (s : State) : s.LineKept s.tickSync := by
  refine (lineKept_refl s).of_cli ?_
  unfold State.tickSync
  split <;> rfl

theorem lineKept_fireFor (slot : Nat) (kind : MarkKind → Bool) (s : State) : s.LineKept (s.fireFor slot kind) := by
  unfold State.fireFor
  split
  · exact lineKept_refl s
  · exact lineKept_atPoint _ _ (by simp) (lineKept_refl s)

theorem lineKept_correctToMinute (s : State) : s.LineKept s.correctToMinute := by
  unfold State.correctToMinute
  dsimp only
  split
  · exact (lineKept_refl s).of_cli rfl
  · split <;> exact lineKept_clockJump _ _ (lineKept_refl s)

section
variable {P : State → Prop} {s : State}

/-! ### Requests and frames -/

/-- A request's frame, whatever its request: it is not received, discarded, or answered. -/
theorem LineInvariant.onFrame (hP : LineInvariant P) {take : State → State}
    (htake : ∀ t : State, t.waiting = false → P t → P (take t)) (h : P s) : P (s.onFrame take) := by
  unfold State.onFrame
  split
  · exact h
  · split
    · exact hP.kept (lineKept_discardFrame s) h
    next hw => exact htake _ (Bool.eq_false_iff.mpr hw) (hP.kept (lineKept_setReceiver s .hunt) h)

theorem waiting_congr {t : State} (h : s.LineKept t) : t.waiting = s.waiting := by
  rw [State.waiting, State.waiting, h.replies, h.resetDue]

theorem LineInvariant.runRequest (hP : LineInvariant P) {i : Instr} {kind : Byte} {body : List Byte}
    (hi : encodeRequest i = some (kind, body)) (h : P s) : P (s.runRequest i) := by
  obtain ⟨handle, after, hanswers, hafter, -, hrun⟩ := isRequest_of_encode hi
  rw [hrun]
  refine hP.onFrame (fun t hw ht => ?_) h
  have hkept := (hanswers t).lineKept
  exact hP.kept (hafter _) (hP.replied _ _ ((waiting_congr hkept).trans hw) (hP.kept hkept ht))

theorem LineInvariant.takeFrame (hP : LineInvariant P) (kind : Byte) (body : List Byte) (h : P s) :
    P (s.takeFrame kind body) := by
  refine hP.onFrame (fun t hw ht => ?_) h
  unfold State.takeRequest
  split
  · exact hP.replied _ _ hw ht
  · split
    · exact hP.replied _ _ hw ht
    · split
      · exact hP.replied _ _ hw ht
      next i hi => exact hP.runRequest (speltBy_of_decode hi).encode ht

theorem LineInvariant.receiveByte (hP : LineInvariant P) (b : RxByte) (h : P s) : P (State.receiveByte b s) := by
  have hput (r : Receiver) : P (s.setReceiver r) := hP.kept (lineKept_setReceiver s r) h
  unfold State.receiveByte
  split
  · exact h
  · split
    · unfold State.receiveFraming
      split
      · exact h
      · exact hP.badFrame _ h
    · unfold State.receiveData
      split
      · split
        · exact hput _
        · exact h
      · exact hput _
      · split
        · exact hP.badFrame _ h
        · exact hput _
      · exact hput _
      · exact hput _
      · exact hput _
      · unfold State.endFrame
        split
        · exact hP.takeFrame _ _ h
        · exact hP.badFrame _ h

theorem LineInvariant.takeRun (hP : LineInvariant P) {α : Type} {take : α → State → State}
    (htake : ∀ (x : α) (t : State), P t → P (take x t)) (run : List α) (h : P s) : P (s.takeRun take run) := by
  induction run generalizing s with
  | nil => exact h
  | cons x run ih => exact ih (hP.begun (htake x s h))

/-! ### Every row -/

theorem LineInvariant.nextHas_done (hP : LineInvariant P) (h : P s) : NextHas P (done s) := by
  intro t ht
  obtain rfl : s.settle = t := Host.Outcome.next.inj ht
  exact hP.begun h

theorem LineInvariant.nextHas_exec (hP : LineInvariant P) (i : Instr) (h : P s) : NextHas P (exec i s) := by
  have idle : NextHas P (done s) := hP.nextHas_done h
  have kept {t : State} (ht : s.LineKept t) : NextHas P (done t) := hP.nextHas_done (hP.kept ht h)
  have emptied {t : State} (ht : s.LineEmptied t) : NextHas P (done t) := hP.nextHas_done (hP.emptied ht h)
  have same := lineKept_refl s
  rcases hi : encodeRequest i with _ | ⟨kind, body⟩
  case some =>
    rw [exec_of_encode hi]
    exact hP.nextHas_done (hP.runRequest hi h)
  case none =>
    cases i with
    | resetPorts =>
      dsimp only [exec, execResetPorts]
      split
      next hdue => exact emptied (lineEmptied_actPorts (by simp [hdue]))
      next => exact idle
    | resetHall =>
      dsimp only [exec, execResetHall]
      split
      next hdue => exact emptied (lineEmptied_actHall (by simp [hdue]))
      next => exact idle
    | powerOn rate1 rate0 => exact emptied ⟨rfl, rfl, .inl rfl⟩
    | linkReset =>
      dsimp only [exec, execLinkReset]
      split
      · exact idle
      · exact emptied ⟨rfl, rfl, .inl rfl⟩
    | lineIdleReturn => exact kept ⟨rfl, rfl, rfl, List.prefix_refl s.cli.notices⟩
    | badFrame run => exact hP.nextHas_done (hP.takeRun (fun b _ => hP.receiveByte b) run h)
    | receiveGapTimeout =>
      dsimp only [exec, execReceiveGapTimeout]
      split
      · exact idle
      · exact hP.nextHas_done (hP.badFrame _ h)
    | unknownKind kind body => exact hP.nextHas_done (hP.takeFrame kind body h)
    | overrun kind body => exact hP.nextHas_done (hP.takeFrame kind body h)
    | hrdyChange level => exact kept ⟨rfl, rfl, rfl, List.prefix_refl s.cli.notices⟩
    | frameSent =>
      dsimp only [exec, execFrameSent]
      split
      next hf => exact hP.nextHas_done (hP.sent hf h)
      next => exact idle
    | timebaseSecond =>
      have hticked := ((lineKept_tickHall s).of_cli (u := s.tickHall.tickSittings) rfl).trans (lineKept_tickSync _)
      exact kept (hticked.of_cli rfl)
    | syncEdge =>
      have hedge : s.LineKept s.correctToMinute.noteEdge :=
        (lineKept_correctToMinute s).trans ⟨rfl, rfl, rfl, List.prefix_refl s.correctToMinute.cli.notices⟩
      dsimp only [exec, execSyncEdge]
      split
      · exact kept (by simp [hedge])
      · exact idle
    | syncLost =>
      dsimp only [exec, execSyncLost]
      split
      · exact kept (lineKept_notify _ ⟨rfl, rfl, rfl, List.prefix_refl s.cli.notices⟩)
      · exact idle
    | scheduledStart k =>
      dsimp only [exec, execScheduledStart]
      split
      · exact kept (lineKept_startSittingNow _ same)
      · exact idle
    | sittingSecond k =>
      dsimp only [exec, execSittingSecond]
      split
      · exact kept (lineKept_takeSecond _ same)
      · exact idle
    | readingCompare k => exact kept (lineKept_atPoint _ _ (lineKept_startWriting _ _ same) same)
    | sittingWarning k => exact kept (lineKept_atPoint _ _ (lineKept_giveWarning _ same) same)
    | lateCutoff k => exact kept (lineKept_atPoint _ _ (lineKept_takeCutoff _ same) same)
    | writingCompare k => exact kept (lineKept_atPoint _ _ (lineKept_takeCompare _ same) same)
    | warnFiring c => exact kept (lineKept_fireFor _ _ s)
    | endFiring c => exact kept (lineKept_fireFor _ _ s)
    | restExpiry c => exact kept (lineKept_fireFor _ _ s)
    | escalation n =>
      dsimp only [exec, execEscalation]
      split
      · exact kept (by simp)
      · exact idle
    | handsetAway n =>
      dsimp only [exec, execHandsetAway]
      split
      · exact kept (lineKept_handsetGoesAway _ same)
      · exact idle
    | retryPass =>
      dsimp only [exec, execRetryPass]
      split
      · exact idle
      · exact kept (lineKept_retryWalk (same.of_cli rfl))
    | relocation =>
      dsimp only [exec, execRelocation]
      split
      · exact idle
      · exact kept (lineKept_relocate _ _ (same.of_cli rfl))
    | pollCycleStart l =>
      dsimp only [exec, execPollCycleStart]
      split
      · exact kept (by simp)
      · exact idle
    | pollFrame l => exact kept (by simp)
    | pollTimeout l =>
      dsimp only [exec, execPollTimeout]
      split
      · exact kept (lineKept_endPoll _ _ _ same)
      · exact idle
    | seatReply l frame => exact kept (lineKept_onReply _ _ _ _ (fun _ _ _ => lineKept_takeSeatReply _ _ _) same)
    | handsetReply frame => exact kept (lineKept_onReply _ _ _ _ (fun _ _ _ => lineKept_takeHandsetReply _ _) same)
    | stationReply frame => exact kept (lineKept_onReply _ _ _ _ (fun _ _ _ => lineKept_takeStationReply _ _) same)
    | wallClockReply frame => exact kept (lineKept_onReply _ _ _ _ (fun _ _ _ hu => hu) same)
    | lateUnitReply l frame => exact idle
    | pollCycleEnd l =>
      dsimp only [exec, execPollCycleEnd]
      split
      · exact kept (lineKept_endCycle _ same)
      · exact idle
    | timeCodeBroadcast l => exact kept (by simp)
    | timeCodeRepeat l => exact kept (by simp)
    | sheetFrameEnd run =>
      exact hP.nextHas_done (hP.takeRun (fun b t => hP.kept (lineKept_takeSheetByte b (lineKept_refl t))) run h)
    | frameGapTimeout => exact kept (lineKept_cutFrame _ same)
    | rrdyChange level => exact kept (lineKept_setRrdy _ same)
    | verdictSent => exact kept (by simp)
    | _ => exact nomatch hi

/-- A property the changes of the control link keep, every step keeps. -/
theorem LineInvariant.nextHas_step (hP : LineInvariant P) (h : P s) : NextHas P (step s) := by
  unfold step
  split
  · intro t ht
    obtain rfl : s = t := Host.Outcome.next.inj ht
    exact h
  next c rest _ => exact hP.nextHas_exec c (hP.kept ((lineKept_refl s).of_cli rfl) h)

end

/-! ### One entry of each kind (R174, R175) -/

/-- At most one reply, one BAD_FRAME and one OVERRUN in a list. -/
def OneOfEach (l : List ReplyEntry) : Prop :=
  l.countP ReplyEntry.isReply ≤ 1 ∧ l.countP ReplyEntry.isBadFrame ≤ 1 ∧ l.countP ReplyEntry.isOverrun ≤ 1

theorem oneReplyOfEach_iff (s : State) : s.oneReplyOfEach ↔ OneOfEach s.cli.replies := Iff.rfl

section
variable {l : List ReplyEntry}

/-- An entry joins when its list holds none of its kind. -/
theorem oneOfEach_append (e : ReplyEntry) (h : OneOfEach l)
    (hnew : ∀ p ∈ [ReplyEntry.isReply, ReplyEntry.isBadFrame, ReplyEntry.isOverrun], p e = true → l.any p = false) :
    OneOfEach (l ++ [e]) := by
  have count (p : ReplyEntry → Bool) (hle : l.countP p ≤ 1) (hp : p e = true → l.any p = false) :
      (l ++ [e]).countP p ≤ 1 := by
    rw [List.countP_append, List.countP_singleton]
    split
    next he =>
      have hzero : l.countP p = 0 := by simpa [List.countP_eq_zero] using hp he
      omega
    next => exact hle
  obtain ⟨hreply, hbad, hoverrun⟩ := h
  exact ⟨count _ hreply (hnew _ (by simp)), count _ hbad (hnew _ (by simp)), count _ hoverrun (hnew _ (by simp))⟩

theorem oneOfEach_tail (h : OneOfEach l) : OneOfEach l.tail := by
  obtain ⟨hreply, hbad, hoverrun⟩ := h
  have count (p : ReplyEntry → Bool) : l.tail.countP p ≤ l.countP p := (List.tail_sublist l).countP_le
  exact ⟨(count _).trans hreply, (count _).trans hbad, (count _).trans hoverrun⟩

/-- Another bad frame counted changes no entry's kind. -/
theorem kind_addBad (e : ReplyEntry) : e.addBad.isReply = e.isReply ∧ e.addBad.isBadFrame = e.isBadFrame ∧
    e.addBad.isOverrun = e.isOverrun := by
  cases e <;> exact ⟨rfl, rfl, rfl⟩

theorem oneOfEach_repliesWithBad (ending : BadEnding) (h : OneOfEach l) : OneOfEach (repliesWithBad ending l) := by
  unfold repliesWithBad
  split
  · simp only [OneOfEach, List.countP_map, Function.comp_def, kind_addBad]
    exact h
  next hno =>
    exact oneOfEach_append _ h (by simpa [ReplyEntry.isReply, ReplyEntry.isBadFrame, ReplyEntry.isOverrun] using hno)

/-- An OVERRUN entry joins at the end of a wait only when none is in the list. -/
theorem oneOfEach_overrunDue (discarded : Bool) (h : OneOfEach l) :
    OneOfEach (if discarded = true ∧ l.any ReplyEntry.isOverrun = false then l ++ [.overrun] else l) := by
  split
  next hdue =>
    exact oneOfEach_append _ h (by
      simpa [ReplyEntry.isReply, ReplyEntry.isBadFrame, ReplyEntry.isOverrun] using hdue.2)
  next => exact h

end

theorem any_isReply_of_not_waiting {s : State} (h : s.waiting = false) : s.cli.replies.any ReplyEntry.isReply = false :=
  (Bool.or_eq_false_iff.mp h).1

/-- The reply list is kept to one entry of each kind. -/
theorem lineInvariant_oneReplyOfEach : LineInvariant State.oneReplyOfEach where
  kept hkept h := by
    rw [oneReplyOfEach_iff, hkept.replies]
    exact h
  replied kind a hw h := oneOfEach_append _ h (by
    simpa [ReplyEntry.isReply, ReplyEntry.isBadFrame, ReplyEntry.isOverrun] using any_isReply_of_not_waiting hw)
  badFrame ending h := oneOfEach_repliesWithBad ending h
  sent {s f} _ h := by
    cases f with
    | reply r =>
      rw [frameSent_reply]
      exact oneOfEach_overrunDue _ (oneOfEach_tail h)
    | badFrame | overrun => exact oneOfEach_tail h
    | notice => exact h
  emptied hempty _ := by
    rw [oneReplyOfEach_iff, hempty.replies]
    exact ⟨Nat.zero_le _, Nat.zero_le _, Nat.zero_le _⟩
  begun h := by
    rw [settle_eq]
    exact h

/-! ### The frame on the line (R175, R186) -/

theorem head?_of_prefix {α : Type} {l m : List α} (h : l <+: m) {a : α} (ha : l.head? = some a) : m.head? = some a := by
  obtain ⟨rest, rfl⟩ := h
  rw [List.head?_append, ha, Option.some_or]

section
variable {s t : State} {f : OutFrame}

/-- Entries that join behind the head leave the frame on the line at the head of its list. -/
theorem sendsHead_of_prefix (hreplies : s.cli.replies <+: t.cli.replies) (hnotices : s.cli.notices <+: t.cli.notices)
    (h : s.sendsHead f) : t.sendsHead f := by
  cases f with
  | reply r => exact head?_of_prefix hreplies h
  | badFrame flags n e =>
    obtain ⟨x, hx, hbad⟩ := (Option.any_eq_true _ _).mp h
    exact (Option.any_eq_true _ _).mpr ⟨x, head?_of_prefix hreplies hx, hbad⟩
  | overrun => exact head?_of_prefix hreplies h
  | notice => exact head?_of_prefix hnotices h

theorem sendsHead_badFrame (ending : BadEnding) (h : s.sendsHead f) : (s.badFrame ending).sendsHead f := by
  by_cases hbad : s.cli.replies.any ReplyEntry.isBadFrame = true
  case pos =>
    have hmap : (s.badFrame ending).cli.replies.head? = s.cli.replies.head?.map ReplyEntry.addBad := by
      simp [State.badFrame, repliesWithBad, hbad]
    cases f with
    | reply r => exact hmap.trans (congrArg (Option.map ReplyEntry.addBad) h)
    | badFrame flags n e =>
      rw [State.sendsHead, hmap, Option.any_map]
      simp only [kind_addBad]
      exact h
    | overrun => exact hmap.trans (congrArg (Option.map ReplyEntry.addBad) h)
    | notice => exact h
  case neg =>
    refine sendsHead_of_prefix ?_ (List.prefix_refl s.cli.notices) h
    simp [State.badFrame, repliesWithBad, hbad]

/-- The next frame is the head of the list it comes from. -/
theorem sendsHead_of_nextFrame (h : s.nextFrame = some f) : s.sendsHead f := by
  unfold State.nextFrame at h
  split at h
  case h_4 =>
    split at h
    · cases h
      simp [State.sendsHead, *]
    · exact nomatch h
  all_goals
    cases h
    simp [State.sendsHead, ReplyEntry.isBadFrame, *]

theorem frameSent_sending : (s.frameSent f).cli.sending = none := by
  cases f with
  | reply r => rw [frameSent_reply]
  | badFrame | overrun | notice => rfl

/-- With no frame on the line the transmitter is in order. -/
theorem lineInOrder_of_free (h : s.cli.sending = none) : s.lineInOrder := by
  simp [State.lineInOrder, h]

end

/-- The transmitter is kept in order. -/
theorem lineInvariant_lineInOrder : LineInvariant State.lineInOrder where
  kept hkept h := by
    obtain ⟨hhead, hdue⟩ := h
    rw [State.lineInOrder, hkept.resetDue, hkept.sending]
    exact ⟨fun f hf => sendsHead_of_prefix (hkept.replies ▸ List.prefix_refl _) hkept.notices (hhead f hf), hdue⟩
  replied {s} kind a _ h :=
    ⟨fun f hf => sendsHead_of_prefix (List.prefix_append _ _) (List.prefix_refl s.cli.notices) (h.1 f hf), h.2⟩
  badFrame ending h := ⟨fun f hf => sendsHead_badFrame ending (h.1 f hf), h.2⟩
  sent _ _ := lineInOrder_of_free frameSent_sending
  emptied hempty h := lineInOrder_of_free (hempty.sending.elim id fun ⟨hdue, hsame⟩ =>
    hsame.trans (h.2 (Option.isSome_iff_ne_none.mpr hdue)))
  begun {s} h := by
    rw [settle_eq]
    dsimp only [State.lineInOrder]
    split
    next hfree => exact ⟨fun f hf => sendsHead_of_nextFrame hf, fun hdue => by simp [hfree] at hdue⟩
    next => exact h

/-- Settles O6: a step makes only those changes of the control link that keep both. -/
theorem stepKeepsReplyListInOrder : Obligations.StepKeepsReplyListInOrder :=
  ⟨fun _ t h => lineInvariant_oneReplyOfEach.nextHas_step h t, fun _ t h => lineInvariant_lineInOrder.nextHas_step h t⟩

end Sys2Proof.Machine
end

