-- ==== Sys2Proof/Proofs/CompleteFrames.lean ====
section
/-!
PROOFS. A complete frame (R173, R174): discarded, refused by its kind or its body's length, or taken as the request it spells;
and READ_STATUS, the one request with something to do once its reply is formed (R182).
-/

namespace Sys2Proof.Machine

/-! ### The waiting request (R174) -/

/-- A request waits while its reply stands in the list, and a RESET until it acts. -/
theorem waiting_iff (s : State) : s.waiting = true ↔ (∃ r, ReplyEntry.reply r ∈ s.cli.replies) ∨ s.cli.resetDue ≠ none := by
  have isReply_iff (e : ReplyEntry) : e.isReply = true ↔ ∃ r, e = .reply r := by
    cases e <;> simp [ReplyEntry.isReply]
  simp only [State.waiting, Bool.or_eq_true, List.any_eq_true, isReply_iff, Option.isSome_iff_ne_none]
  grind

/-- A request row, UNKNOWN_KIND and OVERRUN are each the arrival of a complete frame. -/
def IsFrame (i : Instr) : Prop :=
  (∃ kind body, encodeRequest i = some (kind, body)) ∨ (∃ kind body, i = .unknownKind kind body) ∨
    (∃ kind body, i = .overrun kind body)

theorem exec_of_isFrame {i : Instr} (h : IsFrame i) (s : State) : ∃ take, exec i s = done (s.onFrame take) := by
  rcases h with ⟨kind, body, hi⟩ | ⟨kind, body, rfl⟩ | ⟨kind, body, rfl⟩
  · obtain ⟨handle, after, -, -, -, hrun⟩ := isRequest_of_encode hi
    rw [exec_of_encode hi, hrun]
    exact ⟨_, rfl⟩
  · exact ⟨_, rfl⟩
  · exact ⟨_, rfl⟩

theorem requestThen_waiting {s : State} {kind : Byte} {handle : State → State × Answer} {after : State → State}
    (h : s.cli.lineHeld = false) (hw : s.waiting = true) : s.requestThen kind handle after = s.discardFrame :=
  onFrame_waiting h hw

/-! ### The checks of a frame taken (R173) -/

section
variable {s : State} {kind : Byte} {body : List Byte}

theorem exec_unknownKind_listening (h : s.listening = true) :
    exec (.unknownKind kind body) s = done (s.toHunt.takeRequest kind body) :=
  congrArg done (onFrame_listening h)

/-- The kind names a request: the checks of the kind are passed. -/
theorem takeRequest_of_named (t : State) (low : 1 ≤ kind.toNat) (high : kind.toNat ≤ 0x3D) : t.takeRequest kind body =
    match decodeRequest kind body with
    | none => t.pushReply (kind + 0x80#8) ⟨.badLength, .none⟩
    | some i => t.runRequest i := by
  have hin : kindOutside kind = false := by
    simp only [kindOutside, Bool.or_eq_false_iff, beq_eq_false_iff_ne, decide_eq_false_iff_not]
    omega
  have hnamed : kindUnnamed kind = false := by
    simp only [kindUnnamed, Bool.and_eq_false_iff, decide_eq_false_iff_not]
    omega
  rw [State.takeRequest, hin, hnamed]
  rfl

/-- A request finds the receiver in HUNT or leaves it there: nothing else of the receiver matters to it. -/
theorem runRequest_toHunt {i : Instr} (hi : encodeRequest i = some (kind, body)) (h : s.listening = true) :
    s.toHunt.runRequest i = s.runRequest i := by
  obtain ⟨handle, after, -, -, -, hrun⟩ := isRequest_of_encode hi
  rw [hrun, hrun, requestThen_listening h, requestThen_listening (s := s.toHunt) h]
  rfl

theorem exec_unknownKind_of_decode {i : Instr} (hi : decodeRequest kind body = some i) (h : s.listening = true) :
    exec (.unknownKind kind body) s = exec i s := by
  obtain ⟨-, hencode, low, high, -⟩ := speltBy_of_decode hi
  rw [exec_unknownKind_listening h, takeRequest_of_named _ low high, hi, exec_of_encode hencode]
  exact congrArg done (runRequest_toHunt hencode h)

theorem exec_unknownKind_badLength (h : s.listening = true) (low : 1 ≤ kind.toNat) (high : kind.toNat ≤ 0x3D)
    (hnone : decodeRequest kind body = none) :
    exec (.unknownKind kind body) s = s.toHunt.replied kind ⟨.badLength, .none⟩ := by
  rw [exec_unknownKind_listening h, takeRequest_of_named _ low high, hnone]
  rfl

theorem exec_unknownKind_unnamed (h : s.listening = true) (low : 0x3D < kind.toNat) (high : kind.toNat ≤ 0x5F) :
    exec (.unknownKind kind body) s = s.toHunt.replied kind ⟨.unknownKind, .none⟩ := by
  have hin : kindOutside kind = false := by
    simp only [kindOutside, Bool.or_eq_false_iff, beq_eq_false_iff_ne, decide_eq_false_iff_not]
    omega
  have hunnamed : kindUnnamed kind = true := by simp [kindUnnamed, low, high]
  rw [exec_unknownKind_listening h, State.takeRequest, hin, hunnamed]
  rfl

theorem exec_unknownKind_outside (h : s.listening = true) (hkind : kind.toNat = 0 ∨ 0x5F < kind.toNat) :
    exec (.unknownKind kind body) s = .next (s.toHunt.pushReply 0xFF#8 ⟨.unknownKind, .unknownKind kind⟩).settle := by
  have hout : kindOutside kind = true := by simpa [kindOutside] using hkind
  rw [exec_unknownKind_listening h, State.takeRequest, hout]
  rfl

end

/-- Settles O11: a frame by the state it finds, and one that is taken by the checks in their order. -/
theorem completeFrameIsTakenOrDiscarded : Obligations.CompleteFrameIsTakenOrDiscarded := by
  unfold Obligations.CompleteFrameIsTakenOrDiscarded
  refine ⟨fun kind body s h => ⟨exec_unknownKind_outside h, exec_unknownKind_unnamed h, exec_unknownKind_badLength h,
    fun i hi => exec_unknownKind_of_decode hi h, rfl⟩, fun s => ⟨waiting_iff s, listening_iff⟩, fun i s hi => ?_⟩
  obtain ⟨take, hexec⟩ := exec_of_isFrame hi s
  rw [hexec]
  exact ⟨fun hheld => congrArg done (onFrame_held hheld), fun hfree hw => congrArg done (onFrame_waiting hfree hw)⟩

/-- Settles O17: the reply is formed from the state as it was, and the clearing follows. -/
theorem readStatusReportsThenClears : Obligations.ReadStatusReportsThenClears := by
  unfold Obligations.ReadStatusReportsThenClears
  refine ⟨fun s hfree hw => congrArg done (requestThen_waiting hfree hw), fun s h => ?_⟩
  exact congrArg done (requestThen_listening h)

end Sys2Proof.Machine
end

