-- ==== Sys2Proof/Proofs/ReceiverBytes.lean ====
section
/-!
PROOFS. The receiver (R172, R175): the byte it takes in each of its states, the run of bytes a BAD_FRAME row carries, and the
gap that ends a frame in progress.
-/

namespace Sys2Proof.Machine

/-- A run of bytes, each with what the transmitters begin after it. -/
theorem takeRun_eq_foldl {α : Type} (take : α → State → State) (s : State) (run : List α) :
    s.takeRun take run = run.foldl (fun t c => (take c t).settle) s := by
  induction run generalizing s with
  | nil => rfl
  | cons b run ih => exact ih (take b s).settle

theorem exec_badFrame_cons (b : RxByte) (run : List RxByte) (s : State) : exec (.badFrame (b :: run)) s =
    .next (run.foldl (fun t c => (t.receiveByte c).settle) (s.receiveByte b).settle) := by
  rw [← takeRun_eq_foldl]
  exact done_takeRun State.receiveByte s b run

section
variable {s : State}

/-! ### The gap (R172) -/

theorem exec_gap_hunt (h : s.cli.receiver = .hunt) : exec .receiveGapTimeout s = .next s.settle := by
  simp only [exec, execReceiveGapTimeout, h]
  rfl

theorem exec_gap_inFrame (h : s.cli.receiver ≠ .hunt) : exec .receiveGapTimeout s = .next (s.badFrame .gap).settle := by
  simp only [exec, execReceiveGapTimeout]
  rfl

/-! ### A byte (R172) -/

theorem receiveByte_held (b : RxByte) (h : s.cli.lineHeld = true) : s.receiveByte b = s := if_pos h

theorem receiveByte_framing {b : RxByte} (h : s.cli.lineHeld = false) (hb : b.framingError = true) :
    s.receiveByte b = if s.cli.receiver = .hunt then s else s.badFrame .framing := by
  have hframing : s.receiveByte b = s.receiveFraming := by
    rw [State.receiveByte, h, hb]
    rfl
  rw [hframing, State.receiveFraming]
  split
  next hunt => rw [if_pos hunt]
  next hno => rw [if_neg hno]

theorem receiveByte_data {b : RxByte} (h : s.cli.lineHeld = false) (hb : b.framingError = false) :
    s.receiveByte b = s.receiveData b.data := by
  rw [State.receiveByte, h, hb]
  rfl

end

theorem afterKind_eq (len : Nat) (kind : Byte) :
    afterKind len kind = if len = 0 then .check 0 kind [] none else .body len kind [] := by
  unfold afterKind
  split
  next h => rw [h]
  next => rfl

theorem afterBody_append (len : Nat) (kind : Byte) (taken : List Byte) (b : Byte) : afterBody len kind (taken ++ [b]) =
    if taken.length + 1 = len then .check len kind (taken ++ [b]) none else .body len kind (taken ++ [b]) := by
  rw [afterBody, List.length_append, List.length_singleton]

/-- Settles O12: the byte by the receiver's state, the run byte by byte. -/
theorem receiverTakesBytes : Obligations.ReceiverTakesBytes := by
  unfold Obligations.ReceiverTakesBytes
  refine ⟨fun s => rfl, fun kind body s => rfl, exec_badFrame_cons, fun b s => ?_⟩
  refine ⟨exec_gap_hunt, exec_gap_inFrame, receiveByte_held b, fun hfree hb h => ?_, fun hfree hb h => ?_, fun hfree hb => ?_⟩
  · rw [receiveByte_framing hfree hb, if_pos h]
  · rw [receiveByte_framing hfree hb, if_neg h]
    rfl
  · rw [receiveByte_data hfree hb]
    refine ⟨fun h => ?hunt, fun h => ?first, fun hi h => ?second, fun len h => ?kind, fun len kind taken h => ?body,
      fun len kind taken h => ?check, fun len kind taken hi h => ?finish⟩
    all_goals rw [State.receiveData, h]
    case second =>
      rw [← beNat_two]
      rfl
    case kind =>
      rw [← afterKind_eq]
      rfl
    case body =>
      rw [← afterBody_append]
      rfl
    all_goals rfl

end Sys2Proof.Machine
end

