-- ==== Sys2Proof/Proofs/Parameters.lean ====
section
/-!
PROOFS. The parameter store (R179, R180, 11.3): the values each identifier takes, what a change of the store makes of the calls
and the handsets, and the parameters read.
-/

namespace Sys2Proof.Machine

/-! ### The ranges of the parameters (R179, 11.3) -/

section
variable (p : Params) (v : Nat)

theorem change_spacingRule : p.change 1 v =
    if 0 ≤ v ∧ v ≤ 2 then some { p with spacingRule := if v = 0 then .none else if v = 1 then .row else .cross }
    else none := by
  match v with
  | 0 | 1 | 2 => rfl
  | n + 3 => exact (if_neg (by omega)).symm

theorem change_fillOrder : p.change 2 v =
    if 0 ≤ v ∧ v ≤ 1 then some { p with fillOrder := if v = 0 then .ascending else .serpentine } else none := by
  match v with
  | 0 | 1 => rfl
  | n + 2 => exact (if_neg (by omega)).symm

theorem change_floorUnits : p.change 11 v =
    if 0 ≤ v ∧ v ≤ 0xFFFFF then some { p with floorUnits := BitVec.ofNat 20 v } else none := by
  have hrange : v < 2 ^ 20 ↔ 0 ≤ v ∧ v ≤ 0xFFFFF := by omega
  simp only [Params.change, floorSetOf, hrange]
  split <;> rfl

end

section
variable {p q : Params} {id v : Nat}

theorem within_eq_some {lo hi : Nat} (h : within lo hi v p = some q) : q = p := by
  unfold within at h
  split at h
  · exact (Option.some.inj h).symm
  · exact nomatch h

/-- A change gives the parameter of its identifier the value, and leaves the others. -/
theorem values_of_change (h : p.change id v = some q) : q.values = p.values.set (id - 1) v := by
  unfold Params.change at h
  split at h
  case h_1 =>
    match v with
    | 0 | 1 | 2 =>
      cases h
      rfl
    | n + 3 => exact nomatch h
  case h_2 =>
    match v with
    | 0 | 1 =>
      cases h
      rfl
    | n + 2 => exact nomatch h
  case h_11 =>
    unfold floorSetOf at h
    split at h
    next hv =>
      cases h
      simpa [Params.values] using hv
    next => exact nomatch h
  case h_14 => exact nomatch h
  all_goals
    obtain rfl := within_eq_some h
    rfl

end

/-- An identifier names a parameter exactly when it is 0x01 to 0x0D. -/
theorem value_eq_none {p : Params} {id : Nat} : p.value id = none ↔ id = 0 ∨ 13 < id := by
  unfold Params.value
  split
  next h => simp [h]
  next h =>
    simp [Params.values]
    omega

theorem value_of_pos {p : Params} {id : Nat} (h : 1 ≤ id) : p.value id = p.values[id - 1]? := if_neg (by omega)

/-! ### The handsets (R106) -/

section
variable {old new : FloorSet} {h : Nat} (x : Handset)

theorem joinLeave_same (hsame : old.getLsbD h = new.getLsbD h) : joinLeave old new h x = x := by
  rw [joinLeave, hsame]
  cases new.getLsbD h <;> rfl

theorem joinLeave_leaves (hold : old.getLsbD h = true) (hnew : new.getLsbD h = false) :
    joinLeave old new h x = { x with state := .off, stack := [], timer := 0, note := none, awayDue := false } := by
  rw [joinLeave, hold, hnew]

theorem joinLeave_joins (hold : old.getLsbD h = false) (hnew : new.getLsbD h = true) :
    joinLeave old new h x = { x with state := .active, stack := [], timer := 0, note := none, awayDue := false } := by
  rw [joinLeave, hold, hnew]

end

/-! ### SET_PARAM (R179) -/

/-- The state once the store holds `p`: an equal value changes nothing. -/
def State.withParams (s : State) (p : Params) : State := if p = s.cli.params then s else s.applyParams p

section
variable {s : State} {id : Byte} {value : Word} {p : Params}

theorem ansSetParam_badId (h : s.cli.params.value id.toNat = none) : ansSetParam id value s = (s, badArgument 1) :=
  withArgs_of_bad (by simp [setParamChecks, h])

theorem ansSetParam_badValue {before : Nat} (h : s.cli.params.value id.toNat = some before)
    (hv : s.cli.params.change id.toNat value.toNat = none) : ansSetParam id value s = (s, badArgument 2) :=
  withArgs_of_bad (by simp [setParamChecks, h, hv])

/-- A value in range: busy, or the store takes it. -/
theorem ansSetParam_of_change {before : Nat} (h : s.cli.params.value id.toNat = some before)
    (hv : s.cli.params.change id.toNat value.toNat = some p) : ansSetParam id value s =
      if s.paramBusy id.toNat p then (s, refuse .busy)
      else (s.withParams p, ok (.param id.toNat before value.toNat)) := by
  rw [ansSetParam, withArgs_of_all (by simp [setParamChecks, h, hv]), hv, h]
  rfl

theorem leavesOutBusy_iff {units : FloorSet} : s.leavesOutBusy units = true ↔
    ∃ h, h < 8 ∧ s.cli.params.floorUnits.getLsbD h = true ∧ units.getLsbD h = false ∧ (s.handset h).stack ≠ [] := by
  simp [State.leavesOutBusy, and_assoc]

theorem paramBusy_iff {n : Nat} : s.paramBusy n p = true ↔ (n = 12 ∧ s.mke.batch.state ≠ .idle) ∨
    (n = 11 ∧ ∃ h, h < 8 ∧ s.cli.params.floorUnits.getLsbD h = true ∧ p.floorUnits.getLsbD h = false ∧
      (s.handset h).stack ≠ []) := by
  unfold State.paramBusy
  split
  next h => simp [h, leavesOutBusy_iff]
  next h => simp [h]

theorem call?_applyParams (n : Nat) :
    (s.applyParams p).call? n = (s.call? n).map (Call.underLimit p.escalateTime) := by
  unfold State.call? State.applyParams
  rw [join_mapAll _ _ rfl]
  exact Option.map_eq_bind.symm

theorem handset_applyParams {h : Nat} (hh : h < 8) : (s.applyParams p).handset h =
    (joinLeave s.cli.params.floorUnits p.floorUnits h (s.handset h)).underLimit p.handsetAway := by
  simp [State.handset, State.applyParams, hh]

theorem withParams_eq : s.withParams p = { s with cli.params := p, cdp := (s.withParams p).cdp } := by
  unfold State.withParams
  split
  next h =>
    subst h
    rfl
  next => rfl

theorem call?_withParams (n : Nat) : (s.withParams p).call? n = (s.call? n).map (fun c =>
    if p = s.cli.params then c
    else if p.escalateTime = 0 then { c with timer := 0, escalationDue := false }
    else { c with escalationDue := c.escalationDue && decide (p.escalateTime ≤ c.timer) }) := by
  unfold State.withParams
  split
  · exact Option.map_id'.symm
  · exact call?_applyParams n

/-- A handset stays, leaves or joins by its floor unit (R106, R108). -/
theorem handset_withParams {h : Nat} (hh : h < 8) (hp : p ≠ s.cli.params) :
    (s.cli.params.floorUnits.getLsbD h = p.floorUnits.getLsbD h → (s.withParams p).handset h =
      { s.handset h with awayDue := (s.handset h).awayDue && decide (0 < p.handsetAway ∧
        p.handsetAway ≤ (s.handset h).timer) }) ∧
    (s.cli.params.floorUnits.getLsbD h = true → p.floorUnits.getLsbD h = false → (s.withParams p).handset h =
      { s.handset h with state := .off, stack := [], timer := 0, note := none, awayDue := false }) ∧
    (s.cli.params.floorUnits.getLsbD h = false → p.floorUnits.getLsbD h = true → (s.withParams p).handset h =
      { s.handset h with state := .active, stack := [], timer := 0, note := none, awayDue := false }) := by
  rw [State.withParams, if_neg hp, handset_applyParams hh]
  refine ⟨fun hsame => ?_, fun hold hnew => ?_, fun hold hnew => ?_⟩
  · rw [joinLeave_same _ hsame]
    rfl
  · rw [joinLeave_leaves _ hold hnew]
    rfl
  · rw [joinLeave_joins _ hold hnew]
    rfl

end

theorem exec_setParam {id : Byte} {value : Word} {s t : State} {a : Answer} (hl : s.listening = true)
    (h : ansSetParam id value s.toHunt = (t, a)) : exec (.setParam id value) s = t.replied 0x39 a :=
  (answerTo_listening hl).trans (by rw [h])

/-! ### GET_PARAM (R180) -/

theorem exec_getParam {b : Byte} {s : State} (hl : s.listening = true) (hb : b = 0xFF#8 ∨ 1 ≤ b.toNat ∧ b.toNat ≤ 13) :
    exec (.getParam b) s = s.toHunt.replied 0x3A
      (ok (.params ((paramsFor b).filterMap (fun id => (s.cli.params.value id).map (fun v => (id, v)))))) := by
  refine (answerTo_listening hl).trans ?_
  rw [ansGetParam, withArgs_of_all (by simpa using hb)]
  rfl

theorem exec_getParam_bad {b : Byte} {s : State} (hl : s.listening = true) (hb : b ≠ 0xFF#8)
    (hrange : b.toNat = 0 ∨ 13 < b.toNat) : exec (.getParam b) s = s.toHunt.replied 0x3A (badArgument 1) := by
  refine (answerTo_listening hl).trans ?_
  have hno : (b == 0xFF#8 || (decide (1 ≤ b.toNat) && decide (b.toNat ≤ 13))) = false := by
    simp only [Bool.or_eq_false_iff, beq_eq_false_iff_ne, Bool.and_eq_false_iff, decide_eq_false_iff_not]
    exact ⟨hb, by omega⟩
  rw [ansGetParam, withArgs_of_bad (congrArg (fun c => firstBad [c]) hno)]

/-- Settles O58: the store by the change of one value, the calls and the handsets by the store they then stand under. -/
theorem parametersAreSetAndRead : Obligations.ParametersAreSetAndRead := by
  unfold Obligations.ParametersAreSetAndRead
  refine ⟨fun id value s hl => ?set, fun p v => ⟨change_spacingRule p v, change_fillOrder p v, rfl, rfl, rfl, rfl, rfl, rfl,
    rfl, rfl, change_floorUnits p v, rfl, rfl⟩, fun b s hl => ⟨fun v low hv => ?one, fun hall => ?all, fun hbad => ?bad⟩⟩
  case set =>
    refine ⟨fun hid => exec_setParam hl (ansSetParam_badId (value_eq_none.mpr hid)), fun low high => ?_⟩
    obtain ⟨before, hbefore⟩ : ∃ before, s.cli.params.value id.toNat = some before :=
      Option.ne_none_iff_exists'.mp (mt value_eq_none.mp (by omega))
    refine ⟨fun hnone => exec_setParam hl (ansSetParam_badValue hbefore hnone), fun p hp => ?_⟩
    have hset := values_of_change hp
    have hanswer := ansSetParam_of_change (s := s.toHunt) hbefore hp
    refine ⟨?_, fun n hn => ?_,
      fun hbusy => exec_setParam hl (hanswer.trans (if_pos (paramBusy_iff.mpr hbusy))), fun hfree => ?_⟩
    · rw [hset, List.getElem?_set_self]
      simp only [Params.values, List.length_cons, List.length_nil]
      omega
    · rw [hset, List.getElem?_set_ne (Ne.symm hn)]
    · exact ⟨s.toHunt.withParams p, before, (value_of_pos low).symm.trans hbefore,
        exec_setParam hl (hanswer.trans (if_neg (mt paramBusy_iff.mp hfree))), withParams_eq, fun h => if_pos h,
        call?_withParams, fun h hh hchanged => handset_withParams (s := s.toHunt) hh hchanged⟩
  case one =>
    have hvalue : s.cli.params.value b.toNat = some v := (value_of_pos low).trans hv
    have high : b.toNat ≤ 13 := by
      have := mt value_eq_none.mpr (Option.ne_none_iff_exists'.mpr ⟨v, hvalue⟩)
      omega
    have hno : b ≠ 0xFF#8 := fun h => absurd high (h ▸ by decide)
    rw [exec_getParam hl (.inr ⟨low, high⟩), paramsFor, if_neg hno]
    simp [hvalue]
  case all =>
    rw [exec_getParam hl (.inl hall), paramsFor, if_pos hall]
    rfl
  case bad =>
    refine exec_getParam_bad hl (fun h => ?_) (hbad.imp_right And.left)
    subst h
    simp at hbad

end Sys2Proof.Machine
end

