-- ==== Sys2Proof/Proofs/FirstArgument.lean ====
section
/-!
PROOFS. The argument a BAD_ARGUMENT refusal names (R173, R176, R187): the first that fails, by the checks of each request in
body order, and the codes its fields carry (11.1).
-/

namespace Sys2Proof.Machine

/-! ### Codes (11.1) -/

/-- What each code names. -/
theorem codes_eq (b : Byte) :
    linkOf b = (if b = 0#8 then some .a else if b = 1#8 then some .b else if b = 2#8 then some .c
      else if b = 3#8 then some .d else if b = 4#8 then some .floor else none) ∧
    strideOf b = (if b = 0#8 then some .right else if b = 1#8 then some .left else if b = 2#8 then some .down
      else if b = 3#8 then some .up else none) ∧
    sourceOf b = (if b = 0#8 then some .internal else if b = 1#8 then some .external else none) ∧
    syncModeOf b = (if b = 0#8 then some .off else if b = 1#8 then some .minute else none) ∧
    scriptKindOf b = (if b = 0#8 then some .booklet else if b = 1#8 then some .sheet else none) ∧
    scopeOf b = (if b = 0#8 then some .ports else if b = 1#8 then some .hall else none) := by
  simp only [linkOf, strideOf, sourceOf, syncModeOf, scriptKindOf, scopeOf, ← BitVec.toNat_inj, BitVec.toNat_ofNat]
  generalize b.toNat = n
  match n with
  | 0 | 1 | 2 | 3 | 4 => exact ⟨rfl, rfl, rfl, rfl, rfl, rfl⟩
  | n + 5 => simp

/-- The codes that name something. -/
theorem isSome_code (b : Byte) :
    ((linkOf b).isSome = true ↔ b.toNat < 5) ∧ ((seatKindOf b).isSome = true ↔ b.toNat < 2) ∧
    ((sourceOf b).isSome = true ↔ b.toNat < 2) ∧ ((syncModeOf b).isSome = true ↔ b.toNat < 2) ∧
    ((scriptKindOf b).isSome = true ↔ b.toNat < 2) ∧ ((scopeOf b).isSome = true ↔ b.toNat < 2) ∧
    ((adoptOf b).isSome = true ↔ b.toNat < 2) ∧ ((questionModeOf b).isSome = true ↔ b.toNat < 2) ∧
    ((sweepModeOf b).isSome = true ↔ b = 1#8 ∨ b = 2#8) := by
  simp only [linkOf, seatKindOf, sourceOf, syncModeOf, scriptKindOf, scopeOf, adoptOf, questionModeOf, sweepModeOf,
    ← BitVec.toNat_inj, BitVec.toNat_ofNat]
  generalize b.toNat = n
  match n with
  | 0 | 1 | 2 | 3 | 4 => simp
  | n + 5 => simp

theorem not_isSome_linkOf {b : Byte} (h : 5 ≤ b.toNat) : (linkOf b).isSome = false :=
  Bool.eq_false_iff.mpr (mt (isSome_code b).1.mp (by omega))

/-- The codes that decide whether later fields are looked at. -/
theorem code_iff (b : Byte) : (seatKindOf b = some .seat ↔ b = 0#8) ∧ (sourceOf b = some .internal ↔ b = 0#8) ∧
    (sweepModeOf b = some .desk ↔ b = 2#8) := by
  simp only [seatKindOf, sourceOf, sweepModeOf, ← BitVec.toNat_inj, BitVec.toNat_ofNat]
  generalize b.toNat = n
  match n with
  | 0 | 1 | 2 => simp
  | n + 3 => simp

/-- Where a step leads (R131). -/
theorem stepLeads_iff (a e : Nat) :
    (stepLeads .right a e = true ↔ a / 16 = e / 16 ∧ a ≤ e) ∧ (stepLeads .left a e = true ↔ a / 16 = e / 16 ∧ e ≤ a) ∧
    (stepLeads .down a e = true ↔ a % 16 = e % 16 ∧ a ≤ e) ∧ (stepLeads .up a e = true ↔ a % 16 = e % 16 ∧ e ≤ a) := by
  simp [stepLeads]

theorem isPaper_iff (p : Paper) : isPaper p = true ↔
    ∀ b ∈ p.toList, (0x41 ≤ b.toNat ∧ b.toNat ≤ 0x5A) ∨ (0x30 ≤ b.toNat ∧ b.toNat ≤ 0x39) := by
  simp only [isPaper, isPaperByte, List.all_eq_true, Bool.or_eq_true, Bool.and_eq_true, decide_eq_true_iff]

theorem getLsbD_attrsOf (b : Byte) {n : Nat} (h : n < 3) : (attrsOf b).getLsbD n = b.getLsbD n := by
  simp [attrsOf, h]

/-! ### The first check that fails -/

/-- The checks of a request come to these conditions, each once those before it hold. -/
def ChecksAre : List Bool → List Prop → Prop
  | [], [] => True
  | c :: checks, p :: conditions => (c = true ↔ p) ∧ (p → ChecksAre checks conditions)
  | _, _ => False

theorem firstFails_of_checksAre {answer : Nat → Prop} {checks : List Bool} {conditions : List Prop} {n : Nat}
    (h : ChecksAre checks conditions) (hanswer : firstFails answer n (checks.map (· = true))) :
    firstFails answer n conditions := by
  induction checks generalizing conditions n with
  | nil =>
    cases conditions with
    | nil => exact trivial
    | cons p conditions => exact h.elim
  | cons c checks ih =>
    cases conditions with
    | nil => exact h.elim
    | cons p conditions =>
      obtain ⟨hiff, hrest⟩ := h
      obtain ⟨hfails, hholds⟩ := hanswer
      exact ⟨fun hp => hfails (mt hiff.mp hp), fun hp => ih (hrest hp) (hholds (hiff.mpr hp))⟩

section
variable {kind : Byte} {handle take : State → State × Answer} {s : State}

/-- A request whose block checks arguments, against the state if need be, names the first condition that fails. -/
theorem answerTo_named {checks : List Bool} {conditions : List Prop} (hl : s.listening = true)
    (hhandle : handle s.toHunt = withArgs checks take s.toHunt) (h : ChecksAre checks conditions) :
    firstFails (fun n => answerTo kind handle s = s.toHunt.replied kind (badArgument n)) 1 conditions :=
  firstFails_of_checksAre h (firstFails_of_firstBad checks 0 fun p hp => by
    rw [answerTo_listening hl, hhandle, withArgs_of_bad hp, Nat.zero_add])

/-- The first argument is out of range. -/
theorem answerTo_firstArgument {c : Bool} {checks : List Bool} (hl : s.listening = true)
    (hhandle : handle s.toHunt = withArgs (c :: checks) take s.toHunt) (hc : c = false) :
    answerTo kind handle s = s.toHunt.replied kind (badArgument 1) := by
  subst hc
  rw [answerTo_listening hl, hhandle, withArgs_of_bad (firstBad_cons_false checks)]

end

/-! ### The checks of the requests (R187) -/

section
variable (h h' h2 h3 : Half) (w : Word) (b b1 b2 b3 b4 b5 : Byte) (paper : Paper) (list : List Byte) (es : List KeyEntry)

theorem checks_defineSeats : ChecksAre (defineSeatsChecks h h' b b1 b2) [h.toNat < 384, h'.toNat < 384 ∧ h.toNat ≤ h'.toNat,
    b.toNat < 2, b = 1#8 ∨ b1.toNat < 8, b = 1#8 ∨ b2.toNat < 8] := by
  have hkind (hb : b.toNat < 2) : b ≠ 0#8 ↔ b = 1#8 := by bv_omega
  simp +contextual [ChecksAre, defineSeatsChecks, isSeat, isEighth, isAttrs, isSome_code, code_iff, hkind]

theorem checks_readCandidate : ChecksAre (readCandidateChecks h w b) [h = 0xFFFF#16 ∨ h.toNat < 512,
    (h = 0xFFFF#16 ↔ w ≠ 0#32) ∧ (w = 0#32 ∨ w.toNat ≤ 99999999), h ≠ 0xFFFF#16 ∨ b = 0xFF#8 ∨ b.toNat < 8] := by
  have hnumber : (!numberGiven w || isNumber w.toNat) = true ↔ w = 0#32 ∨ w.toNat ≤ 99999999 := by
    have hpos : w ≠ 0#32 → 1 ≤ w.toNat := by bv_omega
    simp only [numberGiven, isNumber, Bool.or_eq_true, Bool.not_eq_true', bne_eq_false_iff_eq, Bool.and_eq_true,
      decide_eq_true_iff]
    grind
  have hone : (slotGiven h != numberGiven w) = true ↔ (h = 0xFFFF#16 ↔ w ≠ 0#32) := by
    by_cases hh : h = 0xFFFF#16 <;> by_cases hw : w = 0#32 <;> simp [slotGiven, numberGiven, bne, hh, hw]
  refine ⟨by simp [slotGiven, isSlot], fun _ => ⟨?_, fun _ => ⟨by simp [slotGiven, isSitting, or_assoc], fun _ => trivial⟩⟩⟩
  rw [Bool.and_eq_true, hone, hnumber]

theorem checks_entry : ChecksAre (entryChecks b b1 b2 b3)
    [b.toNat < 8, b1.toNat < 8, b2.toNat ≤ 100 ∧ b2.toNat % 5 = 0, b3.toNat ≤ 60] := by
  simp [ChecksAre, entryChecks, isSitting, isAttrs, isAllowance, isRest]

theorem checks_setTimebase (f : Nat) (hf : f = if b = 0#8 then 10000 else h.toNat) : ChecksAre (setTimebaseChecks b h b1 b2)
    [b.toNat < 2, 1000 ≤ f ∧ f ≤ 40000, 1 ≤ b1.toNat ∧ b1.toNat ≤ 16 ∧ f % b1.toNat = 0 ∧ 1000 ≤ f / b1.toNat ∧
      f / b1.toNat ≤ 2500, b2.toNat < 2] := by
  simp [ChecksAre, setTimebaseChecks, usedFrequency, isPrescale, isSome_code, code_iff, ← hf, and_assoc]

theorem checks_defineSitting : ChecksAre (defineSittingChecks b paper b1 h h' h2 h3 list b2 b3 b4 b5) [b.toNat < 8,
    isPaper paper = true, b1.toNat ≤ 60, 1 ≤ h.toNat ∧ h.toNat ≤ 360, h'.toNat ≤ h.toNat, h2.toNat ≤ h.toNat,
    h3.toNat ≤ h.toNat ∧ h2.toNat + h3.toNat ≤ h.toNat,
    list.length ≤ 4 ∧ (∀ x ∈ list, 1 ≤ x.toNat ∧ x.toNat ≤ 120 ∧ x.toNat ≤ h.toNat) ∧
      (list.map (·.toNat)).Pairwise (· > ·),
    b2.toNat ≤ 30, b3.toNat < 8, b4.toNat < 2, b5 = 0xFF#8 ∨ b5.toNat < 8] := by
  simp [ChecksAre, defineSittingChecks, isSitting, isWarnings, strictlyDescending_iff, isEighth, isSome_code, and_assoc]

theorem inLink_iff_mem (a : Nat) : inLink b a = true ↔ ∃ l, linkOf b = some l ∧ a ∈ linkAddresses l := by
  have hrun (l : LinkName) : (linkBase l ≤ a ∧ a < linkBase l + linkSize l) ↔ a ∈ linkAddresses l := by
    simp only [linkAddresses, List.mem_map, List.mem_range]
    exact ⟨fun hin => ⟨a - linkBase l, by omega, by omega⟩, fun ⟨i, hi, ha⟩ => by omega⟩
  simp [inLink, Option.any_eq_true, ← hrun]

theorem checks_readLink : ChecksAre (readLinkChecks b h b1) [b.toNat < 5,
    ∃ l, linkOf b = some l ∧ h.toNat ∈ linkAddresses l,
    1 ≤ b1.toNat ∧ b1.toNat ≤ 32 ∧ ∃ l, linkOf b = some l ∧ h.toNat + b1.toNat - 1 ∈ linkAddresses l] := by
  simp [ChecksAre, readLinkChecks, isSome_code, inLink_iff_mem, and_assoc]

theorem checks_startSweep : ChecksAre (startSweepChecks b b1 h h' b2) [b.toNat < 4, b1 = 1#8 ∨ b1 = 2#8,
    b1 = 2#8 ∨ h.toNat < 384, b1 = 2#8 ∨ h'.toNat < 384,
    b1 = 2#8 ∨ ∃ st, strideOf b2 = some st ∧ stepLeads st h.toNat h'.toNat = true] := by
  simp [ChecksAre, startSweepChecks, isChannel, isSome_code, code_iff, isSeat, Option.any_eq_true]

theorem formRows_of_lt {form : Nat} (hform : form < 4) : formRows form = 40 * (form + 1) := formRows_eq (by omega)

theorem checks_keyBegin : ChecksAre (keyBeginChecks b b1 b2 b3) [b.toNat < 8, b1.toNat < 4,
    1 ≤ b2.toNat ∧ b2.toNat ≤ 40 * (b1.toNat + 1), b3.toNat ≤ 2] := by
  simp +contextual [ChecksAre, keyBeginChecks, isEighth, formRows_of_lt]

theorem isKeyEntry_iff (e : KeyEntry) : isKeyEntry e = true ↔ 1 ≤ e.answers.toNat ∧ e.answers.toNat < 32 ∧ e.mode.toNat < 2 ∧
    1 ≤ e.weight.toNat ∧ e.weight.toNat ≤ 4 := by
  simp [isKeyEntry, isSome_code, and_assoc]

theorem checks_keyPart (q : Nat) : ChecksAre (keyPartChecks q b b1 es) [b.toNat < 8, 1 ≤ b1.toNat, 1 ≤ es.length ∧
    es.length ≤ 40 ∧ b1.toNat + es.length - 1 ≤ q ∧ ∀ e ∈ es, 1 ≤ e.answers.toNat ∧ e.answers.toNat < 32 ∧
      e.mode.toNat < 2 ∧ 1 ≤ e.weight.toNat ∧ e.weight.toNat ≤ 4] := by
  simp [ChecksAre, keyPartChecks, isEighth, isKeyEntry_iff, and_assoc]

theorem checks_withdrawQuestion (q : Nat) : ChecksAre (withdrawQuestionChecks q b b1)
    [b.toNat < 8, 1 ≤ b1.toNat ∧ b1.toNat ≤ q] := by
  simp [ChecksAre, withdrawQuestionChecks, isEighth]

theorem checks_readKey (l : List Question) : ChecksAre (readKeyChecks l.length b b1 b2) [b.toNat < 8, 1 ≤ b1.toNat,
    1 ≤ b2.toNat ∧ b2.toNat ≤ 40 ∧ (l = [] ∨ b1.toNat + b2.toNat - 1 ≤ l.length)] := by
  simp [ChecksAre, readKeyChecks, isEighth, and_assoc]

theorem ansReadKey_eq (s : State) : ansReadKey b b1 b2 s =
    withArgs (readKeyChecks (s.key b.toNat).questions.length b b1 b2) (fun t => (t, ok (.key (s.key b.toNat).state
      (s.key b.toNat).form (s.key b.toNat).questions.length (s.key b.toNat).penalty (s.key b.toNat).maxScore
      (((s.key b.toNat).questions.drop (b1.toNat - 1)).take b2.toNat)))) s := rfl

theorem checks_startBatch : ChecksAre (startBatchChecks b b2 b3)
    [b.toNat < 8, True, b2.toNat < 64, b3.toNat < 64 ∧ b2.toNat ≤ b3.toNat] := by
  simp [ChecksAre, startBatchChecks, isSitting, isStoreSlot]

end

/-- Settles O19: each request by its list of checks. -/
theorem firstArgumentOutOfRange : Obligations.FirstArgumentOutOfRange := by
  unfold Obligations.FirstArgumentOutOfRange
  refine ⟨fun h h' b b1 b2 b3 es s hl => ?first, fun h h' h2 h3 w b b1 b2 b3 b4 b5 paper list es s hl => ?named,
    isPaper_iff, fun b => ?codes, stepLeads_iff⟩
  case codes =>
    obtain ⟨hlink, hstride, hsource, hsync, hscript, hscope⟩ := codes_eq b
    exact ⟨hlink, hstride, hsource, hsync, hscript, hscope, fun n => getLsbD_attrsOf b⟩
  case first =>
    refine ⟨fun hseat => ?seat, fun hslot => ?slot, fun heighth => ?eighth, fun heighth hall => ?sittings,
      fun hlink hall => ?links, fun hlink => ?link, fun hcall => ?call, fun hchannel => ?channel, fun hstore => ?store,
      fun hscope => ?scope, fun hcount => ?count⟩
    case seat =>
      have bad : isSeat h = false := decide_eq_false (by omega)
      and_intros <;> exact answerTo_firstArgument hl rfl bad
    case slot =>
      have bad : isSlot h = false := decide_eq_false (by omega)
      and_intros <;> exact answerTo_firstArgument hl rfl bad
    case eighth =>
      have bad : isEighth b = false := decide_eq_false (by omega)
      have readKey : exec (.readKey b b1 b2) s = s.toHunt.replied 0x2F (badArgument 1) :=
        answerTo_firstArgument hl (ansReadKey_eq b b1 b2 _) bad
      refine ⟨?_, ?_, ?_, ?_, ?_, ?_, ?_, ?_, ?_, ?_, ?_, ?_, readKey, ?_, ?_⟩
      all_goals exact answerTo_firstArgument hl rfl bad
    case sittings =>
      have bad : isSittingOrAll b = false := by simp [isSittingOrAll, isSitting, hall, heighth]
      and_intros <;> exact answerTo_firstArgument hl rfl bad
    case links =>
      have bad : isLinkOrAll b = false := by simp [isLinkOrAll, hall, not_isSome_linkOf hlink]
      and_intros <;> exact answerTo_firstArgument hl rfl bad
    case link => exact answerTo_firstArgument hl rfl (not_isSome_linkOf hlink)
    case call => exact answerTo_firstArgument hl rfl (decide_eq_false (by omega))
    case channel =>
      have bad : isChannel b = false := decide_eq_false (by omega)
      exact ⟨answerTo_firstArgument hl rfl bad, answerTo_firstArgument hl rfl bad,
        fun hall => answerTo_firstArgument hl rfl (by simp [bad, hall])⟩
    case store =>
      have bad : isStoreSlot b = false := decide_eq_false (by omega)
      exact ⟨answerTo_firstArgument hl rfl bad, answerTo_firstArgument hl rfl (by simp [bad]),
        answerTo_firstArgument hl rfl bad⟩
    case scope =>
      obtain ⟨-, -, -, -, -, hscopes, -⟩ := isSome_code b
      exact answerTo_firstArgument hl rfl (Bool.eq_false_iff.mpr (mt hscopes.mp (by omega)))
    case count =>
      have bad : (decide (1 ≤ b.toNat) && decide (b.toNat ≤ 32)) = false := by
        simp only [Bool.and_eq_false_iff, decide_eq_false_iff_not]
        omega
      exact answerTo_firstArgument hl rfl bad
  case named =>
    refine ⟨answerTo_named hl rfl (checks_defineSeats h h' b b1 b2), answerTo_named hl rfl ?readSeat,
      answerTo_named hl rfl ?setRoute, answerTo_named hl rfl ?clearRoute, answerTo_named hl rfl ?allocate,
      answerTo_named hl rfl ?allocateRun, answerTo_named hl rfl ?move, answerTo_named hl rfl (checks_readCandidate h w b),
      answerTo_named hl rfl (checks_readLink h b b1), answerTo_named hl rfl (checks_setTimebase h b b1 b2 _ rfl),
      answerTo_named hl rfl ?setHallTime,
      answerTo_named hl rfl (checks_defineSitting h h' h2 h3 b b1 b2 b3 b4 b5 paper list),
      answerTo_named hl rfl ?startSitting, answerTo_named hl rfl ?readMarks,
      answerTo_named hl rfl (checks_startSweep h h' b b1 b2), answerTo_named hl rfl ?readScripts,
      answerTo_named hl rfl (checks_keyBegin b b1 b2 b3), answerTo_named hl rfl (checks_keyPart b b1 es _),
      answerTo_named hl rfl (checks_withdrawQuestion b b1 _),
      answerTo_named hl (ansReadKey_eq b b1 b2 _) (checks_readKey b b1 b2 _),
      answerTo_named hl rfl (checks_startBatch b b2 b3), answerTo_named hl rfl ?resolveDuplicate⟩
    case setRoute => simp [ChecksAre, isEighth, isOverflow_iff]
    case allocate => exact ⟨by simp [isNumber], fun _ => checks_entry b b1 b2 b3⟩
    case allocateRun => exact ⟨by simp [isNumber], fun _ => ⟨by simp [and_assoc], fun _ => checks_entry b1 b2 b3 b4⟩⟩
    case startSitting => simp [ChecksAre, isSitting, isStartTime, isAbsentTime, timeOf, HallTime.valid_iff, and_assoc]
    case readMarks => simp [ChecksAre, isSitting]
    case resolveDuplicate => simp [ChecksAre, isStoreSlot, isSome_code]
    all_goals simp [ChecksAre, isSeat, isSlot, and_assoc]

end Sys2Proof.Machine
end

