-- ==== Sys2Proof/Proofs/CommandQueue.lean ====
section
/-!
PROOFS. The queue of commands waiting for the part (log 1): a step takes the command at its front, and no block's answer to a
request touches it.
-/

namespace Sys2Proof.Machine

/-! ### A step and the front of the queue (log 1) -/

theorem step_of_empty {s : State} (h : s.pending = []) : step s = .next s := by
  unfold step
  rw [h]

theorem step_of_cons {s : State} {c : Instr} {rest : List Instr} (h : s.pending = c :: rest) :
    step s = exec c { s with pending := rest } := by
  unfold step
  rw [h]

/-- Settles O1: taken from the front of the queue, the command leaves the state it was put before. -/
theorem stepTakesFrontCommand : Obligations.StepTakesFrontCommand := fun _ _ => step_of_cons rfl

/-! ### All of the part but its queue of commands -/

/-- The parts of the state a command may change. -/
def workingParts : List Part :=
  [.replies, .overruns, .discarded, .receiver, .lineHeld, .sending, .resetTaken, .resetDue, .hrdy, .rate1, .rate0,
    .params, .resets, .notices, .noticesLost, .exceptionsLost, .syncLost, .resetSeen, .seats, .cands, .routes, .queue,
    .retryDue, .relocations, .timebase, .secondCount, .hall, .syncTimer, .sinceEdge, .lastEdge, .syncLostDue,
    .sittings, .links, .seatUnits, .floorUnits, .calls, .handsets, .channels, .exceptions, .rrdy, .assembler, .parked,
    .verdicts, .verdictSending, .lastFault, .counts, .keys, .store, .batch]

@[simp] theorem mem_workingParts (p : Part) : p ∈ workingParts ↔ p ≠ .pending := by
  cases p <;> decide

/-- To change no more than these parts is to leave the queue alone. -/
theorem only_workingParts_iff {s t : State} : Only workingParts s t ↔ t.pending = s.pending := by
  refine ⟨fun h => h.same .pending, fun h p hp => ?_⟩
  obtain rfl : p = .pending := by simpa using hp
  exact h

section
variable {s t : State}

/-- The blocks written again, over the queue of `t`. -/
@[simp] theorem only_blocks (cli : Cli) (htu : Htu) (sal : Sal) (tme : Tme) (ulc : Ulc) (cdp : Cdp) (scu : Scu) (srp : Srp)
    (mke : Mke) : Only workingParts s ⟨cli, htu, sal, tme, ulc, cdp, scu, srp, mke, t.pending⟩ ↔ Only workingParts s t := by
  simp only [only_workingParts_iff]

@[simp] theorem only_ite (l : List Part) (c : Prop) [Decidable c] (a b : State) :
    Only l s (if c then a else b) ↔ if c then Only l s a else Only l s b :=
  Iff.of_eq (apply_ite (Only l s) c a b)

@[simp] theorem only_fst_ite (l : List Part) (c : Prop) [Decidable c] (a b : State × Answer) :
    Only l s (if c then a else b).1 ↔ if c then Only l s a.1 else Only l s b.1 :=
  Iff.of_eq (apply_ite (fun r : State × Answer => Only l s r.1) c a b)

end

/-! ### The answers to the requests -/

/-- A block's answer to a request leaves the queue of commands alone. -/
def LeavesCommands (handle : State → State × Answer) : Prop := ∀ s : State, Only workingParts s (handle s).1

/-- Arguments checked against the state itself. -/
theorem only_withArgs {l : List Part} {checks : List Bool} {take : State → State × Answer} {s : State}
    (h : Only l s (take s).1) : Only l s (withArgs checks take s).1 := by
  unfold withArgs
  split
  · exact Only.refl l s
  · exact h

theorem leavesCommands_withArgs {checks : List Bool} {take : State → State × Answer} (h : LeavesCommands take) :
    LeavesCommands (withArgs checks take) := fun s => only_withArgs (h s)

theorem leavesCommands_read {answer : State → Answer} : LeavesCommands (fun s => (s, answer s)) := fun s =>
  Only.refl _ s

/-! ### The hall tables (chapter 1) -/

theorem leavesCommands_defineSeats (first last : Half) (kind zone attrs : Byte) :
    LeavesCommands (ansDefineSeats first last kind zone attrs) :=
  leavesCommands_withArgs fun s => by
    dsimp only
    split <;> simp [only_forEach]

theorem leavesCommands_holdSeat (seat : Half) : LeavesCommands (ansHoldSeat seat) :=
  leavesCommands_withArgs fun s => by simp

theorem leavesCommands_freeSeat (seat : Half) : LeavesCommands (ansFreeSeat seat) :=
  leavesCommands_withArgs fun s => by simp

theorem leavesCommands_repairSeat (seat : Half) : LeavesCommands (ansRepairSeat seat) :=
  leavesCommands_withArgs fun s => by split <;> simp

@[simp] theorem only_withdrawAs (s t : State) (c : Nat) (x : Candidate) :
    Only workingParts s (t.withdrawAs c x).1 ↔ Only workingParts s t := by
  unfold State.withdrawAs
  split <;> simp

theorem leavesCommands_withdraw (slot : Half) : LeavesCommands (ansWithdraw slot) :=
  leavesCommands_withArgs fun s => by split <;> simp

theorem leavesCommands_readCandidate (slot : Half) (number : Word) (sitting : Byte) :
    LeavesCommands (ansReadCandidate slot number sitting) :=
  leavesCommands_withArgs fun s => by
    split
    · simp
    · split <;> simp

/-! ### Seat allocation (chapter 2) -/

theorem leavesCommands_setRoute (paper : Paper) (home : Byte) (overflow : List Byte) :
    LeavesCommands (ansSetRoute paper home overflow) :=
  leavesCommands_withArgs fun s => by split <;> simp

theorem leavesCommands_clearRoute (paper : Paper) : LeavesCommands (ansClearRoute paper) :=
  leavesCommands_withArgs fun s => by simp

/-- A candidate created joins a table and, it may be, the waiting queue. -/
theorem only_createCandidate {s t u : State} {number c : Nat} {e : Entry} {p : Placement}
    (hu : t.createCandidate number e = .ok (u, c, p)) : Only workingParts s u ↔ Only workingParts s t := by
  unfold State.createCandidate at hu
  split at hu
  · exact nomatch hu
  · split at hu
    · exact nomatch hu
    · split at hu
      · exact nomatch hu
      · dsimp only at hu
        split at hu
        · obtain ⟨rfl, -⟩ := Prod.mk.inj (Except.ok.inj hu)
          simp
        · split at hu
          · obtain ⟨rfl, -⟩ := Prod.mk.inj (Except.ok.inj hu)
            simp
          · exact nomatch hu

theorem only_createRun (e : Entry) (n number : Nat) (s t : State) :
    Only workingParts s (State.createRun e n number t).1 ↔ Only workingParts s t := by
  induction n generalizing number t with
  | zero => rfl
  | succ n ih =>
    unfold State.createRun
    split
    · rfl
    · next hu => exact (ih _ _).trans (only_createCandidate hu)

theorem leavesCommands_allocate (number : Word) (sitting needs allowance rest : Byte) :
    LeavesCommands (ansAllocate number sitting needs allowance rest) :=
  leavesCommands_withArgs fun s => by
    split
    · simp
    · next hu => simp [only_createCandidate hu]

theorem leavesCommands_allocateRun (base : Word) (count sitting needs allowance rest : Byte) :
    LeavesCommands (ansAllocateRun base count sitting needs allowance rest) :=
  leavesCommands_withArgs fun s => by simp [only_createRun]

theorem leavesCommands_move (slot seat : Half) : LeavesCommands (ansMove slot seat) :=
  leavesCommands_withArgs fun s => by split <;> simp

/-! ### The timebase and the sittings (chapters 3 and 4) -/

theorem leavesCommands_setTimebase (source : Byte) (frequency : Half) (prescale syncMode : Byte) :
    LeavesCommands (ansSetTimebase source frequency prescale syncMode) :=
  leavesCommands_withArgs fun s => by split <;> simp

theorem leavesCommands_setHallTime (hour minute second : Byte) : LeavesCommands (ansSetHallTime hour minute second) :=
  leavesCommands_withArgs fun s => by simp

theorem leavesCommands_defineSitting (sitting : Byte) (paper : Paper) (reading : Byte)
    (writing cutoff opening closing : Half) (warnings : List Byte) (quiet threshold scriptKind keyId : Byte) :
    LeavesCommands (ansDefineSitting sitting paper reading writing cutoff opening closing warnings quiet threshold
      scriptKind keyId) :=
  leavesCommands_withArgs fun s => by
    unfold State.defineSitting
    split <;> simp

theorem leavesCommands_startSitting (sitting hour minute second : Byte) :
    LeavesCommands (ansStartSitting sitting hour minute second) :=
  leavesCommands_withArgs fun s => by simp [State.armSitting]

theorem leavesCommands_cancelStart (sitting : Byte) : LeavesCommands (ansCancelStart sitting) :=
  leavesCommands_withArgs fun s => by simp

theorem leavesCommands_holdSitting (sitting : Byte) : LeavesCommands (ansHoldSitting sitting) :=
  leavesCommands_withArgs fun s => by
    split
    · simp
    · exact (only_forEach (fun k t => by simp [State.holdOne]) _ s s).mpr (Only.refl _ s)

theorem leavesCommands_resumeSitting (sitting : Byte) : LeavesCommands (ansResumeSitting sitting) :=
  leavesCommands_withArgs fun s => by
    split
    · simp
    · exact (only_forEach (fun k t => by simp [State.resumeOne]) _ s s).mpr (Only.refl _ s)

@[simp] theorem only_closeSitting (s t : State) (k : Nat) :
    Only workingParts s (t.closeSitting k).1 ↔ Only workingParts s t := by
  simp [State.closeSitting]

theorem leavesCommands_closeSitting (sitting : Byte) : LeavesCommands (ansCloseSitting sitting) :=
  leavesCommands_withArgs fun s => by simp

theorem leavesCommands_forceClose (sitting : Byte) : LeavesCommands (ansForceClose sitting) :=
  leavesCommands_withArgs fun s => by simp [only_forEach]

theorem leavesCommands_clearSitting (sitting : Byte) : LeavesCommands (ansClearSitting sitting) :=
  leavesCommands_withArgs fun s => by simp

theorem leavesCommands_leave (slot : Half) : LeavesCommands (ansLeave slot) :=
  leavesCommands_withArgs fun s => by
    split
    · simp
    · split <;> simp [State.takeLeave]

/-! ### Links, calls and collection (chapters 5 to 7) -/

theorem leavesCommands_startLink (link : Byte) : LeavesCommands (ansStartLink link) :=
  leavesCommands_withArgs fun s => by split <;> simp [only_forEach]

theorem leavesCommands_stopLink (link : Byte) : LeavesCommands (ansStopLink link) :=
  leavesCommands_withArgs fun s => by split <;> simp [only_forEach]

theorem leavesCommands_raiseAlert (seat : Half) : LeavesCommands (ansRaiseAlert seat) :=
  leavesCommands_withArgs fun s => by simp

theorem leavesCommands_setHandsetZones (handset zones : Byte) : LeavesCommands (ansSetHandsetZones handset zones) :=
  leavesCommands_withArgs fun s => by simp

theorem leavesCommands_cancelCall (call : Byte) : LeavesCommands (ansCancelCall call) :=
  leavesCommands_withArgs fun s => by split <;> simp

theorem leavesCommands_issueBooklet (slot : Half) : LeavesCommands (ansIssueBooklet slot) :=
  leavesCommands_withArgs fun s => by split <;> simp

theorem leavesCommands_takeExceptions (count : Byte) : LeavesCommands (ansTakeExceptions count) :=
  leavesCommands_withArgs fun s => by simp

theorem leavesCommands_startSweep (channel mode : Byte) (start finish : Half) (stride : Byte) :
    LeavesCommands (ansStartSweep channel mode start finish stride) :=
  leavesCommands_withArgs fun s => by simp [State.startSweep]

theorem leavesCommands_stopSweep (channel : Byte) : LeavesCommands (ansStopSweep channel) :=
  leavesCommands_withArgs fun s => by simp

/-! ### Marking (chapter 9) -/

theorem leavesCommands_keyBegin (key form questions penalty : Byte) :
    LeavesCommands (ansKeyBegin key form questions penalty) :=
  leavesCommands_withArgs fun s => by simp

theorem leavesCommands_keyPart (key first : Byte) (entries : List KeyEntry) :
    LeavesCommands (ansKeyPart key first entries) :=
  fun _ => only_withArgs (by simp)

theorem leavesCommands_keyEnd (key : Byte) : LeavesCommands (ansKeyEnd key) :=
  leavesCommands_withArgs fun s => by
    dsimp only
    split
    · simp
    · split
      · simp
      · split <;> simp

theorem leavesCommands_withdrawQuestion (key question : Byte) : LeavesCommands (ansWithdrawQuestion key question) :=
  fun _ => only_withArgs (by simp)

theorem leavesCommands_readKey (key first count : Byte) : LeavesCommands (ansReadKey key first count) :=
  fun s => only_withArgs (take := fun t => (t, _)) (Only.refl _ s)

theorem leavesCommands_startBatch (sitting count segStart segEnd : Byte) :
    LeavesCommands (ansStartBatch sitting count segStart segEnd) :=
  leavesCommands_withArgs fun s => by
    dsimp only
    split
    · simp
    · split
      · simp
      · split <;> simp

theorem leavesCommands_continueBatch : LeavesCommands ansContinueBatch := fun s => by simp [ansContinueBatch]

theorem leavesCommands_extendSegment (segEnd : Byte) : LeavesCommands (ansExtendSegment segEnd) :=
  fun _ => only_withArgs (by simp)

theorem leavesCommands_releaseSlots (stores : List Byte) : LeavesCommands (ansReleaseSlots stores) :=
  leavesCommands_withArgs fun s => by simp

theorem leavesCommands_abortBatch : LeavesCommands ansAbortBatch := fun s => by simp [ansAbortBatch]

theorem leavesCommands_resolveDuplicate (store action : Byte) : LeavesCommands (ansResolveDuplicate store action) :=
  leavesCommands_withArgs fun s => by
    split
    · simp
    · split
      · simp
      · split
        · unfold State.tryAdopt
          split <;> simp
        · simp

/-- Remarking writes results, to the store and to the candidates. -/
theorem only_remarkSlot (key : Key) (i : Nat) (r : State × Nat × Nat × Nat) :
    Only workingParts r.1 (State.remarkSlot key i r).1 := by
  unfold State.remarkSlot
  split
  · simp
  · split
    · simp
    · split
      · simp
      · split
        · simp
        · dsimp only
          split <;> simp

theorem leavesCommands_remark (sitting : Byte) : LeavesCommands (ansRemark sitting) :=
  leavesCommands_withArgs fun s => by
    split
    · simp
    · split
      · simp
      · split
        · simp
        · exact only_foldl (fun r i => only_remarkSlot _ i r) _ (s, 0, 0, 0)

/-! ### The control link's own requests (chapter 10) -/

theorem leavesCommands_setParam (param : Byte) (value : Word) : LeavesCommands (ansSetParam param value) :=
  fun _ => only_withArgs (by split <;> simp [State.applyParams])

theorem leavesCommands_reset (scope : Byte) : LeavesCommands (ansReset scope) :=
  leavesCommands_withArgs fun s => by simp

end Sys2Proof.Machine
end

