-- ==== Sys2Proof/Proofs/Completion.lean ====
section
/-!
PROOFS. Every command ends in a next state and leaves the queue of commands alone (00_scope: no command stops the part): the
request rows, the frames of the control link, the resets and the events.
-/

namespace Sys2Proof.Machine

/-! ### Request rows and the frames of the control link (10.1) -/

/-- A frame not received, discarded, or taken. -/
theorem only_onFrame {take : State → State} (h : ∀ t : State, Only workingParts t (take t)) (s : State) :
    Only workingParts s (s.onFrame take) := by
  unfold State.onFrame
  split
  · simp
  · split
    · simp
    · exact Only.trans (by simp) (h _)

theorem only_requestThen {handle : State → State × Answer} {after : State → State} (kind : Byte)
    (hhandle : LeavesCommands handle) (hafter : ∀ t : State, Only workingParts t (after t)) (s : State) :
    Only workingParts s (s.requestThen kind handle after) :=
  only_onFrame (fun t => Only.trans (by simpa using hhandle t) (hafter _)) s

theorem only_request {handle : State → State × Answer} (kind : Byte) (h : LeavesCommands handle) (s : State) :
    Only workingParts s (s.request kind handle) :=
  only_requestThen kind h (fun t => Only.refl _ t) s

theorem only_readArgs (kind : Byte) (checks : List Bool) (answer : State → Answer) (s : State) :
    Only workingParts s (s.request kind (withArgs checks (fun t => (t, answer t)))) :=
  only_request kind (leavesCommands_withArgs leavesCommands_read) s

theorem only_read (kind : Byte) (answer : State → Answer) (s : State) :
    Only workingParts s (s.request kind (fun t => (t, answer t))) :=
  only_request kind leavesCommands_read s

theorem only_runRequest (i : Instr) (s : State) : Only workingParts s (s.runRequest i) := by
  cases i with
  | defineSeats => exact only_request _ (leavesCommands_defineSeats _ _ _ _ _) s
  | holdSeat => exact only_request _ (leavesCommands_holdSeat _) s
  | freeSeat => exact only_request _ (leavesCommands_freeSeat _) s
  | repairSeat => exact only_request _ (leavesCommands_repairSeat _) s
  | readSeat => exact only_readArgs _ _ _ s
  | withdraw => exact only_request _ (leavesCommands_withdraw _) s
  | readCandidate => exact only_request _ (leavesCommands_readCandidate _ _ _) s
  | setRoute => exact only_request _ (leavesCommands_setRoute _ _ _) s
  | clearRoute => exact only_request _ (leavesCommands_clearRoute _) s
  | readRoutes => exact only_read _ _ s
  | allocate => exact only_request _ (leavesCommands_allocate _ _ _ _ _) s
  | allocateRun => exact only_request _ (leavesCommands_allocateRun _ _ _ _ _ _) s
  | readQueue => exact only_read _ _ s
  | move => exact only_request _ (leavesCommands_move _ _) s
  | setTimebase => exact only_request _ (leavesCommands_setTimebase _ _ _ _) s
  | setHallTime => exact only_request _ (leavesCommands_setHallTime _ _ _) s
  | readClock => exact only_read _ _ s
  | defineSitting => exact only_request _ (leavesCommands_defineSitting _ _ _ _ _ _ _ _ _ _ _ _) s
  | startSitting => exact only_request _ (leavesCommands_startSitting _ _ _ _) s
  | cancelStart => exact only_request _ (leavesCommands_cancelStart _) s
  | holdSitting => exact only_request _ (leavesCommands_holdSitting _) s
  | resumeSitting => exact only_request _ (leavesCommands_resumeSitting _) s
  | closeSitting => exact only_request _ (leavesCommands_closeSitting _) s
  | forceClose => exact only_request _ (leavesCommands_forceClose _) s
  | clearSitting => exact only_request _ (leavesCommands_clearSitting _) s
  | readSitting => exact only_readArgs _ _ _ s
  | leave => exact only_request _ (leavesCommands_leave _) s
  | readMarks => exact only_readArgs _ _ _ s
  | startLink => exact only_request _ (leavesCommands_startLink _) s
  | stopLink => exact only_request _ (leavesCommands_stopLink _) s
  | readLink => exact only_readArgs _ _ _ s
  | raiseAlert => exact only_request _ (leavesCommands_raiseAlert _) s
  | setHandsetZones => exact only_request _ (leavesCommands_setHandsetZones _ _) s
  | cancelCall => exact only_request _ (leavesCommands_cancelCall _) s
  | readCalls => exact only_read _ _ s
  | issueBooklet => exact only_request _ (leavesCommands_issueBooklet _) s
  | takeExceptions => exact only_request _ (leavesCommands_takeExceptions _) s
  | startSweep => exact only_request _ (leavesCommands_startSweep _ _ _ _ _) s
  | stopSweep => exact only_request _ (leavesCommands_stopSweep _) s
  | readScripts => exact only_readArgs _ _ _ s
  | readSweep => exact only_readArgs _ _ _ s
  | readReader => exact only_read _ _ s
  | keyBegin => exact only_request _ (leavesCommands_keyBegin _ _ _ _) s
  | keyPart => exact only_request _ (leavesCommands_keyPart _ _ _) s
  | keyEnd => exact only_request _ (leavesCommands_keyEnd _) s
  | withdrawQuestion => exact only_request _ (leavesCommands_withdrawQuestion _ _) s
  | readKey => exact only_request _ (leavesCommands_readKey _ _ _) s
  | readSheet => exact only_readArgs _ _ _ s
  | readBatch => exact only_read _ _ s
  | startBatch => exact only_request _ (leavesCommands_startBatch _ _ _ _) s
  | continueBatch => exact only_request _ leavesCommands_continueBatch s
  | extendSegment => exact only_request _ (leavesCommands_extendSegment _) s
  | releaseSlots => exact only_request _ (leavesCommands_releaseSlots _) s
  | abortBatch => exact only_request _ leavesCommands_abortBatch s
  | resolveDuplicate => exact only_request _ (leavesCommands_resolveDuplicate _ _) s
  | remark => exact only_request _ (leavesCommands_remark _) s
  | setParam => exact only_request _ (leavesCommands_setParam _ _) s
  | getParam => exact only_readArgs _ _ _ s
  | identify => exact only_read _ _ s
  | readStatus => exact only_requestThen _ leavesCommands_read (fun t => by simp) s
  | reset => exact only_request _ (leavesCommands_reset _) s
  | _ => exact Only.refl _ s

theorem only_takeFrame (kind : Byte) (body : List Byte) (s : State) : Only workingParts s (s.takeFrame kind body) := by
  refine only_onFrame (fun t => ?_) s
  unfold State.takeRequest
  split
  · simp
  · split
    · simp
    · split
      · simp
      · exact only_runRequest _ t

@[simp] theorem only_badFrame (s t : State) (ending : BadEnding) :
    Only workingParts s (t.badFrame ending) ↔ Only workingParts s t := only_blocks ..

theorem only_receiveData (b : Byte) (s : State) : Only workingParts s (s.receiveData b) := by
  unfold State.receiveData
  split
  case h_7 =>
    unfold State.endFrame
    split
    · exact only_takeFrame _ _ s
    · simp
  all_goals simp

theorem only_receiveByte (b : RxByte) (s : State) : Only workingParts s (State.receiveByte b s) := by
  unfold State.receiveByte
  split
  · simp
  · split
    · unfold State.receiveFraming
      split <;> simp
    · exact only_receiveData _ s

theorem only_frameSent (f : OutFrame) (s : State) : Only workingParts s (s.frameSent f) := by
  cases f with
  | reply r =>
    rw [frameSent_reply]
    exact only_workingParts_iff.mpr rfl
  | badFrame | overrun | notice => exact only_workingParts_iff.mpr rfl

/-! ### The resets (R184 to R186) -/

@[simp] theorem only_resetHallPorts (s t : State) : Only workingParts s t.resetHallPorts ↔ Only workingParts s t := by
  simp [State.resetHallPorts]

@[simp] theorem only_resetControl (s t : State) (cause : ResetCause) :
    Only workingParts s (t.resetControl cause) ↔ Only workingParts s t := by
  simp [State.resetControl]

@[simp] theorem only_clearHall (s t : State) : Only workingParts s t.clearHall ↔ Only workingParts s t := only_blocks ..

/-! ### Time, and a point within a second (chapter 3) -/

@[simp] theorem only_tickHall (s t : State) : Only workingParts s t.tickHall ↔ Only workingParts s t := by
  simp [State.tickHall]

@[simp] theorem only_tickSittings (s t : State) : Only workingParts s t.tickSittings ↔ Only workingParts s t :=
  only_blocks ..

@[simp] theorem only_tickSync (s t : State) : Only workingParts s t.tickSync ↔ Only workingParts s t := by
  simp [State.tickSync]

@[simp] theorem only_tickCalls (s t : State) : Only workingParts s t.tickCalls ↔ Only workingParts s t :=
  only_blocks ..

@[simp] theorem only_noteEdge (s t : State) : Only workingParts s t.noteEdge ↔ Only workingParts s t := only_blocks ..

@[simp] theorem only_correctToMinute (s t : State) : Only workingParts s t.correctToMinute ↔ Only workingParts s t := by
  simp [State.correctToMinute]

theorem only_atPoint {take : State → State} (k : Nat) (reached : Sitting → Bool) {s : State}
    (h : Only workingParts s (take s)) : Only workingParts s (s.atPoint k reached take) := by
  simp [State.atPoint, h]

theorem only_fireFor (slot : Nat) (kind : MarkKind → Bool) (s : State) : Only workingParts s (s.fireFor slot kind) := by
  unfold State.fireFor
  split
  · simp
  · exact only_atPoint _ _ (by simp)

/-- A unit's reply ends its poll, and is then taken (R83). -/
theorem only_onReply {α : Type} (l : LinkName) (frame : List Byte) (read : Nat → List Byte → Option α)
    (echo : α → Byte) {take : Nat → α → State → State} (h : ∀ a r t, Only workingParts t (take a r t)) (s : State) :
    Only workingParts s (s.onReply l frame read echo take) := by
  unfold State.onReply
  split
  · split
    · simp
    · exact Only.trans (by simp) (h _ _ _)
  · simp

/-! ### The outcome of a row -/

/-- A command taken in `s` ends in a next state, with the queue of commands as it was. -/
def EndsFrom (s : State) (o : Outcome) : Prop := ∃ t, o = .next t ∧ t.pending = s.pending

@[simp] theorem endsFrom_done (s t : State) : EndsFrom s (done t) ↔ Only workingParts s t := by
  have hsettle : t.settle.pending = t.pending := (settle_only t).same .pending
  simp [EndsFrom, done, hsettle, only_workingParts_iff]

@[simp] theorem endsFrom_ite (s : State) (c : Prop) [Decidable c] (a b : Outcome) :
    EndsFrom s (if c then a else b) ↔ if c then EndsFrom s a else EndsFrom s b :=
  Iff.of_eq (apply_ite (EndsFrom s) c a b)

/-- A row that is no request ends. -/
theorem endsFrom_event {i : Instr} (hi : encodeRequest i = none) (s : State) : EndsFrom s (exec i s) := by
  have ends {t : State} (h : Only workingParts s t) : EndsFrom s (done t) := (endsFrom_done s t).mpr h
  cases i with
  | resetPorts => simp [exec, execResetPorts, State.actPorts]
  | resetHall => simp [exec, execResetHall, State.actHall]
  | powerOn rate1 rate0 => simp [exec, execPowerOn]
  | linkReset => simp [exec, execLinkReset, State.actLinkReset]
  | lineIdleReturn => simp [exec, execLineIdleReturn]
  | badFrame run =>
    exact ends ((only_takeRun (by simp) (by simp) only_receiveByte run s s).mpr (Only.refl _ s))
  | receiveGapTimeout =>
    dsimp only [exec, execReceiveGapTimeout]
    split <;> simp
  | unknownKind kind body => exact ends (only_takeFrame kind body s)
  | overrun kind body => exact ends (only_takeFrame kind body s)
  | hrdyChange level => simp [exec, execHrdyChange]
  | frameSent =>
    dsimp only [exec, execFrameSent]
    split
    · exact ends (only_frameSent _ s)
    · simp
  | timebaseSecond => simp [exec, execTimebaseSecond]
  | syncEdge => simp [exec, execSyncEdge]
  | syncLost => simp [exec, execSyncLost]
  | scheduledStart k => simp [exec, execScheduledStart]
  | sittingSecond k => simp [exec, execSittingSecond]
  | readingCompare k => exact ends (only_atPoint _ _ (by simp))
  | sittingWarning k => exact ends (only_atPoint _ _ (by simp))
  | lateCutoff k => exact ends (only_atPoint _ _ (by simp))
  | writingCompare k => exact ends (only_atPoint _ _ (by simp))
  | warnFiring c => exact ends (only_fireFor _ _ s)
  | endFiring c => exact ends (only_fireFor _ _ s)
  | restExpiry c => exact ends (only_fireFor _ _ s)
  | escalation n => simp [exec, execEscalation]
  | handsetAway n => simp [exec, execHandsetAway]
  | retryPass =>
    dsimp only [exec, execRetryPass]
    split <;> simp
  | relocation =>
    dsimp only [exec, execRelocation]
    split <;> simp
  | pollCycleStart l => simp [exec, execPollCycleStart]
  | pollFrame l => simp [exec, execPollFrame]
  | pollTimeout l =>
    dsimp only [exec, execPollTimeout]
    split <;> simp
  | seatReply l frame => exact ends (only_onReply _ _ _ _ (by simp) s)
  | handsetReply frame => exact ends (only_onReply _ _ _ _ (by simp) s)
  | stationReply frame => exact ends (only_onReply _ _ _ _ (by simp) s)
  | wallClockReply frame => exact ends (only_onReply _ _ _ _ (by simp) s)
  | lateUnitReply l frame => exact ends (Only.refl _ s)
  | pollCycleEnd l => simp [exec, execPollCycleEnd]
  | timeCodeBroadcast l => simp [exec, execTimeCodeBroadcast]
  | timeCodeRepeat l => simp [exec, execTimeCodeRepeat]
  | sheetFrameEnd run => simp [exec, execSheetFrameEnd]
  | frameGapTimeout => simp [exec, execFrameGapTimeout]
  | rrdyChange level => simp [exec, execRrdyChange]
  | verdictSent => simp [exec, execVerdictSent]
  | _ => exact nomatch hi

/-- Every command ends, a request when it has been dealt with. -/
theorem endsFrom_exec (i : Instr) (s : State) : EndsFrom s (exec i s) := by
  rcases hi : encodeRequest i with _ | ⟨kind, body⟩
  case none => exact endsFrom_event hi s
  case some =>
    rw [exec_of_encode hi, endsFrom_done]
    exact only_runRequest i s

/-- Settles O2: a request or an event, each ends; with the queue empty there is none to take. -/
theorem stepsNeverStop : Obligations.StepsNeverStop := ⟨endsFrom_exec, fun _ => step_of_empty⟩

end Sys2Proof.Machine
end
